-- ==== Sys2Proof/Word.lean ====
section
/-! DEFINITION. The words of the Cospura HF-2048: bytes on the ring, line numbers, the timebase, image columns. -/

namespace Sys2Proof

/-- A byte of a ring frame (13_frame_and_note_formats.md). -/
abbrev Byte := BitVec 8

/-- A line number, 0..65535, wrapping (R14). -/
abbrev LineNo := BitVec 16

/-- The part's free-running timebase in µs, 32 bits, wrapping (00_scope.md). -/
abbrev Timebase := BitVec 32

/-- One column of a glyph or an image: bit k is row k (R98, R184). -/
abbrev Dots := BitVec 16

end Sys2Proof
end

