-- ==== Sys2Proof/Syntax.lean ====
section
/-! DEFINITION. The steps of the part: one constructor per row of spec/opcode_table.json, with the operands of the row. -/

namespace Sys2Proof

/-- A step of spec/opcode_table.json. `dt` is the time in µs that has passed since the step before (log 3);
`bytes` is a frame as it arrives on the ring input, header to CRC. -/
inductive Instr where
  /-- POWER_ON (R148), with the number the five address straps show (R158). -/
  | powerOn (straps : BitVec 5)
  /-- ENCODER_LEVEL_ESTABLISHED (R2): a sample of A and B that establishes a level. -/
  | encoderLevelEstablished (dt : Nat) (a b : Bool)
  /-- FORWARD_COUNT (R6): a sample of A and B that makes a forward count. -/
  | forwardCount (dt : Nat) (a b : Bool)
  /-- BACKWARD_COUNT (R7): a sample of A and B that makes a backward count. -/
  | backwardCount (dt : Nat) (a b : Bool)
  /-- ENCODER_FAULT (R4): a sample at which both channels change. -/
  | encoderFault (dt : Nat) (a b : Bool)
  /-- STROBE (R14). -/
  | strobe (dt : Nat)
  /-- PULSE_END (R15). -/
  | pulseEnd (dt : Nat)
  /-- LINE_TIMEOUT (R27). -/
  | lineTimeout
  /-- SEG (R23). -/
  | seg (bytes : List Byte)
  /-- HSTAT (R106). -/
  | hstat (bytes : List Byte)
  /-- FORWARDED_FRAME (R162). -/
  | forwardedFrame (bytes : List Byte)
  /-- BAD_FRAME (R159). -/
  | badFrame (bytes : List Byte)
  /-- RETURNED_FRAME (R160). -/
  | returnedFrame (bytes : List Byte)
  /-- KIND_ERR (R161). -/
  | kindErr (bytes : List Byte)
  /-- LINE_HANDOVER (R26): the line and the first of the hides that close on it; each further one of them is handed on by a
  LINE_HANDOVER of its own (R53, R101; log 14). -/
  | lineHandover
  /-- ENGINE_PRIME (R115) of one head. -/
  | enginePrime (head : Fin 8)
  /-- COLUMN_SEND (R116) of one head. -/
  | columnSend (head : Fin 8)
  /-- WAITING_FRAME_HANDED (R165). -/
  | waitingFrameHanded
  /-- APPLY_TAKES_EFFECT (R177). -/
  | applyTakesEffect
  /-- DRAIN_FIRST_STAGE_END (R143). -/
  | drainFirstStageEnd
  /-- DRAIN_SECOND_STAGE_END (R144). -/
  | drainSecondStageEnd
  /-- FINALIZATION (R129). -/
  | finalization
  /-- PENDING_LOT_CLOSE (R133). -/
  | pendingLotClose
  /-- TRANSMISSION_END (R166). -/
  | transmissionEnd (dt : Nat)
  /-- DEFERRED_ANSWER_PLACED (R163). -/
  | deferredAnswerPlaced
  /-- SWITCH_LEVEL_ESTABLISHED (R151). -/
  | switchLevelEstablished (dt : Nat) (asserted : Bool)
  /-- SWITCH_ASSERTED (R151). -/
  | switchAsserted (dt : Nat)
  /-- SWITCH_RELEASED (R154). -/
  | switchReleased (dt : Nat)
  /-- PROGRAMMING_COMPLETION (R153). -/
  | programmingCompletion (dt : Nat)
  /-- STATUS (R179). -/
  | status (bytes : List Byte)
  /-- COUNTERS (R180). -/
  | counters (bytes : List Byte)
  /-- START (R140). -/
  | start (bytes : List Byte)
  /-- STOP (R142). -/
  | stop (bytes : List Byte)
  /-- SOFT_RESET (R146). -/
  | softReset (bytes : List Byte)
  /-- LOAD_BEGIN (R170). -/
  | loadBegin (bytes : List Byte)
  /-- LOAD_DATA (R171). -/
  | loadData (bytes : List Byte)
  /-- LOAD_END (R173). -/
  | loadEnd (bytes : List Byte)
  /-- READ_TABLE (R174). -/
  | readTable (bytes : List Byte)
  /-- APPLY (R175). `midLine`: it comes while the tracker segments the line whose hand-over is due (R175; log 14). -/
  | apply (bytes : List Byte) (midLine : Bool)
  /-- CANCEL_APPLY (R178). -/
  | cancelApply (bytes : List Byte)
  /-- REVERT (R178). -/
  | revert (bytes : List Byte)
  /-- VERIFY_OPEN (R152). -/
  | verifyOpen (bytes : List Byte)
  /-- VERIFY_CLOSE (R154). -/
  | verifyClose (bytes : List Byte)
  /-- VERIFY_STATUS (R157). -/
  | verifyStatus (bytes : List Byte)
  /-- CLOSE_LOT (R132). -/
  | closeLot (bytes : List Byte)
  /-- TEST_MARK (R123). -/
  | testMark (bytes : List Byte)
  /-- UNKNOWN_COMMAND (R168). -/
  | unknownCommand (bytes : List Byte)
  /-- ENCODER_SAMPLE (R1): a sample of A and B without count, fault or establishment. -/
  | encoderSample (dt : Nat) (a b : Bool)
  /-- SWITCH_SAMPLE (R151): a switch sample that leaves the accepted level as it is. -/
  | switchSample (dt : Nat) (asserted : Bool)
  /-- POWER_LOSS_OR_RESET_ASSERTED (R148). -/
  | powerLossOrResetAsserted
  deriving DecidableEq, Repr

end Sys2Proof
end

