-- ==== Sys2Proof/Decode.lean ====
section
/-! DEFINITION. The table's words. No row of spec/opcode_table.json gives any bits: the part takes steps, not words. -/

namespace Sys2Proof

/-- The step that a word of `nbits` bits spells by the bits of spec/opcode_table.json: none, since no row has any. -/
def decodeTableWord (_nbits _w : Nat) : Option Instr := none

end Sys2Proof
end

