-- ==== Sys2Proof/Config.lean ====
section
/-! DEFINITION. What the spec leaves open: opaque constants without a body, so that no proof can rest on a value of
one; and the fixed capacities of the part. -/

namespace Sys2Proof

/-- DESIGN CHOICE (log 6, safe). Whether a channel that is established goes on following its input by R1 while the
other channel is not yet established. R2 says only that the filter works as R1 once both are. -/
opaque Config.loneChannelFollows : Bool

/-- DESIGN CHOICE (log 13, safe). R161 has a broadcast SEG, CMD or HSTAT both taken and forwarded, and does not say
which is done first. -/
opaque Config.forwardBeforeTake : Bool

/-- DESIGN CHOICE (log 19, safe). Whether an engine whose first waiting column is not its last is already PRINTING while
that column waits for room in the marking queue: R165 has the waiting frame not hold back the engine's state, R116 has the
first column *sent* (handed) move it. An engine whose last column waits is PRINTING by R165. -/
opaque Config.waitingColumnPrints : Bool

/-- The forward buffer's places (R162). -/
def Config.forwardPlaces : Nat := 4

/-- The response buffer's places (R163). -/
def Config.responsePlaces : Nat := 4

/-- The marking queue's places (R165). -/
def Config.markingPlaces : Nat := 32

/-- The note queue's entries (R135). -/
def Config.noteEntries : Nat := 24

/-- The reservations a head schedule may hold (R111). -/
def Config.schedulePlaces : Nat := 6

/-- The records of the hide table (R36). -/
def Config.hideRecords : Nat := 48

/-- The records of the gap table (R59). -/
def Config.gapRecords : Nat := 96

/-- The image slots (section 6.7). -/
def Config.imageSlots : Nat := 16

/-- The broadcast address (section 11, frame contents). -/
def Config.broadcast : Nat := 31

end Sys2Proof
end

