-- ==== Sys2Proof/Machine/Operands.lean ====
section
/-! DEFINITION. The operand forms of the part: frames on the ring, their CRC, their fields, and how the receiver routes
them (chapters 11 and 13 of the spec). -/

namespace Sys2Proof.Machine

/-! ## Fields of bytes (R182, R184) -/

/-- The number `v` in `n` bytes, most significant byte first; a number too large loses its high bits (R182). -/
def beBytes : Nat → Nat → List Byte
  | 0, _ => []
  | n + 1, v => BitVec.ofNat 8 (v / 256 ^ n) :: beBytes n v

/-- A signed number in `n` bytes, two's complement (R182). -/
def beInt (n : Nat) (v : Int) : List Byte :=
  beBytes n (v % (256 ^ n : Nat)).toNat

/-- The unsigned number that bytes spell, most significant byte first (R182). -/
def ofBytes (bs : List Byte) : Nat :=
  bs.foldl (fun acc b => acc * 256 + b.toNat) 0

/-- The signed number that bytes spell in two's complement (R182). -/
def ofBytesSigned (bs : List Byte) : Int :=
  let v : Nat := ofBytes bs
  if 256 ^ bs.length ≤ 2 * v then (v : Int) - (256 ^ bs.length : Nat) else v

/-- All ones over `n` bytes: an absent field (R184, R185). -/
def absentBytes (n : Nat) : List Byte := List.replicate n 255

/-- A field that may be absent, in `n` bytes (R184, R185). -/
def beOption (n : Nat) : Option Nat → List Byte
  | none => absentBytes n
  | some v => beBytes n v

/-- A yes-or-no in one byte (R184). -/
def beBool (b : Bool) : List Byte := [if b then 1 else 0]

/-- Bytes cut into fields of the given widths; `none` where the bytes are too few or too many. -/
def splitFields : List Nat → List Byte → Option (List (List Byte))
  | [], [] => some []
  | [], _ :: _ => none
  | w :: ws, bs =>
    if bs.length < w then none
    else (splitFields ws (bs.drop w)).map (bs.take w :: ·)

/-! ## The CRC (R182) -/

/-- One bit's shift of the CRC register: polynomial 0x1021, most significant bit first. -/
def crcShift (r : BitVec 16) : BitVec 16 :=
  if r.msb then (r <<< 1) ^^^ 0x1021#16 else r <<< 1

/-- A byte enters the register, most significant bit first. -/
def crcByte (r : BitVec 16) (b : Byte) : BitVec 16 :=
  Nat.repeat crcShift 8 (r ^^^ (b.setWidth 16 <<< 8))

/-- The CRC over a string of bytes, from 0xFFFF. -/
def crc16 (bs : List Byte) : BitVec 16 := bs.foldl crcByte 0xFFFF#16

/-! ## Frames (R182, R183) -/

/-- A frame's header and payload as they travel: the whole address bytes and the kind byte are kept, so that a forwarded
frame leaves unchanged. The length byte is the payload's length and the CRC follows from the rest (R162, R182). -/
structure Frame where
  dstByte : Byte
  srcByte : Byte
  kind : Byte
  payload : List Byte
  deriving DecidableEq, Repr

/-- The destination: bits 0..4 of its byte (R183). -/
def Frame.dst (f : Frame) : Nat := f.dstByte.toNat % 32

/-- The source: bits 0..4 of its byte (R183). -/
def Frame.src (f : Frame) : Nat := f.srcByte.toNat % 32

/-- The bytes a CRC runs over: header and payload (R182). -/
def Frame.body (f : Frame) : List Byte :=
  f.dstByte :: f.srcByte :: f.kind :: BitVec.ofNat 8 f.payload.length :: f.payload

/-- The frame as it stands on the ring: header, payload, CRC high byte and low byte (R182). -/
def Frame.bytes (f : Frame) : List Byte :=
  f.body ++ beBytes 2 (crc16 f.body).toNat

/-- A frame of the part's own: the upper bits of the address bytes are sent as 0 (R185). -/
def mkFrame (dst src kind : Nat) (payload : List Byte) : Frame :=
  { dstByte := BitVec.ofNat 8 (dst % 32), srcByte := BitVec.ofNat 8 (src % 32), kind := BitVec.ofNat 8 kind, payload }

/-- The receiver's judgement of arriving bytes: the good frame they are, or none for a bad frame, one whose length is
above 72, that ends short, or whose CRC differs (R159, R182). DEDUCED (log 12): bytes beyond the CRC make it bad too. -/
def parseFrame : List Byte → Option Frame
  | d :: s :: k :: l :: rest =>
    if 72 < l.toNat then none
    else if rest.length ≠ l.toNat + 2 then none
    else
      let f : Frame := { dstByte := d, srcByte := s, kind := k, payload := rest.take l.toNat }
      if rest.drop l.toNat = beBytes 2 (crc16 f.body).toNat then some f else none
  | _ => none

/-- The frame kinds (section 13.1). -/
def kindSeg : Nat := 1
def kindCmd : Nat := 2
def kindRsp : Nat := 3
def kindNote : Nat := 4
def kindPrime : Nat := 5
def kindCol : Nat := 6
def kindHstat : Nat := 7

/-- Whether the part takes frames of this kind: SEG, CMD or HSTAT; a CMD whose source is 31 is not taken (R161). -/
def Frame.takeable (f : Frame) : Bool :=
  f.kind.toNat == kindSeg || f.kind.toNat == kindHstat
    || (f.kind.toNat == kindCmd && f.src != Config.broadcast)

/-- Where the receiver sends a good frame (R160, R161, R183). -/
inductive Route where
  /-- the part's own source: removed (R160) -/
  | returned
  /-- taken by a block; a broadcast is forwarded as well (R161) -/
  | taken
  /-- addressed to the part, of a kind it does not take (R161, R183) -/
  | kindErr
  /-- for another node, or a broadcast the part does not take (R161, R183) -/
  | forwardOnly
  deriving DecidableEq, Repr

/-- The receiver's routing of a good frame by source, destination and kind, for a part of address `addr` (R160, R161). -/
def route (addr : Nat) (f : Frame) : Route :=
  if f.src = addr then .returned
  else if f.dst = addr then (if f.takeable then .taken else .kindErr)
  else if f.dst = Config.broadcast then (if f.takeable then .taken else .forwardOnly)
  else .forwardOnly

/-! ## Commands (section 13.3) -/

/-- The 17 command codes of section 13.3. -/
def codeStatus : Nat := 1
def codeCounters : Nat := 2
def codeStart : Nat := 3
def codeStop : Nat := 4
def codeSoftReset : Nat := 5
def codeLoadBegin : Nat := 6
def codeLoadData : Nat := 7
def codeLoadEnd : Nat := 8
def codeReadTable : Nat := 9
def codeApply : Nat := 10
def codeCancelApply : Nat := 11
def codeRevert : Nat := 12
def codeVerifyOpen : Nat := 13
def codeVerifyClose : Nat := 14
def codeVerifyStatus : Nat := 15
def codeCloseLot : Nat := 16
def codeTestMark : Nat := 17

/-- The command kind of a CMD payload; an empty payload has kind 0 (R183). -/
def Frame.command (f : Frame) : Nat :=
  match f.payload with
  | [] => 0
  | k :: _ => k.toNat

/-- The arguments of a CMD payload: what follows the command kind (section 13.3). -/
def Frame.args (f : Frame) : List Byte := f.payload.drop 1

/-- Whether a command kind is one of the 17 of section 13.3. -/
def knownCommand (k : Nat) : Bool := 1 ≤ k && k ≤ 17

/-- The answer statuses (section 13.3), in the order of their codes. -/
inductive Status where
  | ok | okClamped | accepted | busy | state | notConfigured | format | locked | torn | empty | sequence | noload
  | switch | exhausted
  deriving DecidableEq, Repr

/-- The code of a status (section 13.3). -/
def Status.code : Status → Byte
  | .ok => 0 | .okClamped => 1 | .accepted => 2 | .busy => 3 | .state => 4 | .notConfigured => 5 | .format => 6
  | .locked => 7 | .torn => 8 | .empty => 9 | .sequence => 10 | .noload => 11 | .switch => 12 | .exhausted => 13

/-- An answer: its status and its data. -/
structure Answer where
  status : Status
  data : List Byte
  deriving DecidableEq, Repr

/-- A refused answer carries no data (R185). -/
def refusedAnswer (st : Status) : Answer := { status := st, data := [] }

end Sys2Proof.Machine
end

