-- ==== Sys2Proof/Machine/State.lean ====
section
/-! DEFINITION. The state of the part, block by block as 00_scope.md lists the blocks, and the state right after reset. -/

namespace Sys2Proof.Machine

/-! ## Tables (section 12.8) -/

/-- UNIT of CALIB (section 5.1). -/
inductive MeasureUnit where
  | footQuarter | decimetre
  deriving DecidableEq, Repr

/-- ROUND of CALIB (R84). -/
inductive Rounding where
  | down | nearest | up
  deriving DecidableEq, Repr

/-- FILTER_CLK of SCAN: 0.25, 1, 4 or 16 µs. -/
inductive FilterClk where
  | quarter | one | four | sixteen
  deriving DecidableEq, Repr

/-- ENC_DIR of SCAN (R3). -/
inductive EncDir where
  | normal | swapped
  deriving DecidableEq, Repr

/-- ANCHOR_MODE of MARKP (R92). -/
inductive AnchorMode where
  | leading | trailing
  deriving DecidableEq, Repr

/-- JOIN_POLICY of MARKP (R95). -/
inductive JoinPolicy where
  | value | rejectMark | noMark
  deriving DecidableEq, Repr

/-- The PITCH record (R5). -/
structure PitchRec where
  pint : Nat
  pfrac : Nat
  pmod : Nat
  paux : Nat
  deriving DecidableEq, Repr

/-- The CALIB record (section 5.1, section 4.1). -/
structure CalibRec where
  unit : MeasureUnit
  round : Rounding
  trimPpm : Int
  holeLimit : Nat
  minHide : Nat
  deriving DecidableEq, Repr

/-- The SCAN record (sections 1.1 and 2.1). -/
structure ScanRec where
  winStart : Nat
  winEnd : Nat
  barReverse : Bool
  minRun : Nat
  linePitch : Nat
  minStrobe : Nat
  asmDepth : Nat
  headMask : BitVec 8
  filterClk : FilterClk
  encDir : EncDir
  steadyWin : Nat
  steadyCount : Nat
  reverseLimit : Nat
  deriving DecidableEq, Repr

/-- The MARKP record (sections 6.1 and 7.1). -/
structure MarkpRec where
  anchorMode : AnchorMode
  anchorOffset : Nat
  anchorStride : Nat
  stampWidth : Nat
  columnPitch : Nat
  shiftWindow : Nat
  glyphGap : Int
  joinPolicy : JoinPolicy
  deriving DecidableEq, Repr

/-- One LANE entry (section 7.1). -/
structure LaneRec where
  cellFirst : Nat
  cellLast : Nat
  headPri : Nat
  headAlt : Option Nat
  lotSlot : Nat
  enabled : Bool
  deriving DecidableEq, Repr

/-- One HEAD entry (section 7.1). -/
structure HeadRec where
  ringAddr : Nat
  enabled : Bool
  offset : Nat
  primeLead : Nat
  guard : Nat
  edge : Nat
  nozzlePitch : Nat
  nozzles : Nat
  rotate : Bool
  mirror : Bool
  deriving DecidableEq, Repr

/-- One GLYPH entry: its width and its 12 possible columns (R98). -/
structure GlyphRec where
  width : Nat
  columns : List Dots
  deriving DecidableEq, Repr

/-- One LOT entry (section 8.1). -/
structure LotRec where
  size : Nat
  prefixGlyph : Option Nat
  firstNo : Nat
  deriving DecidableEq, Repr

/-- One bank of the ten tables (section 12.2). `notepri` is the level of HIDE, LOT, EVENT, HEAD in that order. -/
structure Tables where
  cellw : List Nat
  pitch : PitchRec
  calib : CalibRec
  scan : ScanRec
  markp : MarkpRec
  lanes : List LaneRec
  heads : List HeadRec
  glyphs : List GlyphRec
  lots : List LotRec
  notepri : List Nat
  deriving DecidableEq, Repr

/-- The ten tables (section 12.2), in the order of their codes. -/
inductive TableId where
  | cellw | pitch | calib | scan | markp | lane | head | glyph | lot | notepri
  deriving DecidableEq, Repr

/-- The power-on LANE entry (section 12.8). -/
def LaneRec.default : LaneRec :=
  { cellFirst := 0, cellLast := 2047, headPri := 0, headAlt := none, lotSlot := 0, enabled := false }

/-- The power-on HEAD entry (section 12.8). -/
def HeadRec.default : HeadRec :=
  { ringAddr := 0, enabled := false, offset := 1000000, primeLead := 10000, guard := 20000, edge := 0,
    nozzlePitch := 500, nozzles := 256, rotate := false, mirror := false }

/-- The power-on GLYPH entry (section 12.8). -/
def GlyphRec.default : GlyphRec := { width := 1, columns := List.replicate 12 0 }

/-- The power-on LOT entry (section 12.8). -/
def LotRec.default : LotRec := { size := 50, prefixGlyph := none, firstNo := 1 }

/-- The power-on PITCH record (section 12.8). -/
def PitchRec.default : PitchRec := { pint := 0, pfrac := 0, pmod := 2, paux := 0 }

/-- The power-on CALIB record (section 12.8). -/
def CalibRec.default : CalibRec :=
  { unit := .footQuarter, round := .nearest, trimPpm := 0, holeLimit := 2500, minHide := 500 }

/-- The power-on SCAN record (section 12.8). -/
def ScanRec.default : ScanRec :=
  { winStart := 0, winEnd := 2047, barReverse := false, minRun := 2, linePitch := 1600, minStrobe := 400, asmDepth := 4,
    headMask := 255, filterClk := .one, encDir := .normal, steadyWin := 13, steadyCount := 32, reverseLimit := 5000 }

/-- The power-on MARKP record (section 12.8). -/
def MarkpRec.default : MarkpRec :=
  { anchorMode := .trailing, anchorOffset := 300000, anchorStride := 50000, stampWidth := 12000, columnPitch := 1000,
    shiftWindow := 20000, glyphGap := 1, joinPolicy := .rejectMark }

/-- Both banks at power-on (section 12.8). -/
def Tables.default : Tables :=
  { cellw := List.replicate 2048 1600
    pitch := .default
    calib := .default
    scan := .default
    markp := .default
    lanes := List.replicate 8 .default
    heads := List.replicate 8 .default
    glyphs := List.replicate 32 .default
    lots := List.replicate 4 .default
    notepri := [2, 3, 1, 1] }

/-! ## Position unit and strobe generator (chapter 1) -/

/-- A three-sample filter of one input: an encoder channel (R1, R2) or the verification switch (R151).
`cand` is the level the candidate run has shown; it is read only while the run is above 0. -/
structure Channel where
  accepted : Option Bool
  run : Nat
  cand : Bool
  deriving DecidableEq, Repr

/-- The position unit's position and counters (R5, R9, R10, R4). -/
structure Position where
  i : Int
  f : Nat
  x : Nat
  hwm : Int
  excursion : Bool
  encFault : Nat
  deriving DecidableEq, Repr

/-- A pulse on the strobe line: SYNC or strobe, and the µs left of it (R15). -/
structure Pulse where
  sync : Bool
  left : Nat
  deriving DecidableEq, Repr

/-- The strobe generator (section 1.6). `pulse` is none while the strobe line is low. `strobed` says that a strobe has
been issued since START, so that the next one ends a period (R17; log 10). -/
structure StrobeGen where
  enable : Bool
  next : Int
  period : Nat
  wait : Bool
  nextLine : LineNo
  prevPeriod : Option Nat
  steady : Bool
  inWindow : Nat
  strobed : Bool
  delayedCount : Nat
  pulse : Option Pulse
  deriving DecidableEq, Repr

/-! ## Line assembler (chapter 2) -/

/-- A span of cells, first to last. -/
structure Span where
  first : Nat
  last : Nat
  deriving DecidableEq, Repr

/-- A head's entry in a line slot (R21). -/
inductive Arrival where
  | notArrived
  | usable (runs : List Span) (clamped : Bool)
  | unusable
  deriving DecidableEq, Repr

/-- A line slot holding a line (R21). -/
structure LineSlot where
  number : LineNo
  s : Int
  time : Timebase
  delayed : Bool
  steady : Bool
  expected : BitVec 8
  winStart : Nat
  winEnd : Nat
  barReverse : Bool
  minRun : Nat
  entries : List Arrival
  ready : Bool
  gapped : Bool
  deriving DecidableEq, Repr

/-- The line assembler: the slots in use, oldest line first, and its counters. `depth` is the ASM_DEPTH in force at the
last strobe (R22, R27; log 10). -/
structure Assembler where
  slots : List LineSlot
  depth : Nat
  lastLine : LineNo
  lastTime : Timebase
  stray : Nat
  lateSeg : Nat
  dupSeg : Nat
  malformed : Nat
  deriving DecidableEq, Repr

/-! ## Hide tracker (chapter 3) -/

/-- The states of a hide record (R36). `closed` is the model's own: a hide that closed on the line being segmented, has left
OPEN and is not yet handed on (R52, R53, R55; log 36). -/
inductive HideState where
  | free | isOpen | waiting | marking | reporting | closed
  deriving DecidableEq, Repr

/-- The 16 flags (R37), in the order of their bits (section 13.4). -/
inductive Flag where
  | joined | incomplete | gapped | runClamp | gapClamp | overspeed | unsteady | encoder | reversed | configSwitch
  | unverified | edge | fragment | overrange | markTrunc | markEdge
  deriving DecidableEq, Repr

/-- An anchor sample: strobe position, centre cell, width (section 6.2). -/
structure Sample where
  p : Int
  c : Nat
  w : Nat
  deriving DecidableEq, Repr

/-- A final value and the unit it was computed under (R86). -/
structure FinalValue where
  value : Nat
  unit : MeasureUnit
  deriving DecidableEq, Repr

/-- A hide's mark plan (R37). -/
structure MarkPlan where
  head : Nat
  columns : Nat
  slot : Nat
  deriving DecidableEq, Repr

/-- A mark outcome (R37, section 13.4); PARTIAL carries the columns sent (R134). -/
inductive MarkOutcome where
  | marked
  | partSent (columns : Nat)
  | missedNoLane | missedNoImage | missedHeadDown | missedLate | missedBusy
  deriving DecidableEq, Repr

/-- A hide's lot assignment (R130). -/
structure LotAssignment where
  slot : Nat
  lotNo : Nat
  place : Nat
  deriving DecidableEq, Repr

/-- A hide record (R37). `flags` holds the 16 flags by their bits of section 13.4; `lotSlot` is the LOT_SLOT of the
lane as the composer found it, fixed from then on (R93, R127; log 30). -/
structure HideRec where
  state : HideState
  seq : Nat
  firstLine : LineNo
  leading : Int
  lastLine : LineNo
  trailing : Int
  cellMin : Nat
  cellMax : Nat
  lineCount : Nat
  joinCount : Nat
  covered : Nat
  addBack : Nat
  smallHoles : Nat
  largeHoles : Nat
  flags : BitVec 16
  ring : List Sample
  latched : Option Sample
  lane : Option Nat
  lotSlot : Option Nat
  value : Option FinalValue
  plan : Option MarkPlan
  outcome : Option MarkOutcome
  lot : Option LotAssignment
  deriving DecidableEq, Repr

/-- A FREE record. R37 gives its fields their initial form when a record is taken for opening: 0, empty and absent, and the fields
set at opening have none. That a record holds this form while it is FREE, at reset and once freed, with 0 for its sequence number,
lines, positions and cell extent, is the model's choice (DESIGN CHOICE, log 43). -/
def HideRec.free : HideRec :=
  { state := .free, seq := 0, firstLine := 0, leading := 0, lastLine := 0, trailing := 0, cellMin := 0, cellMax := 0,
    lineCount := 0, joinCount := 0, covered := 0, addBack := 0, smallHoles := 0, largeHoles := 0, flags := 0, ring := [],
    latched := none, lane := none, lotSlot := none, value := none, plan := none, outcome := none, lot := none }

/-- A run's label: a hide record by its number, or UNTRACKED (R40). -/
inductive Label where
  | untracked
  | hide (record : Nat)
  deriving DecidableEq, Repr

/-- A real run of a run list (R40). -/
structure RealRun where
  first : Nat
  last : Nat
  edge : Bool
  label : Label
  deriving DecidableEq, Repr

/-- A held run of a run list (R40). -/
structure HeldRun where
  first : Nat
  last : Nat
  label : Label
  hold : Nat
  deriving DecidableEq, Repr

/-- A run list: real and held runs (R40). -/
structure RunList where
  real : List RealRun
  held : List HeldRun
  deriving DecidableEq, Repr

/-- The empty run list. -/
def RunList.empty : RunList := { real := [], held := [] }

/-- The hide tracker. `handing` is none at a line boundary; within a line that has been passed on it holds the records that
close on the line and are still to be handed on, in their order (R53; log 14). -/
structure Tracker where
  records : List HideRec
  prev : RunList
  cur : RunList
  counter : Nat
  overflow : Nat
  handing : Option (List Nat)
  deriving DecidableEq, Repr

/-! ## Gap tracker (chapter 4) -/

/-- An IN_USE gap record (R59); its last spans are the entries of the previous span list with its number (R60). -/
structure GapRec where
  hide : Nat
  topClosed : Bool
  bottomOpen : Bool
  area : Nat
  deriving DecidableEq, Repr

/-- An entry of the previous span list; `gap` is none for UNTRACKED_GAP (R60). -/
structure GapSpan where
  first : Nat
  last : Nat
  hide : Nat
  gap : Option Nat
  deriving DecidableEq, Repr

/-- The gap tracker; a FREE record is `none` (R59, R60). `prevMissing`: the missing spans of the line segmented last, whose cells
R65's upward check takes as not covered. -/
structure GapTracker where
  table : List (Option GapRec)
  order : List Nat
  prevSpans : List GapSpan
  prevMissing : List Span
  overflow : Nat
  deriving DecidableEq, Repr

/-! ## Area unit and image composer (chapters 5 and 6) -/

/-- The advance base (section 5.3). -/
inductive AdvanceBase where
  | noLine
  | firstLine (pitch : Nat)
  | previous (s : Int)
  deriving DecidableEq, Repr

/-- The area unit. -/
structure AreaUnit where
  cumw : List Nat
  base : AdvanceBase
  lastAdvance : Int
  deriving DecidableEq, Repr

/-- Who holds an image slot or a reservation: a hide by its sequence number, or the test mark (section 6.7, R111). -/
inductive Holder where
  | hide (seq : Nat)
  | testMark
  deriving DecidableEq, Repr

/-- A HELD image slot; the column count is the length of `columns` (section 6.7). -/
structure HeldImage where
  holder : Holder
  columns : List Dots
  deriving DecidableEq, Repr

/-! ## Mark scheduler (chapter 7) -/

/-- The state of a marking head (section 7.2). -/
inductive HeadState where
  | unknown | online | offline
  deriving DecidableEq, Repr

/-- The HEAD_PRI and HEAD_ALT of the lane at planning (R111). -/
structure LaneHeads where
  pri : Nat
  alt : Option Nat
  deriving DecidableEq, Repr

/-- A reservation (R111); `lane` is absent for the test mark. -/
structure Reservation where
  holder : Holder
  start : Int
  stop : Int
  columns : Nat
  pitch : Nat
  slot : Nat
  base : Nat
  anchorP : Int
  anchorC : Nat
  lane : Option LaneHeads
  deriving DecidableEq, Repr

/-- What an engine in LEAD or PRINTING holds beside its sent count (section 7.6, R115, R165). -/
structure Service where
  printing : Bool
  rotate : Bool
  mirror : Bool
  addr : Nat
  deriving DecidableEq, Repr

/-- One marking head: its state, its last fault code, its schedule and its engine; an IDLE engine is `none`. `sent` is the
engine's sent count, which an IDLE engine has as well (R126): priming sets it to 0 (R115), and it is left as it stands when the
engine returns to IDLE or a soft reset stops it (DEDUCED, log 45). -/
structure MarkHead where
  state : HeadState
  fault : Byte
  schedule : List Reservation
  engine : Option Service
  sent : Nat
  deriving DecidableEq, Repr

/-- A head after power-on (R126). -/
def MarkHead.powerOn : MarkHead := { state := .unknown, fault := 0, schedule := [], engine := none, sent := 0 }

/-- A marking frame waiting at its engine (R165): its head, its column (none for a PRIME), the frame. -/
structure WaitingFrame where
  head : Nat
  column : Option Nat
  frame : Frame
  deriving DecidableEq, Repr

/-- The test mark in progress (R123, R124); `ended`: its response waits for room in the response buffer. -/
structure TestMark where
  src : Nat
  columns : Nat
  cut : Bool
  ended : Bool
  deriving DecidableEq, Repr

/-- The mark scheduler. -/
structure MarkScheduler where
  heads : List MarkHead
  waiting : List WaitingFrame
  test : Option TestMark
  hstatStray : Nat
  deriving DecidableEq, Repr

/-! ## Lot tally and report queue (chapter 8) -/

/-- A lot slot (R127). -/
structure LotSlot where
  lotNo : Nat
  count : Nat
  quarters : Nat
  decimetres : Nat
  gross : Nat
  closePending : Bool
  nextNo : Option Nat
  deriving DecidableEq, Repr

/-- A lot slot that begins lot `n` (R138). -/
def LotSlot.fresh (n : Nat) : LotSlot :=
  { lotNo := n, count := 0, quarters := 0, decimetres := 0, gross := 0, closePending := false, nextNo := none }

/-- The cause of a lot close (R131). -/
inductive CloseCause where
  | size | command | apply
  deriving DecidableEq, Repr

/-- The 11 EVENT kinds (R136), in the order of their codes (section 13.4). -/
inductive EventKind where
  | configApplied | speedSteady | speedUnsteady | beltReverse | encoderFault | hideTableFull | gapTableFull | lineGapped
  | lockChanged | drained | resetDone
  deriving DecidableEq, Repr

/-- A LOT note (R131). -/
structure LotNote where
  slot : Nat
  lotNo : Nat
  count : Nat
  quarters : Nat
  decimetres : Nat
  gross : Nat
  cause : CloseCause
  deriving DecidableEq, Repr

/-- What stands in the arrival order (R135): a note queue entry, HIDE (the record as finalized, and the verification
count then, R134) or LOT; a set EVENT flag with its occurrence count; a set HEAD flag. -/
inductive NoteItem where
  | hide (record : HideRec) (verCount : Nat)
  | lot (note : LotNote)
  | event (kind : EventKind) (count : Nat)
  | head (head : Nat)
  deriving DecidableEq, Repr

/-- The finalization list and the report queue (R128, R135). `waits`: the attempt at the first hide of the list failed
before the last apply took effect, and none of the events that start an attempt has come since (R129; log 37). -/
structure ReportQueue where
  finals : List Nat
  order : List NoteItem
  resetDatum : Nat
  waits : Bool
  deriving DecidableEq, Repr

/-! ## Run control, verification record, ring interface, command unit (chapters 9 to 12) -/

/-- The run state with the drain stage (R139). -/
inductive RunState where
  | standby | run | drainFirst | drainSecond
  deriving DecidableEq, Repr

/-- A programming operation in flight (R152); `forgotten`: a soft reset came between (R155). -/
structure Programming where
  src : Nat
  left : Nat
  forgotten : Bool
  deriving DecidableEq, Repr

/-- The verification record (chapter 10); the accepted switch level is ASSERTED when true. -/
structure Verification where
  count : Nat
  lockOpen : Bool
  switch : Channel
  prog : Option Programming
  deriving DecidableEq, Repr

/-- A later answer waiting for room in the response buffer (R163). -/
inductive Deferred where
  /-- the response of an ended test mark (R124) -/
  | test (rsp : Frame)
  /-- the held response of a completed programming operation (R153) -/
  | verify (rsp : Frame)
  deriving DecidableEq, Repr

/-- The ring interface (chapter 11). `answering`: a command is being executed, and a place of the response buffer is kept
for its answer (R163; log 29); it is false between steps. -/
structure RingInterface where
  addr : Nat
  report : Option Nat
  forward : List Frame
  responses : List Frame
  answering : Bool
  deferred : List Deferred
  marking : List Frame
  out : Option Frame
  crcErr : Nat
  returned : Nat
  kindErr : Nat
  ringDrop : Nat
  cmdDrop : Nat
  markWait : Nat
  deriving DecidableEq, Repr

/-- A staged state (R169). -/
inductive StagedState where
  | clean | loading | modified | torn
  deriving DecidableEq, Repr

/-- The last LOAD_DATA taken in a load: first index, entry count, and the clamped count of its answer (section 12.3). -/
structure LastData where
  first : Nat
  entries : Nat
  clamped : Nat
  deriving DecidableEq, Repr

/-- The load in progress (section 12.3). Its clamped count is an unbounded number (DESIGN CHOICE, log 46). -/
structure Load where
  table : TableId
  down : Bool
  first : Nat
  count : Nat
  next : Int
  due : Nat
  last : Option LastData
  wasTorn : Bool
  clamped : Nat
  deriving DecidableEq, Repr

/-- A pending apply: its mode and the tables it will copy (R175). -/
structure PendingApply where
  force : Bool
  tables : List TableId
  deriving DecidableEq, Repr

/-- The staged state of each table (R169). -/
structure StagedStates where
  cellw : StagedState
  pitch : StagedState
  calib : StagedState
  scan : StagedState
  markp : StagedState
  lane : StagedState
  head : StagedState
  glyph : StagedState
  lot : StagedState
  notepri : StagedState
  deriving DecidableEq, Repr

/-- Every table CLEAN. -/
def StagedStates.clean : StagedStates :=
  { cellw := .clean, pitch := .clean, calib := .clean, scan := .clean, markp := .clean, lane := .clean, head := .clean,
    glyph := .clean, lot := .clean, notepri := .clean }

/-- The command unit and table store. -/
structure CommandUnit where
  staged : Tables
  active : Tables
  states : StagedStates
  load : Option Load
  pendingApply : Option PendingApply
  configured : Bool
  deriving DecidableEq, Repr

/-! ## The whole -/

/-- The state of the part. `powered` is false while the part is held (R148). `pending` is the queue of waiting steps. -/
structure State where
  powered : Bool
  time : Timebase
  encA : Channel
  encB : Channel
  pos : Position
  strobe : StrobeGen
  asm : Assembler
  trk : Tracker
  gap : GapTracker
  area : AreaUnit
  img : List (Option HeldImage)
  mark : MarkScheduler
  lots : List LotSlot
  rep : ReportQueue
  run : RunState
  ver : Verification
  ring : RingInterface
  cmd : CommandUnit
  pending : List Instr
  deriving DecidableEq, Repr

/-- Why a step stops with a fault: never. The spec gives the part no fault that stops it; its errors are counters,
events and refused answers. -/
inductive Fault where
  deriving DecidableEq, Repr

/-- Why a step is refused. -/
inductive Refusal where
  /-- raised by an arm of `exec` for a step without a meaning: none is left; safe -/
  | notModelled (mnemonic : String)
  deriving DecidableEq, Repr

/-- A filter that is not established (R2, R11, R151; log 7). -/
def Channel.fresh : Channel := { accepted := none, run := 0, cand := false }

/-- The state right after the power-on event (R148 and the reset tables of every chapter), for a part whose straps show
`addr` and whose one-time-programmable memory holds `count`. -/
def State.afterPowerOn (addr count : Nat) (pending : List Instr) : State :=
  { powered := true
    time := 0
    encA := .fresh
    encB := .fresh
    pos := { i := 0, f := 0, x := 0, hwm := 0, excursion := false, encFault := 0 }
    strobe := { enable := false, next := 1600, period := 0, wait := false, nextLine := 0, prevPeriod := none,
                steady := false, inWindow := 0, strobed := false, delayedCount := 0, pulse := none }
    asm := { slots := [], depth := 4, lastLine := 0, lastTime := 0, stray := 0, lateSeg := 0, dupSeg := 0, malformed := 0 }
    trk := { records := List.replicate Config.hideRecords .free, prev := .empty, cur := .empty, counter := 1, overflow := 0,
             handing := none }
    gap := { table := List.replicate Config.gapRecords none, order := [], prevSpans := [], prevMissing := [],
             overflow := 0 }
    area := { cumw := (List.range 2049).map (1600 * ·), base := .noLine, lastAdvance := 0 }
    img := List.replicate Config.imageSlots none
    mark := { heads := List.replicate 8 .powerOn, waiting := [], test := none, hstatStray := 0 }
    lots := List.replicate 4 (.fresh 1)
    rep := { finals := [], order := [], resetDatum := 0, waits := false }
    run := .standby
    ver := { count := count, lockOpen := false, switch := .fresh, prog := none }
    ring := { addr := addr, report := none, forward := [], responses := [], answering := false, deferred := [], marking := [], out := none,
              crcErr := 0, returned := 0, kindErr := 0, ringDrop := 0, cmdDrop := 0, markWait := 0 }
    cmd := { staged := .default, active := .default, states := .clean, load := none, pendingApply := none,
             configured := false }
    pending := pending }

/-- The machine right after reset: the power-on event of a part whose straps show 0 and whose lock was never opened
(DESIGN CHOICE, log 4), with no step waiting. -/
def State.reset : State := State.afterPowerOn 0 0 []

end Sys2Proof.Machine
end

