-- ==== Sys2Proof/Machine/Flags.lean ====
section
/-! DEFINITION. The 16 flags of a hide, the saturating counters, and the codes of the value sets. -/

namespace Sys2Proof.Machine

/-- The flag's bit: bit 0 JOINED to bit 15 MARK_EDGE in the order of R37 (section 13.4). -/
def Flag.bit : Flag → Nat
  | .joined => 0 | .incomplete => 1 | .gapped => 2 | .runClamp => 3 | .gapClamp => 4 | .overspeed => 5 | .unsteady => 6
  | .encoder => 7 | .reversed => 8 | .configSwitch => 9 | .unverified => 10 | .edge => 11 | .fragment => 12
  | .overrange => 13 | .markTrunc => 14 | .markEdge => 15

/-- The set of one flag. -/
def Flag.mask (k : Flag) : BitVec 16 := BitVec.ofNat 16 (2 ^ k.bit)

/-- Whether a flag is in the hide's flag set (R37). -/
def HideRec.has (r : HideRec) (k : Flag) : Bool := r.flags.getLsbD k.bit

/-- A hide with a flag set; a flag once set stays set (R37). -/
def HideRec.setFlag (k : Flag) (r : HideRec) : HideRec := { r with flags := r.flags ||| k.mask }

/-- A hide with a flag set if a condition holds. -/
def HideRec.setFlagIf (c : Bool) (k : Flag) (r : HideRec) : HideRec := if c then r.setFlag k else r

/-- Addition that stops at a top value (R46, R66, R68, R77). -/
def satAdd (top a b : Nat) : Nat := min top (a + b)

/-- A 16-bit counter's increase, saturating at 65,535 (R4, R13, R20, R49, R70, R106, R167). -/
def bump (n : Nat) : Nat := satAdd 65535 n 1

/-- The top of a 64-bit accumulator (R46, R59, R77). -/
def areaTop : Nat := 2 ^ 64 - 1

/-- Addition of areas, saturating at 2^64-1 (R59, R68, R77, R80). -/
def addArea (a b : Nat) : Nat := satAdd areaTop a b

/-- The code of an event kind: 1 to 11 in the order of section 8.5 (section 13.4). -/
def EventKind.code : EventKind → Nat
  | .configApplied => 1 | .speedSteady => 2 | .speedUnsteady => 3 | .beltReverse => 4 | .encoderFault => 5
  | .hideTableFull => 6 | .gapTableFull => 7 | .lineGapped => 8 | .lockChanged => 9 | .drained => 10 | .resetDone => 11

/-- The code of a staged state: its place in the list of R169 (R184). -/
def StagedState.code : StagedState → Nat
  | .clean => 0 | .loading => 1 | .modified => 2 | .torn => 3

/-- The code of a head state (section 13.4). -/
def HeadState.code : HeadState → Nat
  | .unknown => 0 | .online => 1 | .offline => 2

/-- The code of a unit (section 13.4). -/
def MeasureUnit.code : MeasureUnit → Nat
  | .footQuarter => 0 | .decimetre => 1

/-- The code of a mark outcome; NONE is 0 (section 13.4). -/
def outcomeCode : Option MarkOutcome → Nat
  | none => 0
  | some .marked => 1
  | some (.partSent _) => 2
  | some .missedNoLane => 3
  | some .missedNoImage => 4
  | some .missedHeadDown => 5
  | some .missedLate => 6
  | some .missedBusy => 7

/-- The code of a lot close's cause (section 13.4). -/
def CloseCause.code : CloseCause → Nat
  | .size => 0 | .command => 1 | .apply => 2

/-- The code of a table, 1 to 10 (section 13.3 note 1). -/
def TableId.code : TableId → Nat
  | .cellw => 1 | .pitch => 2 | .calib => 3 | .scan => 4 | .markp => 5 | .lane => 6 | .head => 7 | .glyph => 8
  | .lot => 9 | .notepri => 10

/-- The ten tables in the order of their codes. -/
def TableId.all : List TableId := [.cellw, .pitch, .calib, .scan, .markp, .lane, .head, .glyph, .lot, .notepri]

/-- The table of a code. -/
def TableId.ofCode (n : Nat) : Option TableId := TableId.all.find? (fun t => t.code == n)

/-- A verified table: CELLW, PITCH or CALIB (section 10.1). -/
def TableId.verified : TableId → Bool
  | .cellw | .pitch | .calib => true
  | .scan | .markp | .lane | .head | .glyph | .lot | .notepri => false

/-- The entries of a table (section 12.2). -/
def TableId.entries : TableId → Nat
  | .cellw => 2048 | .pitch => 1 | .calib => 1 | .scan => 1 | .markp => 1 | .lane => 8 | .head => 8 | .glyph => 32
  | .lot => 4 | .notepri => 4

/-- The most entries in one LOAD_DATA or READ_TABLE (section 12.2). -/
def TableId.frameMax : TableId → Nat
  | .cellw => 32 | .pitch => 1 | .calib => 1 | .scan => 1 | .markp => 1 | .lane => 4 | .head => 2 | .glyph => 2
  | .lot => 4 | .notepri => 4

/-- The staged state of a table (R169). -/
def StagedStates.get (st : StagedStates) : TableId → StagedState
  | .cellw => st.cellw | .pitch => st.pitch | .calib => st.calib | .scan => st.scan | .markp => st.markp
  | .lane => st.lane | .head => st.head | .glyph => st.glyph | .lot => st.lot | .notepri => st.notepri

/-- A table's staged state set (R169). -/
def StagedStates.put (st : StagedStates) (t : TableId) (v : StagedState) : StagedStates :=
  match t with
  | .cellw => { st with cellw := v }
  | .pitch => { st with pitch := v }
  | .calib => { st with calib := v }
  | .scan => { st with scan := v }
  | .markp => { st with markp := v }
  | .lane => { st with lane := v }
  | .head => { st with head := v }
  | .glyph => { st with glyph := v }
  | .lot => { st with lot := v }
  | .notepri => { st with notepri := v }

/-- The tables in a staged state, in the order of their codes. -/
def StagedStates.having (st : StagedStates) (v : StagedState) : List TableId :=
  TableId.all.filter (fun t => st.get t == v)

end Sys2Proof.Machine
end

