-- ==== Sys2Proof/Machine/Ops.lean ====
section
/-! DEFINITION. The operations the steps share: hide records, events and notes, the ring output and its arbiter,
image slots, lots, the lock, time, and the conditions judged at a line boundary. -/

namespace Sys2Proof.Machine

/-! ## Outcomes -/

/-- What a step answers. -/
abbrev StepOutcome := Host.Outcome State Fault Refusal

/-- A step that can be taken: where the part is not held and the step's condition holds it has its effect. Otherwise no
such step occurs in this state and nothing changes (log 1). -/
def stepWhen (s : State) (due : Bool) (effect : State) : StepOutcome :=
  if s.powered && due then .next effect else .next s

/-! ## Hide records (R36, R37) -/

/-- A change made to every hide record. -/
def State.mapRecs (f : HideRec → HideRec) (s : State) : State :=
  { s with trk := { s.trk with records := s.trk.records.map f } }

/-- A change made to the record that holds a sequence number (R36: no two do). -/
def onSeq (seq : Nat) (f : HideRec → HideRec) (r : HideRec) : HideRec :=
  if r.state != .free && r.seq == seq then f r else r

/-- A change made to the records that are OPEN (R4, R10, R177). -/
def onOpen (f : HideRec → HideRec) (r : HideRec) : HideRec :=
  if r.state == .isOpen then f r else r

/-- The record that holds a sequence number. -/
def State.recOf (s : State) (seq : Nat) : Option HideRec :=
  s.trk.records.find? (fun r => r.state != .free && r.seq == seq)

/-- Whether some hide record is OPEN (R53). A hide that closed on the line being segmented is no longer (R55; log 36). -/
def State.hasOpen (s : State) : Bool := s.trk.records.any (fun r => r.state == .isOpen)

/-- The number of records in a state (R36, R179). -/
def State.recordsIn (s : State) (st : HideState) : Nat := s.trk.records.countP (fun r => r.state == st)

/-- A hide whose outcome is known, or who needs none, goes to REPORTING and joins the end of the finalization list
(R38, R108, R114, R118, R119, R128). -/
def State.toReporting (seq : Nat) (outcome : Option MarkOutcome) (s : State) : State :=
  { s.mapRecs (onSeq seq fun r => { r with state := .reporting, outcome := outcome }) with
    rep := { s.rep with finals := s.rep.finals ++ [seq] } }

/-! ## Events and notes (R135 to R137) -/

/-- An event raised in the arrival order: a clear flag is set at the end with count 1, a set one counts up (R136). -/
def raiseIn (k : EventKind) : List NoteItem → List NoteItem
  | [] => [.event k 1]
  | .event k' n :: rest => if k' = k then .event k' (bump n) :: rest else .event k' n :: raiseIn k rest
  | item :: rest => item :: raiseIn k rest

/-- An event raised to the report queue (R136). -/
def State.raise (k : EventKind) (s : State) : State :=
  { s with rep := { s.rep with order := raiseIn k s.rep.order } }

/-- An event raised if a condition holds. -/
def State.raiseIf (c : Bool) (k : EventKind) (s : State) : State := if c then s.raise k else s

/-- A head's HEAD note made pending; one already pending keeps its place (R107, R136). -/
def State.headNote (h : Nat) (s : State) : State :=
  if NoteItem.head h ∈ s.rep.order then s
  else { s with rep := { s.rep with order := s.rep.order ++ [.head h] } }

/-- A note queue entry, as against a set flag (R135). -/
def NoteItem.isEntry : NoteItem → Bool
  | .hide _ _ => true
  | .lot _ => true
  | .event _ _ => false
  | .head _ => false

/-- The note queue entries in use (R135). -/
def ReportQueue.used (q : ReportQueue) : Nat := q.order.countP NoteItem.isEntry

/-- Whether the note queue has `n` free entries (R129). -/
def State.noteRoom (s : State) (n : Nat) : Bool := s.rep.used + n ≤ Config.noteEntries

/-- A note appended to the note queue (R129, R131). -/
def State.appendNote (item : NoteItem) (s : State) : State :=
  { s with rep := { s.rep with order := s.rep.order ++ [item] } }

/-- The index of a note's kind in NOTEPRI: HIDE, LOT, EVENT, HEAD (section 12.2). -/
def NoteItem.kindIndex : NoteItem → Nat
  | .hide _ _ => 0
  | .lot _ => 1
  | .event _ _ => 2
  | .head _ => 3

/-- A note's level under the active NOTEPRI (R137). -/
def NoteItem.level (levels : List Nat) (n : NoteItem) : Nat := levels.getD n.kindIndex 0

/-- The first element that a test takes, and the list without it. -/
def takeFirst {α : Type} (p : α → Bool) : List α → Option (α × List α)
  | [] => none
  | a :: as => if p a then some (a, as) else (takeFirst p as).map (fun r => (r.1, a :: r.2))

/-- The report queue's choice: of the highest level present, the earliest in the arrival order; with the order left when
it is gone (R137). -/
def chooseNote (levels : List Nat) (order : List NoteItem) : Option (NoteItem × List NoteItem) :=
  let top := order.foldl (fun m n => max m (n.level levels)) 0
  takeFirst (fun n => n.level levels == top) order

/-- The columns a HIDE note reports (section 13.4, byte 63). -/
def HideRec.columnsReported (r : HideRec) : Nat :=
  match r.outcome with
  | some .marked => (r.plan.map MarkPlan.columns).getD 0
  | some (.partSent n) => n
  | _ => 0

/-- The HIDE note payload, 71 bytes (R134, section 13.4, R185). -/
def hidePayload (r : HideRec) (verCount : Nat) : List Byte :=
  beBytes 1 1 ++ beBytes 4 r.seq ++ beBytes 2 r.firstLine.toNat ++ beBytes 2 r.lastLine.toNat
    ++ beInt 6 r.leading ++ beInt 6 r.trailing ++ beBytes 2 r.cellMin ++ beBytes 2 r.cellMax
    ++ beBytes 2 r.lineCount ++ beBytes 1 r.joinCount ++ beBytes 8 r.covered ++ beBytes 8 r.addBack
    ++ beBytes 2 r.smallHoles ++ beBytes 2 r.largeHoles ++ beBytes 2 r.flags.toNat
    ++ beOption 2 (r.value.map FinalValue.value) ++ beOption 1 (r.value.map (fun v => v.unit.code))
    ++ (match r.ring with
        | a :: _ => beInt 6 a.p ++ beBytes 2 a.c
        | [] => absentBytes 8)
    ++ beOption 1 r.lane ++ beBytes 1 (outcomeCode r.outcome) ++ beBytes 1 r.columnsReported
    ++ beOption 1 (r.plan.map MarkPlan.head) ++ beOption 1 (r.lot.map LotAssignment.slot)
    ++ beOption 2 (r.lot.map LotAssignment.lotNo) ++ beOption 2 (r.lot.map LotAssignment.place)
    ++ beBytes 1 verCount

/-- The LOT note payload, 23 bytes (R131, section 13.4). -/
def lotPayload (n : LotNote) : List Byte :=
  beBytes 1 2 ++ beBytes 1 n.slot ++ beBytes 2 n.lotNo ++ beBytes 2 n.count ++ beBytes 4 n.quarters
    ++ beBytes 4 n.decimetres ++ beBytes 8 n.gross ++ beBytes 1 n.cause.code

/-- The datum of an EVENT note at its sending (R136, section 13.4). -/
def State.eventDatum (s : State) : EventKind → Nat
  | .lockChanged => if s.ver.lockOpen then 1 else 0
  | .resetDone => s.rep.resetDatum
  | _ => 0

/-- A marking head by its number. -/
def State.head (s : State) (h : Nat) : MarkHead := s.mark.heads.getD h .powerOn

/-- The payload of a note as it leaves: an EVENT or HEAD note reports the state at its sending (R136, section 13.4). -/
def State.notePayload (s : State) : NoteItem → List Byte
  | .hide r verCount => hidePayload r verCount
  | .lot n => lotPayload n
  | .event k n => beBytes 1 3 ++ beBytes 1 k.code ++ beBytes 2 n ++ beBytes 1 (s.eventDatum k)
  | .head h => beBytes 1 4 ++ beBytes 1 h ++ beBytes 1 (s.head h).state.code ++ [(s.head h).fault]

/-! ## The ring output (R166) -/

/-- The arbiter's pick on a free output: the oldest marking frame, else the oldest forwarded frame, else the oldest
response, else a note if a report address is present; the frame picked begins its transmission (R166, R137). An entry of the
note queue so freed starts a finalization attempt (R129; log 37). -/
def State.arbitrate (s : State) : State :=
  match s.ring.out, s.ring.marking, s.ring.forward, s.ring.responses, s.ring.report with
  | some _, _, _, _, _ => s
  | none, f :: rest, _, _, _ => { s with ring := { s.ring with marking := rest, out := some f } }
  | none, [], f :: rest, _, _ => { s with ring := { s.ring with forward := rest, out := some f } }
  | none, [], [], f :: rest, _ => { s with ring := { s.ring with responses := rest, out := some f } }
  | none, [], [], [], none => s
  | none, [], [], [], some dst =>
    match chooseNote s.cmd.active.notepri s.rep.order with
    | none => s
    | some (item, rest) =>
      { s with
        ring := { s.ring with out := some (mkFrame dst s.ring.addr kindNote (s.notePayload item)) }
        rep := { s.rep with order := rest, waits := s.rep.waits && !item.isEntry } }

/-- A frame appended to the forward buffer, or dropped with RING_DROP increased when its places are held (R162). -/
def State.forwardFrame (f : Frame) (s : State) : State :=
  if s.ring.forward.length < Config.forwardPlaces then
    { s with ring := { s.ring with forward := s.ring.forward ++ [f] } }
  else { s with ring := { s.ring with ringDrop := bump s.ring.ringDrop } }

/-- The RSP frame of an answer to a command of kind `code` from `dst` (R163, section 13.3). -/
def State.rspFrame (s : State) (dst code : Nat) (a : Answer) : Frame :=
  mkFrame dst s.ring.addr kindRsp (BitVec.ofNat 8 code :: a.status.code :: a.data)

/-- Whether the response buffer has a free place (R163). -/
def State.responseRoom (s : State) : Bool := s.ring.responses.length < Config.responsePlaces

/-- A frame placed in the response buffer (R163). -/
def State.placeResponse (f : Frame) (s : State) : State :=
  { s with ring := { s.ring with responses := s.ring.responses ++ [f] } }

/-- Whether a completed programming operation's response is held (R153). -/
def State.heldResponse (s : State) : Bool :=
  s.ring.deferred.any (fun d => match d with | .verify _ => true | .test _ => false)

/-! ## Image slots (R101, R102) -/

/-- An image slot released: it becomes FREE and its columns are discarded (R102). -/
def State.releaseSlot (n : Nat) (s : State) : State := { s with img := s.img.set n none }

/-- The lowest-numbered FREE image slot (R101, R103). -/
def State.freeSlot (s : State) : Option Nat := s.img.findIdx? Option.isNone

/-- The columns held by an image slot. -/
def State.slotColumns (s : State) (n : Nat) : List Dots :=
  match s.img.getD n none with
  | some h => h.columns
  | none => []

/-! ## Marking heads -/

/-- A change made to one marking head. -/
def State.onHead (h : Nat) (f : MarkHead → MarkHead) (s : State) : State :=
  { s with mark := { s.mark with heads := s.mark.heads.modify h f } }

/-- The active HEAD entry of a head. -/
def State.headEntry (s : State) (h : Nat) : HeadRec := s.cmd.active.heads.getD h .default

/-! ## Lots (R131) -/

/-- A lot slot by its number. -/
def State.lotSlot (s : State) (n : Nat) : LotSlot := s.lots.getD n (.fresh 1)

/-- The lot number after the one being filled (R131). -/
def LotSlot.following (l : LotSlot) : Nat :=
  match l.nextNo with
  | some n => n
  | none => if 65535 ≤ l.lotNo then 1 else l.lotNo + 1

/-- A lot closed with a cause: its LOT note is appended and the slot begins the next lot (R131). Made only when the note
queue has room. -/
def State.closeLot (n : Nat) (cause : CloseCause) (s : State) : State :=
  let l := s.lotSlot n
  { s with
    rep := { s.rep with
      order := s.rep.order ++ [.lot { slot := n, lotNo := l.lotNo, count := l.count, quarters := l.quarters,
                                      decimetres := l.decimetres, gross := l.gross, cause := cause }] }
    lots := s.lots.set n (.fresh l.following) }

/-! ## Loads, applies and the lock -/

/-- A load in progress cancelled: its table becomes TORN (R170, R154, R181). -/
def CommandUnit.cancelLoad (c : CommandUnit) : CommandUnit :=
  match c.load with
  | some l => { c with load := none, states := c.states.put l.table .torn }
  | none => c

/-- Whether a verified staged table is MODIFIED (R150, R154). -/
def CommandUnit.verifiedModified (c : CommandUnit) : Bool :=
  (c.states.having .modified).any TableId.verified

/-- What a close of the lock does at the command unit: a verified load is cancelled, and a pending apply is dropped if a
verified staged table is MODIFIED (R154). -/
def CommandUnit.onLockClose (c : CommandUnit) : CommandUnit :=
  let c₁ := match c.load with
    | some l => if l.table.verified then c.cancelLoad else c
    | none => c
  if c₁.verifiedModified then { c₁ with pendingApply := none } else c₁

/-- An OPEN lock closed by VERIFY_CLOSE or by the switch; a CLOSED lock stays as it is (R154). -/
def State.closeLock (s : State) : State :=
  if s.ver.lockOpen then
    { s with ver := { s.ver with lockOpen := false }, cmd := s.cmd.onLockClose }.raise .lockChanged
  else s

/-! ## Conditions judged at a line boundary (R53, R143, R176) -/

/-- The hide tracker's drain condition: no record is OPEN and the previous list holds no held run (R56). -/
def State.drainCondition (s : State) : Bool := !s.hasOpen && s.trk.prev.held.isEmpty

/-- The tracker stands at a line boundary, not within a line (R26, R53). -/
def State.atBoundary (s : State) : Bool := s.trk.handing.isNone

/-- The first stage of the drain is due to end (R143). -/
def State.drainFirstDue (s : State) : Bool := s.atBoundary && s.run == .drainFirst && s.drainCondition

/-- The second stage of the drain is due to end: every record FREE and every engine IDLE (R144). -/
def State.drainSecondDue (s : State) : Bool :=
  s.run == .drainSecond && s.trk.records.all (fun r => r.state == .free) && s.mark.heads.all (fun h => h.engine.isNone)

/-- A pending apply is due to take effect: at the boundary where the tracker stands, FORCE or with no record OPEN; or at
once when the strobe enable is clear (R176). -/
def State.applyDue (s : State) : Bool :=
  match s.cmd.pendingApply with
  | none => false
  | some p => !s.strobe.enable || (s.atBoundary && (p.force || !s.hasOpen))

/-! ## Time -/

/-- The top of the period counter, where it stops (R13). -/
def periodTop : Nat := 2 ^ 32 - 1

/-- The passing of `dt` µs: the timebase, the period counter, a pulse on the strobe line and a programming operation
(00_scope.md, R13, R15, R152). A held part's timebase does not run: it is 0 at the power-on event. -/
def State.passTime (dt : Nat) (s : State) : State :=
  if s.powered then
    { s with
      time := s.time + BitVec.ofNat 32 dt
      strobe := { s.strobe with
        period := satAdd periodTop s.strobe.period dt
        pulse := s.strobe.pulse.map (fun p => { p with left := p.left - dt }) }
      ver := { s.ver with prog := s.ver.prog.map (fun p => { p with left := p.left - dt }) } }
  else s

end Sys2Proof.Machine
end

