-- ==== Sys2Proof/Machine/Ring.lean ====
section
/-! DEFINITION. The ring interface: the receiver's steps, and the end of a transmission (chapter 11). -/

namespace Sys2Proof.Machine

/-! ## The receiver (R159 to R161) -/

/-- The good frame that arriving bytes are, where the receiver routes it so (R159 to R161). -/
def State.arrived (s : State) (bytes : List Byte) (r : Route) : Option Frame :=
  match parseFrame bytes with
  | some f => if route s.ring.addr f = r then some f else none
  | none => none

/-- The good frame of a kind that the part takes (R161). -/
def State.takenFrame (s : State) (kind : Nat) (bytes : List Byte) : Option Frame :=
  match s.arrived bytes .taken with
  | some f => if f.kind.toNat = kind then some f else none
  | none => none

/-- A step about an arriving frame: it occurs where the frame is of the step's sort and the part is not held (R148). -/
def onFrame (s : State) (frame : Option Frame) (effect : Frame → State) : StepOutcome :=
  match frame with
  | some f => stepWhen s true (effect f)
  | none => .next s

/-- A taken frame at its block; a broadcast is forwarded as well, before or after (R161; log 13). -/
def State.receive (f : Frame) (take : State → State) (s : State) : State :=
  if f.dst = Config.broadcast then
    if Config.forwardBeforeTake then take (s.forwardFrame f).arbitrate
    else ((take s).forwardFrame f).arbitrate
  else take s

/-- FORWARDED_FRAME (R162): a good frame for another node, or a broadcast that the part does not take. -/
def execForwardedFrame (bytes : List Byte) (s : State) : StepOutcome :=
  onFrame s (s.arrived bytes .forwardOnly) fun f => (s.forwardFrame f).arbitrate

/-- BAD_FRAME (R159). -/
def execBadFrame (bytes : List Byte) (s : State) : StepOutcome :=
  stepWhen s (parseFrame bytes).isNone { s with ring := { s.ring with crcErr := bump s.ring.crcErr } }

/-- RETURNED_FRAME (R160). -/
def execReturnedFrame (bytes : List Byte) (s : State) : StepOutcome :=
  onFrame s (s.arrived bytes .returned) fun _ => { s with ring := { s.ring with returned := bump s.ring.returned } }

/-- KIND_ERR (R161, R183). -/
def execKindErr (bytes : List Byte) (s : State) : StepOutcome :=
  onFrame s (s.arrived bytes .kindErr) fun _ => { s with ring := { s.ring with kindErr := bump s.ring.kindErr } }

/-! ## The transmitter (R166) -/

/-- TRANSMISSION_END (R166): the output becomes free and the arbiter picks. When a frame ends is the sender's (log 31). -/
def execTransmissionEnd (dt : Nat) (s : State) : StepOutcome :=
  let t := s.passTime dt
  stepWhen s t.ring.out.isSome ({ t with ring := { t.ring with out := none } }).arbitrate

/-! ## Later answers (R163) -/

/-- The frame of a later answer. -/
def Deferred.frame : Deferred → Frame
  | .test f => f
  | .verify f => f

/-- The places of the response buffer kept for the answer of the command being executed (R163; log 29). -/
def RingInterface.kept (r : RingInterface) : Nat := if r.answering then 1 else 0

/-- A later answer whose operation has ended: placed in the response buffer if it has a free place beside the one kept for
a command being executed and none waits before it, or left waiting (R124, R153, R163). The second part says whether it was
placed. -/
def State.answerLater (d : Deferred) (s : State) : State × Bool :=
  if decide (s.ring.responses.length + s.ring.kept < Config.responsePlaces) && s.ring.deferred.isEmpty then (s.placeResponse d.frame, true)
  else ({ s with ring := { s.ring with deferred := s.ring.deferred ++ [d] } }, false)

/-- The first waiting later answer placed; a test mark is then no longer in progress (R124, R153, R163). -/
def State.placeDeferred (s : State) : State :=
  match s.ring.deferred with
  | [] => s
  | d :: rest =>
    let s₁ := ({ s with ring := { s.ring with deferred := rest } }).placeResponse d.frame
    match d with
    | .test _ => { s₁ with mark := { s₁.mark with test := none } }
    | .verify _ => s₁

/-- DEFERRED_ANSWER_PLACED (R163). -/
def execDeferredAnswerPlaced (s : State) : StepOutcome :=
  stepWhen s (!s.ring.deferred.isEmpty && s.responseRoom) s.placeDeferred.arbitrate

end Sys2Proof.Machine
end

