-- ==== Sys2Proof/Machine/Position.lean ====
section
/-! DEFINITION. The position unit: encoder filter, quadrature decode, position, high-water mark, reverse excursion
(chapter 1, sections 1.2 and 1.3). -/

namespace Sys2Proof.Machine

/-! ## The three-sample filter (R1, R2, R151) -/

/-- What a sample did at a channel. -/
inductive Change where
  | quiet | established | changed
  deriving DecidableEq, Repr

/-- One sample of a channel: R2 until a level is established, R1 from then on. -/
def Channel.sample (c : Channel) (level : Bool) : Channel × Change :=
  match c.accepted with
  | none =>
    let run := if c.run = 0 ∨ c.cand ≠ level then 1 else c.run + 1
    if 3 ≤ run then ({ accepted := some level, run := 0, cand := level }, .established)
    else ({ accepted := none, run := run, cand := level }, .quiet)
  | some l =>
    if level = l then ({ accepted := some l, run := 0, cand := level }, .quiet)
    else if 3 ≤ c.run + 1 then ({ accepted := some level, run := 0, cand := level }, .changed)
    else ({ accepted := some l, run := c.run + 1, cand := level }, .quiet)

/-- A channel's sample while not both channels are established: a channel already established follows its input or stays
as it is (R2; log 6). -/
def Channel.sampleAlone (c : Channel) (level : Bool) : Channel × Change :=
  match c.accepted with
  | none => c.sample level
  | some _ => if Config.loneChannelFollows then c.sample level else (c, .quiet)

/-- What one sample of A and B is (R1 to R4). -/
inductive SampleKind where
  /-- no count, fault or establishment (R1) -/
  | quiet
  /-- a level is established (R2) -/
  | establishes
  /-- a forward count (R3, R6) -/
  | forward
  /-- a backward count (R3, R7) -/
  | backward
  /-- an encoder fault (R4) -/
  | fault
  deriving DecidableEq, Repr

/-- The sense of a count under NORMAL: forward along (0,0), (1,0), (1,1), (0,1), (0,0). `a`, `b` are the accepted levels
before the sample, `changedA` says that A is the channel that changed (R3). -/
def forwardStep (a b changedA : Bool) : Bool := if changedA then a == b else a != b

/-- The outcome of one sample: the two channels after it, and which of the five encoder steps it is (R1 to R4). -/
def encoderOutcome (dir : EncDir) (ca cb : Channel) (a b : Bool) : Channel × Channel × SampleKind :=
  match ca.accepted, cb.accepted with
  | some la, some lb =>
    let ra := ca.sample a
    let rb := cb.sample b
    let kind : SampleKind :=
      match ra.2, rb.2 with
      | .changed, .changed => .fault
      | .changed, _ => if (forwardStep la lb true == (dir == .normal)) then .forward else .backward
      | _, .changed => if (forwardStep la lb false == (dir == .normal)) then .forward else .backward
      | _, _ => .quiet
    (ra.1, rb.1, kind)
  | _, _ =>
    let ra := ca.sampleAlone a
    let rb := cb.sampleAlone b
    (ra.1, rb.1, if ra.2 = .established ∨ rb.2 = .established then .establishes else .quiet)

/-- The outcome of a sample in a state, under the active ENC_DIR. -/
def State.encoderSampled (s : State) (a b : Bool) : Channel × Channel × SampleKind :=
  encoderOutcome s.cmd.active.scan.encDir s.encA s.encB a b

/-- The state after the filter has taken a sample (R1). -/
def State.withSample (s : State) (a b : Bool) : State :=
  let o := s.encoderSampled a b
  { s with encA := o.1, encB := o.2.1 }

/-! ## Position accumulation (R5 to R7) -/

/-- The least and the greatest integer position (R5). -/
def posMin : Int := -(2 ^ 47)
def posMax : Int := 2 ^ 47 - 1

/-- A forward count's three carrying stages (R6); a count that would carry I beyond its range changes nothing (R5). -/
def Position.forward (pitch : PitchRec) (p : Position) : Position :=
  let x := p.x + pitch.paux
  let c₁ := if pitch.pmod ≤ x then 1 else 0
  let f := p.f + pitch.pfrac + c₁
  let c₂ := if 2 ^ 24 ≤ f then 1 else 0
  let i := p.i + (pitch.pint + c₂ : Nat)
  if posMax < i then p
  else { p with x := x - c₁ * pitch.pmod, f := f - c₂ * 2 ^ 24, i := i }

/-- A backward count's three borrowing stages (R7); a count that would carry I beyond its range changes nothing (R5). -/
def Position.backward (pitch : PitchRec) (p : Position) : Position :=
  let b₁ := if p.x < pitch.paux then 1 else 0
  let b₂ := if p.f < pitch.pfrac + b₁ then 1 else 0
  let i := p.i - (pitch.pint + b₂ : Nat)
  if i < posMin then p
  else { p with x := p.x + b₁ * pitch.pmod - pitch.paux, f := p.f + b₂ * 2 ^ 24 - (pitch.pfrac + b₁), i := i }

/-- After a forward count the HWM takes I if I is above it (R9), and the count that brings I back to the HWM ends a
reverse excursion (R10). -/
def Position.afterForward (p : Position) : Position :=
  let hwm := max p.hwm p.i
  { p with hwm := hwm, excursion := p.excursion && p.i < hwm }

/-- Whether a backward count begins an excursion: the HWM exceeds I by more than REVERSE_LIMIT and none is in progress
(R10). -/
def Position.beginsExcursion (limit : Nat) (p : Position) : Bool :=
  !p.excursion && decide ((limit : Int) < p.hwm - p.i)

/-- The HWM set to I and any excursion ended, as START and soft reset do (R9, R10, R11). -/
def Position.restart (p : Position) : Position := { p with hwm := p.i, excursion := false }

/-! ## The wait state (R13) -/

/-- The position condition of a strobe: the HWM is at or above NEXT (R13). -/
def State.positionCondition (s : State) : Bool := s.strobe.next ≤ s.pos.hwm

/-- The time condition of a strobe: the period counter is at or above MIN_STROBE (R13). -/
def State.timeCondition (s : State) : Bool := s.cmd.active.scan.minStrobe ≤ s.strobe.period

/-- The wait state is entered where the position condition holds and the time condition does not (R13; log 9). -/
def State.enterWait (s : State) : State :=
  if s.strobe.enable && s.positionCondition && !s.timeCondition then
    { s with strobe := { s.strobe with wait := true } }
  else s

/-! ## The effects of the five encoder steps -/

/-- FORWARD_COUNT's effect once the sample is taken (R6, R9, R10, R13). -/
def State.countForward (s : State) : State :=
  ({ s with pos := (s.pos.forward s.cmd.active.pitch).afterForward }).enterWait

/-- The start of a reverse excursion: every OPEN hide gets REVERSED and BELT_REVERSE is raised (R10). -/
def State.beginExcursion (s : State) : State :=
  (({ s with pos := { s.pos with excursion := true } }).mapRecs (onOpen (HideRec.setFlag .reversed))).raise .beltReverse

/-- BACKWARD_COUNT's effect once the sample is taken (R7, R10). -/
def State.countBackward (s : State) : State :=
  let s₁ : State := { s with pos := s.pos.backward s.cmd.active.pitch }
  if s₁.pos.beginsExcursion s.cmd.active.scan.reverseLimit then s₁.beginExcursion.arbitrate else s₁

/-- ENCODER_FAULT's effect once the sample is taken (R4). -/
def State.takeEncoderFault (s : State) : State :=
  ((({ s with pos := { s.pos with encFault := bump s.pos.encFault } }).mapRecs
    (onOpen (HideRec.setFlag .encoder))).raise .encoderFault).arbitrate

/-! ## The steps -/

/-- ENCODER_SAMPLE: the candidate runs change and nothing else (R1). -/
def execEncoderSample (dt : Nat) (a b : Bool) (s : State) : StepOutcome :=
  let t := s.passTime dt
  stepWhen s ((t.encoderSampled a b).2.2 == .quiet) (t.withSample a b)

/-- ENCODER_LEVEL_ESTABLISHED: an accepted level is established without a count or a fault (R2). -/
def execEncoderLevelEstablished (dt : Nat) (a b : Bool) (s : State) : StepOutcome :=
  let t := s.passTime dt
  stepWhen s ((t.encoderSampled a b).2.2 == .establishes) (t.withSample a b)

/-- FORWARD_COUNT (R6). -/
def execForwardCount (dt : Nat) (a b : Bool) (s : State) : StepOutcome :=
  let t := s.passTime dt
  stepWhen s ((t.encoderSampled a b).2.2 == .forward) (t.withSample a b).countForward

/-- BACKWARD_COUNT (R7). -/
def execBackwardCount (dt : Nat) (a b : Bool) (s : State) : StepOutcome :=
  let t := s.passTime dt
  stepWhen s ((t.encoderSampled a b).2.2 == .backward) (t.withSample a b).countBackward

/-- ENCODER_FAULT (R4): both new levels are accepted and no count is made. -/
def execEncoderFault (dt : Nat) (a b : Bool) (s : State) : StepOutcome :=
  let t := s.passTime dt
  stepWhen s ((t.encoderSampled a b).2.2 == .fault) (t.withSample a b).takeEncoderFault

end Sys2Proof.Machine
end

