-- ==== Sys2Proof/Machine/Strobe.lean ====
section
/-! DEFINITION. The strobe generator and the steady detector (chapter 1, sections 1.6 and 1.7), with the line slot that a
strobe takes in the line assembler (R22), and the pulses on the strobe line (R15). -/

namespace Sys2Proof.Machine

/-! ## The line window (section 2.3) -/

/-- The oldest line L0: the first slot's number, or N when no slot is in use (section 2.3). -/
def Assembler.l0 (a : Assembler) (n : LineNo) : LineNo :=
  match a.slots with
  | [] => n
  | slot :: _ => slot.number

/-- Whether the line L0 is READY (R26). -/
def Assembler.frontReady (a : Assembler) : Bool :=
  match a.slots with
  | [] => false
  | slot :: _ => slot.ready

/-- Whether an ASSEMBLING line is overdue at the strobe of line `m`: ASM_DEPTH or more lines older (R27). -/
def LineSlot.overdue (slot : LineSlot) (m : LineNo) (depth : Nat) : Bool :=
  !slot.ready && decide (depth ≤ (m - slot.number).toNat)

/-- Whether some line is overdue since the last strobe, whose line is N - 1 (R27). -/
def State.timeoutDue (s : State) : Bool :=
  s.asm.slots.any (fun slot => slot.overdue (s.strobe.nextLine - 1) s.asm.depth)

/-- Whether the line L0 is READY while hand-overs are made (R26). -/
def State.handoverReady (s : State) : Bool := s.strobe.enable && s.asm.frontReady

/-- Whether the assembler has done all that the last strobe or segment made possible: no line is being segmented, no timeout and
no hand-over is due, and the judgements of the boundary are done, of an apply and of the end of the drain's first stage (R22, R26,
R27, R143, R176; log 11). -/
def State.assemblerSettled (s : State) : Bool :=
  s.atBoundary && !s.timeoutDue && !s.handoverReady && !s.applyDue && !s.drainFirstDue

/-- The slot of a line just strobed (R21, R22): every expected head NOT_ARRIVED; READY at once if none is expected. -/
def newSlot (scan : ScanRec) (n : LineNo) (sPos : Int) (time : Timebase) (delayed steady : Bool) : LineSlot :=
  { number := n, s := sPos, time := time, delayed := delayed, steady := steady, expected := scan.headMask,
    winStart := scan.winStart, winEnd := scan.winEnd, barReverse := scan.barReverse, minRun := scan.minRun,
    entries := List.replicate 8 .notArrived, ready := scan.headMask == 0, gapped := false }

/-! ## The steady detector (R17) -/

/-- What a judged period does to the steady state and the in-window count. -/
structure SteadyVerdict where
  steady : Bool
  inWindow : Nat
  event : Option EventKind
  deriving DecidableEq, Repr

/-- Whether a period is in window: |T - Tprev| × 256 ≤ Tprev × STEADY_WIN (R17). -/
def inWindowPeriod (win prev t : Nat) : Bool := ((t : Int) - prev).natAbs * 256 ≤ prev * win

/-- The judgement of a period against the previous one (R17). -/
def judgePeriod (scan : ScanRec) (steady : Bool) (inWindow prev t : Nat) : SteadyVerdict :=
  if inWindowPeriod scan.steadyWin prev t then
    let n := satAdd 255 inWindow 1
    if !steady && decide (scan.steadyCount ≤ n) then { steady := true, inWindow := n, event := some .speedSteady }
    else { steady := steady, inWindow := n, event := none }
  else { steady := false, inWindow := 0, event := if steady then some .speedUnsteady else none }

/-- The steady detector at a strobe: the first strobe after START ends no period, the first period is kept and not
judged, and every later one is judged (R17). -/
def StrobeGen.verdict (scan : ScanRec) (g : StrobeGen) : SteadyVerdict :=
  match g.strobed, g.prevPeriod with
  | true, some prev => judgePeriod scan g.steady g.inWindow prev g.period
  | _, _ => { steady := g.steady, inWindow := g.inWindow, event := none }

/-! ## NEXT (R14) -/

/-- NEXT raised by LINE_PITCH as many times as needed to make it exceed S (R14 step 5). -/
def raiseNext (next : Int) (pitch : Nat) (sPos : Int) : Int :=
  if sPos < next then next else next + pitch * ((sPos - next) / pitch + 1)

/-- NEXT after a strobe (R14 step 5): on the grid, or from S for a DELAYED strobe. -/
def nextAfter (g : StrobeGen) (pitch : Nat) (sPos : Int) : Int :=
  raiseNext ((if g.wait then sPos else g.next) + pitch) pitch sPos

/-! ## The strobe (R14) -/

/-- A strobe is due: the enable is set, both conditions hold (R13), and the strobe before it is done with (log 11). -/
def State.strobeDue (s : State) : Bool :=
  s.strobe.enable && s.positionCondition && s.timeCondition && s.assemblerSettled

/-- The strobe generator after a strobe (R14 steps 1, 3, 5, 6; R13; R17). -/
def StrobeGen.afterStrobe (g : StrobeGen) (scan : ScanRec) (sPos : Int) : StrobeGen :=
  let v := g.verdict scan
  { g with
    next := nextAfter g scan.linePitch sPos
    period := 0
    wait := false
    nextLine := g.nextLine + 1
    prevPeriod := if g.strobed then some g.period else g.prevPeriod
    steady := v.steady
    inWindow := v.inWindow
    strobed := true
    delayedCount := if g.wait then bump g.delayedCount else g.delayedCount
    pulse := some { sync := false, left := 2 } }

/-- STROBE's effect: the period is judged, the line takes a slot, the generator moves on (R14, R17, R22). -/
def State.issueStrobe (s : State) : State :=
  let scan := s.cmd.active.scan
  let v := s.strobe.verdict scan
  let slot := newSlot scan s.strobe.nextLine s.pos.hwm s.time s.strobe.wait v.steady
  let s₁ : State := { s with
    strobe := s.strobe.afterStrobe scan s.pos.hwm
    asm := { s.asm with slots := s.asm.slots ++ [slot], depth := scan.asmDepth } }
  match v.event with
  | some k => (s₁.raise k).arbitrate
  | none => s₁

/-- STROBE (R14). -/
def execStrobe (dt : Nat) (s : State) : StepOutcome :=
  let t := s.passTime dt
  stepWhen s t.strobeDue t.issueStrobe

/-- A pulse on the strobe line has lasted its 2 µs or 20 µs (R15). -/
def State.pulseOver (s : State) : Bool :=
  match s.strobe.pulse with
  | some p => p.left == 0
  | none => false

/-- PULSE_END (R15): the strobe line returns low. -/
def execPulseEnd (dt : Nat) (s : State) : StepOutcome :=
  let t := s.passTime dt
  stepWhen s t.pulseOver { t with strobe := { t.strobe with pulse := none } }

end Sys2Proof.Machine
end

