-- ==== Sys2Proof/Machine/Assembly.lean ====
section
/-! DEFINITION. The line assembler: segments, the strobe-counted timeout, and the forming of a line's run list
(chapter 2). -/

namespace Sys2Proof.Machine

/-! ## Slots (R21) -/

/-- Whether a head is expected on the line (R21). -/
def LineSlot.expects (slot : LineSlot) (h : Nat) : Bool := slot.expected.getLsbD h

/-- A head's entry in the slot (R21). -/
def LineSlot.entry (slot : LineSlot) (h : Nat) : Arrival := slot.entries.getD h .notArrived

/-- Whether every expected head's entry has arrived (R25). -/
def LineSlot.complete (slot : LineSlot) : Bool :=
  (List.range 8).all (fun h => !slot.expects h || slot.entry h != .notArrived)

/-- Whether some expected head's entry is UNUSABLE (R21). -/
def LineSlot.anyUnusable (slot : LineSlot) : Bool :=
  (List.range 8).any (fun h => slot.expects h && slot.entry h == .unusable)

/-- A head's entry set on an arrival; the line is READY when none is missing, GAPPED when one is UNUSABLE (R21, R25). -/
def LineSlot.arrive (slot : LineSlot) (h : Nat) (a : Arrival) : LineSlot :=
  let slot₁ := { slot with entries := slot.entries.set h a }
  { slot₁ with ready := slot.ready || slot₁.complete, gapped := slot.gapped || slot₁.anyUnusable }

/-- A line closed by the timeout: READY and GAPPED, every entry still missing UNUSABLE (R27). -/
def LineSlot.close (slot : LineSlot) : LineSlot :=
  { slot with
    ready := true
    gapped := true
    entries := slot.entries.map (fun a => if a = .notArrived then .unusable else a) }

/-- Every overdue line closed (R27). -/
def State.closeOverdue (s : State) : State :=
  { s with asm := { s.asm with
      slots := s.asm.slots.map (fun slot =>
        if slot.overdue (s.strobe.nextLine - 1) s.asm.depth then slot.close else slot) } }

/-- LINE_TIMEOUT (R27): every overdue line is closed. -/
def execLineTimeout (s : State) : StepOutcome := stepWhen s s.timeoutDue s.closeOverdue

/-! ## Segments (R20, R23 to R25, R183) -/

/-- The runs of a SEG payload, as far as it is long (R183, section 13.2). -/
def segmentRuns : List Byte → List Span
  | a :: b :: rest => { first := a.toNat, last := b.toNat } :: segmentRuns rest
  | _ => []

/-- A SEG payload read (section 13.2). `lengthFits`: its length is 5 plus twice its run count (R183). -/
structure Segment where
  line : LineNo
  head : Nat
  fault : Bool
  clamped : Bool
  count : Nat
  runs : List Span
  lengthFits : Bool
  deriving DecidableEq, Repr

/-- A SEG payload of 5 bytes or more (R183, section 13.2). -/
def readSegment : List Byte → Option Segment
  | l₁ :: l₀ :: h :: flags :: n :: rest =>
    some { line := l₁ ++ l₀, head := h.toNat, fault := flags.getLsbD 0, clamped := flags.getLsbD 1, count := n.toNat,
           runs := segmentRuns rest, lengthFits := rest.length == 2 * n.toNat }
  | _ => none

/-- Runs in form: each with its first cell at or below its last, and beginning above the last cell of the run before
(R24). A cell above 255 cannot stand in a byte. -/
def runsInForm : List Span → Bool
  | [] => true
  | [r] => decide (r.first ≤ r.last)
  | r :: r' :: rest => decide (r.first ≤ r.last) && decide (r.last < r'.first) && runsInForm (r' :: rest)

/-- The form check of R24, with the length of R183. -/
def Segment.wellFormed (g : Segment) : Bool := decide (g.count ≤ 30) && g.lengthFits && runsInForm g.runs

/-- The entry that a segment leaves: UNUSABLE when malformed (R24) or when FAULT is set (R25), else USABLE (R25). -/
def Segment.arrival (g : Segment) : Arrival :=
  if !g.wellFormed || g.fault then .unusable else .usable g.runs g.clamped

/-- Where a segment's line stands against the window, L0 and the number of slots in use (R23). -/
inductive Placing where
  | inWindow (index : Nat)
  | notYet
  | late
  deriving DecidableEq, Repr

/-- The placing of line `m` (R23): d = (m - L0) modulo 2^16 against k slots. -/
def placeLine (m l0 : LineNo) (k : Nat) : Placing :=
  let d := (m - l0).toNat
  if d < k then .inWindow d else if d < 32768 then .notYet else .late

/-- A segment judged against the window (R23 to R25); the first check that disposes of it ends the judgement. -/
def Assembler.judge (a : Assembler) (n : LineNo) (g : Segment) : Assembler :=
  match placeLine g.line (a.l0 n) a.slots.length with
  | .notYet => { a with stray := bump a.stray }
  | .late => { a with lateSeg := bump a.lateSeg }
  | .inWindow d =>
    match a.slots[d]? with
    | none => a
    | some slot =>
      if decide (7 < g.head) || !slot.expects g.head then { a with stray := bump a.stray }
      else if slot.entry g.head ≠ .notArrived then { a with dupSeg := bump a.dupSeg }
      else
        { a with
          slots := a.slots.set d (slot.arrive g.head g.arrival)
          malformed := if g.wellFormed then a.malformed else bump a.malformed }

/-- A SEG judged by the line assembler: discarded without a count while the strobe enable is clear; MALFORMED when shorter
than 5 bytes; else judged against the window (R23, R183). -/
def State.judgeSegment (f : Frame) (s : State) : State :=
  if !s.strobe.enable then s
  else
    match readSegment f.payload with
    | none => { s with asm := { s.asm with malformed := bump s.asm.malformed } }
    | some g => { s with asm := s.asm.judge s.strobe.nextLine g }

/-! ## Forming the run list (R28 to R34) -/

/-- A run of the forming, with its edge-touching mark (R30). -/
structure FormRun where
  first : Nat
  last : Nat
  edge : Bool
  deriving DecidableEq, Repr

/-- A local span of a head in global cells, reversed when BAR_REVERSE is ON (R29). -/
def toGlobal (reverse : Bool) (h : Nat) (r : Span) : Span :=
  if reverse then { first := 2047 - (256 * h + r.last), last := 2047 - (256 * h + r.first) }
  else { first := 256 * h + r.first, last := 256 * h + r.last }

/-- The local spans of every head in turn, mapped and placed ascending (R29). Each head owns 256 cells of its own, so the
heads' order, turned round by BAR_REVERSE, is the order by first cell. -/
def mapHeads (reverse : Bool) (spans : Nat → List Span) : List Span :=
  let mapped := (List.range 8).flatMap (fun h => (spans h).map (toGlobal reverse h))
  if reverse then mapped.reverse else mapped

/-- The runs of an expected head's USABLE entry; none otherwise. -/
def LineSlot.usableRuns (slot : LineSlot) (h : Nat) : List Span :=
  if slot.expects h then
    match slot.entry h with
    | .usable runs _ => runs
    | _ => []
  else []

/-- The missing span of an expected head whose entry is UNUSABLE: all its cells (R28). -/
def LineSlot.missingOf (slot : LineSlot) (h : Nat) : List Span :=
  if slot.expects h && slot.entry h == .unusable then [{ first := 0, last := 255 }] else []

/-- A span clipped to the scan window; none when it lies wholly outside (R30). -/
def clipSpan (lo hi : Nat) (r : Span) : Option Span :=
  if r.last < lo ∨ hi < r.first then none else some { first := max lo r.first, last := min hi r.last }

/-- A clipped run with its mark: edge-touching when its first cell is WIN_START or its last is WIN_END (R30). -/
def clipRun (lo hi : Nat) (r : Span) : Option FormRun :=
  (clipSpan lo hi r).map (fun c => { first := c.first, last := c.last, edge := c.first == lo || c.last == hi })

/-- Runs that touch or overlap joined, from a run on (R31). -/
def joinInto (cur : FormRun) : List FormRun → List FormRun
  | [] => [cur]
  | r :: rest =>
    if r.first ≤ cur.last + 1 then
      joinInto { first := min cur.first r.first, last := max cur.last r.last, edge := cur.edge || r.edge } rest
    else cur :: joinInto r rest

/-- Runs that touch or overlap joined (R31). -/
def joinRuns : List FormRun → List FormRun
  | [] => []
  | r :: rest => joinInto r rest

/-- The fleck filter: runs of fewer than MIN_RUN cells are dropped (R32). -/
def fleckFilter (minRun : Nat) (runs : List FormRun) : List FormRun :=
  runs.filter (fun r => minRun ≤ r.last - r.first + 1)

/-- The 64-run clamp: the 64th run and all after it become one (R33). -/
def clampRuns (runs : List FormRun) : List FormRun :=
  if runs.length ≤ 64 then runs
  else
    match runs.drop 63 with
    | [] => runs.take 63
    | r :: rest =>
      runs.take 63 ++ [{ first := r.first, last := rest.foldl (fun _ x => x.last) r.last,
                         edge := r.edge || rest.any FormRun.edge }]

/-- The runs before the clamp of R33. -/
def LineSlot.unclampedRuns (slot : LineSlot) : List FormRun :=
  fleckFilter slot.minRun (joinRuns
    ((mapHeads slot.barReverse slot.usableRuns).filterMap (clipRun slot.winStart slot.winEnd)))

/-- The missing spans of a line, mapped, clipped and joined (R28). -/
def LineSlot.missing (slot : LineSlot) : List Span :=
  let clipped := (mapHeads slot.barReverse slot.missingOf).filterMap (clipSpan slot.winStart slot.winEnd)
  (joinRuns (clipped.map fun m => { first := m.first, last := m.last, edge := false })).map
    fun m => { first := m.first, last := m.last }

/-- Whether some expected head's USABLE entry is CLAMPED (R33). -/
def LineSlot.anyClamped (slot : LineSlot) : Bool :=
  (List.range 8).any (fun h => slot.expects h &&
    (match slot.entry h with
     | .usable _ clamped => clamped
     | _ => false))

/-- A line as handed over (R34). -/
structure FormedLine where
  number : LineNo
  s : Int
  time : Timebase
  delayed : Bool
  steady : Bool
  runs : List FormRun
  missing : List Span
  runClamp : Bool
  deriving DecidableEq, Repr

/-- A line is GAPPED when at least one missing span is left (R28). -/
def FormedLine.gapped (l : FormedLine) : Bool := !l.missing.isEmpty

/-- The forming of a line at its hand-over (R28 to R34). -/
def formLine (slot : LineSlot) : FormedLine :=
  { number := slot.number, s := slot.s, time := slot.time, delayed := slot.delayed, steady := slot.steady,
    runs := clampRuns slot.unclampedRuns, missing := slot.missing,
    runClamp := decide (64 < slot.unclampedRuns.length) || slot.anyClamped }

end Sys2Proof.Machine
end

