-- ==== Sys2Proof/Machine/Tracking.lean ====
section
/-! DEFINITION. The hide tracker's segmentation of one line (chapter 3): held runs, groups, continuing, merging, opening,
the per-line flags, and the hides that close. -/

namespace Sys2Proof.Machine

/-! ## Gathering into groups (R43, R63) -/

/-- A group of current runs or spans: their places in the line's list, and the keys that gathered them. -/
structure Gathering (κ : Type) where
  members : List Nat
  keys : List κ
  deriving Repr

/-- Whether a group and a further member share a key. -/
def Gathering.meets {κ : Type} [DecidableEq κ] (g : Gathering κ) (ks : List κ) : Bool := g.keys.any (fun k => k ∈ ks)

/-- A further member joins all groups it shares a key with into one; the others stay. -/
def addMember {κ : Type} [DecidableEq κ] (gs : List (Gathering κ)) (i : Nat) (ks : List κ) : List (Gathering κ) :=
  let hit := gs.filter (fun g => g.meets ks)
  gs.filter (fun g => !g.meets ks)
    ++ [{ members := hit.flatMap Gathering.members ++ [i], keys := hit.flatMap Gathering.keys ++ ks }]

/-- The members from number `i` on, each with its keys, gathered. -/
def gatherFrom {κ : Type} [DecidableEq κ] : Nat → List (List κ) → List (Gathering κ) → List (Gathering κ)
  | _, [], gs => gs
  | i, ks :: rest, gs => gatherFrom (i + 1) rest (addMember gs i ks)

/-- The groups of a list of members given by their keys: two members are in one group when they share a key, and the
gathering is transitive (R43, R63). A group without a key holds one member; such groups stand in the members' order. -/
def gather {κ : Type} [DecidableEq κ] (kss : List (List κ)) : List (Gathering κ) := gatherFrom 0 kss []

/-- A change of each element of a list by its number, from number `i` on. -/
def mapFrom {α β : Type} (f : Nat → α → β) : Nat → List α → List β
  | _, [] => []
  | i, a :: as => f i a :: mapFrom f (i + 1) as

/-- The numbers of the elements that a test takes, from number `i` on. -/
def indicesFrom {α : Type} (p : Nat → α → Bool) : Nat → List α → List Nat
  | _, [] => []
  | i, a :: as => if p i a then i :: indicesFrom p (i + 1) as else indicesFrom p (i + 1) as

/-! ## Sequence order (R39) -/

/-- The count of sequence numbers, 1 to 2^32-1 (R39). -/
def seqCount : Nat := 2 ^ 32 - 1

/-- How many numbers have been issued after `n`, when the counter holds `counter`: the order of issue (R39; log 16). -/
def issueAge (counter n : Nat) : Nat := (counter + seqCount - 1 - n) % seqCount

/-- The sequence counter after an opening: after 2^32-1 it goes to 1 (R39). -/
def nextSeq (counter : Nat) : Nat := if counter = seqCount then 1 else counter + 1

/-- A record inserted in ascending sequence number, the earliest issued first (R39, R53). -/
def insertByAge (age : Nat → Nat) (r : Nat) : List Nat → List Nat
  | [] => [r]
  | x :: xs => if age x < age r then r :: x :: xs else x :: insertByAge age r xs

/-- Records in ascending sequence number (R53). -/
def sortByAge (age : Nat → Nat) (rs : List Nat) : List Nat := rs.foldl (fun acc r => insertByAge age r acc) []

/-- The record issued earliest, starting from a first (R46). -/
def oldest (age : Nat → Nat) (r : Nat) (rs : List Nat) : Nat := rs.foldl (fun best x => if age best < age x then x else best) r

/-! ## Held runs (R41) -/

/-- Eight-connectivity of a run with a missing span (R41). -/
def touchesSpan (first last : Nat) (m : Span) : Bool := decide (m.first ≤ last + 1) && decide (first ≤ m.last + 1)

/-- Whether a run is eight-connected to a missing span of the line (R41, R54). -/
def touchesMissing (missing : List Span) (first last : Nat) : Bool := missing.any (touchesSpan first last)

/-- A held run put at its place by first cell (R40, R41); behind those with the same first cell (log 15). -/
def insertHeld (h : HeldRun) : List HeldRun → List HeldRun
  | [] => [h]
  | x :: xs => if h.first < x.first then h :: x :: xs else x :: insertHeld h xs

/-- The held runs of a line (R41): copies of the previous runs that touch a missing span, a real run with hold count 1, a
held run with one more unless it is 4 already, and of these the 64 with the lowest first cells. -/
def holdRuns (missing : List Span) (prev : RunList) : List HeldRun :=
  let fromReal := (prev.real.filter (fun r => touchesMissing missing r.first r.last)).map
    fun r => ({ first := r.first, last := r.last, label := r.label, hold := 1 } : HeldRun)
  let fromHeld := (prev.held.filter (fun r => touchesMissing missing r.first r.last && decide (r.hold < 4))).map
    fun r => { r with hold := r.hold + 1 }
  (fromHeld.foldl (fun acc h => insertHeld h acc) fromReal).take 64

/-! ## Connecting (R42, R43) -/

/-- What gathers two current runs: a hide they both continue, or an UNTRACKED previous run they both connect to. Runs that
share a previous run of a hide share that hide, and UNTRACKED is not an identity (R43). -/
inductive RunKey where
  | hide (record : Nat)
  | untrackedRun (index : Nat)
  deriving DecidableEq, Repr

/-- The key of a previous run by its label and its number. -/
def Label.key (i : Nat) : Label → RunKey
  | .hide r => .hide r
  | .untracked => .untrackedRun i

/-- The cells and labels of the previous runs, real and held (R42). -/
def RunList.spans (l : RunList) : List (Span × Label) :=
  l.real.map (fun r => ({ first := r.first, last := r.last }, r.label))
    ++ l.held.map (fun r => ({ first := r.first, last := r.last }, r.label))

/-- The keys of a current run: those of the previous runs it is eight-connected to (R42), from number `i` on. -/
def runKeys (r : FormRun) : Nat → List (Span × Label) → List RunKey
  | _, [] => []
  | i, (p, label) :: rest =>
    if touchesSpan r.first r.last p then label.key i :: runKeys r (i + 1) rest else runKeys r (i + 1) rest

/-- The groups of the current runs (R43). -/
def runGroups (prev : RunList) (runs : List FormRun) : List (Gathering RunKey) :=
  gather (runs.map (fun r => runKeys r 0 prev.spans))

/-- The hides among a group's labels (R44). -/
def Gathering.hides (g : Gathering RunKey) : List Nat :=
  (g.keys.filterMap fun k => match k with | .hide r => some r | .untrackedRun _ => none).eraseDups

/-- Whether UNTRACKED is among a group's labels (R44). -/
def Gathering.untracked (g : Gathering RunKey) : Bool :=
  g.keys.any fun k => match k with | .hide _ => false | .untrackedRun _ => true

/-- The first cell of a group's lowest run and the last cell of its highest (R45, R48). -/
def groupExtent (runs : List FormRun) (members : List Nat) : Nat × Nat :=
  let rs := members.filterMap (runs[·]?)
  match rs with
  | [] => (0, 0)
  | r :: rest => (rest.foldl (fun m x => min m x.first) r.first, rest.foldl (fun m x => max m x.last) r.last)

/-! ## Continuing, merging, opening (R44 to R50) -/

/-- Of two lines, the earlier seen from a line: the larger distance back (R46). -/
def earlierLine (line x y : LineNo) : LineNo := if (line - x).toNat < (line - y).toNat then y else x

/-- Of two lines, the later seen from a line (R46). -/
def laterLine (line x y : LineNo) : LineNo := if (line - y).toNat < (line - x).toNat then y else x

/-- An absorbed hide combined into the survivor (R46). The sums saturate, so taking absorbed hides one by one gives the
same as all at once. -/
def HideRec.absorb (line : LineNo) (s a : HideRec) : HideRec :=
  { s with
    firstLine := earlierLine line s.firstLine a.firstLine
    leading := min s.leading a.leading
    lastLine := laterLine line s.lastLine a.lastLine
    trailing := max s.trailing a.trailing
    cellMin := min s.cellMin a.cellMin
    cellMax := max s.cellMax a.cellMax
    lineCount := satAdd 65535 s.lineCount a.lineCount
    covered := addArea s.covered a.covered
    addBack := addArea s.addBack a.addBack
    smallHoles := satAdd 65535 s.smallHoles a.smallHoles
    largeHoles := satAdd 65535 s.largeHoles a.largeHoles
    joinCount := satAdd 255 (satAdd 255 s.joinCount a.joinCount) 1
    flags := s.flags ||| a.flags ||| Flag.joined.mask }

/-- A hide continued on a line over a group of extent lo..hi (R45). -/
def HideRec.continued (line : LineNo) (sPos : Int) (lo hi : Nat) (r : HideRec) : HideRec :=
  { r with
    lastLine := line
    trailing := sPos
    cellMin := min r.cellMin lo
    cellMax := max r.cellMax hi
    lineCount := satAdd 65535 r.lineCount 1 }

/-- A hide opened on a line over a group of extent lo..hi (R48, R10). -/
def HideRec.opened (seq : Nat) (line : LineNo) (sPos : Int) (lo hi : Nat) (excursion : Bool) : HideRec :=
  { HideRec.free with
    state := .isOpen, seq := seq, firstLine := line, lastLine := line, leading := sPos, trailing := sPos,
    cellMin := lo, cellMax := hi, lineCount := 1
  }.setFlagIf excursion .reversed

/-- The work of one line's segmentation. `labels` are those of the current real runs, absent until their group is
resolved; `merges` gives each absorbed record with its survivor (R47); `refused` counts the groups refused a record (R49). -/
structure SegWork where
  records : List HideRec
  counter : Nat
  prev : RunList
  held : List HeldRun
  labels : List (Option Label)
  merges : List (Nat × Nat)
  refused : Nat
  deriving DecidableEq, Repr

/-- A label with absorbed records replaced by their survivor (R47). -/
def relabel (absorbed : List Nat) (survivor : Nat) : Label → Label
  | .untracked => .untracked
  | .hide r => if r ∈ absorbed then .hide survivor else .hide r

/-- The labels of a group's runs set (R44). -/
def setLabels (members : List Nat) (l : Label) (labels : List (Option Label)) : List (Option Label) :=
  members.foldl (fun acc i => acc.set i (some l)) labels

/-- A group that carries hides resolved: one continues; two or more merge into the one of lowest sequence number, which
continues; with UNTRACKED among the labels it gets INCOMPLETE (R44 to R47, R50). -/
def resolveHides (line : FormedLine) (w : SegWork) (g : Gathering RunKey) : SegWork :=
  match g.hides with
  | [] => w
  | r :: rest =>
    let age := fun x => issueAge w.counter (w.records.getD x .free).seq
    let survivor := oldest age r rest
    let absorbed := (r :: rest).filter (· != survivor)
    let merged := absorbed.foldl (fun acc a => acc.absorb line.number (w.records.getD a .free)) (w.records.getD survivor .free)
    let extent := groupExtent line.runs g.members
    let after := (merged.continued line.number line.s extent.1 extent.2).setFlagIf g.untracked .incomplete
    { w with
      records := (absorbed.foldl (fun l a => l.set a .free) w.records).set survivor after
      prev := { real := w.prev.real.map (fun x => { x with label := relabel absorbed survivor x.label })
                held := w.prev.held.map (fun x => { x with label := relabel absorbed survivor x.label }) }
      held := w.held.map (fun x => { x with label := relabel absorbed survivor x.label })
      labels := setLabels g.members (.hide survivor) w.labels
      merges := w.merges ++ absorbed.map (fun a => (a, survivor)) }

/-- The lowest-numbered FREE record (R36). -/
def freeRecord (records : List HideRec) : Option Nat := records.findIdx? (fun r => r.state == .free)

/-- A group that carries no hide resolved (R44, R48 to R50): UNTRACKED where it continues an untracked region; else it
opens a hide in RUN with a FREE record, and is UNTRACKED otherwise, counted as refused in RUN. -/
def resolveOthers (opens excursion : Bool) (line : FormedLine) (w : SegWork) (g : Gathering RunKey) : SegWork :=
  if !g.hides.isEmpty then w
  else if g.untracked || !opens then { w with labels := setLabels g.members .untracked w.labels }
  else
    match freeRecord w.records with
    | none => { w with labels := setLabels g.members .untracked w.labels, refused := w.refused + 1 }
    | some n =>
      let extent := groupExtent line.runs g.members
      { w with
        records := w.records.set n (HideRec.opened w.counter line.number line.s extent.1 extent.2 excursion)
        counter := nextSeq w.counter
        labels := setLabels g.members (.hide n) w.labels }

/-- All groups of a line resolved: first those that carry hides, then the others in ascending order of first cell (R44). -/
def resolveGroups (opens excursion : Bool) (line : FormedLine) (w : SegWork) : SegWork :=
  let groups := runGroups w.prev line.runs
  groups.foldl (resolveOthers opens excursion line) (groups.foldl (resolveHides line) w)

/-- The current real runs with their labels. -/
def labelRuns : List FormRun → List (Option Label) → List RealRun
  | r :: rs, l :: ls =>
    { first := r.first, last := r.last, edge := r.edge, label := l.getD .untracked } :: labelRuns rs ls
  | _, _ => []

/-! ## Flags and closing (R52, R54) -/

/-- The real runs of a hide. -/
def RunList.realOf (l : RunList) (record : Nat) : List RealRun := l.real.filter (fun r => r.label == .hide record)

/-- Whether a hide has a held run. -/
def RunList.holds (l : RunList) (record : Nat) : Bool := l.held.any (fun r => r.label == .hide record)

/-- Whether a hide is present on the line: it has a real or a held run (section 3.5). -/
def RunList.present (l : RunList) (record : Nat) : Bool := !(l.realOf record).isEmpty || l.holds record

/-- The per-line flags of a present hide (R54). -/
def HideRec.lineFlags (line : FormedLine) (cur : RunList) (lockOpen : Bool) (n : Nat) (r : HideRec) : HideRec :=
  if r.state == .isOpen && cur.present n then
    let real := cur.realOf n
    (((((r.setFlagIf (line.gapped && (cur.holds n || real.any (fun x => touchesMissing line.missing x.first x.last))) .gapped)
      |>.setFlagIf line.runClamp .runClamp)
      |>.setFlagIf line.delayed .overspeed)
      |>.setFlagIf (!line.steady) .unsteady)
      |>.setFlagIf (real.any RealRun.edge) .edge)
      |>.setFlagIf lockOpen .unverified
  else r

/-- A line segmented: the tracker with the labelled current list, the records that close on the line in ascending sequence
number, the merge list, and the groups refused a record. -/
structure Segmented where
  trk : Tracker
  closing : List Nat
  merges : List (Nat × Nat)
  refused : Nat
  deriving DecidableEq, Repr

/-- The segmentation of a line (R41 to R54). The current list stays current until the closing hides are handed on (R53);
the previous list carries the survivors' labels (R47). -/
def segmentLine (opens excursion lockOpen : Bool) (line : FormedLine) (t : Tracker) : Segmented :=
  let w := resolveGroups opens excursion line
    { records := t.records, counter := t.counter, prev := t.prev, held := holdRuns line.missing t.prev,
      labels := line.runs.map (fun _ => none), merges := [], refused := 0 }
  let cur : RunList := { real := labelRuns line.runs w.labels, held := w.held }
  let records := mapFrom (HideRec.lineFlags line cur lockOpen) 0 w.records
  let closing := indicesFrom (fun n (r : HideRec) => r.state == .isOpen && !cur.present n) 0 records
  { trk := { t with records := records, prev := w.prev, cur := cur, counter := w.counter,
                    overflow := satAdd 65535 t.overflow w.refused }
    closing := sortByAge (fun n => issueAge w.counter (records.getD n .free).seq) closing
    merges := w.merges
    refused := w.refused }

end Sys2Proof.Machine
end

