-- ==== Sys2Proof/Machine/Gaps.lean ====
section
/-! DEFINITION. The gap tracker: interior gap spans, gap records, holes and notches (chapter 4). -/

namespace Sys2Proof.Machine

/-! ## Widths (R75) -/

/-- The width of a run or span, CUMW[e+1] - CUMW[s] (R75). -/
def cellWidth (cumw : List Nat) (first last : Nat) : Nat := cumw.getD (last + 1) 0 - cumw.getD first 0

/-! ## Spans (R61, R63) -/

/-- Whether a span shares a cell with a missing span: it is blind (R61). -/
def blind (missing : List Span) (first last : Nat) : Bool :=
  missing.any (fun m => decide (m.first ≤ last) && decide (first ≤ m.last))

/-- The interior gap spans of a line: between neighbouring real runs of one hide, but for blind ones (R61). They carry no
record yet. -/
def interiorSpans (missing : List Span) : List RealRun → List GapSpan
  | r :: r' :: rest =>
    (match r.label, r'.label with
      | .hide a, .hide b =>
        if a = b ∧ blind missing (r.last + 1) (r'.first - 1) = false then
          [{ first := r.last + 1, last := r'.first - 1, hide := a, gap := none }]
        else []
      | _, _ => []) ++ interiorSpans missing (r' :: rest)
  | _ => []

/-- What gathers two current spans: a record they both continue, or an untracked previous span they both connect to
(R63). -/
inductive SpanKey where
  | gapRecord (n : Nat)
  | untrackedSpan (index : Nat)
  deriving DecidableEq, Repr

/-- Whether a current span connects to a previous one: the same hide and a shared cell (R63). -/
def GapSpan.connects (s p : GapSpan) : Bool :=
  s.hide == p.hide && decide (p.first ≤ s.last) && decide (s.first ≤ p.last)

/-- The keys of a current span: those of the previous spans it connects to, from number `i` on (R63). -/
def spanKeys (s : GapSpan) : Nat → List GapSpan → List SpanKey
  | _, [] => []
  | i, p :: rest =>
    if s.connects p then
      (match p.gap with
        | some n => .gapRecord n
        | none => .untrackedSpan i) :: spanKeys s (i + 1) rest
    else spanKeys s (i + 1) rest

/-- The groups of the current spans (R63). -/
def spanGroups (prev cur : List GapSpan) : List (Gathering SpanKey) := gather (cur.map (fun s => spanKeys s 0 prev))

/-- The records among a group's gap labels (R63). -/
def Gathering.gapRecords (g : Gathering SpanKey) : List Nat :=
  (g.keys.filterMap fun k => match k with | .gapRecord n => some n | .untrackedSpan _ => none).eraseDups

/-- Whether UNTRACKED_GAP is among a group's gap labels (R70). -/
def Gathering.untrackedGap (g : Gathering SpanKey) : Bool :=
  g.keys.any fun k => match k with | .gapRecord _ => false | .untrackedSpan _ => true

/-! ## Closure (R65, R67, R69) -/

/-- Whether a cell lies under a real run of a hide: what R69 asks of an opening. A clamped run covers the cells of a missing span
that it crosses (R33). -/
def underRun (runs : List RealRun) (hide cell : Nat) : Bool :=
  runs.any (fun r => r.label == .hide hide && decide (r.first ≤ cell) && decide (cell ≤ r.last))

/-- Whether a cell counts as covered in a closure check or at a gap's end: under a real run of the hide, and in no missing span of
the line, also where a clamped run crosses the span (R65; R71, for the end by log 38). -/
def coveredBy (missing : List Span) (runs : List RealRun) (hide cell : Nat) : Bool :=
  underRun runs hide cell
    && !missing.any (fun m => decide (m.first ≤ cell) && decide (cell ≤ m.last))

/-- Whether a cell lies inside one of some spans. -/
def insideSpans (spans : List GapSpan) (cell : Nat) : Bool :=
  spans.any (fun p => decide (p.first ≤ cell) && decide (cell ≤ p.last))

/-- Whether every cell of some spans passes a test. -/
def everyCell (spans : List GapSpan) (p : Nat → Bool) : Bool :=
  spans.all (fun s => (List.range (s.last + 1 - s.first)).all (fun k => p (s.first + k)))

/-- The closure check in one direction (R65): every cell of `spans` lies inside `others` or is covered by a real run of the
hide on the line that `missing` and `runs` are of. -/
def closedAgainst (spans others : List GapSpan) (missing : List Span) (runs : List RealRun) (hide : Nat) : Bool :=
  everyCell spans (fun c => insideSpans others c || coveredBy missing runs hide c)

/-- What the examination of a line reads: the widths, the advance, HOLE_LIMIT in µm², the previous line's and this line's
missing spans and real runs (R65, R66, R68). -/
structure GapView where
  cumw : List Nat
  advance : Nat
  limit : Nat
  prevMissing : List Span
  curMissing : List Span
  prevReal : List RealRun
  curReal : List RealRun
  prevSpans : List GapSpan
  deriving DecidableEq, Repr

/-- The work of one line's examination. `spans` are the current spans with their gap labels so far; absent stands for
UNTRACKED_GAP. -/
structure GapWork where
  table : List (Option GapRec)
  order : List Nat
  spans : List GapSpan
  records : List HideRec
  refused : Nat
  deriving DecidableEq, Repr

/-- The area of spans on the line (R66). -/
def GapView.strip (v : GapView) (spans : List GapSpan) : Nat :=
  (spans.map (fun s => cellWidth v.cumw s.first s.last)).sum * v.advance

/-- Records freed: they leave the table and the gap order (R60). -/
def GapWork.free (w : GapWork) (ns : List Nat) : GapWork :=
  { w with table := ns.foldl (fun t n => t.set n none) w.table, order := w.order.filter (fun n => decide (n ∉ ns)) }

/-- A gap record of the work; a FREE one reads as an empty notch. -/
def GapWork.record (w : GapWork) (n : Nat) : GapRec :=
  (w.table.getD n none).getD { hide := 0, topClosed := false, bottomOpen := true, area := 0 }

/-- The last spans of a record (R60). -/
def GapView.lastSpans (v : GapView) (n : Nat) : List GapSpan := v.prevSpans.filter (fun p => p.gap == some n)

/-- A group that carries a record resolved (R64 to R66, R70): with UNTRACKED_GAP its records are freed without being
ended; else the oldest continues, takes the others in, is checked for closure and gains the line's strips. -/
def continueGap (v : GapView) (w : GapWork) (g : Gathering SpanKey) : GapWork :=
  match g.gapRecords with
  | [] => w
  | n :: rest =>
    if g.untrackedGap then w.free (n :: rest)
    else
      let survivor := (w.order.find? (fun x => decide (x ∈ n :: rest))).getD n
      let others := (n :: rest).filter (· != survivor)
      let cur := g.members.filterMap (w.spans[·]?)
      let before := v.prevSpans.filter (fun p => p.gap.any (fun x => decide (x ∈ n :: rest)))
      let s := w.record survivor
      let merged : GapRec :=
        { hide := s.hide
          topClosed := (n :: rest).all (fun x => (w.record x).topClosed)
            && closedAgainst cur before v.prevMissing v.prevReal s.hide
          bottomOpen := (n :: rest).any (fun x => (w.record x).bottomOpen)
            || !closedAgainst before cur v.curMissing v.curReal s.hide
          area := addArea (others.foldl (fun a x => addArea a (w.record x).area) s.area) (v.strip cur) }
      let w₁ := w.free others
      { w₁ with
        table := w₁.table.set survivor (some merged)
        spans := g.members.foldl (fun l i => l.modify i (fun x => { x with gap := some survivor })) w₁.spans }

/-- Whether a record's gap, ending on this line, is a hole (R67, R71). -/
def isHole (v : GapView) (r : GapRec) (spans : List GapSpan) : Bool :=
  r.topClosed && !r.bottomOpen && everyCell spans (fun c => coveredBy v.curMissing v.curReal r.hide c)

/-- A hole counted at its hide: small and added back at or below the limit, else large (R68). -/
def HideRec.countHole (limit area : Nat) (r : HideRec) : HideRec :=
  if area ≤ limit then { r with addBack := addArea r.addBack area, smallHoles := satAdd 65535 r.smallHoles 1 }
  else { r with largeHoles := satAdd 65535 r.largeHoles 1 }

/-- A record ended: classified, counted at its hide if a hole, and freed (R67, R68). -/
def endGap (v : GapView) (w : GapWork) (n : Nat) : GapWork :=
  let r := w.record n
  let w₁ := w.free [n]
  if isHole v r (v.lastSpans n) then { w₁ with records := w₁.records.modify r.hide (HideRec.countHole v.limit r.area) } else w₁

/-- A group without a label resolved (R69, R70): it opens the lowest-numbered FREE record, or is refused, stays
UNTRACKED_GAP, and gives its hide GAP_CLAMP. -/
def openGap (v : GapView) (w : GapWork) (g : Gathering SpanKey) : GapWork :=
  if !g.keys.isEmpty then w
  else
    let cur := g.members.filterMap (w.spans[·]?)
    let hide := (cur.map GapSpan.hide).headD 0
    match w.table.findIdx? Option.isNone with
    | none => { w with records := w.records.modify hide (HideRec.setFlag .gapClamp), refused := w.refused + 1 }
    | some n =>
      { w with
        table := w.table.set n (some {
          hide := hide, bottomOpen := false, area := addArea 0 (v.strip cur)
          topClosed := everyCell cur (underRun v.prevReal hide) })
        order := w.order ++ [n]
        spans := g.members.foldl (fun l i => l.modify i (fun x => { x with gap := some n })) w.spans }

/-- A hide number with absorbed hides replaced by their survivors (R62). -/
def survivorOf (merges : List (Nat × Nat)) (hide : Nat) : Nat :=
  merges.foldl (fun h m => if h = m.1 then m.2 else h) hide

/-- The gap tracker with the labels of absorbed hides replaced (R62). -/
def GapTracker.relabel (merges : List (Nat × Nat)) (g : GapTracker) : GapTracker :=
  { g with
    table := g.table.map (Option.map fun r => { r with hide := survivorOf merges r.hide })
    prevSpans := g.prevSpans.map (fun p => { p with hide := survivorOf merges p.hide }) }

/-- A line examined: the gap tracker, the hide records and the groups refused a record. -/
structure GapResult where
  gap : GapTracker
  records : List HideRec
  refused : Nat
  deriving DecidableEq, Repr

/-- The examination of a labelled line, stage by stage (section 4.3): relabel, continue and merge, end, open. -/
def examineLine (cumw : List Nat) (advance holeLimit : Nat) (missing : List Span) (merges : List (Nat × Nat))
    (prevReal curReal : List RealRun) (records : List HideRec) (g : GapTracker) : GapResult :=
  let g₁ := g.relabel merges
  let v : GapView := { cumw := cumw, advance := advance, limit := holeLimit * 10 ^ 6, prevMissing := g₁.prevMissing,
                       curMissing := missing, prevReal := prevReal, curReal := curReal, prevSpans := g₁.prevSpans }
  let cur := interiorSpans missing curReal
  let groups := spanGroups g₁.prevSpans cur
  let w₁ := groups.foldl (continueGap v)
    { table := g₁.table, order := g₁.order, spans := cur, records := records, refused := 0 }
  let ended := g₁.order.filter (fun n => !groups.any (fun x => decide (n ∈ x.gapRecords)))
  let w₂ := ended.foldl (endGap v) w₁
  let w₃ := groups.foldl (openGap v) w₂
  { gap := { table := w₃.table, order := w₃.order, prevSpans := w₃.spans, prevMissing := missing,
             overflow := satAdd 65535 g.overflow w₃.refused }
    records := w₃.records
    refused := w₃.refused }

end Sys2Proof.Machine
end

