-- ==== Sys2Proof/Machine/Area.lean ====
section
/-! DEFINITION. The area unit: cumulative widths, line advance, strips, and the finalization of a hide's area (chapter 5). -/

namespace Sys2Proof.Machine

/-! ## The cumulative width table (R74) -/

/-- The sums of widths from a start on. -/
def sumsFrom : Nat → List Nat → List Nat
  | acc, [] => [acc]
  | acc, w :: ws => acc :: sumsFrom (acc + w) ws

/-- CUMW from CELLW: CUMW[0] is 0 and CUMW[i+1] = CUMW[i] + W[i] (R74). -/
def deriveCumw (cellw : List Nat) : List Nat := sumsFrom 0 cellw

/-! ## Line advance (R76) -/

/-- The advance of a handed-over line: the latched pitch for the first line, else S less the base (R76). With the base
NONE no line is handed over; the advance is then 0. -/
def AdvanceBase.advance (b : AdvanceBase) (sPos : Int) : Int :=
  match b with
  | .noLine => 0
  | .firstLine pitch => pitch
  | .previous p => sPos - p

/-- The area unit after a line's advance: the base becomes PREVIOUS with the line's S, the advance is kept (R76). -/
def AreaUnit.takeLine (sPos : Int) (a : AreaUnit) : AreaUnit :=
  { a with base := .previous sPos, lastAdvance := a.base.advance sPos }

/-! ## Strips (R77) -/

/-- The strip width of a hide: the widths of its real runs on the line (R77). -/
def stripWidth (cumw : List Nat) (runs : List RealRun) : Nat :=
  (runs.map (fun r => cellWidth cumw r.first r.last)).sum

/-- A hide's covered area with the line's strip added (R77). -/
def HideRec.addStrip (cumw : List Nat) (advance : Nat) (cur : RunList) (n : Nat) (r : HideRec) : HideRec :=
  if (cur.realOf n).isEmpty then r
  else { r with covered := addArea r.covered (stripWidth cumw (cur.realOf n) * advance) }

/-! ## Finalization (R79 to R86) -/

/-- The gross area: covered area plus add-back, saturating at 2^64-1 (R80). -/
def HideRec.gross (r : HideRec) : Nat := addArea r.covered r.addBack

/-- The trimmed area: the floor of G × (1,000,000 + TRIM_PPM) / 1,000,000 (R81). -/
def trimmed (calib : CalibRec) (gross : Nat) : Nat := gross * (1000000 + calib.trimPpm).toNat / 1000000

/-- The quantum of a unit in µm² (R83). -/
def MeasureUnit.quantum : MeasureUnit → Nat
  | .footQuarter => 23225760000
  | .decimetre => 10000000000

/-- The top of a unit's value range (R85). -/
def MeasureUnit.maxValue : MeasureUnit → Nat
  | .footQuarter => 3999
  | .decimetre => 9999

/-- The rounded value of a trimmed area, from its quotient and remainder by the quantum (R83, R84). -/
def roundedValue (mode : Rounding) (quantum t : Nat) : Nat :=
  let k := t / quantum
  let r := t % quantum
  match mode with
  | .down => k
  | .nearest => if quantum ≤ 2 * r then k + 1 else k
  | .up => if 0 < r then k + 1 else k

/-- Whether a trimmed area is a fragment's (R82). -/
def isFragment (calib : CalibRec) (t : Nat) : Bool := decide (0 < calib.minHide) && decide (t < calib.minHide * 10 ^ 8)

/-- The finalization of a closed hide's area under a CALIB: FRAGMENT without a value, or the final value with its unit,
saturated with OVERRANGE (R79 to R86). -/
def HideRec.valued (calib : CalibRec) (r : HideRec) : HideRec :=
  let t := trimmed calib r.gross
  if isFragment calib t then r.setFlag .fragment
  else
    let v := roundedValue calib.round calib.unit.quantum t
    { r with value := some { value := min v calib.unit.maxValue, unit := calib.unit } }.setFlagIf
      (decide (calib.unit.maxValue < v)) .overrange

end Sys2Proof.Machine
end

