-- ==== Sys2Proof/Machine/Image.lean ====
section
/-! DEFINITION. The image composer: anchor samples, anchor selection, the footage text, rendering (chapter 6). -/

namespace Sys2Proof.Machine

/-! ## Anchor samples (R88 to R90) -/

/-- Of two real runs, the wider in µm; of equally wide ones the first, which has the lower first cell (R88). -/
def widerRun (cumw : List Nat) (best r : RealRun) : RealRun :=
  if cellWidth cumw best.first best.last < cellWidth cumw r.first r.last then r else best

/-- The sample of a line from a hide's real runs: its widest run's centre cell and width, at the line's S (R88). -/
def sampleOf (cumw : List Nat) (sPos : Int) (r : RealRun) (rest : List RealRun) : Sample :=
  let widest := rest.foldl (widerRun cumw) r
  { p := sPos, c := (widest.first + widest.last) / 2, w := cellWidth cumw widest.first widest.last }

/-- Whether a hide is due a sample: its ring is empty, or S has come ANCHOR_STRIDE past its latest sample (R88). -/
def sampleDue (stride : Nat) (ring : List Sample) (sPos : Int) : Bool :=
  match ring.getLast? with
  | none => true
  | some x => decide (x.p + stride ≤ sPos)

/-- A sample appended to a ring of at most 8, the earliest removed first when it is full (R89). -/
def appendSample (ring : List Sample) (x : Sample) : List Sample :=
  (if 8 ≤ ring.length then ring.drop 1 else ring) ++ [x]

/-- Whether a new sample is latched: far enough from the leading position and wide enough (R90). -/
def latches (markp : MarkpRec) (leading : Int) (x : Sample) : Bool :=
  decide (leading + markp.anchorOffset ≤ x.p) && decide (markp.stampWidth ≤ x.w)

/-- The anchor sampling of one hide on a line (R88 to R90). -/
def HideRec.sampled (cumw : List Nat) (markp : MarkpRec) (sPos : Int) (cur : RunList) (n : Nat) (r : HideRec) : HideRec :=
  match cur.realOf n with
  | [] => r
  | run :: rest =>
    if sampleDue markp.anchorStride r.ring sPos then
      let x := sampleOf cumw sPos run rest
      { r with
        ring := appendSample r.ring x
        latched := match r.latched with
          | some l => some l
          | none => if latches markp r.leading x then some x else none }
    else r

/-! ## Anchor selection (R92) -/

/-- Of two samples, the nearer to the target; of equally near ones the one of greater P, which comes later in the ring
(R92). -/
def nearerSample (target : Int) (best x : Sample) : Sample :=
  if (x.p - target).natAbs ≤ (best.p - target).natAbs then x else best

/-- Of two samples, the wider; of equally wide ones the later (R92). -/
def widerSample (best x : Sample) : Sample := if best.w ≤ x.w then x else best

/-- The trailing search over the ring (R92); absent only for an empty ring. -/
def trailingSearch (markp : MarkpRec) (trailing : Int) (ring : List Sample) : Option Sample :=
  match ring.filter (fun x => decide (markp.stampWidth ≤ x.w)) with
  | x :: rest => some (rest.foldl (nearerSample (trailing - markp.anchorOffset)) x)
  | [] =>
    match ring with
    | x :: rest => some (rest.foldl widerSample x)
    | [] => none

/-- The anchor of a closed hide by ANCHOR_MODE (R92). -/
def HideRec.anchor (markp : MarkpRec) (r : HideRec) : Option Sample :=
  match markp.anchorMode, r.latched with
  | .leading, some l => some l
  | _, _ => trailingSearch markp r.trailing r.ring

/-- A hide whose ring is reduced to its anchor (R92). -/
def HideRec.anchored (markp : MarkpRec) (r : HideRec) : HideRec := { r with ring := (r.anchor markp).toList }

/-! ## The anchor's lane (R93) -/

/-- The lowest-numbered ENABLED lane whose cells contain the anchor's centre cell (R93). -/
def laneOf (lanes : List LaneRec) (c : Nat) : Option Nat :=
  lanes.findIdx? (fun l => l.enabled && decide (l.cellFirst ≤ c) && decide (c ≤ l.cellLast))

/-! ## The footage text (R94 to R97) -/

/-- The decimal digits of a figure of at most 9,999, most significant first, without leading zeros (R94). -/
def figureDigits (n : Nat) : List Nat :=
  if n < 10 then [n]
  else if n < 100 then [n / 10, n % 10]
  else if n < 1000 then [n / 100, n / 10 % 10, n % 10]
  else [n / 1000, n / 100 % 10, n / 10 % 10, n % 10]

/-- The figure of a value in its unit: whole feet and the quarter sign, or decimetres (R94). -/
def figureText (v : FinalValue) : List Nat :=
  match v.unit with
  | .footQuarter => figureDigits (v.value / 4) ++ (if v.value % 4 = 0 then [] else [9 + v.value % 4])
  | .decimetre => figureDigits v.value

/-- The text of a hide valued on its stamp (R94): prefix, figure, unverified sign. -/
def valueText (prefixGlyph : Option Nat) (lockOpen : Bool) (v : FinalValue) : List Nat :=
  prefixGlyph.toList ++ figureText v ++ (if lockOpen then [13] else [])

/-- The text of a closed hide (R94, R95): the reject sign alone for a JOINED hide under REJECT_MARK. -/
def hideText (policy : JoinPolicy) (prefixGlyph : Option Nat) (lockOpen : Bool) (r : HideRec) : List Nat :=
  if r.has .joined && policy == .rejectMark then [14]
  else
    match r.value with
    | some v => valueText prefixGlyph lockOpen v
    | none => []

/-! ## Rendering (R98 to R100) -/

/-- A glyph placed at a start column (R99). -/
structure Placed where
  start : Nat
  glyph : GlyphRec
  deriving DecidableEq, Repr

/-- The start of the glyph after one: its start plus its width plus GLYPH_GAP, but never left of its start (R99). -/
def nextStart (gap : Int) (start width : Nat) : Nat := max start ((start : Int) + width + gap).toNat

/-- The glyphs of a text placed left to right from a start column (R99). -/
def placeFrom (gap : Int) : Nat → List GlyphRec → List Placed
  | _, [] => []
  | start, g :: rest => { start := start, glyph := g } :: placeFrom gap (nextStart gap start g.width) rest

/-- The full width: the greatest end column of any glyph (R99). -/
def fullWidth (ps : List Placed) : Nat := ps.foldl (fun m p => max m (p.start + p.glyph.width)) 0

/-- A column of a placed glyph's drawing; blank outside its first WIDTH columns (R98). -/
def Placed.column (p : Placed) (c : Nat) : Dots :=
  if p.start ≤ c ∧ c < p.start + p.glyph.width then p.glyph.columns.getD (c - p.start) 0 else 0

/-- A column of the image: the OR of all glyphs drawn over it (R99). -/
def imageColumn (ps : List Placed) (c : Nat) : Dots := ps.foldl (fun d p => d ||| p.column c) 0

/-- The glyphs of a text, placed (R98, R99). -/
def placeText (glyphs : List GlyphRec) (gap : Int) (text : List Nat) : List Placed :=
  placeFrom gap 0 (text.map (fun g => glyphs.getD g .default))

/-- A rendered text: its columns, at most 64, and whether it was cut (R100). -/
structure Rendered where
  columns : List Dots
  cut : Bool
  deriving DecidableEq, Repr

/-- The rendering of a text (R98 to R100). -/
def render (glyphs : List GlyphRec) (gap : Int) (text : List Nat) : Rendered :=
  let ps := placeText glyphs gap text
  let width := fullWidth ps
  { columns := (List.range (min width 64)).map (imageColumn ps), cut := decide (64 < width) }

/-! ## What the composer hands on (R91) -/

/-- The composer's result for a closed hide (R91). -/
inductive Composed where
  | notMarked
  | noLane
  | noImage
  | image (lane slot columns : Nat)
  deriving DecidableEq, Repr

/-- The image composer's work on a closed record (R91, R101): the anchor is selected in every case; then NOT_MARKED,
NO_LANE, NO_IMAGE, or an image in the lowest-numbered FREE slot. -/
def State.compose (s : State) (r : HideRec) : HideRec × List (Option HeldImage) × Composed :=
  let r₁ := r.anchored s.cmd.active.markp
  if r₁.has .fragment then (r₁, s.img, .notMarked)
  else if r₁.has .joined && s.cmd.active.markp.joinPolicy == .noMark then (r₁, s.img, .notMarked)
  else
    match laneOf s.cmd.active.lanes ((r₁.ring.map Sample.c).headD 0) with
    | none => (r₁, s.img, .noLane)
    | some lane =>
      let slotNo := (s.cmd.active.lanes.getD lane .default).lotSlot
      let r₂ := { r₁ with lane := some lane, lotSlot := some slotNo }
      let text := hideText s.cmd.active.markp.joinPolicy (s.cmd.active.lots.getD slotNo .default).prefixGlyph s.ver.lockOpen r₂
      match s.freeSlot with
      | none => (r₂, s.img, .noImage)
      | some slot =>
        let d := render s.cmd.active.glyphs s.cmd.active.markp.glyphGap text
        (r₂.setFlagIf d.cut .markTrunc, s.img.set slot (some { holder := .hide r.seq, columns := d.columns }),
          .image lane slot d.columns.length)

end Sys2Proof.Machine
end

