-- ==== Sys2Proof/Machine/Marking.lean ====
section
/-! DEFINITION. The mark scheduler: stamp geometry, trials, schedules, marking engines, head states, test marks
(chapter 7), and the marking queue the engines hand frames to (R165). -/

namespace Sys2Proof.Machine

/-! ## Stamp geometry (R109, R110) -/

/-- The across-belt centre of a cell, X_c = CUMW[c] + floor(W[c]/2) (R109). -/
def cellCentre (cumw cellw : List Nat) (c : Nat) : Nat := cumw.getD c 0 + cellw.getD c 0 / 2

/-- The anchor row on a head: the floor of (X_c - EDGE) / NOZZLE_PITCH, or -1 below EDGE (R109). -/
def anchorRow (e : HeadRec) (x : Nat) : Int := if e.edge ≤ x then ((x - e.edge) / e.nozzlePitch : Nat) else -1

/-- A nozzle base and whether it was clamped (R109). -/
structure NozzleBase where
  base : Nat
  clamped : Bool
  deriving DecidableEq, Repr

/-- The nozzle base: the anchor row less 8, kept within 0..NOZZLES-16 (R109). -/
def nozzleBase (e : HeadRec) (x : Nat) : NozzleBase :=
  let b := anchorRow e x - 8
  if b < 0 then { base := 0, clamped := true }
  else if ((e.nozzles - 16 : Nat) : Int) < b then { base := e.nozzles - 16, clamped := true }
  else { base := b.toNat, clamped := false }

/-- What a hide brings to a trial (R109, R110, R120). -/
structure StampRequest where
  seq : Nat
  columns : Nat
  pitch : Nat
  slot : Nat
  anchorP : Int
  anchorC : Nat
  lane : LaneHeads
  deriving DecidableEq, Repr

/-- The image length L = n × COLUMN_PITCH (R110). -/
def StampRequest.length (q : StampRequest) : Nat := q.columns * q.pitch

/-- The wanted start P_anchor + OFFSET - floor(L/2) (R110). -/
def wantedStart (e : HeadRec) (q : StampRequest) : Int := q.anchorP + e.offset - ((q.length / 2 : Nat) : Int)

/-! ## The trial (R112) -/

/-- Whether a start clears a reservation by GUARD: after its end, or, unless its engine has primed, before its start
(R112 step 4). -/
def clearsOne (guard length : Nat) (p : Int) (primed : Bool) (r : Reservation) : Bool :=
  decide (r.stop + guard ≤ p) || (!primed && decide (p + length + guard ≤ r.start))

/-- Whether a start clears every reservation of a schedule; `primed`: the engine serves the first (R112 step 4). -/
def clearsAll (guard length : Nat) (p : Int) (primed : Bool) : List Reservation → Bool
  | [] => true
  | r :: rest => clearsOne guard length p primed r && rest.all (clearsOne guard length p false)

/-- The starts tried: P_start, then the ends plus GUARD of the reservations at or after it, in the schedule's rising order
(R112 step 4, R111). -/
def candidateStarts (guard : Nat) (pStart : Int) (schedule : List Reservation) : List Int :=
  pStart :: (schedule.map (fun r => r.stop + (guard : Int))).filter (fun p => decide (pStart ≤ p))

/-- Why a trial fails (R112). -/
inductive TrialFailure where
  | down | late | busy
  deriving DecidableEq, Repr

/-- A trial's result (R112). -/
inductive TrialResult where
  | accepted (start : Int)
  | failed (why : TrialFailure)
  deriving DecidableEq, Repr

/-- The trial of a stamp on a head's schedule, the HWM as it stands (R112). -/
def trialOn (e : HeadRec) (m : MarkHead) (hwm : Int) (shiftWindow : Nat) (q : StampRequest) : TrialResult :=
  if m.state ≠ .online then .failed .down
  else
    let pStart := wantedStart e q
    if pStart - e.primeLead ≤ hwm then .failed .late
    else if Config.schedulePlaces ≤ m.schedule.length then .failed .busy
    else
      match (candidateStarts e.guard pStart m.schedule).find?
          (fun p => clearsAll e.guard q.length p m.engine.isSome m.schedule) with
      | some p => if p - pStart ≤ shiftWindow then .accepted p else .failed .busy
      | none => .failed .busy

/-- The trial of a hide on a head (R112). -/
def State.trial (s : State) (h : Nat) (q : StampRequest) : TrialResult :=
  trialOn (s.headEntry h) (s.head h) s.pos.hwm s.cmd.active.markp.shiftWindow q

/-- A reservation put at its place in start order (R111). -/
def insertReservation (r : Reservation) : List Reservation → List Reservation
  | [] => [r]
  | x :: xs => if r.start < x.start then r :: x :: xs else x :: insertReservation r xs

/-- The nozzle base of a stamp on a head (R109). -/
def State.baseOn (s : State) (h : Nat) (c : Nat) : NozzleBase :=
  nozzleBase (s.headEntry h) (cellCentre s.area.cumw s.cmd.active.cellw c)

/-- A trial's success taken: the reservation enters the schedule, the mark plan is written, MARK_EDGE is judged, the record
is WAITING (R113, R120). -/
def State.accept (h : Nat) (q : StampRequest) (start : Int) (s : State) : State :=
  let b := s.baseOn h q.anchorC
  let r : Reservation :=
    { holder := .hide q.seq, start := start, stop := start + q.length, columns := q.columns, pitch := q.pitch,
      slot := q.slot, base := b.base, anchorP := q.anchorP, anchorC := q.anchorC, lane := some q.lane }
  (s.onHead h (fun m => { m with schedule := insertReservation r m.schedule })).mapRecs
    (onSeq q.seq fun x =>
      ({ x with state := .waiting, plan := some { head := h, columns := q.columns, slot := q.slot } }).setFlagIf
        b.clamped .markEdge)

/-- A hide tried on heads in turn: the first trial that succeeds takes the reservation; else the failures in turn (R113). -/
def State.tryHeads (s : State) (q : StampRequest) : List Nat → Except (List TrialFailure) State
  | [] => .error []
  | h :: hs =>
    match s.trial h q with
    | .accepted start => .ok (s.accept h q start)
    | .failed f =>
      match s.tryHeads q hs with
      | .ok t => .ok t
      | .error fs => .error (f :: fs)

/-- The MISSED outcome from the failures of every candidate head (R114). -/
def outcomeOf (fs : List TrialFailure) : MarkOutcome :=
  if fs.all (· == .down) then .missedHeadDown
  else if fs.any (· == .late) then .missedLate
  else .missedBusy

/-- A hide given up with an outcome: its slot is released and it goes to REPORTING (R114, R120). -/
def State.giveUp (q : StampRequest) (outcome : MarkOutcome) (s : State) : State :=
  (s.releaseSlot q.slot).toReporting q.seq (some outcome)

/-- A hide with an image planned on the heads given, and given up by R114 when every trial fails (R113, R114, R121). -/
def State.planOn (heads : List Nat) (q : StampRequest) (s : State) : State :=
  match s.tryHeads q heads with
  | .ok t => t
  | .error fs => s.giveUp q (outcomeOf fs)

/-! ## Test marks ending (R124) -/

/-- How a test mark ends (R124). -/
inductive TestOutcome where
  | marked | partSent | missedHeadDown
  deriving DecidableEq, Repr

/-- The code of a test outcome: its place in R124's list (R184; log 21). -/
def TestOutcome.code : TestOutcome → Nat
  | .marked => 0 | .partSent => 1 | .missedHeadDown => 2

/-- The answer of an ended test mark: outcome, column count, columns sent, whether the image was cut (R124). -/
def testAnswer (t : TestMark) (outcome : TestOutcome) (sent : Nat) : Answer :=
  { status := .ok, data := beBytes 1 outcome.code ++ beBytes 1 t.columns ++ beBytes 1 sent ++ beBool t.cut }

/-- A test mark ended: its slot is released and its response is placed, or waits for room (R124). -/
def State.endTest (outcome : TestOutcome) (sent slot : Nat) (s : State) : State :=
  match s.mark.test with
  | none => s.releaseSlot slot
  | some t =>
    let s₁ := s.releaseSlot slot
    let r := s₁.answerLater (.test (s₁.rspFrame t.src codeTestMark (testAnswer t outcome sent)))
    { r.1 with mark := { r.1.mark with test := if r.2 then none else some { t with ended := true } } }

/-! ## Loss and change of a head (R107, R119 to R121) -/

/-- A head's state set; a change makes its HEAD note pending (R107). -/
def State.setHeadState (h : Nat) (st : HeadState) (s : State) : State :=
  if (s.head h).state = st then s else (s.onHead h (fun m => { m with state := st })).headNote h

/-- The other of a lane's recorded heads (R120). -/
def LaneHeads.other (l : LaneHeads) (h : Nat) : Option Nat := if h = l.pri then l.alt else some l.pri

/-- What a reservation's hide brings to a further trial: the recorded anchor, column count and pitch (R120). -/
def Reservation.request (r : Reservation) (seq : Nat) (lane : LaneHeads) : StampRequest :=
  { seq := seq, columns := r.columns, pitch := r.pitch, slot := r.slot, anchorP := r.anchorP, anchorC := r.anchorC,
    lane := lane }

/-- A removed reservation's holder tried anew on the heads chosen from its lane heads; the test mark ends
MISSED_HEAD_DOWN (R120, R121, R124). `lost`: a trial that fails leaves MISSED_HEAD_DOWN whatever failed (R120). -/
def State.replan (lost : Bool) (heads : LaneHeads → List Nat) (r : Reservation) (s : State) : State :=
  match r.holder, r.lane with
  | .testMark, _ => s.endTest .missedHeadDown 0 r.slot
  | .hide seq, none => (s.releaseSlot r.slot).toReporting seq (some .missedHeadDown)
  | .hide seq, some l =>
    match s.tryHeads (r.request seq l) (heads l) with
    | .ok t => t
    | .error fs => s.giveUp (r.request seq l) (if lost then .missedHeadDown else outcomeOf fs)

/-- A hide replanned after the loss of its head, on the other recorded head (R120). -/
def State.replanLost (h : Nat) (r : Reservation) (s : State) : State :=
  s.replan true (fun l => (l.other h).toList) r

/-- The frames waiting at a head's engine discarded (R165). -/
def State.dropWaiting (h : Nat) (s : State) : State :=
  { s with mark := { s.mark with waiting := s.mark.waiting.filter (fun w => w.head != h) } }

/-- A head's engine aborted: PRINTING ends PARTIAL with the columns handed, LEAD replans; the engine is IDLE (R119
steps 1 to 3, R165). -/
def State.abortEngine (h : Nat) (s : State) : State :=
  match (s.head h).engine, (s.head h).schedule with
  | some sv, r :: rest =>
    let sent := (s.head h).sent
    let s₁ := (s.onHead h (fun m => { m with engine := none, schedule := rest })).dropWaiting h
    if sv.printing then
      match r.holder with
      | .hide seq => (s₁.releaseSlot r.slot).toReporting seq (some (.partSent sent))
      | .testMark => s₁.endTest .partSent sent r.slot
    else s₁.replanLost h r
  | _, _ => s.onHead h (fun m => { m with engine := none })

/-- A head lost: its engine is aborted, and every other reservation is removed and replanned in increasing start order
(R119). -/
def State.loseHead (h : Nat) (s : State) : State :=
  let s₁ := s.abortEngine h
  let others := (s₁.head h).schedule
  others.foldl (fun t r => t.replanLost h r) (s₁.onHead h (fun m => { m with schedule := [] }))

/-- A head whose entry changed keeps the reservation its engine serves; the others are removed and tried anew, on their own
head first and then on the other recorded head, in increasing start order (R121). -/
def State.retryHead (h : Nat) (s : State) : State :=
  let m := s.head h
  let served := if m.engine.isSome then m.schedule.take 1 else []
  let others := if m.engine.isSome then m.schedule.drop 1 else m.schedule
  others.foldl (fun t r => t.replan false (fun l => h :: (l.other h).toList) r)
    (s.onHead h (fun m => { m with schedule := served }))

/-- What the taking effect of a HEAD entry does (R121): disabled or moved, the head is UNKNOWN and lost; changed otherwise,
its reservations are tried anew; newly enabled, it is UNKNOWN until an HSTAT arrives. R112 says that a change of GUARD does not
move reservations already made, R121 that any other changed field, GUARD named, has them removed and tried anew: the model
follows R121 for a change of GUARD alone too (DESIGN CHOICE, log 44). -/
def State.takeHeadEntry (h : Nat) (old new : HeadRec) (s : State) : State :=
  if old = new then s
  else if (old.enabled && !new.enabled) || old.ringAddr != new.ringAddr then (s.setHeadState h .unknown).loseHead h
  else if !old.enabled && new.enabled then (s.setHeadState h .unknown).retryHead h
  else s.retryHead h

/-! ## HSTAT (R106, R183) -/

/-- A head takes an HSTAT status: READY, or FAULT with its code (R106). -/
def State.takeStatus (fault : Bool) (code : Byte) (s : State) (h : Nat) : State :=
  if fault then
    let s₁ := s.onHead h (fun m => { m with fault := code })
    match (s.head h).state with
    | .unknown => s₁.setHeadState h .offline
    | .online => (s₁.setHeadState h .offline).loseHead h
    | .offline => s₁
  else s.setHeadState h .online

/-- The ENABLED heads at a ring address, in increasing number (R106; log 18). -/
def headsAt (heads : List HeadRec) (addr : Nat) : List Nat :=
  indicesFrom (fun _ (e : HeadRec) => e.enabled && e.ringAddr == addr) 0 heads

/-- An HSTAT taken by the mark scheduler (R106, R183). -/
def State.takeHstat (f : Frame) (s : State) : State :=
  let stray : State := { s with mark := { s.mark with hstatStray := bump s.mark.hstatStray } }
  match f.payload with
  | status :: code :: _ =>
    if 1 < status.toNat then stray
    else
      match headsAt s.cmd.active.heads f.src with
      | [] => stray
      | hs => (hs.foldl (State.takeStatus (status == 1) code) s).arbitrate
  | _ => stray

/-- HSTAT (R106). -/
def execHstat (bytes : List Byte) (s : State) : StepOutcome :=
  onFrame s (s.takenFrame kindHstat bytes) fun f => s.receive f (State.takeHstat f)

/-! ## The engines (R115 to R118, R165) -/

/-- Whether a frame waiting at an engine can be handed: a place of the marking queue is free (R165). -/
def State.waitingHandDue (s : State) : Bool :=
  !s.mark.waiting.isEmpty && decide (s.ring.marking.length < Config.markingPlaces)

/-- The mark tag of a holder: the sequence number, or 0 for the test mark (R115). -/
def Holder.tag : Holder → Nat
  | .hide seq => seq
  | .testMark => 0

/-- An engine's completion of its reservation (R118). -/
def State.complete (h : Nat) (r : Reservation) (s : State) : State :=
  let s₁ := s.onHead h (fun m => { m with engine := none, schedule := m.schedule.drop 1 })
  match r.holder with
  | .hide seq => (s₁.releaseSlot r.slot).toReporting seq (some .marked)
  | .testMark => s₁.endTest .marked r.columns r.slot

/-- What the handing of a column does at its engine: the sent count rises, the engine is PRINTING, and the last column
completes the reservation (R116, R118, R165). -/
def State.columnHanded (h : Nat) (s : State) : State :=
  match (s.head h).engine, (s.head h).schedule with
  | some sv, r :: _ =>
    let s₁ := s.onHead h (fun m => { m with engine := some { sv with printing := true }, sent := m.sent + 1 })
    if (s.head h).sent + 1 = r.columns then s₁.complete h r else s₁
  | _, _ => s

/-- A frame handed to the marking queue (R165). -/
def State.hand (w : WaitingFrame) (s : State) : State :=
  let s₁ : State := { s with ring := { s.ring with marking := s.ring.marking ++ [w.frame] } }
  if w.column.isSome then s₁.columnHanded w.head else s₁

/-- Whether a waiting frame is the last column of the reservation that its engine serves (R165). -/
def State.isLastColumn (s : State) (w : WaitingFrame) : Bool :=
  match w.column, (s.head w.head).schedule with
  | some i, r :: _ => i + 1 == r.columns
  | _, _ => false

/-- A frame left waiting at its engine, behind those that wait already: all of them fell due before it, since the engines have
their turns by head number (R165; log 23). MARK_WAIT counts it; an engine whose last column waits is PRINTING (R165), and another
waiting column may make its engine so (log 19). -/
def State.leaveWaiting (w : WaitingFrame) (s : State) : State :=
  let s₁ : State := { s with
    mark := { s.mark with waiting := s.mark.waiting ++ [w] }
    ring := { s.ring with markWait := bump s.ring.markWait } }
  if s.isLastColumn w || (w.column.isSome && Config.waitingColumnPrints) then
    s₁.onHead w.head (fun m => { m with engine := m.engine.map (fun sv => { sv with printing := true }) })
  else s₁

/-- A frame that falls due at an engine: handed at once when the marking queue has a free place and none waits, else left
waiting (R165). -/
def State.offer (w : WaitingFrame) (s : State) : State :=
  if s.ring.marking.length < Config.markingPlaces ∧ s.mark.waiting = [] then s.hand w else s.leaveWaiting w

/-- An IDLE engine's earliest reservation has come within PRIME_LEAD (R115). -/
def State.primeReady (s : State) (h : Nat) : Bool :=
  match (s.head h).engine, (s.head h).schedule with
  | none, r :: _ => decide (r.start - (s.headEntry h).primeLead ≤ s.pos.hwm)
  | _, _ => false

/-- The PRIME frame of a reservation (R115, section 13.2). -/
def State.primeFrame (s : State) (addr : Nat) (r : Reservation) : Frame :=
  mkFrame addr s.ring.addr kindPrime (beBytes 4 r.holder.tag ++ beBytes 2 r.base ++ beBytes 1 r.columns)

/-- The priming of a head for its earliest reservation (R115, R165). -/
def State.prime (h : Nat) (s : State) : State :=
  match (s.head h).schedule with
  | [] => s
  | r :: _ =>
    let e := s.headEntry h
    let s₁ := s.onHead h (fun m => { m with
      engine := some { printing := false, rotate := e.rotate, mirror := e.mirror, addr := e.ringAddr }, sent := 0 })
    let s₂ := match r.holder with
      | .hide seq => s₁.mapRecs (onSeq seq fun x => { x with state := .marking })
      | .testMark => s₁
    s₂.offer { head := h, column := none, frame := s.primeFrame e.ringAddr r }

/-- The number of the next column to fall due: the columns handed and the columns waiting (R116, R165). -/
def State.nextColumn (s : State) (h : Nat) : Nat :=
  (s.head h).sent + s.mark.waiting.countP (fun w => w.head == h && w.column.isSome)

/-- The next column of a serving engine's reservation has come due (R116). -/
def State.columnReady (s : State) (h : Nat) : Bool :=
  match (s.head h).engine, (s.head h).schedule with
  | some _, r :: _ =>
    let i := s.nextColumn h
    decide (i < r.columns) && decide (r.start + ((i * r.pitch : Nat) : Int) ≤ s.pos.hwm)
  | _, _ => false

/-- A PRIME or a column has fallen due at a head's engine (R115, R116). -/
def State.engineDue (s : State) (h : Nat) : Bool := s.primeReady h || s.columnReady h

/-- The turn of a head's engine to hand what has fallen due: no waiting frame can be handed before it, and nothing has fallen
due at a head of a lower number (R165; log 23). -/
def State.headsTurn (s : State) (h : Nat) : Bool := !s.waitingHandDue && !(List.range h).any s.engineDue

/-- ENGINE_PRIME (R115). -/
def execEnginePrime (head : Fin 8) (s : State) : StepOutcome :=
  stepWhen s (s.primeReady head && s.headsTurn head) (s.prime head).arbitrate

/-- The dots of column i as they go to the nozzles, in the orientation taken at priming: bit k for nozzle base + k (R117). -/
def orientedColumn (rotate mirror : Bool) (columns : List Dots) (n i : Nat) : Dots :=
  let d := columns.getD (if rotate != mirror then n - 1 - i else i) 0
  if rotate then d.reverse else d

/-- The COL frame of column i (R116, section 13.2). -/
def State.columnFrame (s : State) (sv : Service) (r : Reservation) (i : Nat) : Frame :=
  mkFrame sv.addr s.ring.addr kindCol
    (beBytes 4 r.holder.tag ++ beBytes 1 i
      ++ beBytes 2 (orientedColumn sv.rotate sv.mirror (s.slotColumns r.slot) r.columns i).toNat)

/-- The sending of a head's next column (R116, R165). -/
def State.sendColumn (h : Nat) (s : State) : State :=
  match (s.head h).engine, (s.head h).schedule with
  | some sv, r :: _ =>
    let i := s.nextColumn h
    s.offer { head := h, column := some i, frame := s.columnFrame sv r i }
  | _, _ => s

/-- COLUMN_SEND (R116). -/
def execColumnSend (head : Fin 8) (s : State) : StepOutcome :=
  stepWhen s (s.columnReady head && s.headsTurn head) (s.sendColumn head).arbitrate

/-- The first waiting frame handed (R165). -/
def State.handWaiting (s : State) : State :=
  match s.mark.waiting with
  | [] => s
  | w :: rest => ({ s with mark := { s.mark with waiting := rest } }).hand w

/-- WAITING_FRAME_HANDED (R165). -/
def execWaitingFrameHanded (s : State) : StepOutcome := stepWhen s s.waitingHandDue s.handWaiting.arbitrate

/-! ## TEST_MARK (R103, R123) -/

/-- TEST_MARK's reservation placed on the head and primed at once (R123). R111 gives a reservation an anchor and R123 gives
the test mark none: both parts are 0 here, and nothing reads them (DESIGN CHOICE, log 39). -/
def State.beginTest (src h slot : Nat) (d : Rendered) (s : State) : State :=
  let e := s.headEntry h
  let start := s.pos.hwm + e.primeLead
  let pitch := s.cmd.active.markp.columnPitch
  let n := d.columns.length
  let r : Reservation :=
    { holder := .testMark, start := start, stop := start + ((n * pitch : Nat) : Int), columns := n, pitch := pitch,
      slot := slot, base := (e.nozzles - 16) / 2, anchorP := 0, anchorC := 0, lane := none }
  let s₁ : State := { s with
    img := s.img.set slot (some { holder := .testMark, columns := d.columns })
    mark := { s.mark with test := some { src := src, columns := n, cut := d.cut, ended := false } } }
  let s₂ := s₁.onHead h (fun m => { m with schedule := insertReservation r m.schedule })
  if s₂.primeReady h then s₂.prime h else s₂

/-- TEST_MARK at the mark scheduler (R123): refused, answered at once where the head is not ONLINE, or begun without an
answer yet. -/
def State.testMark (src h value : Nat) (s : State) : State × Option Answer :=
  let unit := s.cmd.active.calib.unit
  if s.run ≠ .standby then (s, some (refusedAnswer .state))
  else if s.mark.test.isSome then (s, some (refusedAnswer .busy))
  else if 7 < h ∨ unit.maxValue < value then (s, some (refusedAnswer .format))
  else if (s.head h).state ≠ .online then
    (s, some { status := .ok, data := beBytes 1 TestOutcome.missedHeadDown.code })
  else
    match s.freeSlot with
    | some slot =>
      if (s.head h).schedule.length < Config.schedulePlaces then
        (s.beginTest src h slot
          (render s.cmd.active.glyphs s.cmd.active.markp.glyphGap (figureText { value := value, unit := unit })), none)
      else (s, some (refusedAnswer .busy))
    | none => (s, some (refusedAnswer .busy))

end Sys2Proof.Machine
end

