-- ==== Sys2Proof/Machine/Handover.lean ====
section
/-! DEFINITION. LINE_HANDOVER: a line formed, segmented, examined for gaps, measured and sampled, and its closing hides
handed on one after another, up to the line boundary (R26, R28, R51 to R53). -/

namespace Sys2Proof.Machine

/-! ## Handing on a closed hide (R53, R79, R91, R108) -/

/-- What the composer hands on makes a hide's plan: its candidate heads and what it brings to a trial (R108, R110, R113). -/
def State.requestFor (s : State) (r : HideRec) (lane slot columns : Nat) : List Nat × StampRequest :=
  let l := s.cmd.active.lanes.getD lane .default
  let a := r.ring.headD { p := 0, c := 0, w := 0 }
  (l.headPri :: l.headAlt.toList,
    { seq := r.seq, columns := columns, pitch := s.cmd.active.markp.columnPitch, slot := slot, anchorP := a.p,
      anchorC := a.c, lane := { pri := l.headPri, alt := l.headAlt } })

/-- The mark scheduler's disposal of a hide by the composer's result (R108). -/
def State.disposeHide (r : HideRec) (c : Composed) (s : State) : State :=
  match c with
  | .notMarked => s.toReporting r.seq none
  | .noLane => s.toReporting r.seq (some .missedNoLane)
  | .noImage => s.toReporting r.seq (some .missedNoImage)
  | .image lane slot columns =>
    let q := s.requestFor r lane slot columns
    s.planOn q.1 q.2

/-- A closing record handed on: valued, composed, planned (R53). -/
def State.handOn (s : State) (n : Nat) : State :=
  let r := (s.trk.records.getD n .free).valued s.cmd.active.calib
  let c := s.compose r
  ({ s with trk := { s.trk with records := s.trk.records.set n c.1 }, img := c.2.1 }).disposeHide c.1 c.2.2

/-! ## The stages of a hand-over -/

/-- An event raised `n` times (R49, R70). -/
def State.raiseTimes (n : Nat) (k : EventKind) (s : State) : State := n.repeat (State.raise k) s

/-- The oldest line leaves its slot and is known as the last line handed over; a GAPPED line raises LINE_GAPPED (R21, R26,
R28). -/
def State.releaseLine (line : FormedLine) (s : State) : State :=
  { s with asm := { s.asm with slots := s.asm.slots.drop 1, lastLine := line.number, lastTime := line.time } }.raiseIf
    line.gapped .lineGapped

/-- The hide tracker's segmentation of the line; the groups refused a record raise HIDE_TABLE_FULL (R41 to R54). -/
def State.segment (line : FormedLine) (s : State) : State × List Nat × List (Nat × Nat) :=
  let g := segmentLine (s.run == .run) s.pos.excursion s.ver.lockOpen line s.trk
  (({ s with trk := g.trk }).raiseTimes g.refused .hideTableFull, g.closing, g.merges)

/-- The gap tracker's examination of the labelled line; the groups refused a record raise GAP_TABLE_FULL (R61 to R71). -/
def State.examine (line : FormedLine) (merges : List (Nat × Nat)) (advance : Nat) (s : State) : State :=
  let g := examineLine s.area.cumw advance s.cmd.active.calib.holeLimit line.missing merges s.trk.prev.real s.trk.cur.real
    s.trk.records s.gap
  ({ s with gap := g.gap, trk := { s.trk with records := g.records } }).raiseTimes g.refused .gapTableFull

/-- The strips of the line added to its hides (R77). -/
def State.addStrips (advance : Nat) (s : State) : State :=
  { s with trk := { s.trk with
      records := mapFrom (fun n r => r.addStrip s.area.cumw advance s.trk.cur n) 0 s.trk.records } }

/-- The anchor samples of the line (R88 to R90). -/
def State.sampleLine (sPos : Int) (s : State) : State :=
  { s with trk := { s.trk with
      records := mapFrom (fun n r => r.sampled s.area.cumw s.cmd.active.markp sPos s.trk.cur n) 0 s.trk.records } }

/-- The hides that close on the line have left OPEN and are to be handed on in turn (R52, R53; log 36). -/
def State.closeHides (closing : List Nat) (s : State) : State :=
  { s with trk := { s.trk with
      records := closing.foldl (fun l n => l.modify n (fun r => { r with state := .closed })) s.trk.records
      handing := some closing } }

/-- A line taken up to the passing on of its labelled line: its slot is freed, it is segmented, examined for gaps, measured
and sampled (R26, R51, R52). -/
def State.passLine (line : FormedLine) (s : State) : State :=
  let s₁ := s.releaseLine line
  let s₂ : State := { s₁ with area := s₁.area.takeLine line.s }
  let advance := s₂.area.lastAdvance.toNat
  let g := s₂.segment line
  (((g.1.examine line g.2.2 advance).addStrips advance).sampleLine line.s).closeHides g.2.1

/-- The line L0 taken (R26). -/
def State.takeOldest (s : State) : State :=
  match s.asm.slots with
  | [] => s
  | slot :: _ => s.passLine (formLine slot)

/-- The line boundary: the current list becomes the previous list (R53). -/
def State.reachBoundary (s : State) : State :=
  { s with trk := { s.trk with prev := s.trk.cur, cur := .empty, handing := none } }

/-- The next of the closing hides handed on; with the last, and at once for a line that closes none, the line boundary is
reached (R53). -/
def State.handOnNext (s : State) : State :=
  match s.trk.handing with
  | none => s
  | some [] => s.reachBoundary
  | some [n] => (s.handOn n).reachBoundary
  | some (n :: left) => { s.handOn n with trk := { (s.handOn n).trk with handing := some left } }

/-- A hand-over of L0 is due: L0 is READY, hand-overs are made, the tracker is at a line boundary, and the judgements of that
boundary are done (R26, R143, R176; log 11). -/
def State.lineDue (s : State) : Bool := s.handoverReady && s.atBoundary && !s.applyDue && !s.drainFirstDue

/-- A line is being segmented, or the hand-over of L0 is due (R26, R53). -/
def State.lineStepDue (s : State) : Bool := !s.atBoundary || s.lineDue

/-- The hand-over of the line L0 begun where none is in progress, and the next closing hide handed on; what falls due between
two hides of a line comes between two such steps (R26, R51 to R53, R101; log 14). -/
def State.lineStep (s : State) : State := (if s.atBoundary then s.takeOldest else s).handOnNext

/-- Such a step, ended by the arbiter's pick. -/
def State.handLine (s : State) : State := s.lineStep.arbitrate

/-- The hand-over of the line L0, all the way to its line boundary (R26, R53). -/
def State.handOver (s : State) : State :=
  let t := s.handLine
  match t.trk.handing with
  | none => t
  | some left => left.length.repeat State.handLine t

/-- LINE_HANDOVER (R26). -/
def execLineHandover (s : State) : StepOutcome := stepWhen s s.lineStepDue s.handLine

end Sys2Proof.Machine
end

