-- ==== Sys2Proof/Machine/Lots.lean ====
section
/-! DEFINITION. The lot tally and finalization: counting a hide, closing lots, the taking up of LOT entries (chapter 8). -/

namespace Sys2Proof.Machine

/-! ## Finalization (R128 to R131, R134) -/

/-- Whether a hide is counted: not FRAGMENT, not JOINED, not INCOMPLETE, and with a lot slot (R129 step 1). -/
def HideRec.counted (r : HideRec) : Bool :=
  !r.has .fragment && !r.has .joined && !r.has .incomplete && r.lotSlot.isSome

/-- The lot slot a hide is counted into; none for an uncounted hide (R129 step 1). -/
def HideRec.countsInto (r : HideRec) : Option Nat := if r.counted then r.lotSlot else none

/-- The active LOT entry of a slot. -/
def State.lotEntry (s : State) (n : Nat) : LotRec := s.cmd.active.lots.getD n .default

/-- Whether one more hide makes a slot's count its active LOT_SIZE (R129 step 3, R130 step 3). -/
def State.fillsLot (s : State) (n : Nat) : Bool := (s.lotSlot n).count + 1 == (s.lotEntry n).size

/-- The note queue entries that a hide's finalization needs (R129 step 3). -/
def State.roomNeeded (s : State) (r : HideRec) : Nat :=
  match r.countsInto with
  | some n => if s.fillsLot n then 2 else 1
  | none => 1

/-- Whether a hide waits for a close pending on its slot (R129 step 2). -/
def State.waitsForClose (s : State) (r : HideRec) : Bool :=
  match r.countsInto with
  | some n => (s.lotSlot n).closePending
  | none => false

/-- The lowest slot with a close pending (R133). -/
def State.pendingSlot (s : State) : Option Nat := s.lots.findIdx? LotSlot.closePending

/-- A pending close can be done: a slot has one and the note queue has a free entry (R133). -/
def State.pendingCloseDue (s : State) : Bool := s.pendingSlot.isSome && s.noteRoom 1

/-- The first hide of the finalization list with its record (R128). -/
def State.firstFinal (s : State) : Option (Nat × HideRec) :=
  match s.rep.finals with
  | [] => none
  | seq :: _ => (s.recOf seq).map (fun r => (seq, r))

/-- An attempt at the first hide of the list would succeed: no close is pending on its slot and the notes have room
(R129 steps 2 to 4). -/
def State.attemptPasses (s : State) : Bool :=
  match s.firstFinal with
  | some (_, r) => !s.waitsForClose r && s.noteRoom (s.roomNeeded r)
  | none => false

/-- The first hide of the list is due to be finalized: an attempt at it has been started and succeeds, and the pending closes
that can be done are done (R129, R133; log 37). -/
def State.finalizationDue (s : State) : Bool := !s.rep.waits && s.attemptPasses && !s.pendingCloseDue

/-- A first hide whose attempt failed waits for the next of R129's events, whatever an apply does to its chances (R129;
log 37). -/
def State.keepWaiting (s : State) : State :=
  { s with rep := { s.rep with waits := s.rep.waits || (s.firstFinal.isSome && !s.attemptPasses) } }

/-- A lot slot with a hide counted into it: the count, the total of the value's unit and the gross area rise (R130 step 2). -/
def LotSlot.count1 (r : HideRec) (l : LotSlot) : LotSlot :=
  { l with
    count := l.count + 1
    quarters := l.quarters + (match r.value with
      | some { value := v, unit := .footQuarter } => v
      | _ => 0)
    decimetres := l.decimetres + (match r.value with
      | some { value := v, unit := .decimetre } => v
      | _ => 0)
    gross := addArea l.gross (addArea r.covered r.addBack) }

/-- The lot assignment of a hide counted into a slot as it stands (R130 step 1). -/
def State.assignment (s : State) (n : Nat) : LotAssignment :=
  { slot := n, lotNo := (s.lotSlot n).lotNo, place := (s.lotSlot n).count + 1 }

/-- The counting of a hide into slot `n`; the lot closes with cause SIZE when the count reaches LOT_SIZE (R130). -/
def State.countInto (n : Nat) (r : HideRec) (s : State) : State :=
  let s₁ : State := { s with lots := s.lots.set n ((s.lotSlot n).count1 r) }
  if s.fillsLot n then s₁.closeLot n .size else s₁

/-- A record freed (R36, R129). -/
def State.freeHide (seq : Nat) (s : State) : State := s.mapRecs (onSeq seq fun _ => .free)

/-- The finalization of a hide: counted if it counts, its HIDE note appended, its record freed (R129 step 5, R134). -/
def State.finalizeHide (seq : Nat) (r : HideRec) (s : State) : State :=
  let s₁ : State := { s with rep := { s.rep with finals := s.rep.finals.drop 1 } }
  match r.countsInto with
  | some n =>
    let r₁ := { r with lot := some (s₁.assignment n) }
    ((s₁.countInto n r₁).appendNote (.hide r₁ s₁.ver.count)).freeHide seq
  | none => (s₁.appendNote (.hide r s₁.ver.count)).freeHide seq

/-- The first hide of the list finalized (R129). -/
def State.finalizeFirst (s : State) : State :=
  match s.firstFinal with
  | some (seq, r) => s.finalizeHide seq r
  | none => s

/-- FINALIZATION (R129). -/
def execFinalization (s : State) : StepOutcome := stepWhen s s.finalizationDue s.finalizeFirst.arbitrate

/-! ## Pending closes (R133) -/

/-- The pending close of the lowest slot done, with cause APPLY (R131, R133); it starts a finalization attempt (R129). -/
def State.donePendingClose (s : State) : State :=
  match s.pendingSlot with
  | some n =>
    let t := s.closeLot n .apply
    { t with rep := { t.rep with waits := false } }
  | none => s

/-- PENDING_LOT_CLOSE (R133). -/
def execPendingLotClose (s : State) : StepOutcome := stepWhen s s.pendingCloseDue s.donePendingClose.arbitrate

/-! ## The taking up of LOT entries (R133) -/

/-- A changed LOT_SIZE at or below the slot's count closes the lot, or leaves a close pending for want of room (R133). -/
def State.takeLotSize (n : Nat) (new : LotRec) (s : State) : State :=
  if new.size ≤ (s.lotSlot n).count then
    if s.noteRoom 1 then s.closeLot n .apply
    else { s with lots := s.lots.modify n (fun l => { l with closePending := true }) }
  else s

/-- A changed FIRST_LOT_NO becomes the lot number of an empty slot, and the next number of any other (R133). -/
def State.takeFirstNo (n : Nat) (old new : LotRec) (s : State) : State :=
  if old.firstNo = new.firstNo then s
  else
    { s with lots := s.lots.modify n (fun l =>
        if l.count = 0 && !l.closePending then { l with lotNo := new.firstNo } else { l with nextNo := some new.firstNo }) }

/-- A slot takes up its new LOT entry (R133; log 33). -/
def State.takeLotEntry (n : Nat) (old new : LotRec) (s : State) : State :=
  if old = new then s else (s.takeLotSize n new).takeFirstNo n old new

/-! ## CLOSE_LOT (R132) -/

/-- CLOSE_LOT at the lot tally (R132). -/
def State.commandClose (n : Nat) (s : State) : State × Answer :=
  let l := s.lotSlot n
  if 3 < n then (s, refusedAnswer .format)
  else if l.closePending then (s, refusedAnswer .busy)
  else if l.count = 0 then (s, refusedAnswer .empty)
  else if !s.noteRoom 1 then (s, refusedAnswer .busy)
  else (s.closeLot n .command, { status := .ok, data := beBytes 2 l.lotNo ++ beBytes 2 l.count })

end Sys2Proof.Machine
end

