-- ==== Sys2Proof/Machine/Tables.lean ====
section
/-! DEFINITION. The table store: the coding of table entries, the bringing of loaded fields into range, reading and
writing a bank (sections 12.2 and 12.8, R172, R184). -/

namespace Sys2Proof.Machine

/-! ## Fields brought into range (R172) -/

/-- A field as stored, and 1 if it was stored other than as loaded, else 0 (R172). -/
structure Stored (α : Type) where
  value : α
  clamped : Nat
  deriving DecidableEq, Repr

/-- A numeric field: below its range the lowest value, above it the highest (R172). -/
def keepNat (lo hi v : Nat) : Stored Nat :=
  if v < lo then { value := lo, clamped := 1 }
  else if hi < v then { value := hi, clamped := 1 }
  else { value := v, clamped := 0 }

/-- A signed numeric field (R172). -/
def keepInt (lo hi v : Int) : Stored Int :=
  if v < lo then { value := lo, clamped := 1 }
  else if hi < v then { value := hi, clamped := 1 }
  else { value := v, clamped := 0 }

/-- A field of a listed set of values: a code that names none is stored as the power-on default (R172, R184). -/
def keepSet {α : Type} (values : List α) (dflt : α) (code : Nat) : Stored α :=
  match values[code]? with
  | some v => { value := v, clamped := 0 }
  | none => { value := dflt, clamped := 1 }

/-- An optional numeric field of one byte: all ones is absent, a number above its range the highest (R172, R184; log 25). -/
def keepOption (hi v : Nat) : Stored (Option Nat) :=
  if v = 255 then { value := none, clamped := 0 }
  else if hi < v then { value := some hi, clamped := 1 }
  else { value := some v, clamped := 0 }

/-! ## Entry lengths (R184) -/

/-- The widths in bytes of a table entry's fields, in the order of section 12.8 (R184). -/
def TableId.widths : TableId → List Nat
  | .cellw => [2]
  | .pitch => [2, 3, 3, 3]
  | .calib => [1, 1, 2, 2, 2]
  | .scan => [2, 2, 1, 1, 2, 2, 1, 1, 1, 1, 1, 1, 2]
  | .markp => [1, 3, 3, 3, 2, 3, 1, 1]
  | .lane => [2, 2, 1, 1, 1, 1]
  | .head => [1, 1, 3, 2, 3, 3, 2, 2, 1, 1]
  | .glyph => [1, 2, 2, 2, 2, 2, 2, 2, 2, 2, 2, 2, 2]
  | .lot => [2, 1, 2]
  | .notepri => [1]

/-- The length in bytes of a table's entry (R184). -/
def TableId.entryLength (t : TableId) : Nat := t.widths.sum

/-! ## The codes of value sets (R184): places in the lists of section 12.8 -/

def MeasureUnit.values : List MeasureUnit := [.footQuarter, .decimetre]
def Rounding.values : List Rounding := [.down, .nearest, .up]
def FilterClk.values : List FilterClk := [.quarter, .one, .four, .sixteen]
def EncDir.values : List EncDir := [.normal, .swapped]
def AnchorMode.values : List AnchorMode := [.leading, .trailing]
def JoinPolicy.values : List JoinPolicy := [.value, .rejectMark, .noMark]
/-- OFF and ON, and ROTATE's 0 and 180. -/
def switchValues : List Bool := [false, true]

/-- The code of a value: its place in its list (R184). -/
def codeIn {α : Type} [DecidableEq α] (values : List α) (v : α) : Nat := values.idxOf v

/-! ## Entries as loaded (R172, R184) -/

/-- A cell width as loaded. -/
def loadCellw (bs : List Byte) : Stored Nat := keepNat 200 8000 (ofBytes bs)

/-- A PITCH record as loaded: a PMOD of 0 or 1 is PMOD 2 with PAUX 0 and counts once; a PAUX at or above PMOD is PMOD - 1
(R172). -/
def loadPitch (pint pfrac pmod paux : Nat) : Stored PitchRec :=
  let i := keepNat 0 4095 pint
  if pmod ≤ 1 then
    { value := { pint := i.value, pfrac := pfrac, pmod := 2, paux := 0 }, clamped := i.clamped + 1 }
  else
    let a := keepNat 0 (pmod - 1) paux
    { value := { pint := i.value, pfrac := pfrac, pmod := pmod, paux := a.value }, clamped := i.clamped + a.clamped }

/-- A CALIB record as loaded. -/
def loadCalib (unit round : Nat) (trim : Int) (holeLimit minHide : Nat) : Stored CalibRec :=
  let u := keepSet MeasureUnit.values .footQuarter unit
  let r := keepSet Rounding.values .nearest round
  let t := keepInt (-20000) 20000 trim
  let m := keepNat 0 10000 minHide
  { value := { unit := u.value, round := r.value, trimPpm := t.value, holeLimit := holeLimit, minHide := m.value }
    clamped := u.clamped + r.clamped + t.clamped + m.clamped }

/-- A SCAN record as loaded: WIN_END below WIN_START is WIN_START; HEAD_MASK is stored as given (R172). The fields stand in
the order of section 12.8. -/
def loadScan (winStart winEnd barReverse minRun linePitch minStrobe asmDepth headMask filterClk encDir steadyWin steadyCount
    reverseLimit : Nat) : Stored ScanRec :=
  let a := keepNat 0 2047 winStart
  let b := keepNat a.value 2047 winEnd
  let c := keepSet switchValues false barReverse
  let d := keepNat 1 32 minRun
  let e := keepNat 500 20000 linePitch
  let f := keepNat 100 10000 minStrobe
  let g := keepNat 2 7 asmDepth
  let h := keepSet FilterClk.values .one filterClk
  let i := keepSet EncDir.values .normal encDir
  let j := keepNat 1 64 steadyWin
  let k := keepNat 2 255 steadyCount
  { value :=
      { winStart := a.value, winEnd := b.value, barReverse := c.value, minRun := d.value, linePitch := e.value,
        minStrobe := f.value, asmDepth := g.value, headMask := BitVec.ofNat 8 headMask, filterClk := h.value,
        encDir := i.value, steadyWin := j.value, steadyCount := k.value, reverseLimit := reverseLimit }
    clamped := a.clamped + b.clamped + c.clamped + d.clamped + e.clamped + f.clamped + g.clamped + h.clamped + i.clamped
      + j.clamped + k.clamped }

/-- A MARKP record as loaded. -/
def loadMarkp (mode offset stride width pitch shift : Nat) (gap : Int) (policy : Nat) : Stored MarkpRec :=
  let a := keepSet AnchorMode.values .trailing mode
  let b := keepNat 0 2000000 offset
  let c := keepNat 1000 200000 stride
  let d := keepNat 0 400000 width
  let e := keepNat 200 5000 pitch
  let f := keepNat 0 200000 shift
  let g := keepInt (-2) 4 gap
  let h := keepSet JoinPolicy.values .rejectMark policy
  { value :=
      { anchorMode := a.value, anchorOffset := b.value, anchorStride := c.value, stampWidth := d.value,
        columnPitch := e.value, shiftWindow := f.value, glyphGap := g.value, joinPolicy := h.value }
    clamped := a.clamped + b.clamped + c.clamped + d.clamped + e.clamped + f.clamped + g.clamped + h.clamped }

/-- HEAD_ALT as loaded, after HEAD_PRI: equal to it, it is absent (R172). -/
def loadAlt (pri alt : Nat) : Stored (Option Nat) :=
  let a := keepOption 7 alt
  if a.value = some pri then { value := none, clamped := 1 } else a

/-- A LANE entry as loaded: CELL_LAST below CELL_FIRST is CELL_FIRST (R172). -/
def loadLane (first last pri alt lotSlot enabled : Nat) : Stored LaneRec :=
  let a := keepNat 0 2047 first
  let b := keepNat a.value 2047 last
  let c := keepNat 0 7 pri
  let d := loadAlt c.value alt
  let e := keepNat 0 3 lotSlot
  let f := keepSet switchValues false enabled
  { value := { cellFirst := a.value, cellLast := b.value, headPri := c.value, headAlt := d.value, lotSlot := e.value,
               enabled := f.value }
    clamped := a.clamped + b.clamped + c.clamped + d.clamped + e.clamped + f.clamped }

/-- A HEAD entry as loaded: RING_ADDR 31 is 30; GUARD is at least PRIME_LEAD (R172). -/
def loadHead (ringAddr enabled offset primeLead guard edge nozzlePitch nozzles rotate mirror : Nat) : Stored HeadRec :=
  let a := keepNat 0 30 ringAddr
  let b := keepSet switchValues false enabled
  let c := keepNat 100000 4000000 offset
  let d := keepNat 0 50000 primeLead
  let e := keepNat d.value 100000 guard
  let g := keepNat 50 2000 nozzlePitch
  let h := keepNat 16 1024 nozzles
  let i := keepSet switchValues false rotate
  let j := keepSet switchValues false mirror
  { value := { ringAddr := a.value, enabled := b.value, offset := c.value, primeLead := d.value, guard := e.value,
               edge := edge, nozzlePitch := g.value, nozzles := h.value, rotate := i.value, mirror := j.value }
    clamped := a.clamped + b.clamped + c.clamped + d.clamped + e.clamped + g.clamped + h.clamped + i.clamped + j.clamped }

/-- A GLYPH entry as loaded; dots beyond the width are stored as loaded (R172). -/
def loadGlyph (width : Nat) (columns : List Dots) : Stored GlyphRec :=
  let w := keepNat 1 12 width
  { value := { width := w.value, columns := columns }, clamped := w.clamped }

/-- A LOT entry as loaded. -/
def loadLot (size prefixGlyph firstNo : Nat) : Stored LotRec :=
  let a := keepNat 1 999 size
  let b := keepOption 31 prefixGlyph
  let c := keepNat 1 65535 firstNo
  { value := { size := a.value, prefixGlyph := b.value, firstNo := c.value },
    clamped := a.clamped + b.clamped + c.clamped }

/-- A NOTEPRI level as loaded. -/
def loadLevel (bs : List Byte) : Stored Nat := keepNat 0 3 (ofBytes bs)

/-! ## Writing and reading entries (R171, R174) -/

/-- The bytes of one entry written to index `i` of a bank's table: the bank, and the fields stored other than as loaded
(R171, R172). The bytes are as many as the entry is long. -/
def Tables.storeEntry (b : Tables) (t : TableId) (i : Nat) (bs : List Byte) : Stored Tables :=
  match t, splitFields t.widths bs with
  | .cellw, some [w] =>
    let e := loadCellw w
    { value := { b with cellw := b.cellw.set i e.value }, clamped := e.clamped }
  | .pitch, some [f₁, f₂, f₃, f₄] =>
    let e := loadPitch (ofBytes f₁) (ofBytes f₂) (ofBytes f₃) (ofBytes f₄)
    { value := { b with pitch := e.value }, clamped := e.clamped }
  | .calib, some [f₁, f₂, f₃, f₄, f₅] =>
    let e := loadCalib (ofBytes f₁) (ofBytes f₂) (ofBytesSigned f₃) (ofBytes f₄) (ofBytes f₅)
    { value := { b with calib := e.value }, clamped := e.clamped }
  | .scan, some [f₁, f₂, f₃, f₄, f₅, f₆, f₇, f₈, f₉, f₁₀, f₁₁, f₁₂, f₁₃] =>
    let e := loadScan (ofBytes f₁) (ofBytes f₂) (ofBytes f₃) (ofBytes f₄) (ofBytes f₅) (ofBytes f₆) (ofBytes f₇)
      (ofBytes f₈) (ofBytes f₉) (ofBytes f₁₀) (ofBytes f₁₁) (ofBytes f₁₂) (ofBytes f₁₃)
    { value := { b with scan := e.value }, clamped := e.clamped }
  | .markp, some [f₁, f₂, f₃, f₄, f₅, f₆, f₇, f₈] =>
    let e := loadMarkp (ofBytes f₁) (ofBytes f₂) (ofBytes f₃) (ofBytes f₄) (ofBytes f₅) (ofBytes f₆) (ofBytesSigned f₇)
      (ofBytes f₈)
    { value := { b with markp := e.value }, clamped := e.clamped }
  | .lane, some [f₁, f₂, f₃, f₄, f₅, f₆] =>
    let e := loadLane (ofBytes f₁) (ofBytes f₂) (ofBytes f₃) (ofBytes f₄) (ofBytes f₅) (ofBytes f₆)
    { value := { b with lanes := b.lanes.set i e.value }, clamped := e.clamped }
  | .head, some [f₁, f₂, f₃, f₄, f₅, f₆, f₇, f₈, f₉, f₁₀] =>
    let e := loadHead (ofBytes f₁) (ofBytes f₂) (ofBytes f₃) (ofBytes f₄) (ofBytes f₅) (ofBytes f₆) (ofBytes f₇)
      (ofBytes f₈) (ofBytes f₉) (ofBytes f₁₀)
    { value := { b with heads := b.heads.set i e.value }, clamped := e.clamped }
  | .glyph, some (f₁ :: columns) =>
    let e := loadGlyph (ofBytes f₁) (columns.map (fun c => BitVec.ofNat 16 (ofBytes c)))
    { value := { b with glyphs := b.glyphs.set i e.value }, clamped := e.clamped }
  | .lot, some [f₁, f₂, f₃] =>
    let e := loadLot (ofBytes f₁) (ofBytes f₂) (ofBytes f₃)
    { value := { b with lots := b.lots.set i e.value }, clamped := e.clamped }
  | .notepri, some [f₁] =>
    let e := loadLevel f₁
    { value := { b with notepri := b.notepri.set i e.value }, clamped := e.clamped }
  | _, _ => { value := b, clamped := 0 }

/-- A LANE entry's bytes (R184). -/
def LaneRec.entryBytes (l : LaneRec) : List Byte :=
  beBytes 2 l.cellFirst ++ beBytes 2 l.cellLast ++ beBytes 1 l.headPri ++ beOption 1 l.headAlt ++ beBytes 1 l.lotSlot
    ++ beBool l.enabled

/-- A HEAD entry's bytes (R184). -/
def HeadRec.entryBytes (h : HeadRec) : List Byte :=
  beBytes 1 h.ringAddr ++ beBool h.enabled ++ beBytes 3 h.offset ++ beBytes 2 h.primeLead ++ beBytes 3 h.guard
    ++ beBytes 3 h.edge ++ beBytes 2 h.nozzlePitch ++ beBytes 2 h.nozzles ++ beBool h.rotate ++ beBool h.mirror

/-- A GLYPH entry's bytes (R184). -/
def GlyphRec.entryBytes (g : GlyphRec) : List Byte := beBytes 1 g.width ++ g.columns.flatMap (fun c => beBytes 2 c.toNat)

/-- A LOT entry's bytes (R184). -/
def LotRec.entryBytes (l : LotRec) : List Byte := beBytes 2 l.size ++ beOption 1 l.prefixGlyph ++ beBytes 2 l.firstNo

/-- A PITCH record's bytes (R184). -/
def PitchRec.entryBytes (p : PitchRec) : List Byte :=
  beBytes 2 p.pint ++ beBytes 3 p.pfrac ++ beBytes 3 p.pmod ++ beBytes 3 p.paux

/-- A CALIB record's bytes (R184). -/
def CalibRec.entryBytes (c : CalibRec) : List Byte :=
  beBytes 1 (codeIn MeasureUnit.values c.unit) ++ beBytes 1 (codeIn Rounding.values c.round) ++ beInt 2 c.trimPpm
    ++ beBytes 2 c.holeLimit ++ beBytes 2 c.minHide

/-- A SCAN record's bytes (R184). -/
def ScanRec.entryBytes (r : ScanRec) : List Byte :=
  beBytes 2 r.winStart ++ beBytes 2 r.winEnd ++ beBool r.barReverse ++ beBytes 1 r.minRun ++ beBytes 2 r.linePitch
    ++ beBytes 2 r.minStrobe ++ beBytes 1 r.asmDepth ++ [r.headMask] ++ beBytes 1 (codeIn FilterClk.values r.filterClk)
    ++ beBytes 1 (codeIn EncDir.values r.encDir) ++ beBytes 1 r.steadyWin ++ beBytes 1 r.steadyCount
    ++ beBytes 2 r.reverseLimit

/-- A MARKP record's bytes (R184). -/
def MarkpRec.entryBytes (m : MarkpRec) : List Byte :=
  beBytes 1 (codeIn AnchorMode.values m.anchorMode) ++ beBytes 3 m.anchorOffset ++ beBytes 3 m.anchorStride
    ++ beBytes 3 m.stampWidth ++ beBytes 2 m.columnPitch ++ beBytes 3 m.shiftWindow ++ beInt 1 m.glyphGap
    ++ beBytes 1 (codeIn JoinPolicy.values m.joinPolicy)

/-- The bytes of the entry at index `i` of a bank's table (R174, R184). -/
def Tables.entryBytes (b : Tables) (t : TableId) (i : Nat) : List Byte :=
  match t with
  | .cellw => beBytes 2 (b.cellw.getD i 0)
  | .pitch => b.pitch.entryBytes
  | .calib => b.calib.entryBytes
  | .scan => b.scan.entryBytes
  | .markp => b.markp.entryBytes
  | .lane => (b.lanes.getD i .default).entryBytes
  | .head => (b.heads.getD i .default).entryBytes
  | .glyph => (b.glyphs.getD i .default).entryBytes
  | .lot => (b.lots.getD i .default).entryBytes
  | .notepri => beBytes 1 (b.notepri.getD i 0)

/-- Bytes cut into pieces of `n` bytes, `count` of them. -/
def chunks (n : Nat) : Nat → List Byte → List (List Byte)
  | 0, _ => []
  | count + 1, bs => bs.take n :: chunks n count (bs.drop n)

/-- Entries written one after another from index `i`, upward or downward, in the frame's order (R171). -/
def Tables.storeAll (t : TableId) (down : Bool) : Nat → List (List Byte) → Tables → Stored Tables
  | _, [], b => { value := b, clamped := 0 }
  | i, e :: rest, b =>
    let first := b.storeEntry t i e
    let others := Tables.storeAll t down (if down then i - 1 else i + 1) rest first.value
    { value := others.value, clamped := first.clamped + others.clamped }

/-- A table copied from a bank to another (R177, R178). -/
def Tables.copyFrom (src : Tables) (dst : Tables) (t : TableId) : Tables :=
  match t with
  | .cellw => { dst with cellw := src.cellw }
  | .pitch => { dst with pitch := src.pitch }
  | .calib => { dst with calib := src.calib }
  | .scan => { dst with scan := src.scan }
  | .markp => { dst with markp := src.markp }
  | .lane => { dst with lanes := src.lanes }
  | .head => { dst with heads := src.heads }
  | .glyph => { dst with glyphs := src.glyphs }
  | .lot => { dst with lots := src.lots }
  | .notepri => { dst with notepri := src.notepri }

/-- A list of tables as two bytes: bit t - 1 for the table of code t (R184). -/
def tableSet (ts : List TableId) : List Byte := beBytes 2 (TableId.all.filter (fun t => decide (t ∈ ts))
  |>.map (fun t => 2 ^ (t.code - 1))).sum

end Sys2Proof.Machine
end

