-- ==== Sys2Proof/Machine/Apply.lean ====
section
/-! DEFINITION. The taking effect of an apply (R177, R8, R18, R55, R74, R121, R122, R133). -/

namespace Sys2Proof.Machine

/-- The active bank after an apply: every MODIFIED staged table copied into it (R177 step 1). -/
def CommandUnit.appliedBank (c : CommandUnit) : Tables := (c.states.having .modified).foldl (Tables.copyFrom c.staged) c.active

/-- Steps 1 to 4 of an apply's taking effect: the tables copied, CUMW rederived, X set to 0 if PITCH changed, CONFIG_SWITCH
set in OPEN hides by FORCE (R177, R74, R8, R55). -/
def State.applyTables (force : Bool) (s : State) : State :=
  let active := s.cmd.appliedBank
  let s₁ : State := { s with
    cmd := { s.cmd with active := active }
    area := { s.area with cumw := deriveCumw active.cellw }
    pos := if active.pitch = s.cmd.active.pitch then s.pos else { s.pos with x := 0 } }
  if force then s₁.mapRecs (onOpen (HideRec.setFlag .configSwitch)) else s₁

/-- Step 5: the mark scheduler deals with each HEAD entry, in increasing head number (R121). -/
def State.applyHeads (old new : List HeadRec) (s : State) : State :=
  (List.range 8).foldl (fun t h => t.takeHeadEntry h (old.getD h .default) (new.getD h .default)) s

/-- Step 6: the lot tally takes up each slot's LOT entry, in increasing slot number (R133). -/
def State.applyLots (old new : List LotRec) (s : State) : State :=
  (List.range 4).foldl (fun t n => t.takeLotEntry n (old.getD n .default) (new.getD n .default)) s

/-- Step 7: every staged table CLEAN, CONFIGURED 1, nothing pending, CONFIG_APPLIED raised (R177). -/
def State.applyDone (s : State) : State :=
  ({ s with cmd := { s.cmd with states := .clean, pendingApply := none, configured := true } }).raise .configApplied

/-- An apply takes effect (R177); a strobe due under the old MIN_STROBE and not under the new one waits (R18; log 9), and an
apply starts no finalization attempt (R129; log 37). -/
def State.takeApply (force : Bool) (s : State) : State :=
  let old := s.cmd.active
  let new := s.cmd.appliedBank
  (((s.keepWaiting.applyTables force).applyHeads old.heads new.heads).applyLots old.lots new.lots).applyDone.enterWait

/-- A pending apply takes effect in its mode (R176). -/
def State.takePendingApply (s : State) : State :=
  match s.cmd.pendingApply with
  | some p => s.takeApply p.force
  | none => s

/-- APPLY_TAKES_EFFECT (R176, R177). -/
def execApplyTakesEffect (s : State) : StepOutcome := stepWhen s s.applyDue s.takePendingApply.arbitrate

end Sys2Proof.Machine
end

