-- ==== Sys2Proof/Machine/RunControl.lean ====
section
/-! DEFINITION. Run control: power, starting, stopping, draining, soft reset (chapter 9 and the reset tables of the other
chapters). -/

namespace Sys2Proof.Machine

/-! ## Power (R148, R158) -/

/-- The ring address that the five straps give: a reading of 31 is taken as 30 (R158). -/
def strapAddress (straps : BitVec 5) : Nat := min 30 straps.toNat

/-- POWER_ON (R148): the power-on values of every block; the one-time-programmable count is read (R157). -/
def execPowerOn (straps : BitVec 5) (s : State) : StepOutcome :=
  .next (State.afterPowerOn (strapAddress straps) s.ver.count s.pending)

/-- POWER_LOSS_OR_RESET_ASSERTED (R148): the part is held; a transmission and a programming operation are cut (R155, R166;
log 5). -/
def execPowerLossOrResetAsserted (s : State) : StepOutcome :=
  .next { s with
    powered := false
    strobe := { s.strobe with pulse := none }
    ver := { s.ver with prog := none }
    ring := { s.ring with out := none } }

/-! ## START (R140, R141) -/

/-- The strobe generator after an accepted START, the HWM as START set it (R16). -/
def StrobeGen.started (hwm : Int) (linePitch : Nat) (g : StrobeGen) : StrobeGen :=
  { g with
    pulse := some { sync := true, left := 20 }
    period := 0
    next := hwm + linePitch
    nextLine := 0
    steady := false
    inWindow := 0
    prevPeriod := none
    strobed := false
    wait := false
    enable := true }

/-- An accepted START at every block that holds run-scoped state (R141). -/
def State.startRun (s : State) : State :=
  let pos := s.pos.restart
  { s with
    pos := pos
    strobe := s.strobe.started pos.hwm s.cmd.active.scan.linePitch
    asm := { s.asm with slots := [] }
    trk := { s.trk with prev := .empty, cur := .empty }
    gap := { s.gap with prevSpans := [], prevMissing := [] }
    area := { s.area with base := .firstLine s.cmd.active.scan.linePitch }
    run := .run }

/-- START at run control (R140): OK carries the HWM as set and the line number 0. -/
def State.startCommand (s : State) : State × Answer :=
  if s.run ≠ .standby then (s, refusedAnswer .state)
  else if !s.cmd.configured then (s, refusedAnswer .notConfigured)
  else (s.startRun, { status := .ok, data := beInt 6 s.startRun.pos.hwm ++ beBytes 2 0 })

/-! ## STOP and the drain (R142 to R144) -/

/-- STOP at run control (R142). The first-stage condition is judged from then on by DRAIN_FIRST_STAGE_END. -/
def State.stopCommand (s : State) : State × Answer :=
  match s.run with
  | .standby => (s, refusedAnswer .state)
  | .run => ({ s with run := .drainFirst }, { status := .ok, data := [] })
  | .drainFirst | .drainSecond => (s, { status := .ok, data := [] })

/-- The end of the drain's first stage at every block (R143, R12, R35, R56, R72, R76). -/
def State.endFirstStage (s : State) : State :=
  { s with
    run := .drainSecond
    strobe := { s.strobe with enable := false, wait := false }
    asm := { s.asm with slots := [] }
    trk := { s.trk with prev := .empty, cur := .empty }
    gap := { s.gap with prevSpans := [], prevMissing := [] }
    area := { s.area with base := .noLine } }

/-- DRAIN_FIRST_STAGE_END (R143). -/
def execDrainFirstStageEnd (s : State) : StepOutcome := stepWhen s s.drainFirstDue s.endFirstStage

/-- DRAIN_SECOND_STAGE_END (R144): STANDBY, with DRAINED raised. -/
def execDrainSecondStageEnd (s : State) : StepOutcome :=
  stepWhen s s.drainSecondDue (({ s with run := .standby }).raise .drained).arbitrate

/-! ## SOFT_RESET (R146, R147) -/

/-- The hide records that a soft reset discards: those not FREE (R147). -/
def State.discarded (s : State) : Nat := s.trk.records.countP (fun r => r.state != .free)

/-- The position unit after a soft reset (R11). -/
def Position.softReset (p : Position) : Position := { p.restart with encFault := 0 }

/-- The strobe generator after a soft reset, the HWM as the reset set it (R19); a pulse in progress finishes (log 32). -/
def StrobeGen.softReset (hwm : Int) (linePitch : Nat) (g : StrobeGen) : StrobeGen :=
  { g with
    enable := false
    wait := false
    next := hwm + linePitch
    period := 0
    nextLine := 0
    prevPeriod := none
    steady := false
    inWindow := 0
    strobed := false
    delayedCount := 0 }

/-- The line assembler after a soft reset (R35, R20). -/
def Assembler.softReset (a : Assembler) : Assembler :=
  { a with slots := [], stray := 0, lateSeg := 0, dupSeg := 0, malformed := 0 }

/-- The hide tracker after a soft reset (R58). -/
def Tracker.softReset (t : Tracker) : Tracker :=
  { t with records := t.records.map (fun _ => .free), prev := .empty, cur := .empty, overflow := 0, handing := none }

/-- The gap tracker after a soft reset (R72). -/
def GapTracker.softReset (g : GapTracker) : GapTracker :=
  { table := g.table.map (fun _ => none), order := [], prevSpans := [], prevMissing := [], overflow := 0 }

/-- A marking head after a soft reset: UNKNOWN, without schedule or work, its fault code kept (R126). -/
def MarkHead.softReset (m : MarkHead) : MarkHead := { m with state := .unknown, schedule := [], engine := none }

/-- The mark scheduler after a soft reset (R126). -/
def MarkScheduler.softReset (m : MarkScheduler) : MarkScheduler :=
  { heads := m.heads.map MarkHead.softReset, waiting := [], test := none, hstatStray := 0 }

/-- A lot slot after a soft reset: the unfinished lot is discarded, its number and the next number are kept (R138). -/
def LotSlot.softReset (l : LotSlot) : LotSlot :=
  { l with count := 0, quarters := 0, decimetres := 0, gross := 0, closePending := false }

/-- The ring interface after a soft reset: buffers emptied, no later answer held (R126, R155, R157), counters 0, a
transmission goes on (R166, R167). -/
def RingInterface.softReset (r : RingInterface) : RingInterface :=
  { r with
    forward := [], responses := [], deferred := [], marking := [], crcErr := 0,
    returned := 0, kindErr := 0, ringDrop := 0, cmdDrop := 0, markWait := 0 }

/-- The verification record after a soft reset: the lock CLOSED, an operation in flight forgotten (R154, R155, R157). -/
def Verification.softReset (v : Verification) : Verification :=
  { v with lockOpen := false, prog := v.prog.map (fun p => { p with forgotten := true }) }

/-- The command unit after a soft reset: a load cancelled, a pending apply dropped (R181). -/
def CommandUnit.softReset (c : CommandUnit) : CommandUnit := { c.cancelLoad with pendingApply := none }

/-- A soft reset at every block (R146), with RESET_DONE as the only pending note (R147, R138). -/
def State.softReset (s : State) : State :=
  let pos := s.pos.softReset
  { s with
    pos := pos
    strobe := s.strobe.softReset pos.hwm s.cmd.active.scan.linePitch
    asm := s.asm.softReset
    trk := s.trk.softReset
    gap := s.gap.softReset
    area := { s.area with base := .noLine, lastAdvance := 0 }
    img := s.img.map (fun _ => none)
    mark := s.mark.softReset
    lots := s.lots.map LotSlot.softReset
    rep := { finals := [], order := [.event .resetDone 1], resetDatum := s.discarded, waits := false }
    run := .standby
    ver := s.ver.softReset
    ring := s.ring.softReset
    cmd := s.cmd.softReset }

/-- SOFT_RESET's answer: OK with the discarded count (R147). -/
def State.resetCommand (s : State) : State × Answer := (s.softReset, { status := .ok, data := beBytes 1 s.discarded })

end Sys2Proof.Machine
end

