-- ==== Sys2Proof/Machine/Verify.lean ====
section
/-! DEFINITION. The verification record: the switch, the programming operation, the lock (chapter 10). -/

namespace Sys2Proof.Machine

/-! ## The switch (R151, R154) -/

/-- The filtered switch: ASSERTED, or RELEASED, which it counts as before it is established (R151). -/
def Verification.asserted (v : Verification) : Bool := v.switch.accepted == some true

/-- The state after a switch sample: the filter takes it (R151). -/
def State.withSwitch (s : State) (level : Bool) : State :=
  { s with ver := { s.ver with switch := (s.ver.switch.sample level).1 } }

/-- What a switch sample does at the filter (R151). -/
def State.switchChange (s : State) (level : Bool) : Change := (s.ver.switch.sample level).2

/-- SWITCH_SAMPLE (R151): the accepted level stays as it is. -/
def execSwitchSample (dt : Nat) (asserted : Bool) (s : State) : StepOutcome :=
  let t := s.passTime dt
  stepWhen s (t.switchChange asserted == .quiet) (t.withSwitch asserted)

/-- SWITCH_LEVEL_ESTABLISHED (R151): no further effect. -/
def execSwitchLevelEstablished (dt : Nat) (asserted : Bool) (s : State) : StepOutcome :=
  let t := s.passTime dt
  stepWhen s (t.switchChange asserted == .established) (t.withSwitch asserted)

/-- SWITCH_ASSERTED (R151): VERIFY_OPEN becomes possible; nothing else happens. -/
def execSwitchAsserted (dt : Nat) (s : State) : StepOutcome :=
  let t := s.passTime dt
  stepWhen s (t.switchChange true == .changed) (t.withSwitch true)

/-- SWITCH_RELEASED (R154): an OPEN lock closes. -/
def execSwitchReleased (dt : Nat) (s : State) : StepOutcome :=
  let t := s.passTime dt
  stepWhen s (t.switchChange false == .changed) (t.withSwitch false).closeLock.arbitrate

/-! ## The programming operation (R152, R153, R155) -/

/-- The greatest verification count (R153). -/
def countTop : Nat := 127

/-- The length of a programming operation in µs (R152). -/
def programmingTime : Nat := 2000

/-- The data of a verification answer: the count, and the lock state, 0 CLOSED and 1 OPEN (R152 to R154, R184). -/
def verifyData (v : Verification) : List Byte := beBytes 1 v.count ++ beBool v.lockOpen

/-- A programming operation is due to complete (R152). -/
def State.programmingDue (s : State) : Bool :=
  match s.ver.prog with
  | some p => p.left == 0
  | none => false

/-- The verification record at a completion: the count is one higher; the lock opens if the filtered switch is ASSERTED and
no soft reset came between (R153, R155). -/
def Verification.completed (p : Programming) (v : Verification) : Verification :=
  { v with count := min countTop (v.count + 1), prog := none, lockOpen := v.lockOpen || (v.asserted && !p.forgotten) }

/-- The answer of a completed operation: OK or SWITCH, with the new count and the lock state (R153). -/
def completionAnswer (v : Verification) : Answer :=
  { status := if v.asserted then .ok else .switch, data := verifyData v }

/-- The completion of a programming operation (R153, R155). -/
def State.completeProgramming (p : Programming) (s : State) : State :=
  let s₁ : State := { s with ver := s.ver.completed p }
  if p.forgotten then s₁
  else
    let s₂ := s₁.raiseIf (s₁.ver.lockOpen != s.ver.lockOpen) .lockChanged
    (s₂.answerLater (.verify (s₂.rspFrame p.src codeVerifyOpen (completionAnswer s₂.ver)))).1

/-- The completion of the operation in flight (R153). -/
def State.finishProgramming (s : State) : State :=
  match s.ver.prog with
  | some p => s.completeProgramming p
  | none => s

/-- PROGRAMMING_COMPLETION (R153). -/
def execProgrammingCompletion (dt : Nat) (s : State) : StepOutcome :=
  let t := s.passTime dt
  stepWhen s t.programmingDue t.finishProgramming.arbitrate

/-! ## The commands (R152, R154, R157) -/

/-- VERIFY_OPEN at the verification record (R152; log 27). -/
def State.openLock (src : Nat) (s : State) : State × Option Answer :=
  if s.ver.prog.isSome || s.heldResponse then (s, some (refusedAnswer .busy))
  else if !s.ver.asserted then (s, some { status := .switch, data := beBytes 1 s.ver.count })
  else if s.ver.lockOpen then (s, some { status := .ok, data := verifyData s.ver })
  else if countTop ≤ s.ver.count then (s, some { status := .exhausted, data := beBytes 1 s.ver.count })
  else
    ({ s with ver := { s.ver with prog := some { src := src, left := programmingTime, forgotten := false } } }, none)

/-- VERIFY_CLOSE's answer: OK with the count and lock CLOSED (R154). -/
def State.closeByCommand (s : State) : State × Answer :=
  (s.closeLock, { status := .ok, data := verifyData s.closeLock.ver })

/-- VERIFY_STATUS's answer (R157): count, lock state, filtered switch, whether an operation is in flight or a response held. -/
def State.verifyReport (s : State) : Answer :=
  { status := .ok
    data := verifyData s.ver ++ beBool s.ver.asserted ++ beBool (s.ver.prog.isSome || s.heldResponse) }

end Sys2Proof.Machine
end

