-- ==== Sys2Proof/Machine/Commands.lean ====
section
/-! DEFINITION. The command unit: command intake and answers, status and counters, load transfers, reading tables, the
apply cycle (chapter 12, R163, R164). -/

namespace Sys2Proof.Machine

/-! ## Intake (R163, R164, R168) -/

/-- What a command does: from its source, its arguments and the state, the state after it and its answer, absent where the
answer comes later (R168). -/
abbrev CommandBody := Nat → List Byte → State → State × Option Answer

/-- An answer given at once placed in the response buffer (R163). -/
def State.reply (f : Frame) (a : Option Answer) (s : State) : State :=
  match a with
  | some a => s.placeResponse (s.rspFrame f.src f.command a)
  | none => s

/-- The report address set to a command's source (R164). -/
def State.reportTo (src : Nat) (s : State) : State := { s with ring := { s.ring with report := some src } }

/-- A place of the response buffer kept for a command's answer, or no longer kept (R163; log 29). -/
def State.keepPlace (kept : Bool) (s : State) : State := { s with ring := { s.ring with answering := kept } }

/-- A command executed, and answered if its answer is given at once in the place kept for it (R163, R164). The report address
is set before the command has its effect, so a STATUS shows its own source; R164 and R179 give no order (DESIGN CHOICE,
log 40). -/
def State.execute (f : Frame) (body : CommandBody) (s : State) : State :=
  let r := body f.src f.args ((s.reportTo f.src).keepPlace true)
  ((r.1.keepPlace false).reply f r.2).arbitrate

/-- A CMD frame at the command intake: dropped with CMD_DROP increased while the response buffer is full, else executed
(R163). -/
def State.intake (f : Frame) (body : CommandBody) (s : State) : State :=
  if s.responseRoom then s.execute f body
  else { s with ring := { s.ring with cmdDrop := bump s.ring.cmdDrop } }

/-- The CMD frame that arriving bytes are, where the part takes it and its command kind passes a test (R161, R168). -/
def State.command (s : State) (kind : Nat → Bool) (bytes : List Byte) : Option Frame :=
  match s.takenFrame kindCmd bytes with
  | some f => if kind f.command then some f else none
  | none => none

/-- A step about a CMD frame (R161, R163, R168). -/
def onCommand (kind : Nat → Bool) (bytes : List Byte) (body : CommandBody) (s : State) : StepOutcome :=
  onFrame s (s.command kind bytes) fun f => s.receive f (State.intake f body)

/-- A command without arguments; any argument is FORMAT (R168). -/
def withoutArgs (act : Nat → State → State × Option Answer) : CommandBody := fun src args s =>
  match args with
  | [] => act src s
  | _ => (s, some (refusedAnswer .format))

/-- A command of one argument byte; any other length is FORMAT (R168). -/
def withByte (act : Byte → State → State × Option Answer) : CommandBody := fun _ args s =>
  match args with
  | [b] => act b s
  | _ => (s, some (refusedAnswer .format))

/-- A command that answers at once. -/
def atOnce (r : State × Answer) : State × Option Answer := (r.1, some r.2)

/-! ## STATUS and COUNTERS (R179, R180) -/

/-- The code of the run state, in the order of R139, and the drain stage, FIRST or SECOND, absent outside DRAIN
(R179, R184; log 22). -/
def RunState.codes : RunState → List Byte
  | .standby => [0, 255] | .run => [1, 255] | .drainFirst => [2, 0] | .drainSecond => [2, 1]

/-- The next expected index in two bytes, in two's complement: a DOWN load that has passed entry 0 expects -1 (R170, R171,
R184). -/
def indexBytes (next : Int) : List Byte := beInt 2 next

/-- A load in progress in STATUS: table, direction, next expected index, entries due; all ones for none (R179; log 22). -/
def loadStatus : Option Load → List Byte
  | none => absentBytes 6
  | some l => beBytes 1 l.table.code ++ beBool l.down ++ indexBytes l.next ++ beBytes 2 l.due

/-- STATUS page 0 (R179). -/
def State.page0 (s : State) : List Byte :=
  s.run.codes ++ beBool s.cmd.configured
    ++ TableId.all.flatMap (fun t => beBytes 1 (s.cmd.states.get t).code)
    ++ loadStatus s.cmd.load
    ++ (match s.cmd.pendingApply with
        | none => [255]
        | some p => beBool p.force)
    ++ beInt 6 s.pos.i ++ beInt 6 s.pos.hwm ++ beBool s.pos.excursion ++ beBool (!s.strobe.steady)
    ++ beBytes 2 s.asm.lastLine.toNat ++ beBytes 4 s.asm.lastTime.toNat ++ beInt 6 s.area.lastAdvance
    ++ beBytes 1 s.ring.addr ++ beOption 1 s.ring.report

/-- The code of an engine's state: IDLE, LEAD, PRINTING (section 7.6, R184). -/
def engineCode : Option Service → Nat
  | none => 0
  | some sv => if sv.printing then 2 else 1

/-- The five states of a hide record in the order of R36. -/
def HideState.all : List HideState := [.free, .isOpen, .waiting, .marking, .reporting]

/-- The hide records that count in a state: a hide that closed and is not yet handed on counts as OPEN (R36; log 36). -/
def State.recordsCounted (s : State) (st : HideState) : Nat :=
  s.recordsIn st + (if st = .isOpen then s.recordsIn .closed else 0)

/-- STATUS page 1 (R179). A head's state and fault code stand together, head by head, and a slot's lot number and count, slot by
slot; R179 and R184 do not say whether they are interleaved so (DESIGN CHOICE, log 41). -/
def State.page1 (s : State) : List Byte :=
  HideState.all.flatMap (fun st => beBytes 1 (s.recordsCounted st))
    ++ beBytes 4 s.trk.counter ++ beBytes 1 (s.gap.table.countP Option.isSome) ++ beBytes 1 (s.img.countP Option.isNone)
    ++ (List.range 8).flatMap (fun h => beBytes 1 (s.head h).state.code ++ [(s.head h).fault])
    ++ (List.range 8).flatMap (fun h => beBytes 1 (engineCode (s.head h).engine))
    ++ (List.range 8).flatMap (fun h => beBytes 1 (s.head h).schedule.length)
    ++ (List.range 4).flatMap (fun n => beBytes 2 (s.lotSlot n).lotNo ++ beBytes 2 (s.lotSlot n).count)
    ++ beBytes 1 s.rep.used ++ beBytes 1 s.ring.forward.length ++ beBytes 1 s.ring.marking.length

/-- STATUS's answer (R179). -/
def State.statusAnswer (s : State) (page : Byte) : Answer :=
  if page = 0 then { status := .ok, data := s.page0 }
  else if page = 1 then { status := .ok, data := s.page1 }
  else refusedAnswer .format

/-- STATUS (R179). -/
def bodyStatus : CommandBody := withByte fun page s => (s, some (s.statusAnswer page))

/-- The 15 counters in the order of R180. -/
def State.countersList (s : State) : List Nat :=
  [s.pos.encFault, s.strobe.delayedCount, s.asm.stray, s.asm.lateSeg, s.asm.dupSeg, s.asm.malformed, s.trk.overflow,
   s.gap.overflow, s.mark.hstatStray, s.ring.crcErr, s.ring.returned, s.ring.kindErr, s.ring.ringDrop, s.ring.cmdDrop,
   s.ring.markWait]

/-- Every counter set to 0 (R180). -/
def State.clearCounters (s : State) : State :=
  { s with
    pos := { s.pos with encFault := 0 }
    strobe := { s.strobe with delayedCount := 0 }
    asm := { s.asm with stray := 0, lateSeg := 0, dupSeg := 0, malformed := 0 }
    trk := { s.trk with overflow := 0 }
    gap := { s.gap with overflow := 0 }
    mark := { s.mark with hstatStray := 0 }
    ring := { s.ring with crcErr := 0, returned := 0, kindErr := 0, ringDrop := 0, cmdDrop := 0, markWait := 0 } }

/-- COUNTERS (R180): read, then cleared if clear is yes. -/
def bodyCounters : CommandBody := withByte fun clear s =>
  let a : Answer := { status := .ok, data := s.countersList.flatMap (beBytes 2) }
  if clear = 0 then (s, some a)
  else if clear = 1 then (s.clearCounters, some a)
  else (s, some (refusedAnswer .format))

/-! ## Load transfers (R170 to R173) -/

/-- A table's staged state set. -/
def CommandUnit.setStaged (t : TableId) (v : StagedState) (c : CommandUnit) : CommandUnit :=
  { c with states := c.states.put t v }

/-- The start of a load, after any load in progress is cancelled (R170). -/
def CommandUnit.startLoad (t : TableId) (first count : Nat) (down : Bool) (c : CommandUnit) : CommandUnit :=
  let c₁ := c.cancelLoad
  { c₁ with
    load := some { table := t, down := down, first := first, count := count,
                   next := if down then (first : Int) + count - 1 else first, due := count, last := none,
                   wasTorn := c₁.states.get t == .torn, clamped := 0 }
    states := c₁.states.put t .loading }

/-- The range test of LOAD_BEGIN (R170). -/
def loadRangeOk (t : TableId) (first count dir : Nat) : Bool :=
  decide (count ≠ 0) && decide (first + count ≤ t.entries) && decide (dir ≤ 1)

/-- LOAD_BEGIN judged (R170). -/
def State.loadBegin (code first count dir : Nat) (s : State) : State × Answer :=
  match TableId.ofCode code with
  | none => (s, refusedAnswer .format)
  | some t =>
    if !loadRangeOk t first count dir then (s, refusedAnswer .format)
    else if s.cmd.pendingApply.isSome then (s, refusedAnswer .busy)
    else if t.verified && !s.ver.lockOpen then (s, refusedAnswer .locked)
    else
      ({ s with cmd := s.cmd.startLoad t first count (dir == 1) },
        { status := .ok, data := indexBytes (if dir = 1 then (first : Int) + count - 1 else first) })

/-- LOAD_BEGIN (R170). -/
def bodyLoadBegin : CommandBody := fun _ args s =>
  match splitFields [1, 2, 2, 1] args with
  | some [t, f, c, d] => atOnce (s.loadBegin (ofBytes t) (ofBytes f) (ofBytes c) (ofBytes d))
  | _ => (s, some (refusedAnswer .format))

/-- The load in progress ended incomplete: its table is TORN (R171, R173). -/
def State.tearLoad (s : State) : State := { s with cmd := s.cmd.cancelLoad }

/-- The answer to a LOAD_DATA taken: OK, or OK_CLAMPED, with the next expected index and the fields clamped (R168, R171,
R172). -/
def dataAnswer (next : Int) (clamped : Nat) : Answer :=
  { status := if clamped = 0 then .ok else .okClamped, data := indexBytes next ++ beBytes 1 clamped }

/-- Whether a LOAD_DATA repeats the last one taken in the load (R171). -/
def Load.isRepeat (l : Load) (first n : Nat) : Bool :=
  match l.last with
  | some d => decide (d.first = first) && decide (d.entries = n) && decide ((first : Int) ≠ l.next)
  | none => false

/-- The load after a LOAD_DATA of `n` entries is taken with `clamped` fields clamped (R171, R172; the count has no bound, log
46). -/
def Load.advance (first n clamped : Nat) (l : Load) : Load :=
  { l with
    next := if l.down then l.next - n else l.next + n
    due := l.due - n
    last := some { first := first, entries := n, clamped := clamped }
    clamped := l.clamped + clamped }

/-- The entries of a LOAD_DATA written to the staged bank (R171). -/
def Load.write (l : Load) (first : Nat) (entries : List (List Byte)) (staged : Tables) : Stored Tables :=
  staged.storeAll l.table l.down first entries

/-- A repeat: the entries are written again, their clamped fields are added to the load's count like any frame's (R172; the count
has no bound, log 46), and the answer is that of the first copy (R171; log 24). -/
def State.repeatData (l : Load) (first : Nat) (entries : List (List Byte)) (s : State) : State × Answer :=
  let w := l.write first entries s.cmd.staged
  ({ s with cmd := { s.cmd with staged := w.value, load := some { l with clamped := l.clamped + w.clamped } } },
    dataAnswer l.next ((l.last.map LastData.clamped).getD 0))

/-- A LOAD_DATA at the next expected index: its entries written, the load moved past them (R171). -/
def State.takeData (l : Load) (first : Nat) (entries : List (List Byte)) (s : State) : State × Answer :=
  let w := l.write first entries s.cmd.staged
  let l₁ := l.advance first entries.length w.clamped
  ({ s with cmd := { s.cmd with staged := w.value, load := some l₁ } }, dataAnswer l₁.next w.clamped)

/-- LOAD_DATA judged against the load in progress (R171). -/
def State.loadData (l : Load) (first : Nat) (bytes : List Byte) (s : State) : State × Answer :=
  let n := bytes.length / l.table.entryLength
  let entries := chunks l.table.entryLength n bytes
  if bytes.length % l.table.entryLength ≠ 0 ∨ n = 0 ∨ l.table.frameMax < n then (s.tearLoad, refusedAnswer .format)
  else if l.isRepeat first n then s.repeatData l first entries
  else if l.due < n then (s.tearLoad, refusedAnswer .format)
  else if (first : Int) ≠ l.next then (s.tearLoad, refusedAnswer .sequence)
  else s.takeData l first entries

/-- LOAD_DATA (R171). Without a load, one that holds a first index and something of an entry is refused NOLOAD and a shorter one
FORMAT; in a load, one too short to hold a first index is refused FORMAT and ends the load (R168, R183; log 26). -/
def bodyLoadData : CommandBody := fun _ args s =>
  match s.cmd.load, args with
  | none, _ :: _ :: _ :: _ => (s, some (refusedAnswer .noload))
  | none, _ => (s, some (refusedAnswer .format))
  | some l, i₁ :: i₀ :: bytes => atOnce (s.loadData l (ofBytes [i₁, i₀]) bytes)
  | some _, _ => (s.tearLoad, some (refusedAnswer .format))

/-- The staged state that a complete load leaves: MODIFIED, but TORN for a table that was TORN when the load began and was
not covered whole (R173). -/
def Load.completed (l : Load) : StagedState := if l.wasTorn && l.count != l.table.entries then .torn else .modified

/-- LOAD_END judged (R173). The load's clamped count above 65,535, which repeats can reach (R172), is the model's choice: the spec
gives it no range, no saturation and no wrap, so the count stands unbounded, OK_CLAMPED goes by it, and the answer holds its low
16 bits (DESIGN CHOICE, log 46). -/
def State.loadEnd (s : State) : State × Answer :=
  match s.cmd.load with
  | none => (s, refusedAnswer .noload)
  | some l =>
    if l.due = 0 then
      ({ s with cmd := { s.cmd with load := none, states := s.cmd.states.put l.table l.completed } },
        { status := if l.clamped = 0 then .ok else .okClamped
          data := beBytes 1 l.completed.code ++ beBytes 2 l.clamped })
    else
      (s.tearLoad, { status := .torn, data := beBytes 1 StagedState.torn.code ++ beBytes 2 l.clamped ++ beBytes 2 l.due })

/-- LOAD_END (R173). -/
def bodyLoadEnd : CommandBody := withoutArgs fun _ s => atOnce s.loadEnd

/-! ## Reading tables (R174) -/

/-- READ_TABLE's answer (R174): STAGED is bank 0, ACTIVE bank 1. -/
def State.readAnswer (s : State) (code bank first count : Nat) : Answer :=
  match TableId.ofCode code with
  | none => refusedAnswer .format
  | some t =>
    if 1 < bank ∨ count = 0 ∨ t.frameMax < count ∨ t.entries < first + count then refusedAnswer .format
    else
      { status := .ok
        data := beBytes 1 (s.cmd.states.get t).code
          ++ (List.range count).flatMap (fun k => (if bank = 0 then s.cmd.staged else s.cmd.active).entryBytes t (first + k)) }

/-- READ_TABLE (R174). -/
def bodyReadTable : CommandBody := fun _ args s =>
  match splitFields [1, 1, 2, 2] args with
  | some [t, b, f, c] => (s, some (s.readAnswer (ofBytes t) (ofBytes b) (ofBytes f) (ofBytes c)))
  | _ => (s, some (refusedAnswer .format))

/-! ## The apply cycle (R175, R178) -/

/-- APPLY's answer: the mode, and the tables that were MODIFIED (R175). -/
def applyAnswer (st : Status) (force : Bool) (tables : List TableId) : Answer :=
  { status := st, data := beBool force ++ tableSet tables }

/-- APPLY left pending (R175). -/
def State.leavePending (force : Bool) (tables : List TableId) (s : State) : State :=
  { s with cmd := { s.cmd with pendingApply := some { force := force, tables := tables } } }

/-- APPLY judged (R175, R150). -/
def State.applyCommand (force : Bool) (s : State) : State × Answer :=
  let tables := s.cmd.states.having .modified
  if s.cmd.load.isSome || s.cmd.pendingApply.isSome then (s, refusedAnswer .busy)
  else if !(s.cmd.states.having .torn).isEmpty then (s, refusedAnswer .torn)
  else if !s.ver.lockOpen && s.cmd.verifiedModified then (s, refusedAnswer .locked)
  else if tables.isEmpty then (s, applyAnswer .ok force [])
  else if !s.strobe.enable then (s.takeApply force, applyAnswer .ok force tables)
  else if s.atBoundary && (force || !s.hasOpen) then (s.takeApply force, applyAnswer .ok force tables)
  else (s.leavePending force tables, applyAnswer .accepted force tables)

/-- APPLY (R175): mode AT_GAP is 0, FORCE is 1. -/
def bodyApply : CommandBody := withByte fun mode s =>
  if mode = 0 then atOnce (s.applyCommand false)
  else if mode = 1 then atOnce (s.applyCommand true)
  else (s, some (refusedAnswer .format))

/-- CANCEL_APPLY judged (R178). -/
def State.cancelApply (s : State) : State × Answer :=
  ({ s with cmd := { s.cmd with pendingApply := none } },
    { status := .ok, data := beBool s.cmd.pendingApply.isSome })

/-- CANCEL_APPLY (R178). -/
def bodyCancelApply : CommandBody := withoutArgs fun _ s => atOnce s.cancelApply

/-- The command unit after a REVERT: any load cancelled, the active banks copied into the staged banks, all CLEAN (R178). -/
def CommandUnit.reverted (c : CommandUnit) : CommandUnit :=
  { c with staged := c.active, states := .clean, load := none }

/-- REVERT judged (R178): its answer lists the tables that were not CLEAN. -/
def State.revertCommand (s : State) : State × Answer :=
  if s.cmd.pendingApply.isSome then (s, refusedAnswer .busy)
  else
    ({ s with cmd := s.cmd.reverted },
      { status := .ok, data := tableSet (TableId.all.filter (fun t => s.cmd.states.get t != .clean)) })

/-- REVERT (R178). -/
def bodyRevert : CommandBody := withoutArgs fun _ s => atOnce s.revertCommand

/-! ## Commands of other blocks -/

/-- START (R140). -/
def bodyStart : CommandBody := withoutArgs fun _ s => atOnce s.startCommand

/-- STOP (R142). -/
def bodyStop : CommandBody := withoutArgs fun _ s => atOnce s.stopCommand

/-- SOFT_RESET (R146, R147). -/
def bodySoftReset : CommandBody := withoutArgs fun _ s => atOnce s.resetCommand

/-- VERIFY_OPEN (R152). -/
def bodyVerifyOpen : CommandBody := withoutArgs fun src s => s.openLock src

/-- VERIFY_CLOSE (R154). -/
def bodyVerifyClose : CommandBody := withoutArgs fun _ s => atOnce s.closeByCommand

/-- VERIFY_STATUS (R157). -/
def bodyVerifyStatus : CommandBody := withoutArgs fun _ s => (s, some s.verifyReport)

/-- CLOSE_LOT (R132). -/
def bodyCloseLot : CommandBody := withByte fun slot s => atOnce (s.commandClose slot.toNat)

/-- TEST_MARK (R123). -/
def bodyTestMark : CommandBody := fun src args s =>
  match args with
  | [h, v₁, v₀] => s.testMark src h.toNat (ofBytes [v₁, v₀])
  | _ => (s, some (refusedAnswer .format))

/-- An unknown command kind is refused FORMAT (R168). -/
def bodyUnknown : CommandBody := fun _ _ s => (s, some (refusedAnswer .format))

/-! ## The steps -/

/-- STATUS (R179). -/
def execStatus (bytes : List Byte) (s : State) : StepOutcome := onCommand (· == codeStatus) bytes bodyStatus s

/-- COUNTERS (R180). -/
def execCounters (bytes : List Byte) (s : State) : StepOutcome := onCommand (· == codeCounters) bytes bodyCounters s

/-- START (R140). -/
def execStart (bytes : List Byte) (s : State) : StepOutcome := onCommand (· == codeStart) bytes bodyStart s

/-- STOP (R142). -/
def execStop (bytes : List Byte) (s : State) : StepOutcome := onCommand (· == codeStop) bytes bodyStop s

/-- SOFT_RESET (R146). -/
def execSoftReset (bytes : List Byte) (s : State) : StepOutcome := onCommand (· == codeSoftReset) bytes bodySoftReset s

/-- LOAD_BEGIN (R170). -/
def execLoadBegin (bytes : List Byte) (s : State) : StepOutcome := onCommand (· == codeLoadBegin) bytes bodyLoadBegin s

/-- LOAD_DATA (R171). -/
def execLoadData (bytes : List Byte) (s : State) : StepOutcome := onCommand (· == codeLoadData) bytes bodyLoadData s

/-- LOAD_END (R173). -/
def execLoadEnd (bytes : List Byte) (s : State) : StepOutcome := onCommand (· == codeLoadEnd) bytes bodyLoadEnd s

/-- READ_TABLE (R174). -/
def execReadTable (bytes : List Byte) (s : State) : StepOutcome := onCommand (· == codeReadTable) bytes bodyReadTable s

/-- The line L0, where its hand-over is due, taken before an arriving frame that comes while the tracker segments it (R175;
log 14). -/
def State.enterLine (s : State) : State := if s.powered && s.lineDue then s.takeOldest.arbitrate else s

/-- APPLY (R175). -/
def execApply (bytes : List Byte) (midLine : Bool) (s : State) : StepOutcome :=
  onCommand (· == codeApply) bytes bodyApply
    (if midLine && (s.command (· == codeApply) bytes).isSome then s.enterLine else s)

/-- CANCEL_APPLY (R178). -/
def execCancelApply (bytes : List Byte) (s : State) : StepOutcome := onCommand (· == codeCancelApply) bytes bodyCancelApply s

/-- REVERT (R178). -/
def execRevert (bytes : List Byte) (s : State) : StepOutcome := onCommand (· == codeRevert) bytes bodyRevert s

/-- VERIFY_OPEN (R152). -/
def execVerifyOpen (bytes : List Byte) (s : State) : StepOutcome := onCommand (· == codeVerifyOpen) bytes bodyVerifyOpen s

/-- VERIFY_CLOSE (R154). -/
def execVerifyClose (bytes : List Byte) (s : State) : StepOutcome := onCommand (· == codeVerifyClose) bytes bodyVerifyClose s

/-- VERIFY_STATUS (R157). -/
def execVerifyStatus (bytes : List Byte) (s : State) : StepOutcome :=
  onCommand (· == codeVerifyStatus) bytes bodyVerifyStatus s

/-- CLOSE_LOT (R132). -/
def execCloseLot (bytes : List Byte) (s : State) : StepOutcome := onCommand (· == codeCloseLot) bytes bodyCloseLot s

/-- TEST_MARK (R123). -/
def execTestMark (bytes : List Byte) (s : State) : StepOutcome := onCommand (· == codeTestMark) bytes bodyTestMark s

/-- UNKNOWN_COMMAND (R168, R183). -/
def execUnknownCommand (bytes : List Byte) (s : State) : StepOutcome :=
  onCommand (fun k => !knownCommand k) bytes bodyUnknown s

end Sys2Proof.Machine
end

