-- ==== Sys2Proof/Machine/Settle.lean ====
section
/-! DEFINITION. SEG: a segment is judged against the window that the strobes before it leave, their timeouts and hand-overs
done (R22, R23, R26, R27). -/

namespace Sys2Proof.Machine

/-- The next thing that the last strobe or segment still has to bring while the strobe enable is set, ended by the arbiter's
pick: the timeout; then, at a line boundary, the apply or the end of the drain's first stage due there, whether or not L0 is
READY, and the whole hand-over of a READY L0. A line that is being segmented is left where it stands (R22, R26, R27, R143, R176;
log 42). -/
def State.settleNext (s : State) : Option State :=
  if !s.strobe.enable then none
  else if s.timeoutDue then some s.closeOverdue
  else if !s.atBoundary then none
  else if s.applyDue then some s.takePendingApply.arbitrate
  else if s.drainFirstDue then some s.endFirstStage
  else if s.handoverReady then some s.handOver
  else none

/-- At most `n` of those things done, in turn. -/
def State.settleWithin : Nat → State → State
  | 0, s => s
  | n + 1, s =>
    match s.settleNext with
    | some t => t.settleWithin n
    | none => s

/-- All that the strobes and segments before bring to the line assembler, to the boundary that the last of their hand-overs
reaches, judged too: a timeout, an apply and an end of the drain each come once at most, and each hand-over frees a slot (R22,
R26, R27, R143, R176; log 42). -/
def State.settle (s : State) : State := s.settleWithin (s.asm.slots.length + 3)

/-- A SEG taken by the line assembler (R23, R27). Where the hand-overs before it end the drain's first stage, the strobe enable
is clear when it is judged, and it is discarded without a count (R143). -/
def State.takeSegment (f : Frame) (s : State) : State := s.settle.judgeSegment f

/-- SEG (R23). -/
def execSeg (bytes : List Byte) (s : State) : StepOutcome :=
  onFrame s (s.takenFrame kindSeg bytes) fun f => s.receive f (State.takeSegment f)

end Sys2Proof.Machine
end

