-- ==== Sys2Proof/Machine/Dispatch.lean ====
section
/-! DEFINITION. The dispatch: one arm per step of `Instr`, one meaning each. -/

namespace Sys2Proof.Machine

def exec (i : Instr) (s : State) : Host.Outcome State Fault Refusal :=
  match i with
  | .powerOn straps => Sys2Proof.Machine.execPowerOn straps s
  | .encoderLevelEstablished dt a b => Sys2Proof.Machine.execEncoderLevelEstablished dt a b s
  | .forwardCount dt a b => Sys2Proof.Machine.execForwardCount dt a b s
  | .backwardCount dt a b => Sys2Proof.Machine.execBackwardCount dt a b s
  | .encoderFault dt a b => Sys2Proof.Machine.execEncoderFault dt a b s
  | .strobe dt => Sys2Proof.Machine.execStrobe dt s
  | .pulseEnd dt => Sys2Proof.Machine.execPulseEnd dt s
  | .lineTimeout => Sys2Proof.Machine.execLineTimeout s
  | .seg bytes => Sys2Proof.Machine.execSeg bytes s
  | .hstat bytes => Sys2Proof.Machine.execHstat bytes s
  | .forwardedFrame bytes => Sys2Proof.Machine.execForwardedFrame bytes s
  | .badFrame bytes => Sys2Proof.Machine.execBadFrame bytes s
  | .returnedFrame bytes => Sys2Proof.Machine.execReturnedFrame bytes s
  | .kindErr bytes => Sys2Proof.Machine.execKindErr bytes s
  | .lineHandover => Sys2Proof.Machine.execLineHandover s
  | .enginePrime head => Sys2Proof.Machine.execEnginePrime head s
  | .columnSend head => Sys2Proof.Machine.execColumnSend head s
  | .waitingFrameHanded => Sys2Proof.Machine.execWaitingFrameHanded s
  | .applyTakesEffect => Sys2Proof.Machine.execApplyTakesEffect s
  | .drainFirstStageEnd => Sys2Proof.Machine.execDrainFirstStageEnd s
  | .drainSecondStageEnd => Sys2Proof.Machine.execDrainSecondStageEnd s
  | .finalization => Sys2Proof.Machine.execFinalization s
  | .pendingLotClose => Sys2Proof.Machine.execPendingLotClose s
  | .transmissionEnd dt => Sys2Proof.Machine.execTransmissionEnd dt s
  | .deferredAnswerPlaced => Sys2Proof.Machine.execDeferredAnswerPlaced s
  | .switchLevelEstablished dt asserted => Sys2Proof.Machine.execSwitchLevelEstablished dt asserted s
  | .switchAsserted dt => Sys2Proof.Machine.execSwitchAsserted dt s
  | .switchReleased dt => Sys2Proof.Machine.execSwitchReleased dt s
  | .programmingCompletion dt => Sys2Proof.Machine.execProgrammingCompletion dt s
  | .status bytes => Sys2Proof.Machine.execStatus bytes s
  | .counters bytes => Sys2Proof.Machine.execCounters bytes s
  | .start bytes => Sys2Proof.Machine.execStart bytes s
  | .stop bytes => Sys2Proof.Machine.execStop bytes s
  | .softReset bytes => Sys2Proof.Machine.execSoftReset bytes s
  | .loadBegin bytes => Sys2Proof.Machine.execLoadBegin bytes s
  | .loadData bytes => Sys2Proof.Machine.execLoadData bytes s
  | .loadEnd bytes => Sys2Proof.Machine.execLoadEnd bytes s
  | .readTable bytes => Sys2Proof.Machine.execReadTable bytes s
  | .apply bytes midLine => Sys2Proof.Machine.execApply bytes midLine s
  | .cancelApply bytes => Sys2Proof.Machine.execCancelApply bytes s
  | .revert bytes => Sys2Proof.Machine.execRevert bytes s
  | .verifyOpen bytes => Sys2Proof.Machine.execVerifyOpen bytes s
  | .verifyClose bytes => Sys2Proof.Machine.execVerifyClose bytes s
  | .verifyStatus bytes => Sys2Proof.Machine.execVerifyStatus bytes s
  | .closeLot bytes => Sys2Proof.Machine.execCloseLot bytes s
  | .testMark bytes => Sys2Proof.Machine.execTestMark bytes s
  | .unknownCommand bytes => Sys2Proof.Machine.execUnknownCommand bytes s
  | .encoderSample dt a b => Sys2Proof.Machine.execEncoderSample dt a b s
  | .switchSample dt asserted => Sys2Proof.Machine.execSwitchSample dt asserted s
  | .powerLossOrResetAsserted => Sys2Proof.Machine.execPowerLossOrResetAsserted s

end Sys2Proof.Machine
end

