-- ==== Sys2Proof/Machine/Step.lean ====
section
/-! DEFINITION. One step of the machine: the step at the front of the queue, or on an empty queue the first of the part's
own steps that is due, or a microsecond of the timebase. -/

namespace Sys2Proof.Machine

/-- The first head whose engine has something due. -/
def firstHead (due : Nat → Bool) : Option (Fin 8) := (List.finRange 8).find? (fun h => due h)

/-- The part's own step that is due first, in a fixed order (DESIGN CHOICE, log 2): the judgements of a line boundary, the
line assembler, the marking path, the report path, run control, and what the timebase brings. -/
def State.ownStep (s : State) : Option Instr :=
  if s.pulseOver then some (.pulseEnd 0)
  else if s.programmingDue then some (.programmingCompletion 0)
  else if s.applyDue then some .applyTakesEffect
  else if s.drainFirstDue then some .drainFirstStageEnd
  else if s.timeoutDue then some .lineTimeout
  else if s.lineStepDue then some .lineHandover
  else if s.strobeDue then some (.strobe 0)
  else if s.waitingHandDue then some .waitingFrameHanded
  else
    match firstHead s.engineDue with
    | some h => if s.primeReady h then some (.enginePrime h) else some (.columnSend h)
    | none =>
      if s.pendingCloseDue then some .pendingLotClose
      else if s.finalizationDue then some .finalization
      else if s.drainSecondDue then some .drainSecondStageEnd
      else if !s.ring.deferred.isEmpty && s.responseRoom then some .deferredAnswerPlaced
      else none

/-- The part with no step waiting: its own step that is due, else 1 µs of the timebase; a held part stays as it is
(DESIGN CHOICE, log 2). -/
def State.idle (s : State) : Host.Outcome State Fault Refusal :=
  if s.powered then
    match s.ownStep with
    | some i => exec i s
    | none => .next (s.passTime 1)
  else .next s

/-- One step: the step at the front of the queue on the state with the queue's rest; on an empty queue the part idles. -/
def step (s : State) : Host.Outcome State Fault Refusal :=
  match s.pending with
  | c :: rest => exec c { s with pending := rest }
  | [] => s.idle

/-- The state with the step that a word spells put at the front of its queue; unchanged where the word spells none. -/
def State.withFetchWord (s : State) (nbits w : Nat) : State :=
  match decodeTableWord nbits w with
  | some i => { s with pending := i :: s.pending }
  | none => s

end Sys2Proof.Machine
end

