-- ==== Sys2Proof/Safety.lean ====
section
/-! DEFINITION. What is held to be safe about the part: the invariants that every step keeps, in the terms the statements
use, and the names that statements share. -/

namespace Sys2Proof.Machine

/-! ## Ranges of the tables (section 12.8) -/

/-- A PITCH record in the ranges of section 12.8. -/
abbrev PitchRec.InRange (p : PitchRec) : Prop :=
  p.pint ≤ 4095 ∧ p.pfrac < 2 ^ 24 ∧ 2 ≤ p.pmod ∧ p.pmod ≤ 16777215 ∧ p.paux < p.pmod

/-- A CALIB record in the ranges of section 12.8. -/
abbrev CalibRec.InRange (c : CalibRec) : Prop :=
  -20000 ≤ c.trimPpm ∧ c.trimPpm ≤ 20000 ∧ c.holeLimit ≤ 65535 ∧ c.minHide ≤ 10000

/-- A SCAN record in the ranges of section 12.8, its window not empty (R172). -/
abbrev ScanRec.InRange (r : ScanRec) : Prop :=
  r.winStart ≤ r.winEnd ∧ r.winEnd ≤ 2047 ∧ 1 ≤ r.minRun ∧ r.minRun ≤ 32 ∧ 500 ≤ r.linePitch ∧ r.linePitch ≤ 20000
    ∧ 100 ≤ r.minStrobe ∧ r.minStrobe ≤ 10000 ∧ 2 ≤ r.asmDepth ∧ r.asmDepth ≤ 7 ∧ 1 ≤ r.steadyWin ∧ r.steadyWin ≤ 64
    ∧ 2 ≤ r.steadyCount ∧ r.steadyCount ≤ 255 ∧ r.reverseLimit ≤ 65535

/-- A MARKP record in the ranges of section 12.8. -/
abbrev MarkpRec.InRange (m : MarkpRec) : Prop :=
  m.anchorOffset ≤ 2000000 ∧ 1000 ≤ m.anchorStride ∧ m.anchorStride ≤ 200000 ∧ m.stampWidth ≤ 400000
    ∧ 200 ≤ m.columnPitch ∧ m.columnPitch ≤ 5000 ∧ m.shiftWindow ≤ 200000 ∧ -2 ≤ m.glyphGap ∧ m.glyphGap ≤ 4

/-- A LANE entry in the ranges of section 12.8, with HEAD_ALT other than HEAD_PRI (R172). -/
abbrev LaneRec.InRange (l : LaneRec) : Prop :=
  l.cellFirst ≤ l.cellLast ∧ l.cellLast ≤ 2047 ∧ l.headPri ≤ 7 ∧ (∀ a ∈ l.headAlt, a ≤ 7 ∧ a ≠ l.headPri)
    ∧ l.lotSlot ≤ 3

/-- A HEAD entry in the ranges of section 12.8, with GUARD no less than PRIME_LEAD (R172). -/
abbrev HeadRec.InRange (h : HeadRec) : Prop :=
  h.ringAddr ≤ 30 ∧ 100000 ≤ h.offset ∧ h.offset ≤ 4000000 ∧ h.primeLead ≤ 50000 ∧ h.primeLead ≤ h.guard
    ∧ h.guard ≤ 100000 ∧ h.edge ≤ 16777215 ∧ 50 ≤ h.nozzlePitch ∧ h.nozzlePitch ≤ 2000 ∧ 16 ≤ h.nozzles ∧ h.nozzles ≤ 1024

/-- A GLYPH entry in the ranges of section 12.8, with its 12 stored columns. -/
abbrev GlyphRec.InRange (g : GlyphRec) : Prop := 1 ≤ g.width ∧ g.width ≤ 12 ∧ g.columns.length = 12

/-- A LOT entry in the ranges of section 12.8. -/
abbrev LotRec.InRange (l : LotRec) : Prop :=
  1 ≤ l.size ∧ l.size ≤ 999 ∧ (∀ g ∈ l.prefixGlyph, g ≤ 31) ∧ 1 ≤ l.firstNo ∧ l.firstNo ≤ 65535

/-- A bank whose ten tables have their entries (section 12.2), every field in its range (section 12.8). -/
structure Tables.InRange (b : Tables) : Prop where
  cellw : b.cellw.length = 2048 ∧ ∀ w ∈ b.cellw, 200 ≤ w ∧ w ≤ 8000
  pitch : b.pitch.InRange
  calib : b.calib.InRange
  scan : b.scan.InRange
  markp : b.markp.InRange
  lanes : b.lanes.length = 8 ∧ ∀ l ∈ b.lanes, l.InRange
  heads : b.heads.length = 8 ∧ ∀ h ∈ b.heads, h.InRange
  glyphs : b.glyphs.length = 32 ∧ ∀ g ∈ b.glyphs, g.InRange
  lots : b.lots.length = 4 ∧ ∀ l ∈ b.lots, l.InRange
  notepri : b.notepri.length = 4 ∧ ∀ n ∈ b.notepri, n ≤ 3

/-- Both banks of every table in range: what R172 makes of every load. -/
def State.TablesOk (s : State) : Prop := s.cmd.staged.InRange ∧ s.cmd.active.InRange

/-! ## The invariants -/

/-- The position: I in 48 bits, F below 2^24, X below the active PMOD (R5); the HWM at or above I (R9); an excursion only
while I is below the HWM (R10). -/
def State.PositionOk (s : State) : Prop :=
  posMin ≤ s.pos.i ∧ s.pos.i ≤ s.pos.hwm ∧ s.pos.hwm ≤ posMax ∧ s.pos.f < 2 ^ 24 ∧ s.pos.x < s.cmd.active.pitch.pmod
    ∧ (s.pos.excursion = true → s.pos.i < s.pos.hwm)

/-- The strobe enable is set exactly in RUN and in the drain's first stage (R139), and the wait state holds only while it is
set and the HWM is at or above NEXT (R12, R13). -/
def State.StrobesOk (s : State) : Prop :=
  (s.strobe.enable = true ↔ s.run = .run ∨ s.run = .drainFirst)
    ∧ (s.strobe.wait = true → s.strobe.enable = true ∧ s.strobe.next ≤ s.pos.hwm)

/-- The lock is OPEN only while the filtered switch is ASSERTED (R151), and the count is at most 127 (R153). -/
def State.LockOk (s : State) : Prop :=
  (s.ver.lockOpen = true → s.ver.switch.accepted = some true) ∧ s.ver.count ≤ 127

/-- No buffer of the ring, nor the note queue, holds more than its places (R162, R163, R165, R135); between steps no command
is being executed (R163; log 29). -/
def State.BuffersOk (s : State) : Prop :=
  s.ring.forward.length ≤ 4 ∧ s.ring.responses.length ≤ 4 ∧ s.ring.marking.length ≤ 32 ∧ s.rep.used ≤ 24
    ∧ s.ring.answering = false

/-- There are four lot slots, and the count of each stays below its active LOT_SIZE except while a close is pending on it
(R127, R130). -/
def State.LotsOk (s : State) : Prop :=
  s.lots.length = 4
    ∧ ∀ n, n < 4 → (s.lotSlot n).closePending = true ∨ (s.lotSlot n).count < (s.lotEntry n).size

/-- Whether a verified load is in progress. -/
def CommandUnit.verifiedLoad (c : CommandUnit) : Bool := c.load.any (fun l => l.table.verified)

/-- The seal: a load and a pending apply are never there together (R170, R175); a verified load, and a pending apply with a
verified staged table MODIFIED, are there only while the lock is OPEN (R150, R154). -/
def State.SealOk (s : State) : Prop :=
  (s.cmd.load.isSome = true → s.cmd.pendingApply = none)
    ∧ (s.cmd.verifiedLoad = true → s.ver.lockOpen = true)
    ∧ (s.cmd.pendingApply.isSome = true → s.cmd.verifiedModified = true → s.ver.lockOpen = true)

/-! ## Names that statements share -/

/-- A position with its fractions in units of 2^-24/PMOD µm (R5, R6). -/
def Position.scaled (pmod : Nat) (p : Position) : Int := (p.i * 2 ^ 24 + p.f) * pmod + p.x

/-- One count's travel in the same units (section 1.1 note 1). -/
def PitchRec.scaled (p : PitchRec) : Int := ((p.pint : Int) * 2 ^ 24 + p.pfrac) * p.pmod + p.paux

/-- A schedule in order: strictly rising starts, each reservation's end no later than the next one's start (R111). -/
def ScheduleOk (l : List Reservation) : Prop := l.Pairwise (fun a b => a.start < b.start ∧ a.stop ≤ b.start)

/-- A start clears a reservation by GUARD: from its end on, or, where its engine has not primed, before its start
(R112 step 4). -/
def ClearsBy (guard length : Nat) (p : Int) (primed : Bool) (r : Reservation) : Prop :=
  r.stop + guard ≤ p ∨ (primed = false ∧ p + length + guard ≤ r.start)

/-- A start clears every reservation of a schedule, the first of which its engine serves if `primed` (R112 step 4). -/
def ClearsSchedule (guard length : Nat) (p : Int) (primed : Bool) (l : List Reservation) : Prop :=
  ∀ k r, l[k]? = some r → ClearsBy guard length p (primed && k == 0) r

/-- A cell is covered by a list of runs. -/
def CoveredIn (c : Nat) (runs : List FormRun) : Prop := ∃ r ∈ runs, r.first ≤ c ∧ c ≤ r.last

/-- Runs ascending and separated by at least one uncovered cell (R31, R34). -/
def Separated (runs : List FormRun) : Prop :=
  (∀ r ∈ runs, r.first ≤ r.last) ∧ runs.Pairwise (fun a b => a.last + 1 < b.first)

/-- Two members of a list given by their keys share a key (R43, R63). -/
def ShareKey {κ : Type} (kss : List (List κ)) (i j : Nat) : Prop :=
  ∃ ki kj k, kss[i]? = some ki ∧ kss[j]? = some kj ∧ k ∈ ki ∧ k ∈ kj

/-- The flags that a line gives a hide present on it, by the table of R54, for the line's current list. -/
def FormedLine.givesFlag (line : FormedLine) (cur : RunList) (lockOpen : Bool) (n : Nat) : Flag → Prop
  | .gapped => line.missing ≠ [] ∧ ((∃ h ∈ cur.held, h.label = .hide n)
      ∨ ∃ r ∈ cur.real, r.label = .hide n ∧ ∃ m ∈ line.missing, m.first ≤ r.last + 1 ∧ r.first ≤ m.last + 1)
  | .runClamp => line.runClamp = true
  | .overspeed => line.delayed = true
  | .unsteady => line.steady = false
  | .edge => ∃ r ∈ cur.real, r.label = .hide n ∧ r.edge = true
  | .unverified => lockOpen = true
  | _ => False

/-- A hide is present on a line: it has a real or a held run in the line's current list (section 3.5). -/
def PresentIn (cur : RunList) (n : Nat) : Prop :=
  (∃ r ∈ cur.real, r.label = .hide n) ∨ ∃ h ∈ cur.held, h.label = .hide n

/-- A good CMD frame of a code and arguments, addressed to the part itself and taken while the part is not held and the response buffer has a free
place (R161, R163). -/
structure State.Takes (s : State) (bytes : List Byte) (f : Frame) (code : Nat) (args : List Byte) : Prop where
  powered : s.powered = true
  taken : s.takenFrame kindCmd bytes = some f
  own : f.dst ≠ Config.broadcast
  code : f.command = code
  args : f.args = args
  room : s.ring.responses.length < 4

/-- A state after a command whose answer comes later: the report address is the command's source, the arbiter's pick is
made (R163, R164, R166). -/
def State.commanded (f : Frame) (s : State) : State :=
  ({ s with ring := { s.ring with report := some f.src, answering := false } }).arbitrate

/-- A state after a command answered at once (R163, R164): the RSP, at the end of the response buffer, goes to the command's
source and carries the command kind, the status and the data (section 13.3). -/
def State.answered (f : Frame) (st : Status) (data : List Byte) (s : State) : State :=
  ({ s with ring := { s.ring with
      responses := s.ring.responses
        ++ [mkFrame f.src s.ring.addr kindRsp (BitVec.ofNat 8 f.command :: st.code :: data)] } }).commanded f

/-- The steps about a CMD frame: the frame's bytes, the command kinds the step is about, and what the command does. -/
inductive CommandStep : Instr → List Byte → (Nat → Bool) → CommandBody → Prop
  | status (b : List Byte) : CommandStep (.status b) b (· == codeStatus) bodyStatus
  | counters (b : List Byte) : CommandStep (.counters b) b (· == codeCounters) bodyCounters
  | start (b : List Byte) : CommandStep (.start b) b (· == codeStart) bodyStart
  | stop (b : List Byte) : CommandStep (.stop b) b (· == codeStop) bodyStop
  | softReset (b : List Byte) : CommandStep (.softReset b) b (· == codeSoftReset) bodySoftReset
  | loadBegin (b : List Byte) : CommandStep (.loadBegin b) b (· == codeLoadBegin) bodyLoadBegin
  | loadData (b : List Byte) : CommandStep (.loadData b) b (· == codeLoadData) bodyLoadData
  | loadEnd (b : List Byte) : CommandStep (.loadEnd b) b (· == codeLoadEnd) bodyLoadEnd
  | readTable (b : List Byte) : CommandStep (.readTable b) b (· == codeReadTable) bodyReadTable
  | apply (b : List Byte) : CommandStep (.apply b false) b (· == codeApply) bodyApply
  | cancelApply (b : List Byte) : CommandStep (.cancelApply b) b (· == codeCancelApply) bodyCancelApply
  | revert (b : List Byte) : CommandStep (.revert b) b (· == codeRevert) bodyRevert
  | verifyOpen (b : List Byte) : CommandStep (.verifyOpen b) b (· == codeVerifyOpen) bodyVerifyOpen
  | verifyClose (b : List Byte) : CommandStep (.verifyClose b) b (· == codeVerifyClose) bodyVerifyClose
  | verifyStatus (b : List Byte) : CommandStep (.verifyStatus b) b (· == codeVerifyStatus) bodyVerifyStatus
  | closeLot (b : List Byte) : CommandStep (.closeLot b) b (· == codeCloseLot) bodyCloseLot
  | testMark (b : List Byte) : CommandStep (.testMark b) b (· == codeTestMark) bodyTestMark
  | unknownCommand (b : List Byte) : CommandStep (.unknownCommand b) b (fun k => !knownCommand k) bodyUnknown

/-- The statuses of a command that is not refused (R168, R175). -/
def Status.accepts (st : Status) : Prop := st = .ok ∨ st = .okClamped ∨ st = .accepted

/-- Only the marking path has changed: hide records, image slots, the mark scheduler, the finalization list and the arrival
order, and what a marking engine or an ended test mark hands to the ring interface. -/
def MarkingOnly (s t : State) : Prop :=
  t = { s with
    trk := { s.trk with records := t.trk.records }
    img := t.img
    mark := t.mark
    rep := { s.rep with finals := t.rep.finals, order := t.rep.order }
    ring := { s.ring with responses := t.ring.responses, deferred := t.ring.deferred, marking := t.ring.marking,
                          markWait := t.ring.markWait } }

end Sys2Proof.Machine
end

