-- ==== Sys2Proof/Certificates/Slice0/Obligations.lean ====
section
/-! DEFINITION. The statements for the provers: what the steps of the part do, and what every step keeps. Helper names
stand in Sys2Proof/Safety.lean. -/

open Sys2Proof Sys2Proof.Machine

/-! ## The machine -/

/-- A step takes the command at the front of the queue: it is exec of that command on the state with the queue's rest. -/
def Obligations.StepTakesFront : Prop :=
  ∀ (c : Instr) (rest : List Instr) (s : State),
    step { s with pending := c :: rest } = exec c { s with pending := rest }

/-- Every command answers a next state and leaves the queue as it is; so every step answers one, and takes at most the
queue's front. -/
def Obligations.EveryStepCompletes : Prop :=
  (∀ (i : Instr) (s : State), ∃ t, exec i s = .next t ∧ t.pending = s.pending)
    ∧ ∀ s : State, ∃ t, step s = .next t ∧ t.pending = s.pending.tail

/-- POWER_LOSS_OR_RESET_ASSERTED holds the part and cuts the strobe line's pulse, the transmission and the programming
operation, and nothing else changes; a held part takes no step but the power-on event and another such assertion, and does
not idle (R148, R155, R166; the cuts are log 5, the order log 2). -/
def Obligations.HeldPartTakesNothing : Prop :=
  (∀ s : State, exec .powerLossOrResetAsserted s = .next { s with
      powered := false, strobe := { s.strobe with pulse := none }, ver := { s.ver with prog := none },
      ring := { s.ring with out := none } })
    ∧ (∀ (i : Instr) (s : State), s.powered = false → i ≠ .powerLossOrResetAsserted → (∀ straps, i ≠ .powerOn straps) →
        exec i s = .next s)
    ∧ ∀ s : State, s.powered = false → s.pending = [] → step s = .next s

/-- POWER_ON answers the power-on state, from whatever state: STANDBY, not configured, both banks at the defaults of section
12.8, every record, slot, schedule, buffer, queue and counter clear; the address from the straps, 31 being read as 30; of the
state before, only the verification count and the queue remain. Where the spec leaves a value open it is the model's: a
filter's candidate level (log 7), the depth last strobed with and whether a strobe has been issued (log 10), the datum of a
RESET_DONE not raised and the place kept for an answer (log 29), a finalization's waiting (log 37), what a FREE record's other
fields hold (log 43). -/
def Obligations.PowerOnState : Prop :=
  ∀ (straps : BitVec 5) (s : State),
    exec (.powerOn straps) s = .next {
      powered := true
      time := 0
      encA := { accepted := none, run := 0, cand := false }
      encB := { accepted := none, run := 0, cand := false }
      pos := { i := 0, f := 0, x := 0, hwm := 0, excursion := false, encFault := 0 }
      strobe := { enable := false, next := 1600, period := 0, wait := false, nextLine := 0, prevPeriod := none
                  steady := false, inWindow := 0, strobed := false, delayedCount := 0, pulse := none }
      asm := { slots := [], depth := 4, lastLine := 0, lastTime := 0, stray := 0, lateSeg := 0, dupSeg := 0
               malformed := 0 }
      trk := { records := List.replicate 48 .free, prev := { real := [], held := [] }, cur := { real := [], held := [] }
               counter := 1, overflow := 0, handing := none }
      gap := { table := List.replicate 96 none, order := [], prevSpans := [], prevMissing := [], overflow := 0 }
      area := { cumw := (List.range 2049).map (1600 * ·), base := .noLine, lastAdvance := 0 }
      img := List.replicate 16 none
      mark := { heads := List.replicate 8 { state := .unknown, fault := 0, schedule := [], engine := none, sent := 0 }
                waiting := [], test := none, hstatStray := 0 }
      lots := List.replicate 4
        { lotNo := 1, count := 0, quarters := 0, decimetres := 0, gross := 0, closePending := false, nextNo := none }
      rep := { finals := [], order := [], resetDatum := 0, waits := false }
      run := .standby
      ver := { count := s.ver.count, lockOpen := false, switch := { accepted := none, run := 0, cand := false }
               prog := none }
      ring := { addr := min 30 straps.toNat, report := none, forward := [], responses := [], answering := false
                deferred := [], marking := [], out := none, crcErr := 0, returned := 0, kindErr := 0, ringDrop := 0
                cmdDrop := 0, markWait := 0 }
      cmd := { staged := .default, active := .default, states := .clean, load := none, pendingApply := none
               configured := false }
      pending := s.pending }

/-- Every invariant stated below holds at reset. -/
def Obligations.ResetMeetsInvariants : Prop :=
  State.reset.TablesOk ∧ State.reset.PositionOk ∧ State.reset.StrobesOk ∧ State.reset.LockOk ∧ State.reset.SealOk
    ∧ State.reset.BuffersOk ∧ State.reset.LotsOk

/-! ## The position unit (chapter 1) -/

/-- FORWARD_COUNT: the filter takes the sample, the position moves by `Position.forward`, the HWM takes I if I is above it,
an excursion ends when I is back at the HWM, and the wait state is entered where a strobe is due by position and not by
time. Nothing else changes. -/
def Obligations.ForwardCountMoves : Prop :=
  ∀ (dt : Nat) (a b : Bool) (s : State), s.powered = true →
    let t := s.passTime dt
    let o := t.encoderSampled a b
    let p := t.pos.forward t.cmd.active.pitch
    o.2.2 = .forward →
    exec (.forwardCount dt a b) s = .next { t with
      encA := o.1, encB := o.2.1
      pos := { p with hwm := max t.pos.hwm p.i, excursion := t.pos.excursion && decide (p.i < t.pos.hwm) }
      strobe := { t.strobe with
        wait := t.strobe.wait || (t.strobe.enable && decide (t.strobe.next ≤ max t.pos.hwm p.i)
          && decide (t.strobe.period < t.cmd.active.scan.minStrobe)) } }

/-- BACKWARD_COUNT: the filter takes the sample and the position moves by `Position.backward`, the HWM unchanged. Where the
HWM then exceeds I by more than REVERSE_LIMIT and no excursion is in progress, one begins: every OPEN hide gets REVERSED
and BELT_REVERSE is raised. Nothing else changes. -/
def Obligations.BackwardCountMoves : Prop :=
  ∀ (dt : Nat) (a b : Bool) (s : State), s.powered = true →
    let t := s.passTime dt
    let o := t.encoderSampled a b
    let p := t.pos.backward t.cmd.active.pitch
    o.2.2 = .backward →
    p.hwm = t.pos.hwm ∧ p.excursion = t.pos.excursion ∧
    (if t.pos.excursion = false ∧ (t.cmd.active.scan.reverseLimit : Int) < t.pos.hwm - p.i then
      exec (.backwardCount dt a b) s = .next (State.arbitrate { t with
        encA := o.1, encB := o.2.1, pos := { p with excursion := true }
        trk := { t.trk with records := t.trk.records.map fun r =>
          if r.state = .isOpen then { r with flags := r.flags ||| BitVec.ofNat 16 (2 ^ 8) } else r }
        rep := { t.rep with order := raiseIn .beltReverse t.rep.order } })
    else exec (.backwardCount dt a b) s = .next { t with encA := o.1, encB := o.2.1, pos := p })

/-- A forward count adds one pitch in the three carrying stages of R6, a backward count subtracts one in the borrowing
stages of R7. Over N forward counts the three parts together move by exactly N pitches, F and X stay in their ranges, and I
is the floor of the true position; a forward count after a backward one leaves I, F and X exactly as they were (where no count
would leave I's 48 bits). A count that would carry I beyond either end of its range leaves the position as it is. -/
def Obligations.CountsExact : Prop :=
  ((∀ (q : PitchRec) (p : Position),
        let c₁ : Nat := if q.pmod ≤ p.x + q.paux then 1 else 0
        let c₂ : Nat := if 2 ^ 24 ≤ p.f + q.pfrac + c₁ then 1 else 0
        (p.i + q.pint + c₂ ≤ 2 ^ 47 - 1 →
            p.forward q = { p with x := p.x + q.paux - c₁ * q.pmod, f := p.f + q.pfrac + c₁ - c₂ * 2 ^ 24,
                                   i := p.i + q.pint + c₂ })
          ∧ (2 ^ 47 - 1 < p.i + q.pint + c₂ → p.forward q = p))
      ∧ ∀ (q : PitchRec) (p : Position) (n : Nat), q.InRange → p.f < 2 ^ 24 → p.x < q.pmod →
          p.i + n * (q.pint + 1) ≤ posMax →
          let r := (Position.forward q)^[n] p
          r.scaled q.pmod = p.scaled q.pmod + n * q.scaled ∧ r.f < 2 ^ 24 ∧ r.x < q.pmod
            ∧ r.i = r.scaled q.pmod / (2 ^ 24 * q.pmod))
    ∧ (∀ (q : PitchRec) (p : Position),
        let b₁ : Nat := if p.x < q.paux then 1 else 0
        let b₂ : Nat := if p.f < q.pfrac + b₁ then 1 else 0
        (-(2 ^ 47) ≤ p.i - q.pint - b₂ →
            p.backward q = { p with x := p.x + b₁ * q.pmod - q.paux, f := p.f + b₂ * 2 ^ 24 - (q.pfrac + b₁),
                                    i := p.i - q.pint - b₂ })
          ∧ (p.i - q.pint - b₂ < -(2 ^ 47) → p.backward q = p))
    ∧ (∀ (q : PitchRec) (p : Position), q.InRange → p.f < 2 ^ 24 → p.x < q.pmod →
      posMin ≤ p.i - (q.pint + 1) → p.i ≤ posMax →
      (p.backward q).scaled q.pmod = p.scaled q.pmod - q.scaled ∧ (p.backward q).forward q = p)

/-- ENCODER_SAMPLE, ENCODER_LEVEL_ESTABLISHED and ENCODER_FAULT: the filter takes the sample; the first two do nothing more;
a fault counts ENC_FAULT, flags every OPEN hide ENCODER and raises ENCODER_FAULT, and leaves the position as it is. -/
def Obligations.EncoderSamplesTaken : Prop :=
  ∀ (dt : Nat) (a b : Bool) (s : State), s.powered = true →
    let t := s.passTime dt
    let o := t.encoderSampled a b
    (o.2.2 = .quiet → exec (.encoderSample dt a b) s = .next { t with encA := o.1, encB := o.2.1 })
      ∧ (o.2.2 = .establishes →
          exec (.encoderLevelEstablished dt a b) s = .next { t with encA := o.1, encB := o.2.1 })
      ∧ (o.2.2 = .fault → exec (.encoderFault dt a b) s = .next (State.arbitrate { t with
          encA := o.1, encB := o.2.1, pos := { t.pos with encFault := min 65535 (t.pos.encFault + 1) }
          trk := { t.trk with records := t.trk.records.map fun r =>
            if r.state = .isOpen then { r with flags := r.flags ||| BitVec.ofNat 16 (2 ^ 7) } else r }
          rep := { t.rep with order := raiseIn .encoderFault t.rep.order } }))

/-- A channel whose samples hold no three consecutive ones that differ from the accepted level keeps that level, and three
consecutive ones change it at the third. A channel without an accepted level gets one from the first three consecutive equal
samples, at the third, as an establishment and no change, and stays without while its samples hold no three. -/
def Obligations.ShortPulsesIgnored : Prop :=
  (∀ (c : Channel) (l : Bool) (xs : List Bool), c.accepted = some l → c.run = 0 →
      ¬ [!l, !l, !l] <:+: xs → (xs.foldl (fun c x => (c.sample x).1) c).accepted = some l)
    ∧ (∀ (c : Channel) (l : Bool), c.accepted = some l → c.run = 0 →
        (((c.sample (!l)).1.sample (!l)).1.sample (!l)).2 = .changed
          ∧ (((c.sample (!l)).1.sample (!l)).1.sample (!l)).1.accepted = some (!l))
    ∧ ∀ (c : Channel) (xs : List Bool), c.accepted = none → c.run = 0 →
      (∀ l, ¬ [l, l, l] <:+: xs) →
      let d := xs.foldl (fun c x => (c.sample x).1) c
      d.accepted = none ∧ ∀ l,
        ([l, l] <:+ xs → d.sample l = ({ accepted := some l, run := 0, cand := l }, .established))
          ∧ (¬ [l, l] <:+ xs → (d.sample l).2 = .quiet ∧ (d.sample l).1.accepted = none)

/-- With both levels established, a sample at which one channel changes is a count: forward under NORMAL along
(0,0), (1,0), (1,1), (0,1), (0,0), backward along the reverse, and the senses are exchanged under SWAPPED; a sample at which
both change is a fault. -/
def Obligations.QuadratureSense : Prop :=
  ∀ (dir : EncDir) (ca cb : Channel) (a b la lb : Bool), ca.accepted = some la → cb.accepted = some lb →
    let k := (encoderOutcome dir ca cb a b).2.2
    let changedA := (ca.sample a).2 = .changed
    let changedB := (cb.sample b).2 = .changed
    let along := ((la, lb), (if changedA then !la else la, if changedB then !lb else lb)) ∈
      [((false, false), (true, false)), ((true, false), (true, true)), ((true, true), (false, true)),
       ((false, true), (false, false))]
    (changedA ∧ changedB → k = .fault)
      ∧ (¬ changedA ∧ ¬ changedB → k = .quiet)
      ∧ (¬ (changedA ↔ changedB) → k = if along ↔ dir = .normal then .forward else .backward)

/-- The HWM never falls, but at START, soft reset and power-on. -/
def Obligations.HwmNeverFalls : Prop :=
  ∀ (i : Instr) (s t : State), exec i s = .next t → (∀ straps, i ≠ .powerOn straps) → (∀ b, i ≠ .start b) →
    (∀ b, i ≠ .softReset b) → s.pos.hwm ≤ t.pos.hwm

/-! ## The strobe generator (chapter 1) -/

/-- STROBE, when due: the pulse starts, the line takes the slot after the others with S, its number, its time, the DELAYED
flag and the steady state that its own period left; NEXT moves past S, the line number goes on, the period counter and the
wait state are cleared; a steady event is raised where the judgement gives one. PULSE_END: the strobe line returns low when
its pulse has lasted, and nothing else changes. What passing time changes: the timebase counts microseconds modulo 2^32, the
period counter stops at 2^32-1, and a pulse on the strobe line and a programming operation have less left; a held part's time
stands still. An idle step with nothing due is one microsecond (log 2). -/
def Obligations.StrobesIssued : Prop :=
  (∀ (dt : Nat) (s : State), s.powered = true →
      let t := s.passTime dt
      let scan := t.cmd.active.scan
      let v := t.strobe.verdict scan
      t.strobe.enable = true → t.strobe.next ≤ t.pos.hwm → scan.minStrobe ≤ t.strobe.period → t.assemblerSettled = true →
      let slot : LineSlot :=
        { number := t.strobe.nextLine, s := t.pos.hwm, time := t.time, delayed := t.strobe.wait, steady := v.steady,
          expected := scan.headMask, winStart := scan.winStart, winEnd := scan.winEnd, barReverse := scan.barReverse,
          minRun := scan.minRun, entries := List.replicate 8 .notArrived, ready := scan.headMask == 0, gapped := false }
      let u : State := { t with
        strobe := { t.strobe with
          next := nextAfter t.strobe scan.linePitch t.pos.hwm, period := 0, wait := false
          nextLine := t.strobe.nextLine + 1
          prevPeriod := if t.strobe.strobed then some t.strobe.period else t.strobe.prevPeriod
          steady := v.steady, inWindow := v.inWindow, strobed := true
          delayedCount := if t.strobe.wait then min 65535 (t.strobe.delayedCount + 1) else t.strobe.delayedCount
          pulse := some { sync := false, left := 2 } }
        asm := { t.asm with slots := t.asm.slots ++ [slot], depth := scan.asmDepth } }
      exec (.strobe dt) s = .next
        (match v.event with
         | some k => State.arbitrate { u with rep := { u.rep with order := raiseIn k u.rep.order } }
         | none => u))
    ∧ (∀ (dt : Nat) (s : State) (sync : Bool), s.powered = true →
      (s.passTime dt).strobe.pulse = some { sync := sync, left := 0 } →
      exec (.pulseEnd dt) s = .next { s.passTime dt with strobe := { (s.passTime dt).strobe with pulse := none } })
    ∧ (∀ (dt : Nat) (s : State), let t := s.passTime dt
      (s.powered = false → t = s)
        ∧ (s.powered = true →
          t = { s with
            time := t.time
            strobe := { s.strobe with period := min (2 ^ 32 - 1) (s.strobe.period + dt), pulse := t.strobe.pulse }
            ver := { s.ver with prog := t.ver.prog } }
          ∧ t.time.toNat = (s.time.toNat + dt) % 2 ^ 32
          ∧ (s.strobe.pulse = none → t.strobe.pulse = none)
          ∧ (∀ p, s.strobe.pulse = some p → t.strobe.pulse = some { p with left := p.left - dt })
          ∧ (s.ver.prog = none → t.ver.prog = none)
          ∧ ∀ p, s.ver.prog = some p → t.ver.prog = some { p with left := p.left - dt }))
    ∧ ∀ s : State, s.powered = true → s.pending = [] → s.ownStep = none → step s = .next (s.passTime 1)

/-- The judgement of a strobe's period: none for the first strobe after START, nor for the first period; later periods are
in window by |T - Tprev| × 256 ≤ Tprev × STEADY_WIN. In window the count rises, to 255 at most, and a count at STEADY_COUNT
or above makes an UNSTEADY state STEADY with SPEED_STEADY; out of window the count is 0 and a STEADY state becomes UNSTEADY
with SPEED_UNSTEADY. NEXT after a strobe at S exceeds S and lies a whole number of LINE_PITCH steps on from
NEXT + LINE_PITCH, or for a DELAYED strobe from S + LINE_PITCH, and is the least such position. -/
def Obligations.PeriodJudgedAndNextMoved : Prop :=
  (∀ (scan : ScanRec) (g : StrobeGen),
      ((g.strobed = false ∨ g.prevPeriod = none) →
          g.verdict scan = { steady := g.steady, inWindow := g.inWindow, event := none })
        ∧ ∀ prev, g.strobed = true → g.prevPeriod = some prev →
            let dist := max g.period prev - min g.period prev
            let n := min 255 (g.inWindow + 1)
            (dist * 256 ≤ prev * scan.steadyWin →
                (g.verdict scan).inWindow = n
                  ∧ ((g.verdict scan).steady = true ↔ g.steady = true ∨ scan.steadyCount ≤ n)
                  ∧ (g.verdict scan).event
                      = if g.steady = false ∧ scan.steadyCount ≤ n then some .speedSteady else none)
              ∧ (prev * scan.steadyWin < dist * 256 →
                  g.verdict scan = { steady := false, inWindow := 0,
                                     event := if g.steady = true then some .speedUnsteady else none }))
    ∧ (∀ (g : StrobeGen) (pitch : Nat) (sPos : Int), 0 < pitch →
      let base := (if g.wait then sPos else g.next) + pitch
      ∃ k : Nat, nextAfter g pitch sPos = base + k * pitch ∧ sPos < nextAfter g pitch sPos
        ∧ ∀ j : Nat, sPos < base + j * pitch → k ≤ j)

/-! ## The line assembler (chapter 2) -/

/-- SEG, addressed to the part: nothing while the strobe enable is clear; else MALFORMED for a payload under 5 bytes, STRAY
or LATE_SEG for a line outside the window by its distance from L0 modulo 2^16, STRAY for a head above 7 or not expected,
DUP_SEG for an entry already there; else the entry is set, MALFORMED counted for a segment out of form, and the line is
READY when no expected entry is missing and GAPPED when one is UNUSABLE. Nothing else changes. So it is where the strobes
before the segment are done with, and while a line is being handed over and no timeout is due, the line staying where it stands
(log 42); where a timeout, an apply, the end of the drain's first stage or a hand-over is still due from them, the
segment is judged as if that step, or the steps that bring the hand-over to its boundary, had been taken before it (R22, R27;
log 42). An apply and the end of the drain's first stage are so due at a boundary whether or not a line is READY there (R143,
R176); where hand-overs before the segment bring the drain's condition, the stage ends at their boundary, the strobe enable is
clear, and the segment is discarded without a count. -/
def Obligations.SegmentPlaced : Prop :=
  (∀ (s : State) (bytes : List Byte) (f : Frame), s.powered = true → s.takenFrame kindSeg bytes = some f →
      f.dst ≠ Config.broadcast →
      s.strobe.enable = false ∨ s.assemblerSettled = true ∨ (s.trk.handing ≠ none ∧ s.timeoutDue = false) →
      (s.strobe.enable = false → exec (.seg bytes) s = .next s)
        ∧ (s.strobe.enable = true → readSegment f.payload = none →
            exec (.seg bytes) s = .next { s with asm := { s.asm with malformed := min 65535 (s.asm.malformed + 1) } })
        ∧ ∀ g, s.strobe.enable = true → readSegment f.payload = some g →
            let l0 := match s.asm.slots with
              | [] => s.strobe.nextLine
              | slot :: _ => slot.number
            let d := (g.line - l0).toNat
            (s.asm.slots.length ≤ d → d < 32768 →
                exec (.seg bytes) s = .next { s with asm := { s.asm with stray := min 65535 (s.asm.stray + 1) } })
              ∧ (s.asm.slots.length ≤ d → 32768 ≤ d →
                exec (.seg bytes) s = .next { s with asm := { s.asm with lateSeg := min 65535 (s.asm.lateSeg + 1) } })
              ∧ ∀ slot, s.asm.slots[d]? = some slot →
                (7 < g.head ∨ slot.expected.getLsbD g.head = false →
                    exec (.seg bytes) s = .next { s with asm := { s.asm with stray := min 65535 (s.asm.stray + 1) } })
                  ∧ (g.head ≤ 7 → slot.expected.getLsbD g.head = true → slot.entry g.head ≠ .notArrived →
                    exec (.seg bytes) s = .next { s with asm := { s.asm with dupSeg := min 65535 (s.asm.dupSeg + 1) } })
                  ∧ (g.head ≤ 7 → slot.expected.getLsbD g.head = true → slot.entry g.head = .notArrived →
                    let formed := decide (g.count ≤ 30) && g.lengthFits && runsInForm g.runs
                    let arrival := if formed = false ∨ g.fault = true then .unusable else .usable g.runs g.clamped
                    let slot₁ := { slot with entries := slot.entries.set g.head arrival }
                    exec (.seg bytes) s = .next { s with asm := { s.asm with
                      slots := s.asm.slots.set d { slot₁ with
                        ready := slot.ready || slot₁.complete, gapped := slot.gapped || slot₁.anyUnusable }
                      malformed := if formed then s.asm.malformed else min 65535 (s.asm.malformed + 1) } }))
    ∧ ∀ (s t : State) (bytes : List Byte) (f : Frame), s.powered = true → s.takenFrame kindSeg bytes = some f →
      f.dst ≠ Config.broadcast →
      (s.strobe.enable = true → s.timeoutDue = true → exec .lineTimeout s = .next t →
          exec (.seg bytes) s = exec (.seg bytes) t)
        ∧ (s.strobe.enable = true → s.timeoutDue = false → s.trk.handing = none →
          (s.applyDue = true → exec .applyTakesEffect s = .next t → exec (.seg bytes) s = exec (.seg bytes) t)
            ∧ (s.applyDue = false → s.drainFirstDue = true → exec .drainFirstStageEnd s = .next t →
              exec (.seg bytes) s = .next t)
            ∧ (s.applyDue = false → s.drainFirstDue = false → s.handoverReady = true →
              ∀ (n : Nat) (run : Nat → State), run 0 = s →
              (∀ k, k ≤ n → exec .lineHandover (run k) = .next (run (k + 1))) →
              (∀ k, 0 < k → k ≤ n → (run k).trk.handing ≠ none) → (run (n + 1)).trk.handing = none →
              exec (.seg bytes) s = exec (.seg bytes) (run (n + 1))))

/-- LINE_TIMEOUT, when a line is overdue: every line that is not READY and is ASM_DEPTH or more lines older than the last
line strobed becomes READY and GAPPED, its missing entries UNUSABLE; the other lines, and all else, are unchanged. -/
def Obligations.LineTimedOut : Prop :=
  ∀ s : State, s.powered = true → s.timeoutDue = true →
    exec .lineTimeout s = .next { s with asm := { s.asm with slots := s.asm.slots.map fun slot =>
      if slot.ready = false ∧ s.asm.depth ≤ (s.strobe.nextLine - 1 - slot.number).toNat then
        { slot with ready := true, gapped := true
                    entries := slot.entries.map fun a => if a = .notArrived then .unusable else a }
      else slot } }

/-- LINE_HANDOVER, at a line boundary when the oldest line is READY, strobes are enabled, and no apply or drain is due there:
the line leaves its slot and is the last line handed over, its advance is the latched pitch or S less the S before, it is
segmented, examined for gaps, measured and sampled, and the hides that close on it leave OPEN; LINE_GAPPED is raised for a
missing span, HIDE_TABLE_FULL and GAP_TABLE_FULL once for each group refused a record. Then the first of the closing hides is
handed on, each further one by a LINE_HANDOVER of its own (log 14), and with the last, or at once where none closes, the current
list becomes the previous list. Nothing else changes but what handing on changes. A hide handed on is valued, its ring is
reduced to its anchor, and it goes to REPORTING and joins the finalization list with no outcome (FRAGMENT, or JOINED under
NO_MARK), with MISSED_NO_LANE where no ENABLED lane holds its anchor's cell, with MISSED_NO_IMAGE where no image slot is FREE;
else the lowest FREE slot holds its text, and it is WAITING with a reservation on HEAD_PRI, or else on HEAD_ALT, at the start the
trial finds; where every trial fails, the slot is FREE again and it has missed: HEAD_DOWN if all failed so, LATE if one did, else
BUSY. A hide that closed on the line is in the model's own state `closed` until it is handed on (log 36), and the arbiter's pick is
made once, after all events of the step (log 28). -/
def Obligations.LineHandedOver : Prop :=
  let handed := fun (left : List Nat) (v : State) =>
    let boundary := fun t : State => { t with trk := { t.trk with prev := v.trk.cur, cur := .empty, handing := none } }
    match left with
    | [] => boundary v
    | [n] => boundary (v.handOn n)
    | n :: m :: more => { v.handOn n with trk := { (v.handOn n).trk with handing := some (m :: more) } }
  (∀ (s : State) (slot : LineSlot) (rest : List LineSlot), s.powered = true → s.strobe.enable = true →
      s.asm.slots = slot :: rest → slot.ready = true → s.trk.handing = none → s.applyDue = false → s.drainFirstDue = false →
      let line := formLine slot
      let advance : Int := match s.area.base with
        | .noLine => 0
        | .firstLine pitch => pitch
        | .previous p => slot.s - p
      let g := segmentLine (decide (s.run = .run)) s.pos.excursion s.ver.lockOpen line s.trk
      let e := examineLine s.area.cumw advance.toNat s.cmd.active.calib.holeLimit line.missing g.merges g.trk.prev.real
        g.trk.cur.real g.trk.records s.gap
      let raised := fun (k : EventKind) (n : Nat) (order : List NoteItem) => n.repeat (raiseIn k) order
      let u := s.takeOldest
      exec .lineHandover s = .next (handed g.closing u).arbitrate
        ∧ u = { s with
          asm := { s.asm with slots := rest, lastLine := slot.number, lastTime := slot.time }
          area := { s.area with base := .previous slot.s, lastAdvance := advance }
          trk := { g.trk with records := u.trk.records, handing := some g.closing }
          gap := e.gap
          rep := { s.rep with order := raised .gapTableFull e.refused (raised .hideTableFull g.refused
            (raised .lineGapped (if line.missing = [] then 0 else 1) s.rep.order)) } }
        ∧ u.trk.records.length = e.records.length
        ∧ (∀ n r, e.records[n]? = some r →
          let r₁ := (r.addStrip s.area.cumw advance.toNat g.trk.cur n).sampled s.area.cumw s.cmd.active.markp slot.s g.trk.cur n
          u.trk.records[n]? = some (if n ∈ g.closing then { r₁ with state := .closed } else r₁)))
    ∧ (∀ (s : State) (left : List Nat), s.powered = true → s.trk.handing = some left →
      exec .lineHandover s = .next (handed left s).arbitrate)
    ∧ ∀ (s : State) (n : Nat) (r : HideRec), s.trk.records[n]? = some r → r.state ≠ .free →
      (∀ m x, s.trk.records[m]? = some x → x.state ≠ .free → x.seq = r.seq → m = n) →
      let active := s.cmd.active
      let v := r.valued active.calib
      let a := { v with ring := (v.anchor active.markp).toList }
      let anchor := a.ring.headD { p := 0, c := 0, w := 0 }
      let holds := fun l : LaneRec => l.enabled = true ∧ l.cellFirst ≤ anchor.c ∧ anchor.c ≤ l.cellLast
      let unmarked := v.has .fragment = true ∨ (v.has .joined = true ∧ active.markp.joinPolicy = .noMark)
      let ended := fun (x : HideRec) (o : Option MarkOutcome) => { s with
        trk := { s.trk with records := s.trk.records.set n { x with state := .reporting, outcome := o } }
        rep := { s.rep with finals := s.rep.finals ++ [r.seq] } }
      (unmarked → s.handOn n = ended a none)
        ∧ (¬ unmarked → (∀ l ∈ active.lanes, ¬ holds l) → s.handOn n = ended a (some .missedNoLane))
        ∧ ∀ i l, ¬ unmarked → active.lanes[i]? = some l → holds l →
          (∀ j l', j < i → active.lanes[j]? = some l' → ¬ holds l') →
          let b := { a with lane := some i, lotSlot := some l.lotSlot }
          ((∀ x ∈ s.img, x ≠ none) → s.handOn n = ended b (some .missedNoImage))
            ∧ ∀ slot, s.img[slot]? = some none → (∀ j, j < slot → s.img[j]? ≠ some none) →
              let d := render active.glyphs active.markp.glyphGap (hideText active.markp.joinPolicy
                (active.lots.getD l.lotSlot .default).prefixGlyph s.ver.lockOpen b)
              let b₁ := { b with flags := if d.cut then b.flags ||| BitVec.ofNat 16 (2 ^ 14) else b.flags }
              let q : StampRequest :=
                { seq := r.seq, columns := d.columns.length, pitch := active.markp.columnPitch, slot := slot
                  anchorP := anchor.p, anchorC := anchor.c, lane := { pri := l.headPri, alt := l.headAlt } }
              let trial := fun h => trialOn (s.headEntry h) (s.head h) s.pos.hwm active.markp.shiftWindow q
              let reserved := fun (h : Nat) (p : Int) =>
                let base := nozzleBase (s.headEntry h) (cellCentre s.area.cumw active.cellw anchor.c)
                ({ s with
                  trk := { s.trk with records := s.trk.records.set n { b₁ with
                    state := .waiting, plan := some { head := h, columns := d.columns.length, slot := slot }
                    flags := if base.clamped then b₁.flags ||| BitVec.ofNat 16 (2 ^ 15) else b₁.flags } }
                  img := s.img.set slot (some { holder := .hide r.seq, columns := d.columns })
                  mark := { s.mark with heads := s.mark.heads.modify h fun m => { m with
                    schedule := insertReservation
                      { holder := .hide r.seq, start := p
                        stop := p + ((d.columns.length * active.markp.columnPitch : Nat) : Int)
                        columns := d.columns.length, pitch := active.markp.columnPitch, slot := slot, base := base.base
                        anchorP := anchor.p, anchorC := anchor.c
                        lane := some { pri := l.headPri, alt := l.headAlt } } m.schedule } } } : State)
              (∀ p, trial l.headPri = .accepted p → s.handOn n = reserved l.headPri p)
                ∧ ∀ f, trial l.headPri = .failed f →
                  (l.headAlt = none → s.handOn n = ended b₁ (some (match f with
                      | .down => .missedHeadDown
                      | .late => .missedLate
                      | .busy => .missedBusy)))
                    ∧ ∀ alt, l.headAlt = some alt →
                      (∀ p, trial alt = .accepted p → s.handOn n = reserved alt p)
                        ∧ ∀ f', trial alt = .failed f' →
                          s.handOn n = ended b₁ (some (if f = .down ∧ f' = .down then .missedHeadDown
                            else if f = .late ∨ f' = .late then .missedLate else .missedBusy))

/-- A line's run list, formed of entries whose runs are in form, lies within the scan window, holds at most 64 runs, each
with its first cell at or below its last, and is ascending with at least one uncovered cell between neighbours. The runs of the
expected heads with USABLE entries are mapped to global cells, each head owning 256, cell c becoming 2047 - c under BAR_REVERSE,
and stand ascending; a run outside the window is dropped, another cut to it, edge-touching where it then begins or ends at an end
of the window. The missing spans cover exactly the cells in the window of the expected heads with UNUSABLE entries, at most 8,
ascending with a cell between neighbours. Of more than 64 runs the 64th and all after it become one, edge-touching if any of
them was; RUN_CLAMP is set exactly then or where a USABLE entry is CLAMPED. The line carries its slot's number, position, time,
DELAYED flag and steady state. -/
def Obligations.FormedRunsSeparated : Prop :=
  ∀ slot : LineSlot, slot.winStart ≤ slot.winEnd → slot.winEnd ≤ 2047 →
    (∀ h runs clamped, slot.entry h = .usable runs clamped → runsInForm runs = true ∧ ∀ r ∈ runs, r.last ≤ 255) →
    let line := formLine slot
    let mapped := mapHeads slot.barReverse slot.usableRuns
    let kept := slot.unclampedRuns
    let clip := clipRun slot.winStart slot.winEnd
    let placed := fun (h : Nat) (r x : Span) =>
      if slot.barReverse then x.first + (256 * h + r.last) = 2047 ∧ x.last + (256 * h + r.first) = 2047
      else x = { first := 256 * h + r.first, last := 256 * h + r.last }
    let owner := fun c : Nat => if slot.barReverse then 7 - c / 256 else c / 256
    Separated line.runs ∧ line.runs.length ≤ 64 ∧ (∀ r ∈ line.runs, slot.winStart ≤ r.first ∧ r.last ≤ slot.winEnd)
      ∧ (∀ x, x ∈ mapped ↔ ∃ h runs clamped, h < 8 ∧ slot.expected.getLsbD h = true ∧ slot.entry h = .usable runs clamped
          ∧ ∃ r ∈ runs, placed h r x)
      ∧ mapped.Pairwise (fun a b => a.last < b.first)
      ∧ (∀ r : Span, (r.last < slot.winStart ∨ slot.winEnd < r.first → clip r = none)
        ∧ (slot.winStart ≤ r.last → r.first ≤ slot.winEnd → ∃ x, clip r = some x
          ∧ x.first = max r.first slot.winStart ∧ x.last = min r.last slot.winEnd
          ∧ (x.edge = true ↔ r.first ≤ slot.winStart ∨ slot.winEnd ≤ r.last)))
      ∧ (∀ c, (∃ m ∈ line.missing, m.first ≤ c ∧ c ≤ m.last) ↔ slot.winStart ≤ c ∧ c ≤ slot.winEnd
          ∧ slot.expected.getLsbD (owner c) = true ∧ slot.entry (owner c) = .unusable)
      ∧ line.missing.length ≤ 8 ∧ (∀ m ∈ line.missing, m.first ≤ m.last)
      ∧ line.missing.Pairwise (fun a b => a.last + 1 < b.first)
      ∧ (kept.length ≤ 64 → line.runs = kept)
      ∧ (∀ r l, kept[63]? = some r → kept.getLast? = some l → line.runs = kept.take 63
          ++ [{ first := r.first, last := l.last, edge := (kept.drop 63).any FormRun.edge }])
      ∧ (line.runClamp = true ↔ 64 < kept.length
          ∨ ∃ h runs, h < 8 ∧ slot.expected.getLsbD h = true ∧ slot.entry h = .usable runs true)
      ∧ line.number = slot.number ∧ line.s = slot.s ∧ line.time = slot.time ∧ line.delayed = slot.delayed
      ∧ line.steady = slot.steady

/-- Joining runs that touch or overlap covers the same cells as before, by runs with at least one uncovered cell between
neighbours, and a joined run is edge-touching where a part of it was. The fleck filter drops exactly the runs of fewer than
MIN_RUN cells of those that clipping and joining leave, and keeps the others as they are and in their order. -/
def Obligations.RunsJoinedAndFiltered : Prop :=
  (∀ runs : List FormRun, (∀ r ∈ runs, r.first ≤ r.last) → runs.Pairwise (fun a b => a.first ≤ b.first) →
      (∀ c, CoveredIn c (joinRuns runs) ↔ CoveredIn c runs) ∧ Separated (joinRuns runs)
        ∧ ∀ j ∈ joinRuns runs, j.edge = true ↔ ∃ r ∈ runs, r.edge = true ∧ j.first ≤ r.first ∧ r.last ≤ j.last)
    ∧ (∀ slot : LineSlot,
      let joined := joinRuns ((mapHeads slot.barReverse slot.usableRuns).filterMap (clipRun slot.winStart slot.winEnd))
      slot.unclampedRuns.Sublist joined
        ∧ ∀ r, r ∈ slot.unclampedRuns ↔ r ∈ joined ∧ slot.minRun ≤ r.last - r.first + 1)

/-! ## The hide tracker (chapter 3) -/

/-- Two runs of a line, or two spans, stand in one group exactly if a chain of shared keys leads from one to the other, and
the groups hold each of them once: the gathering of R43 and R63. -/
def Obligations.GroupsAreConnected : Prop :=
  ∀ (κ : Type) [DecidableEq κ] (kss : List (List κ)),
    ((gather kss).flatMap Gathering.members).Perm (List.range kss.length)
      ∧ ∀ i j, i < kss.length → j < kss.length →
        ((∃ g ∈ gather kss, i ∈ g.members ∧ j ∈ g.members) ↔ Relation.ReflTransGen (ShareKey kss) i j)

/-- Outside RUN a line opens no hide: the sequence counter stays, no group is refused a record, and every record that is
OPEN after the line was OPEN before, under the same number. -/
def Obligations.NoOpeningInDrain : Prop :=
  ∀ (excursion lockOpen : Bool) (line : FormedLine) (t : Tracker),
    let g := segmentLine false excursion lockOpen line t
    g.trk.counter = t.counter ∧ g.refused = 0 ∧ g.trk.overflow = min 65535 t.overflow
      ∧ ∀ (n : Nat) (r : HideRec), g.trk.records[n]? = some r → r.state = .isOpen →
          ∃ r₀, t.records[n]? = some r₀ ∧ r₀.state = .isOpen ∧ r.seq = r₀.seq

/-- The segmentation of a line. A group that carries one OPEN hide continues it: last line, trailing position, cell extent and
line count follow the line, its runs carry the hide's label, and with UNTRACKED among its labels the hide is INCOMPLETE. A
group that carries several goes whole to the one opened first, as do the merge list's hides: the survivor takes the others in
(`HideRec.absorb`, see MergeCombines) and then continues the line, the others are FREE (their other fields by log 43), and the previous list and the held list
carry the survivor's label for theirs; the merge list holds no other pair. In RUN the groups with no label
open hides in ascending order of first cell, each in the lowest FREE record with the next number, and those that find no
record are UNTRACKED and counted; a group with only UNTRACKED labels stays UNTRACKED, and outside RUN one with no label is. A
hide present on the line gets the flags of R54 and no hide gets others; exactly the OPEN hides without a run on the line
close, the one opened first being first. -/
def Obligations.LineSegmented : Prop :=
  ∀ (opens excursion lockOpen : Bool) (line : FormedLine) (t : Tracker),
    let groups := runGroups t.prev line.runs
    let g := segmentLine opens excursion lockOpen line t
    let cur := g.trk.cur
    let labelled := fun (gr : Gathering RunKey) (l : Label) => ∀ i ∈ gr.members, (cur.real[i]?).map RealRun.label = some l
    let flagged := fun (n : Nat) (before after : HideRec) => ∀ k : Flag, after.has k = true ↔
      before.has k = true ∨ (before.state = .isOpen ∧ PresentIn cur n ∧ line.givesFlag cur lockOpen n k)
    let free := (List.range t.records.length).filter fun n =>
      decide ((t.records.getD n .free).state = .free) || g.merges.any fun m => m.1 == n
    let fresh := (List.range line.runs.length).filter fun i =>
      opens && ((line.runs[i]?).map fun r => (runKeys r 0 t.prev.spans).isEmpty) == some true
    let continued := fun (gr : Gathering RunKey) (n : Nat) (r : HideRec) => ∀ lo hi,
      ((gr.members.filterMap (line.runs[·]?)).map FormRun.first).min? = some lo →
      ((gr.members.filterMap (line.runs[·]?)).map FormRun.last).max? = some hi →
      ∃ r', g.trk.records[n]? = some r'
        ∧ (let c := { r with
              lastLine := line.number, trailing := line.s, cellMin := min r.cellMin lo, cellMax := max r.cellMax hi
              lineCount := min 65535 (r.lineCount + 1)
              flags := if gr.untracked then r.flags ||| BitVec.ofNat 16 2 else r.flags }
           r' = { c with flags := r'.flags } ∧ flagged n c r')
    let survivor := fun l : Label => match l with
      | .hide n => match g.merges.find? fun m => m.1 == n with
        | some m => .hide m.2
        | none => .hide n
      | .untracked => .untracked
    (∀ gr ∈ groups, ∀ n r, gr.hides = [n] → t.records[n]? = some r → r.state = .isOpen →
        labelled gr (.hide n) ∧ continued gr n r)
      ∧ (∀ gr ∈ groups, 2 ≤ gr.hides.length → ∃ s ∈ gr.hides, labelled gr (.hide s)
          ∧ (∀ n ∈ gr.hides,
            issueAge t.counter (t.records.getD n .free).seq ≤ issueAge t.counter (t.records.getD s .free).seq
              ∧ (n ≠ s → (n, s) ∈ g.merges))
          ∧ ∀ r, t.records[s]? = some r → r.state = .isOpen →
            continued gr s (((gr.hides.filter fun n => decide (n ≠ s)).map fun n => t.records.getD n .free).foldl
              (HideRec.absorb line.number) r))
      ∧ (∀ m ∈ g.merges, ∃ gr ∈ groups, m.1 ∈ gr.hides ∧ m.2 ∈ gr.hides ∧ m.1 ≠ m.2 ∧ labelled gr (.hide m.2))
      ∧ (∀ k n, fresh.length ≤ k → free[k]? = some n →
        ((g.merges.any fun m => m.1 == n) = true → g.trk.records[n]? = some .free)
          ∧ ((∀ gr ∈ groups, n ∉ gr.hides) → g.trk.records[n]? = t.records[n]?))
      ∧ g.trk.records.length = t.records.length
      ∧ g.trk.prev = { real := t.prev.real.map fun x => { x with label := survivor x.label }
                       held := t.prev.held.map fun x => { x with label := survivor x.label } }
      ∧ cur.held = (holdRuns line.missing t.prev).map (fun x => { x with label := survivor x.label })
      ∧ (∀ gr ∈ groups, gr.hides = [] → gr.untracked = true ∨ opens = false → labelled gr .untracked)
      ∧ (∀ (k i : Nat) (run : FormRun), fresh[k]? = some i → line.runs[i]? = some run →
        (free.length ≤ k → (cur.real[i]?).map RealRun.label = some .untracked)
          ∧ ∀ n, free[k]? = some n → (cur.real[i]?).map RealRun.label = some (.hide n)
            ∧ ∃ r', g.trk.records[n]? = some r'
              ∧ (let c := { HideRec.free with
                    state := .isOpen, seq := nextSeq^[k] t.counter, firstLine := line.number, lastLine := line.number
                    leading := line.s, trailing := line.s, cellMin := run.first, cellMax := run.last, lineCount := 1
                    flags := if excursion then BitVec.ofNat 16 (2 ^ 8) else 0 }
                 r' = { c with flags := r'.flags } ∧ flagged n c r'))
      ∧ g.trk.counter = nextSeq^[min fresh.length free.length] t.counter
      ∧ g.refused = fresh.length - free.length ∧ g.trk.overflow = min 65535 (t.overflow + g.refused)
      ∧ (∀ n r, t.records[n]? = some r → n ∉ free → (∀ gr ∈ groups, n ∉ gr.hides) →
        ∃ r', g.trk.records[n]? = some r' ∧ r' = { r with flags := r'.flags } ∧ flagged n r r')
      ∧ (∀ n, n ∈ g.closing ↔ ∃ r, g.trk.records[n]? = some r ∧ r.state = .isOpen ∧ ¬ PresentIn cur n)
      ∧ g.closing.Pairwise fun a b => issueAge g.trk.counter (g.trk.records.getD b .free).seq
          ≤ issueAge g.trk.counter (g.trk.records.getD a .free).seq

/-- The held runs of a line are copies of the previous runs that touch a missing span, a real run with hold count 1, a held
run below hold count 4 with one more; at most 64, those with the lowest first cells, and no other is dropped. -/
def Obligations.HeldRunsBounded : Prop :=
  ∀ (missing : List Span) (prev : RunList), prev.real.Pairwise (fun a b => a.first ≤ b.first) →
    let fromReal := (prev.real.filter fun r => touchesMissing missing r.first r.last).map
      fun r => ({ first := r.first, last := r.last, label := r.label, hold := 1 } : HeldRun)
    let fromHeld := (prev.held.filter fun r => touchesMissing missing r.first r.last && decide (r.hold < 4)).map
      fun r => ({ first := r.first, last := r.last, label := r.label, hold := r.hold + 1 } : HeldRun)
    (holdRuns missing prev).length ≤ 64
      ∧ (holdRuns missing prev).Pairwise (fun a b => a.first ≤ b.first)
      ∧ ∃ dropped, (holdRuns missing prev ++ dropped).Perm (fromReal ++ fromHeld)
          ∧ (dropped ≠ [] → (holdRuns missing prev).length = 64)
          ∧ ∀ h ∈ holdRuns missing prev, ∀ d ∈ dropped, h.first ≤ d.first

/-- A merge of hides into a survivor takes the first line furthest back from the line and the last line least far back, the
least leading and the greatest trailing position, the least and the greatest
cell, the saturated sums of areas, hole counts and line counts, one join more for each hide absorbed, and the union of the
flags with JOINED; the survivor keeps its state, number, samples, anchor and all else. -/
def Obligations.MergeCombines : Prop :=
  ∀ (line : LineNo) (s : HideRec) (absorbed : List HideRec), absorbed ≠ [] →
    let m := absorbed.foldl (HideRec.absorb line) s
    let back := fun x : LineNo => (line - x).toNat
    (m.firstLine ∈ (s :: absorbed).map HideRec.firstLine ∧ ∀ a ∈ s :: absorbed, back a.firstLine ≤ back m.firstLine)
      ∧ (m.lastLine ∈ (s :: absorbed).map HideRec.lastLine ∧ ∀ a ∈ s :: absorbed, back m.lastLine ≤ back a.lastLine)
      ∧ m.leading = (absorbed.map HideRec.leading).foldl min s.leading
      ∧ m.trailing = (absorbed.map HideRec.trailing).foldl max s.trailing
      ∧ m.cellMin = (absorbed.map HideRec.cellMin).foldl min s.cellMin
      ∧ m.cellMax = (absorbed.map HideRec.cellMax).foldl max s.cellMax
      ∧ m.lineCount = min 65535 (s.lineCount + (absorbed.map HideRec.lineCount).sum)
      ∧ m.covered = min (2 ^ 64 - 1) (s.covered + (absorbed.map HideRec.covered).sum)
      ∧ m.addBack = min (2 ^ 64 - 1) (s.addBack + (absorbed.map HideRec.addBack).sum)
      ∧ m.smallHoles = min 65535 (s.smallHoles + (absorbed.map HideRec.smallHoles).sum)
      ∧ m.largeHoles = min 65535 (s.largeHoles + (absorbed.map HideRec.largeHoles).sum)
      ∧ m.joinCount = min 255 (s.joinCount + (absorbed.map HideRec.joinCount).sum + absorbed.length)
      ∧ (∀ k : Flag, m.has k = (s.has k || absorbed.any (fun a => a.has k) || decide (k = .joined)))
      ∧ m = { s with
        firstLine := m.firstLine, lastLine := m.lastLine, leading := m.leading, trailing := m.trailing, cellMin := m.cellMin
        cellMax := m.cellMax, lineCount := m.lineCount, covered := m.covered, addBack := m.addBack
        smallHoles := m.smallHoles, largeHoles := m.largeHoles, joinCount := m.joinCount, flags := m.flags }

/-! ## The gap tracker (chapter 4) -/

/-- The interior gap spans of a line lie exactly between neighbouring real runs of one hide, from the cell after the one to
the cell before the other, but for those that share a cell with a missing span. -/
def Obligations.InteriorSpansFormed : Prop :=
  ∀ (missing : List Span) (real : List RealRun) (p : GapSpan),
    p ∈ interiorSpans missing real ↔
      ∃ (k : Nat) (r r' : RealRun) (n : Nat), real[k]? = some r ∧ real[k + 1]? = some r' ∧ r.label = .hide n
        ∧ r'.label = .hide n ∧ p = { first := r.last + 1, last := r'.first - 1, hide := n, gap := none }
        ∧ ∀ m ∈ missing, m.last < p.first ∨ p.last < m.first

/-- A gap from line to line. A group of spans without a label opens the lowest FREE record, with its top closed exactly if every
cell lies under a real run of its hide on the line before; with no FREE record its hide gets GAP_CLAMP. A group with records and
no UNTRACKED_GAP continues the oldest of them: it takes the others' areas and the line's strips, its top stays closed and its
bottom unopened exactly if theirs were and the closure checks pass both ways, and the others are freed; with UNTRACKED_GAP all
are freed and change no hide. A record that ends is a hole exactly if its top is closed, no line since opened its bottom, and
every cell of its last spans is covered by a real run of its hide; a hole at or below the limit adds its area to the add-back and
one to the small holes, a larger one adds one to the large holes only, and a notch changes no hide. The record is freed in every
case. A line's groups are continued first, then the records without a group end, then the groups without a label open. In the
closure checks and at an end a cell of a missing span is not covered, also where a clamped run crosses it (R65, R71; for the end
by log 38); at an opening it is, where a run crosses it (R33, R69). -/
def Obligations.GapEnds : Prop :=
  let under := fun (missing : List Span) (runs : List RealRun) (hide c : Nat) =>
    (∃ x ∈ runs, x.label = .hide hide ∧ x.first ≤ c ∧ c ≤ x.last) ∧ ∀ m ∈ missing, c < m.first ∨ m.last < c
  let inside := fun (spans : List GapSpan) (c : Nat) => ∃ p ∈ spans, p.first ≤ c ∧ c ≤ p.last
  let top := 2 ^ 64 - 1
  (∀ (v : GapView) (w : GapWork) (n : Nat) (r : GapRec), w.table[n]? = some (some r) →
      let w' := endGap v w n
      let closed := ∀ p ∈ v.prevSpans, p.gap = some n → ∀ c, p.first ≤ c → c ≤ p.last → under v.curMissing v.curReal r.hide c
      w'.table = w.table.set n none ∧ w'.order = w.order.filter (· ≠ n) ∧ w'.spans = w.spans
        ∧ (¬ (r.topClosed = true ∧ r.bottomOpen = false ∧ closed) → w'.records = w.records)
        ∧ (r.topClosed = true ∧ r.bottomOpen = false ∧ closed →
            w'.records = w.records.modify r.hide fun x =>
              if r.area ≤ v.limit then { x with addBack := min top (x.addBack + r.area),
                                                smallHoles := min 65535 (x.smallHoles + 1) }
              else { x with largeHoles := min 65535 (x.largeHoles + 1) }))
    ∧ (∀ (v : GapView) (w : GapWork) (g : Gathering SpanKey),
      let w' := continueGap v w g
      let rs := g.gapRecords
      w'.records = w.records ∧ w'.refused = w.refused ∧ (rs = [] → w' = w)
        ∧ (rs ≠ [] → g.untrackedGap = true → w'.spans = w.spans ∧ w'.order = w.order.filter (· ∉ rs)
          ∧ ∀ x, x < w.table.length → w'.table[x]? = if x ∈ rs then some none else w.table[x]?)
        ∧ ∀ n r, g.untrackedGap = false → w.order.find? (fun x => decide (x ∈ rs)) = some n → w.table[n]? = some (some r) →
          let cur := g.members.filterMap (w.spans[·]?)
          let before := v.prevSpans.filter fun p => p.gap.any fun x => decide (x ∈ rs)
          let strips := (cur.map fun p => cellWidth v.cumw p.first p.last).sum * v.advance
          w'.order = w.order.filter (fun x => x ∉ rs ∨ x = n)
            ∧ (∀ i, w'.spans[i]? = (w.spans[i]?).map fun p => if i ∈ g.members then { p with gap := some n } else p)
            ∧ (∀ x, x < w.table.length → x ≠ n → w'.table[x]? = if x ∈ rs then some none else w.table[x]?)
            ∧ ∃ m : GapRec, w'.table[n]? = some (some m) ∧ m.hide = r.hide
              ∧ m.area = min top ((rs.map fun x => (w.record x).area).sum + strips)
              ∧ (m.topClosed = true ↔ (∀ x ∈ rs, (w.record x).topClosed = true)
                ∧ ∀ p ∈ cur, ∀ c, p.first ≤ c → c ≤ p.last → inside before c ∨ under v.prevMissing v.prevReal r.hide c)
              ∧ (m.bottomOpen = false ↔ (∀ x ∈ rs, (w.record x).bottomOpen = false)
                ∧ ∀ p ∈ before, ∀ c, p.first ≤ c → c ≤ p.last → inside cur c ∨ under v.curMissing v.curReal r.hide c))
    ∧ (∀ (v : GapView) (w : GapWork) (g : Gathering SpanKey), let w' := openGap v w g
      (g.keys ≠ [] → w' = w)
        ∧ ∀ i p, g.keys = [] → g.members = [i] → w.spans[i]? = some p →
          ((∀ x ∈ w.table, x ≠ none) → w' = { w with
              records := w.records.modify p.hide fun x => { x with flags := x.flags ||| BitVec.ofNat 16 (2 ^ 4) }
              refused := w.refused + 1 })
            ∧ ∀ n, w.table[n]? = some none → (∀ j, j < n → w.table[j]? ≠ some none) →
              ∃ m : GapRec, w' = { w with
                  table := w.table.set n (some m), order := w.order ++ [n]
                  spans := w.spans.set i { p with gap := some n } }
                ∧ m.hide = p.hide ∧ m.bottomOpen = false ∧ m.area = min top (cellWidth v.cumw p.first p.last * v.advance)
                ∧ (m.topClosed = true ↔ ∀ c, p.first ≤ c → c ≤ p.last → under [] v.prevReal p.hide c))
    ∧ ∀ (cumw : List Nat) (advance limit : Nat) (missing : List Span) (merges : List (Nat × Nat))
        (prevReal curReal : List RealRun) (records : List HideRec) (g : GapTracker),
      let g₁ := g.relabel merges
      let v : GapView := { cumw := cumw, advance := advance, limit := limit * 10 ^ 6, prevMissing := g.prevMissing
                           curMissing := missing, prevReal := prevReal, curReal := curReal, prevSpans := g₁.prevSpans }
      let cur := interiorSpans missing curReal
      let groups := spanGroups g₁.prevSpans cur
      let w₁ := groups.foldl (continueGap v)
        { table := g₁.table, order := g₁.order, spans := cur, records := records, refused := 0 }
      let w₂ := (g₁.order.filter fun n => decide (∀ x ∈ groups, n ∉ x.gapRecords)).foldl (endGap v) w₁
      let w₃ := groups.foldl (openGap v) w₂
      examineLine cumw advance limit missing merges prevReal curReal records g =
        { gap := { table := w₃.table, order := w₃.order, prevSpans := w₃.spans, prevMissing := missing
                   overflow := min 65535 (g.overflow + w₃.refused) }
          records := w₃.records, refused := w₃.refused }

/-! ## The area unit (chapter 5) -/

/-- CUMW begins with 0 and grows by each cell's width, and the width of a run or span is the sum of its cells' widths. A line adds
to each hide with real runs on it the sum of their widths times the advance, saturating at 2^64-1, and to another nothing. -/
def Obligations.CellWidthIsSum : Prop :=
  (∀ ws : List Nat,
      (deriveCumw ws).length = ws.length + 1 ∧ (deriveCumw ws)[0]? = some 0
        ∧ (∀ i w, ws[i]? = some w → (deriveCumw ws).getD (i + 1) 0 = (deriveCumw ws).getD i 0 + w)
        ∧ ∀ first last, first ≤ last → last < ws.length →
            cellWidth (deriveCumw ws) first last = ((ws.drop first).take (last + 1 - first)).sum)
    ∧ ∀ (ws : List Nat) (advance n : Nat) (cur : RunList) (r : HideRec),
      let own := cur.real.filter fun x => decide (x.label = .hide n)
      (∀ x ∈ own, x.first ≤ x.last ∧ x.last < ws.length) →
      (own = [] → r.addStrip (deriveCumw ws) advance cur n = r)
        ∧ (own ≠ [] → r.addStrip (deriveCumw ws) advance cur n = { r with
            covered := min (2 ^ 64 - 1) (r.covered
              + (own.map fun x => ((ws.drop x.first).take (x.last + 1 - x.first)).sum).sum * advance) })

/-- The trimmed area T is the floor of G × (1,000,000 + TRIM_PPM) / 1,000,000: the product fits 96 bits, a trim of 0
gives G, a positive trim does not lower it and a negative one does not raise it, and it is positive. A closed hide is a
FRAGMENT without a value exactly if MIN_HIDE is above 0 and its T below MIN_HIDE × 10^8; otherwise its final value is the
rounded value of T, cut to the top of its unit with OVERRANGE where it is above, and carries the unit. Nothing else of the
record changes. -/
def Obligations.AreaTrimmedAndValued : Prop :=
  (∀ (c : CalibRec) (gross : Nat), c.InRange → 200 ≤ gross → gross < 2 ^ 64 →
      (980000 ≤ 1000000 + c.trimPpm ∧ 1000000 + c.trimPpm ≤ 1020000)
        ∧ gross * (1000000 + c.trimPpm) < 2 ^ 96
        ∧ (trimmed c gross : Int) * 1000000 ≤ gross * (1000000 + c.trimPpm)
        ∧ gross * (1000000 + c.trimPpm) < (trimmed c gross + 1 : Int) * 1000000
        ∧ (c.trimPpm = 0 → trimmed c gross = gross)
        ∧ (0 < c.trimPpm → gross ≤ trimmed c gross) ∧ (c.trimPpm < 0 → trimmed c gross ≤ gross)
        ∧ 0 < trimmed c gross)
    ∧ (∀ (c : CalibRec) (r : HideRec),
      let t := trimmed c (min (2 ^ 64 - 1) (r.covered + r.addBack))
      let top := match c.unit with
        | .footQuarter => 3999
        | .decimetre => 9999
      let v := roundedValue c.round c.unit.quantum t
      (0 < c.minHide ∧ t < c.minHide * 10 ^ 8 →
          (r.valued c).value = r.value
            ∧ ∀ k : Flag, (r.valued c).has k = (r.has k || decide (k = .fragment)))
        ∧ (¬ (0 < c.minHide ∧ t < c.minHide * 10 ^ 8) →
          (r.valued c).value = some { value := if top < v then top else v, unit := c.unit }
            ∧ ∀ k : Flag, (r.valued c).has k = (r.has k || (decide (k = .overrange) && decide (top < v))))
        ∧ { r.valued c with flags := r.flags, value := r.value } = r)

/-- The rounded value of T under a quantum Q, with k and r the quotient and remainder: DOWN is the floor of T/Q; NEAREST is
within half a step of T, an exact half going up; UP is the least value not below T/Q; each is k or k + 1, and k where r
is 0. -/
def Obligations.RoundedBySteps : Prop :=
  ∀ q t : Nat, 0 < q →
    (∀ mode, (t / q ≤ roundedValue mode q t ∧ roundedValue mode q t ≤ t / q + 1)
        ∧ (t % q = 0 → roundedValue mode q t = t / q))
      ∧ (roundedValue .down q t * q ≤ t ∧ t < (roundedValue .down q t + 1) * q)
      ∧ (2 * roundedValue .nearest q t * q ≤ 2 * t + q ∧ 2 * t + q < 2 * (roundedValue .nearest q t + 1) * q)
      ∧ (t ≤ roundedValue .up q t * q ∧ ∀ v, t ≤ v * q → roundedValue .up q t ≤ v)

/-! ## The image composer (chapter 6) -/

/-- A hide with real runs on a line is sampled there when its ring is empty or the line's S is ANCHOR_STRIDE past its latest
sample: at S, at the centre cell of its widest run, of equally wide ones the lowest; the sample is latched where none is and it
lies ANCHOR_OFFSET past the leading position and is STAMP_WIDTH wide. The ring of samples holds the latest 8 in the order of their
taking. The anchor is the latched sample under LEADING if there is one, and else the trailing search's: over a ring of rising
positions, the sample of width STAMP_WIDTH or more whose position is nearest to the trailing position less
ANCHOR_OFFSET, of two equally near ones the one of greater position; without such a sample, the widest, of two equally wide
ones the one of greater position. -/
def Obligations.TrailingAnchorFound : Prop :=
  (∀ (cumw : List Nat) (m : MarkpRec) (sPos : Int) (cur : RunList) (n : Nat) (r : HideRec),
      let own := cur.real.filter fun x => decide (x.label = .hide n)
      let due := own ≠ [] ∧ ∀ x, r.ring.getLast? = some x → x.p + m.anchorStride ≤ sPos
      let t := r.sampled cumw m sPos cur n
      (¬ due → t = r)
        ∧ (due → own.Pairwise (fun a b => a.first < b.first) → ∃ x ∈ own,
          let width := fun y : RealRun => cellWidth cumw y.first y.last
          let sample : Sample := { p := sPos, c := (x.first + x.last) / 2, w := width x }
          (∀ y ∈ own, width y < width x ∨ (width y = width x ∧ x.first ≤ y.first))
            ∧ t = { r with
              ring := appendSample r.ring sample
              latched := if r.latched = none ∧ r.leading + m.anchorOffset ≤ sPos ∧ m.stampWidth ≤ width x then some sample
                else r.latched }))
    ∧ (∀ xs : List Sample, xs.foldl appendSample [] = xs.drop (xs.length - 8))
    ∧ (∀ (m : MarkpRec) (r : HideRec),
      (∀ l, m.anchorMode = .leading → r.latched = some l → r.anchor m = some l)
        ∧ (m.anchorMode = .trailing ∨ r.latched = none → r.anchor m = trailingSearch m r.trailing r.ring))
    ∧ (∀ (m : MarkpRec) (trailing : Int) (ring : List Sample), ring ≠ [] → ring.Pairwise (fun a b => a.p < b.p) →
      let far := fun x : Sample => (x.p - (trailing - m.anchorOffset)).natAbs
      ∃ x ∈ ring, trailingSearch m trailing ring = some x
        ∧ ((∃ y ∈ ring, m.stampWidth ≤ y.w) →
            m.stampWidth ≤ x.w ∧ ∀ y ∈ ring, m.stampWidth ≤ y.w → far x < far y ∨ (far x = far y ∧ y.p ≤ x.p))
        ∧ ((∀ y ∈ ring, y.w < m.stampWidth) → ∀ y ∈ ring, y.w < x.w ∨ (y.w = x.w ∧ y.p ≤ x.p)))

/-- The text of a closed hide: the reject sign alone for a JOINED one under REJECT_MARK; else the prefix of its lot slot if there
is one, the figure in decimal digits without leading zeros, whole feet and the sign of the quarters left or decimetres, and the
unverified sign while the lock is OPEN. The text's glyphs are placed from column 0, each at the one before's start plus its width
plus GLYPH_GAP but never left of that start; the image holds the first 64 of its columns, and a dot of it is set exactly if some
glyph drawn over its column sets it there. -/
def Obligations.TextRendered : Prop :=
  (∀ (policy : JoinPolicy) (prefixGlyph : Option Nat) (lockOpen : Bool) (r : HideRec) (v : FinalValue),
      r.value = some v → v.value ≤ 9999 →
      let digits := fun n : Nat => if n = 0 then [0] else (Nat.digits 10 n).reverse
      let figure := match v.unit with
        | .footQuarter => digits (v.value / 4) ++ if v.value % 4 = 0 then [] else [9 + v.value % 4]
        | .decimetre => digits v.value
      (r.has .joined = true ∧ policy = .rejectMark → hideText policy prefixGlyph lockOpen r = [14])
        ∧ (¬ (r.has .joined = true ∧ policy = .rejectMark) → hideText policy prefixGlyph lockOpen r
          = (match prefixGlyph with
            | some g => [g]
            | none => []) ++ figure ++ if lockOpen then [13] else []))
    ∧ ∀ (glyphs : List GlyphRec) (gap : Int) (text : List Nat),
      let ps := placeText glyphs gap text
      let d := render glyphs gap text
      ps.map Placed.glyph = text.map (fun g => glyphs.getD g .default)
        ∧ (∀ p, ps[0]? = some p → p.start = 0)
        ∧ (∀ i p p', ps[i]? = some p → ps[i + 1]? = some p' →
            (p'.start : Int) = max (p.start : Int) (p.start + p.glyph.width + gap))
        ∧ (∀ p ∈ ps, p.start + p.glyph.width ≤ fullWidth ps)
        ∧ (ps ≠ [] → ∃ p ∈ ps, p.start + p.glyph.width = fullWidth ps)
        ∧ d.columns.length = min (fullWidth ps) 64 ∧ (d.cut = true ↔ 64 < fullWidth ps)
        ∧ ∀ c k, c < d.columns.length →
            ((d.columns.getD c 0).getLsbD k = true ↔ ∃ p ∈ ps, p.start ≤ c ∧ c < p.start + p.glyph.width
              ∧ (p.glyph.columns.getD (c - p.start) 0).getLsbD k = true)

/-! ## The marking heads (chapter 7) -/

/-- HSTAT, addressed to the part: stray where its payload is short, its status above 1, or no ENABLED head is at its source.
READY makes every ENABLED head at the source ONLINE, with a HEAD note pending for each whose state changed: those not pending
already take the end of the arrival order in increasing number. FAULT takes each
head there in turn, the lowest number first (log 18): it is OFFLINE with the fault code, with a HEAD note if its state changed,
and an ONLINE one is lost. A lost head's PRINTING engine ends its hide PARTIAL with the columns sent and discards its waiting
frames, and a test mark there ends PARTIAL with the columns sent; the reservation of an engine in LEAD and then every other one, in the schedule's order, is removed and its hide tried on
the other recorded head: WAITING there where the trial finds a start, else in REPORTING with MISSED_HEAD_DOWN and its slot
released; a test mark ends MISSED_HEAD_DOWN, at a loss and at a change of its head alike. An ended test mark's slot is released
and its answer (code by log 21) is placed in the response buffer, or waits where that has no place beside the one kept for a
command in progress (log 29) or another answer waits. The arbiter's pick is made once, after all notes and retries of the step
(log 28); several ENABLED heads at one address are taken by log 18, and the mark plan of a hide that misses so stays in its record
(log 34); the IDLE engine's sent count stays as it is (log 45). -/
def Obligations.HstatTaken : Prop :=
  let testEnded := fun (s : State) (tm : TestMark) (slot : Nat) (outcome : Byte) (sent : Nat) =>
    let rsp := mkFrame tm.src s.ring.addr kindRsp
      ([17, 0, outcome] ++ beBytes 1 tm.columns ++ beBytes 1 sent ++ beBool tm.cut)
    if s.ring.deferred = [] ∧ s.ring.responses.length + (if s.ring.answering then 1 else 0) < 4 then
      { s with
        img := s.img.set slot none, mark := { s.mark with test := none }
        ring := { s.ring with responses := s.ring.responses ++ [rsp] } }
    else { s with
      img := s.img.set slot none, mark := { s.mark with test := some { tm with ended := true } }
      ring := { s.ring with deferred := s.ring.deferred ++ [.test rsp] } }
  (∀ (s : State) (bytes : List Byte) (f : Frame), s.powered = true → s.takenFrame kindHstat bytes = some f →
      f.dst ≠ Config.broadcast →
      let hs := headsAt s.cmd.active.heads f.src
      ((∀ status code rest, f.payload = status :: code :: rest → 1 < status.toNat ∨ hs = []) →
          exec (.hstat bytes) s
            = .next { s with mark := { s.mark with hstatStray := min 65535 (s.mark.hstatStray + 1) } })
        ∧ (∀ code rest, f.payload = 0 :: code :: rest → hs ≠ [] →
          let notes := hs.filter fun h => decide ((s.head h).state ≠ .online ∧ NoteItem.head h ∉ s.rep.order)
          let heads := s.mark.heads.mapIdx fun h m => if h ∈ hs then { m with state := .online } else m
          exec (.hstat bytes) s = .next (State.arbitrate { s with
            mark := { s.mark with heads := heads }, rep := { s.rep with order := s.rep.order ++ notes.map .head } }))
        ∧ ∀ code rest, f.payload = 1 :: code :: rest → hs ≠ [] →
          let faulted := fun (t : State) (h : Nat) =>
            let t₁ : State := { t with
              mark := { t.mark with heads := t.mark.heads.modify h fun m => { m with state := .offline, fault := code } }
              rep := { t.rep with order :=
                if (t.head h).state = .offline ∨ NoteItem.head h ∈ t.rep.order then t.rep.order
                else t.rep.order ++ [.head h] } }
            if (t.head h).state = .online then t₁.loseHead h else t₁
          exec (.hstat bytes) s = .next (hs.foldl faulted s).arbitrate
            ∧ MarkingOnly s (hs.foldl faulted s)
            ∧ ∀ h, hs = [h] → h < s.mark.heads.length →
              (hs.foldl faulted s).head h = if (s.head h).state = .online
                then { state := .offline, fault := code, schedule := [], engine := none, sent := (s.head h).sent }
                else { s.head h with state := .offline, fault := code })
    ∧ (∀ heads addr, headsAt heads addr
        = (List.range heads.length).filter fun h => (heads[h]?).any fun e => e.enabled && e.ringAddr == addr)
    ∧ (∀ (s : State) (h : Nat), h < s.mark.heads.length →
      let others := fun (u : State) (left : List Reservation) => left.foldl (fun t r => t.replanLost h r)
        { u with mark := { u.mark with heads := u.mark.heads.modify h fun m => { m with engine := none, schedule := [] } } }
      (s.head h).state ≠ .online →
      ((s.head h).engine = none → s.loseHead h = others s (s.head h).schedule)
        ∧ ∀ sv r rest, (s.head h).engine = some sv → (s.head h).schedule = r :: rest →
          let dropped := { s with mark := { s.mark with
            waiting := s.mark.waiting.filter fun w => decide (w.head ≠ h)
            heads := s.mark.heads.modify h fun m => { m with engine := none, schedule := rest } } }
          (sv.printing = false → s.loseHead h = others (dropped.replanLost h r) rest)
            ∧ (∀ seq, sv.printing = true → r.holder = .hide seq → s.loseHead h = others { dropped with
              img := s.img.set r.slot none
              trk := { s.trk with records := s.trk.records.map fun x => if x.state ≠ .free ∧ x.seq = seq then
                { x with state := .reporting, outcome := some (.partSent (s.head h).sent) } else x }
              rep := { s.rep with finals := s.rep.finals ++ [seq] } } rest)
            ∧ ∀ tm, sv.printing = true → r.holder = .testMark → s.mark.test = some tm →
              s.loseHead h = others (testEnded dropped tm r.slot 1 (s.head h).sent) rest)
    ∧ (∀ (s : State) (h : Nat) (r : Reservation) (tm : TestMark), r.holder = .testMark → s.mark.test = some tm →
      s.replanLost h r = testEnded s tm r.slot 2 0
        ∧ ∀ (lost : Bool) (heads : LaneHeads → List Nat), s.replan lost heads r = testEnded s tm r.slot 2 0)
    ∧ ∀ (s : State) (h : Nat) (r : Reservation) (seq : Nat) (l : LaneHeads), r.holder = .hide seq → r.lane = some l →
      let other := if h = l.pri then l.alt else some l.pri
      let missed := { s with
        img := s.img.set r.slot none
        trk := { s.trk with records := s.trk.records.map fun x => if x.state ≠ .free ∧ x.seq = seq then
          { x with state := .reporting, outcome := some .missedHeadDown } else x }
        rep := { s.rep with finals := s.rep.finals ++ [seq] } }
      let q : StampRequest := { seq := seq, columns := r.columns, pitch := r.pitch, slot := r.slot, anchorP := r.anchorP
                                anchorC := r.anchorC, lane := l }
      (other = none → s.replanLost h r = missed)
        ∧ ∀ o, other = some o →
          let trial := trialOn (s.headEntry o) (s.head o) s.pos.hwm s.cmd.active.markp.shiftWindow q
          let base := nozzleBase (s.headEntry o) (cellCentre s.area.cumw s.cmd.active.cellw r.anchorC)
          (∀ why, trial = .failed why → s.replanLost h r = missed)
            ∧ ∀ p, trial = .accepted p → s.replanLost h r = { s with
              mark := { s.mark with heads := s.mark.heads.modify o fun m => { m with
                schedule := insertReservation { r with
                  start := p, stop := p + ((r.columns * r.pitch : Nat) : Int), base := base.base } m.schedule } }
              trk := { s.trk with records := s.trk.records.map fun x => if x.state ≠ .free ∧ x.seq = seq then
                { x with
                  state := .waiting, plan := some { head := o, columns := r.columns, slot := r.slot }
                  flags := if base.clamped then x.flags ||| BitVec.ofNat 16 (2 ^ 15) else x.flags } else x } }

/-- The nozzle base is the anchor row less 8, the row being the floor of (X_c - EDGE) / NOZZLE_PITCH, or -1 below EDGE;
below 0 it is 0, above NOZZLES - 16 it is NOZZLES - 16, and exactly then it counts as clamped. The orientation taken at
priming decides which image column is sent as column i of n, and which dot goes to nozzle base + k: ROTATE reverses both
orders, MIRROR the column order. -/
def Obligations.StampPlaced : Prop :=
  (∀ (e : HeadRec) (x : Nat), 16 ≤ e.nozzles → 0 < e.nozzlePitch →
      let row := (x - e.edge) / e.nozzlePitch
      (x < e.edge ∨ row < 8 → nozzleBase e x = { base := 0, clamped := true })
        ∧ (e.edge ≤ x → 8 ≤ row → row - 8 ≤ e.nozzles - 16 → nozzleBase e x = { base := row - 8, clamped := false })
        ∧ (e.edge ≤ x → e.nozzles - 16 < row - 8 → nozzleBase e x = { base := e.nozzles - 16, clamped := true }))
    ∧ (∀ (rotate mirror : Bool) (columns : List Dots) (n i k : Nat), i < n → k < 16 →
      (orientedColumn rotate mirror columns n i).getLsbD k
        = (columns.getD (if rotate = mirror then i else n - 1 - i) 0).getLsbD (if rotate then 15 - k else k))

/-- A trial takes the earliest start at or after the wanted one that clears every reservation of the schedule by GUARD, if
that start is within SHIFT_WINDOW, the head is ONLINE, the head need not have been primed already, and the schedule has a
place; it fails DOWN exactly for a head not ONLINE, and LATE exactly where an ONLINE head would have to be primed at a
position already reached. -/
def Obligations.TrialTakesEarliest : Prop :=
  ∀ (e : HeadRec) (m : MarkHead) (hwm : Int) (window : Nat) (q : StampRequest) (p : Int), ScheduleOk m.schedule →
    (∀ r ∈ m.schedule, r.start ≤ r.stop) →
    let length := q.columns * q.pitch
    let wanted : Int := q.anchorP + e.offset - ((length / 2 : Nat) : Int)
    let clears := fun x => ClearsSchedule e.guard length x m.engine.isSome m.schedule
    (trialOn e m hwm window q = .failed .down ↔ m.state ≠ .online)
      ∧ (trialOn e m hwm window q = .failed .late ↔ m.state = .online ∧ wanted - e.primeLead ≤ hwm)
      ∧ (trialOn e m hwm window q = .accepted p ↔
          m.state = .online ∧ hwm < wanted - e.primeLead ∧ m.schedule.length < 6
            ∧ wanted ≤ p ∧ p ≤ wanted + window ∧ clears p ∧ ∀ p', wanted ≤ p' → p' < p → ¬ clears p')

/-- A reservation accepted by a trial enters the schedule without moving another: the schedule stays in order and disjoint,
holds at most 6 reservations, and the one that a working engine serves stays the first. -/
def Obligations.ScheduleStaysDisjoint : Prop :=
  ∀ (e : HeadRec) (m : MarkHead) (hwm : Int) (window : Nat) (q : StampRequest) (r : Reservation),
    ScheduleOk m.schedule → (∀ x ∈ m.schedule, x.start < x.stop) → 0 < q.columns → 0 < q.pitch →
    trialOn e m hwm window q = .accepted r.start → r.stop = r.start + q.columns * q.pitch →
    ScheduleOk (insertReservation r m.schedule)
      ∧ (insertReservation r m.schedule).Perm (r :: m.schedule)
      ∧ (insertReservation r m.schedule).length ≤ 6
      ∧ (m.engine.isSome = true → m.schedule ≠ [] → (insertReservation r m.schedule).head? = m.schedule.head?)

/-- ENGINE_PRIME: an IDLE engine whose earliest reservation has come within PRIME_LEAD takes the orientation and the ring
address of the active entry, sets its sent count to 0, makes its hide MARKING and hands the PRIME frame with the mark tag,
the nozzle base and the column count; or leaves it waiting, behind the frames that wait already, where the marking queue is full,
which counts MARK_WAIT.
WAITING_FRAME_HANDED: the first frame waiting at an engine goes to the end of the marking queue; a PRIME does nothing more,
and a column that is not the last raises its engine's sent count and makes it PRINTING. The heads have their turns in increasing
number, so an engine does nothing while something has fallen due at a lower head (log 23). -/
def Obligations.EnginePrimed : Prop :=
  (∀ (h : Fin 8) (s : State) (r : Reservation) (rest : List Reservation), s.powered = true →
      (s.head h).engine = none → (s.head h).schedule = r :: rest →
      r.start - (s.headEntry h).primeLead ≤ s.pos.hwm → (∀ k, k < h.val → s.engineDue k = false) →
      let e := s.headEntry h
      let tag := match r.holder with
        | .hide seq => seq
        | .testMark => 0
      let frame := mkFrame e.ringAddr s.ring.addr 5 (beBytes 4 tag ++ beBytes 2 r.base ++ beBytes 1 r.columns)
      let heads := s.mark.heads.modify h fun m => { m with
        engine := some { printing := false, rotate := e.rotate, mirror := e.mirror, addr := e.ringAddr }, sent := 0 }
      let records := match r.holder with
        | .hide seq => s.trk.records.map fun x => if x.state ≠ .free ∧ x.seq = seq then { x with state := .marking } else x
        | .testMark => s.trk.records
      (s.ring.marking.length < 32 → s.mark.waiting = [] →
          exec (.enginePrime h) s = .next (State.arbitrate { s with
            trk := { s.trk with records := records }, mark := { s.mark with heads := heads }
            ring := { s.ring with marking := s.ring.marking ++ [frame] } }))
        ∧ (32 ≤ s.ring.marking.length →
          exec (.enginePrime h) s = .next (State.arbitrate { s with
            trk := { s.trk with records := records }
            mark := { s.mark with
              heads := heads
              waiting := s.mark.waiting ++ [{ head := h, column := none, frame := frame }] }
            ring := { s.ring with markWait := min 65535 (s.ring.markWait + 1) } })))
    ∧ (∀ (s : State) (w : WaitingFrame) (more : List WaitingFrame), s.powered = true → s.mark.waiting = w :: more →
      s.ring.marking.length < 32 →
      (w.column = none → exec .waitingFrameHanded s = .next (State.arbitrate { s with
          mark := { s.mark with waiting := more }, ring := { s.ring with marking := s.ring.marking ++ [w.frame] } }))
        ∧ ∀ i sv r rest, w.column = some i → (s.head w.head).engine = some sv → (s.head w.head).schedule = r :: rest →
          (s.head w.head).sent + 1 ≠ r.columns → exec .waitingFrameHanded s = .next (State.arbitrate { s with
            mark := { s.mark with
              waiting := more
              heads := s.mark.heads.modify w.head fun m => { m with
                engine := some { sv with printing := true }, sent := m.sent + 1 } }
            ring := { s.ring with marking := s.ring.marking ++ [w.frame] } }))
    ∧ ∀ (h : Fin 8) (s : State) (k : Nat), k < h.val → s.engineDue k = true →
      exec (.enginePrime h) s = .next s ∧ exec (.columnSend h) s = .next s

/-- COLUMN_SEND with room in the marking queue: the column due is handed with the mark tag, its number and its dots, the sent
count rises and the engine is PRINTING. The last column completes the reservation: it leaves the schedule, its slot is
released, the engine is IDLE with its sent count as it stands (log 45), and its hide goes to REPORTING with MARKED and joins the finalization list, while a test mark's
answer is placed in the response buffer, or waits where that is full or another answer waits. So it is too when the last column is
handed from waiting (WAITING_FRAME_HANDED). With the marking queue full the next column that falls due waits behind the frames
that wait already and MARK_WAIT counts it; an engine that is PRINTING stays so, one whose last column waits is PRINTING, and
whether another waiting column makes it so is left open (log 19). The last column and a test mark's answer are both offered before
the arbiter's one pick (log 28). -/
def Obligations.ColumnSent : Prop :=
  let tagOf := fun (r : Reservation) => match r.holder with
    | .hide seq => seq
    | .testMark => 0
  let columnOf := fun (s : State) (sv : Service) (r : Reservation) (i : Nat) =>
    mkFrame sv.addr s.ring.addr 6 (beBytes 4 (tagOf r) ++ beBytes 1 i
      ++ beBytes 2 (orientedColumn sv.rotate sv.mirror (s.slotColumns r.slot) r.columns i).toNat)
  let finished := fun (h : Nat) (s : State) (r : Reservation) (rest : List Reservation) (frame : Frame)
      (answers : State → Prop) =>
    let done : State := { s with
      mark := { s.mark with heads := s.mark.heads.modify h fun m =>
        { m with engine := none, schedule := rest, sent := m.sent + 1 } }
      img := s.img.set r.slot none
      ring := { s.ring with marking := s.ring.marking ++ [frame] } }
    (∀ seq, r.holder = .hide seq → answers (State.arbitrate { done with
        trk := { s.trk with records := s.trk.records.map fun x =>
          if x.state ≠ .free ∧ x.seq = seq then { x with state := .reporting, outcome := some .marked } else x }
        rep := { s.rep with finals := s.rep.finals ++ [seq] } }))
      ∧ ∀ tm, r.holder = .testMark → s.mark.test = some tm → s.ring.answering = false →
        let rsp := mkFrame tm.src s.ring.addr kindRsp
          ([17, 0, 0] ++ beBytes 1 tm.columns ++ beBytes 1 r.columns ++ beBool tm.cut)
        (s.ring.deferred = [] → s.ring.responses.length < 4 → answers (State.arbitrate { done with
            mark := { done.mark with test := none }
            ring := { done.ring with responses := s.ring.responses ++ [rsp] } }))
          ∧ (s.ring.deferred ≠ [] ∨ 4 ≤ s.ring.responses.length → answers (State.arbitrate { done with
            mark := { done.mark with test := some { tm with ended := true } }
            ring := { done.ring with deferred := s.ring.deferred ++ [.test rsp] } }))
  (∀ (h : Fin 8) (s : State) (sv : Service) (r : Reservation) (rest : List Reservation), s.powered = true →
      (s.head h).engine = some sv → (s.head h).schedule = r :: rest → (∀ k, k < h.val → s.engineDue k = false) →
      let sent := (s.head h).sent
      (s.mark.waiting = [] → s.ring.marking.length < 32 → sent < r.columns →
        r.start + ((sent * r.pitch : Nat) : Int) ≤ s.pos.hwm →
        (sent + 1 < r.columns → exec (.columnSend h) s = .next (State.arbitrate { s with
            mark := { s.mark with heads := s.mark.heads.modify h fun m => { m with
              engine := some { sv with printing := true }, sent := m.sent + 1 } }
            ring := { s.ring with marking := s.ring.marking ++ [columnOf s sv r sent] } }))
          ∧ (sent + 1 = r.columns → finished h s r rest (columnOf s sv r sent)
            fun t => exec (.columnSend h) s = .next t))
        ∧ (32 ≤ s.ring.marking.length →
          let i := sent + s.mark.waiting.countP fun w => decide (w.head = h.val ∧ w.column ≠ none)
          i < r.columns → r.start + ((i * r.pitch : Nat) : Int) ≤ s.pos.hwm →
          ∃ printing : Bool, (sv.printing = true ∨ i + 1 = r.columns → printing = true)
            ∧ exec (.columnSend h) s = .next (State.arbitrate { s with
              mark := { s.mark with
                heads := s.mark.heads.modify h fun m => { m with engine := some { sv with printing := printing } }
                waiting := s.mark.waiting ++ [{ head := h, column := some i, frame := columnOf s sv r i }] }
              ring := { s.ring with markWait := min 65535 (s.ring.markWait + 1) } })))
    ∧ ∀ (s : State) (w : WaitingFrame) (more : List WaitingFrame) (i : Nat) (sv : Service) (r : Reservation)
        (rest : List Reservation), s.powered = true → s.mark.waiting = w :: more → s.ring.marking.length < 32 →
      w.column = some i → (s.head w.head).engine = some sv → (s.head w.head).schedule = r :: rest →
      (s.head w.head).sent + 1 = r.columns →
      finished w.head { s with mark := { s.mark with waiting := more } } r rest w.frame
        fun t => exec .waitingFrameHanded s = .next t

/-! ## Lots and notes (chapter 8) -/

/-- FINALIZATION of the first hide of the list, when no close pends on its slot, the note queue has room, and no pending
close can be done: an uncounted hide leaves its HIDE note; a counted one takes the next place in the lot, adds its value and
its gross area, and leaves its note; one that fills the lot closes it with cause SIZE, the LOT note directly before the HIDE
note. Its record is freed (its other fields then hold what log 43 says). A hide whose attempt failed before an apply took effect waits until an event of R129 starts the next
attempt (log 37). -/
def Obligations.HideFinalized : Prop :=
  (∀ s : State, s.rep.waits = true → exec .finalization s = .next s) ∧
  ∀ (s : State) (seq : Nat) (more : List Nat) (r : HideRec), s.powered = true → s.rep.finals = seq :: more →
    s.recOf seq = some r → s.rep.waits = false → s.pendingCloseDue = false →
    let freed := s.trk.records.map fun x => if x.state ≠ .free ∧ x.seq = seq then HideRec.free else x
    let counted := r.has .fragment = false ∧ r.has .joined = false ∧ r.has .incomplete = false
    (¬ (counted ∧ r.lotSlot ≠ none) → s.rep.used + 1 ≤ 24 →
        exec .finalization s = .next (State.arbitrate { s with
          trk := { s.trk with records := freed }
          rep := { s.rep with finals := more, order := s.rep.order ++ [.hide r s.ver.count] } }))
      ∧ ∀ n l, counted → r.lotSlot = some n → s.lots[n]? = some l → l.closePending = false →
        let r₁ := { r with lot := some { slot := n, lotNo := l.lotNo, place := l.count + 1 } }
        let l₁ : LotSlot := { l with
          count := l.count + 1
          quarters := l.quarters + (match r.value with
            | some { value := v, unit := .footQuarter } => v
            | _ => 0)
          decimetres := l.decimetres + (match r.value with
            | some { value := v, unit := .decimetre } => v
            | _ => 0)
          gross := min (2 ^ 64 - 1) (l.gross + min (2 ^ 64 - 1) (r.covered + r.addBack)) }
        (l.count + 1 ≠ (s.lotEntry n).size → s.rep.used + 1 ≤ 24 →
            exec .finalization s = .next (State.arbitrate { s with
              trk := { s.trk with records := freed }, lots := s.lots.set n l₁
              rep := { s.rep with finals := more, order := s.rep.order ++ [.hide r₁ s.ver.count] } }))
          ∧ (l.count + 1 = (s.lotEntry n).size → s.rep.used + 2 ≤ 24 →
            exec .finalization s = .next (State.arbitrate { s with
              trk := { s.trk with records := freed }, lots := s.lots.set n (.fresh l.following)
              rep := { s.rep with finals := more, order := s.rep.order
                ++ [.lot { slot := n, lotNo := l.lotNo, count := l₁.count, quarters := l₁.quarters,
                           decimetres := l₁.decimetres, gross := l₁.gross, cause := .size }, .hide r₁ s.ver.count] } }))

/-- PENDING_LOT_CLOSE closes the lowest slot with a close pending, with cause APPLY, when the note queue has a free entry;
CLOSE_LOT closes the slot it names, with cause COMMAND, answered with the lot number and the count. A close appends the LOT
note, and the slot begins the lot of its next number, or one number on, 1 after 65,535, with nothing counted. CLOSE_LOT is
refused FORMAT above slot 3, BUSY while a close pends or the note queue is full, EMPTY for a count of 0. The LOT note and the
answer of a CLOSE_LOT are both offered before the arbiter's one pick (log 28); a pending close done starts a finalization
attempt (log 37). -/
def Obligations.LotsClosed : Prop :=
  ∀ (s : State) (n : Nat) (l : LotSlot), s.powered = true → s.lots[n]? = some l →
    let fresh : LotSlot :=
      { lotNo := match l.nextNo with
          | some m => m
          | none => if l.lotNo < 65535 then l.lotNo + 1 else 1
        count := 0, quarters := 0, decimetres := 0, gross := 0, closePending := false, nextNo := none }
    let closed := fun cause : CloseCause => ({ s with
      lots := s.lots.set n fresh
      rep := { s.rep with order := s.rep.order ++ [.lot { slot := n, lotNo := l.lotNo, count := l.count,
                                                          quarters := l.quarters, decimetres := l.decimetres,
                                                          gross := l.gross, cause := cause }] } } : State)
    (l.closePending = true → (∀ m l', m < n → s.lots[m]? = some l' → l'.closePending = false) → s.rep.used < 24 →
        exec .pendingLotClose s = .next (State.arbitrate { closed .apply with
          rep := { (closed .apply).rep with waits := false } }))
      ∧ ∀ bytes f slot, s.Takes bytes f codeCloseLot [slot] → (slot.toNat = n ∨ 3 < slot.toNat) →
        (3 < slot.toNat → exec (.closeLot bytes) s = .next (s.answered f .format []))
          ∧ (slot.toNat ≤ 3 → l.closePending = true → exec (.closeLot bytes) s = .next (s.answered f .busy []))
          ∧ (slot.toNat ≤ 3 → l.closePending = false → l.count = 0 →
              exec (.closeLot bytes) s = .next (s.answered f .empty []))
          ∧ (slot.toNat ≤ 3 → l.closePending = false → l.count ≠ 0 → 24 ≤ s.rep.used →
              exec (.closeLot bytes) s = .next (s.answered f .busy []))
          ∧ (slot.toNat ≤ 3 → l.closePending = false → l.count ≠ 0 → s.rep.used < 24 →
              exec (.closeLot bytes) s = .next ((closed .command).answered f .ok (beBytes 2 l.lotNo ++ beBytes 2 l.count)))

/-- The report queue's choice is the note of the highest level present, of these the earliest in the arrival order, and it
leaves the others in their order; it is none exactly for an empty order. An event whose flag is clear takes the end of the
arrival order with count 1; one whose flag is set counts up, to 65,535 at most, in its place. A note's payload is laid out byte
by byte as in section 13.4, an absent field all ones: a HIDE note in 71 bytes, from its hide and the verification count at its
finalization; a LOT note in 23; an EVENT note in 5, with its count and the lock state or the count of discarded hides at its
sending; a HEAD note in 4, with the head's state and fault code at its sending. -/
def Obligations.NotesOrdered : Prop :=
  (∀ (levels : List Nat) (order : List NoteItem),
      (chooseNote levels order = none ↔ order = [])
        ∧ ∀ item rest, chooseNote levels order = some (item, rest) ↔
            ∃ before after, order = before ++ item :: after ∧ rest = before ++ after
              ∧ (∀ n ∈ order, n.level levels ≤ item.level levels) ∧ ∀ n ∈ before, n.level levels < item.level levels)
    ∧ (∀ (s : State) (r : HideRec) (count : Nat),
      let bytes := s.notePayload (.hide r count)
      let orNone := fun (n : Nat) (x : Option Nat) => match x with
        | some v => beBytes n v
        | none => List.replicate n 255
      bytes.length = 71 ∧ ∀ field ∈ ([(0, [1]), (1, beBytes 4 r.seq), (5, beBytes 2 r.firstLine.toNat),
        (7, beBytes 2 r.lastLine.toNat), (9, beInt 6 r.leading), (15, beInt 6 r.trailing), (21, beBytes 2 r.cellMin),
        (23, beBytes 2 r.cellMax), (25, beBytes 2 r.lineCount), (27, beBytes 1 r.joinCount), (28, beBytes 8 r.covered),
        (36, beBytes 8 r.addBack), (44, beBytes 2 r.smallHoles), (46, beBytes 2 r.largeHoles),
        (48, [r.flags.extractLsb' 8 8, r.flags.extractLsb' 0 8]), (50, orNone 2 (r.value.map FinalValue.value)),
        (52, match r.value with
          | some { value := _, unit := .footQuarter } => [0]
          | some { value := _, unit := .decimetre } => [1]
          | none => [255]),
        (53, match r.ring.head? with
          | some a => beInt 6 a.p ++ beBytes 2 a.c
          | none => List.replicate 8 255),
        (61, orNone 1 r.lane),
        (62, match r.outcome with
          | none => [0, 0]
          | some .marked => 1 :: beBytes 1 (match r.plan with
            | some p => p.columns
            | none => 0)
          | some (.partSent n) => 2 :: beBytes 1 n
          | some .missedNoLane => [3, 0]
          | some .missedNoImage => [4, 0]
          | some .missedHeadDown => [5, 0]
          | some .missedLate => [6, 0]
          | some .missedBusy => [7, 0]),
        (64, orNone 1 (r.plan.map MarkPlan.head)), (65, orNone 1 (r.lot.map LotAssignment.slot)),
        (66, orNone 2 (r.lot.map LotAssignment.lotNo)), (68, orNone 2 (r.lot.map LotAssignment.place)),
        (70, beBytes 1 count)] : List (Nat × List Byte)), (bytes.drop field.1).take field.2.length = field.2)
    ∧ (∀ (s : State) (n : LotNote),
      let bytes := s.notePayload (.lot n)
      bytes.length = 23 ∧ ∀ field ∈ ([(0, [2]), (1, beBytes 1 n.slot), (2, beBytes 2 n.lotNo), (4, beBytes 2 n.count),
        (6, beBytes 4 n.quarters), (10, beBytes 4 n.decimetres), (14, beBytes 8 n.gross), (22, match n.cause with
          | .size => [0]
          | .command => [1]
          | .apply => [2])] : List (Nat × List Byte)), (bytes.drop field.1).take field.2.length = field.2)
    ∧ (∀ (s : State) (k : EventKind) (n : Nat),
      let kinds : List EventKind := [.configApplied, .speedSteady, .speedUnsteady, .beltReverse, .encoderFault,
        .hideTableFull, .gapTableFull, .lineGapped, .lockChanged, .drained, .resetDone]
      s.notePayload (.event k n) = [3, BitVec.ofNat 8 (kinds.idxOf k + 1)] ++ beBytes 2 n ++ (match k with
        | .lockChanged => [if s.ver.lockOpen then 1 else 0]
        | .resetDone => beBytes 1 s.rep.resetDatum
        | _ => [0]))
    ∧ (∀ (s : State) (h : Nat), s.notePayload (.head h) = [4] ++ beBytes 1 h ++ [match (s.head h).state with
        | .unknown => 0
        | .online => 1
        | .offline => 2, (s.head h).fault])
    ∧ (∀ (k : EventKind) (order : List NoteItem),
      ((∀ n, NoteItem.event k n ∉ order) → raiseIn k order = order ++ [.event k 1])
        ∧ ∀ before n after, (∀ m, NoteItem.event k m ∉ before) → order = before ++ .event k n :: after →
            raiseIn k order = before ++ .event k (min 65535 (n + 1)) :: after)

/-! ## Run control (chapter 9) -/

/-- START in STANDBY of a configured part brings the HWM to I, sets NEXT a LINE_PITCH above it, starts SYNC, clears the line
window and the line-scoped lists, sets the advance base and enters RUN, answered OK with the HWM and line 0; it is refused
STATE elsewhere and NOT_CONFIGURED without an apply. STOP takes RUN to the drain, repeats itself in the drain, and is refused
STATE in STANDBY. The drain's first stage ends with no hide OPEN and no held run, clearing the strobe enable and those lists;
its second ends with every record FREE and every engine IDLE, in STANDBY with DRAINED raised. Whether a STOP's drain ends at once
is judged by the step DRAIN_FIRST_STAGE_END, at a line boundary (log 11). -/
def Obligations.RunControlMoves : Prop :=
  (∀ (s : State) (bytes : List Byte) (f : Frame), s.Takes bytes f codeStart [] →
      (s.run ≠ .standby → exec (.start bytes) s = .next (s.answered f .state []))
        ∧ (s.run = .standby → s.cmd.configured = false →
            exec (.start bytes) s = .next (s.answered f .notConfigured []))
        ∧ (s.run = .standby → s.cmd.configured = true →
          let pitch := s.cmd.active.scan.linePitch
          exec (.start bytes) s = .next (State.answered f .ok (beInt 6 s.pos.i ++ [0, 0]) { s with
            run := .run
            pos := { s.pos with hwm := s.pos.i, excursion := false }
            strobe := { s.strobe with
              enable := true, next := s.pos.i + pitch, period := 0, wait := false, nextLine := 0, prevPeriod := none
              steady := false, inWindow := 0, strobed := false, pulse := some { sync := true, left := 20 } }
            asm := { s.asm with slots := [] }
            trk := { s.trk with prev := .empty, cur := .empty }
            gap := { s.gap with prevSpans := [], prevMissing := [] }
            area := { s.area with base := .firstLine pitch } })))
    ∧ (∀ (s : State) (bytes : List Byte) (f : Frame), s.Takes bytes f codeStop [] →
      (s.run = .standby → exec (.stop bytes) s = .next (s.answered f .state []))
        ∧ (s.run = .run → exec (.stop bytes) s = .next (State.answered f .ok [] { s with run := .drainFirst }))
        ∧ (s.run = .drainFirst ∨ s.run = .drainSecond → exec (.stop bytes) s = .next (s.answered f .ok [])))
    ∧ (∀ s : State, s.powered = true → s.run = .drainFirst → s.trk.handing = none →
      (∀ r ∈ s.trk.records, r.state ≠ .isOpen) → s.trk.prev.held = [] →
      exec .drainFirstStageEnd s = .next { s with
        run := .drainSecond
        strobe := { s.strobe with enable := false, wait := false }
        asm := { s.asm with slots := [] }
        trk := { s.trk with prev := .empty, cur := .empty }
        gap := { s.gap with prevSpans := [], prevMissing := [] }
        area := { s.area with base := .noLine } })
    ∧ ∀ s : State, s.powered = true → s.run = .drainSecond → (∀ r ∈ s.trk.records, r.state = .free) →
      (∀ m ∈ s.mark.heads, m.engine = none) →
      exec .drainSecondStageEnd s = .next (State.arbitrate { s with
        run := .standby, rep := { s.rep with order := raiseIn .drained s.rep.order } })

/-- SOFT_RESET takes every block to its state after a soft reset and leaves RESET_DONE, with the number of hides discarded,
as the only pending note; tables, CONFIGURED, the position, the filters, the verification count, lot numbers, fault codes,
the report address, the engines' sent counts (log 45) and a transmission stay; a load becomes TORN, a pending apply is dropped, the lock closes, and no later answer
is held. A pulse on the strobe line finishes (log 32); a FREE record's other fields hold what log 43 says; RESET_DONE and the answer are both offered before the arbiter's one pick
(log 28). -/
def Obligations.SoftResetClears : Prop :=
  ∀ (s : State) (bytes : List Byte) (f : Frame), s.Takes bytes f codeSoftReset [] →
    let discarded := s.trk.records.countP (fun r => decide (r.state ≠ .free))
    exec (.softReset bytes) s = .next (State.answered f .ok (beBytes 1 discarded) { s with
      run := .standby
      pos := { s.pos with hwm := s.pos.i, excursion := false, encFault := 0 }
      strobe := { s.strobe with
        enable := false, wait := false, next := s.pos.i + s.cmd.active.scan.linePitch, period := 0, nextLine := 0
        prevPeriod := none, steady := false, inWindow := 0, strobed := false, delayedCount := 0 }
      asm := { s.asm with slots := [], stray := 0, lateSeg := 0, dupSeg := 0, malformed := 0 }
      trk := { records := s.trk.records.map fun _ => HideRec.free, prev := .empty, cur := .empty
               counter := s.trk.counter, overflow := 0, handing := none }
      gap := { table := s.gap.table.map fun _ => none, order := [], prevSpans := [], prevMissing := [], overflow := 0 }
      area := { s.area with base := .noLine, lastAdvance := 0 }
      img := s.img.map fun _ => none
      mark := { heads := s.mark.heads.map fun m => { m with state := .unknown, schedule := [], engine := none }
                waiting := [], test := none, hstatStray := 0 }
      lots := s.lots.map fun l => { l with count := 0, quarters := 0, decimetres := 0, gross := 0, closePending := false }
      rep := { finals := [], order := [.event .resetDone 1], resetDatum := discarded, waits := false }
      ver := { s.ver with lockOpen := false, prog := s.ver.prog.map fun p => { p with forgotten := true } }
      ring := { s.ring with
        forward := [], responses := [], marking := [], deferred := []
        crcErr := 0, returned := 0, kindErr := 0, ringDrop := 0, cmdDrop := 0, markWait := 0 }
      cmd := { s.cmd with
        load := none, pendingApply := none
        states := match s.cmd.load with
          | some l => s.cmd.states.put l.table .torn
          | none => s.cmd.states } })

/-! ## The verification lock (chapter 10) -/

/-- A switch sample enters the filter: SWITCH_SAMPLE, SWITCH_LEVEL_ESTABLISHED and SWITCH_ASSERTED do nothing more;
SWITCH_RELEASED, like VERIFY_CLOSE, closes an OPEN lock: a verified load is TORN, a pending apply is dropped if a verified
table is MODIFIED, and LOCK_CHANGED is raised. VERIFY_CLOSE is answered OK with the count and lock CLOSED (log 22); its event and
its answer are both offered before the arbiter's one pick (log 28). -/
def Obligations.SwitchAndLock : Prop :=
  let filtered := fun (t : State) (level : Bool) =>
    { t with ver := { t.ver with switch := (t.ver.switch.sample level).1 } }
  let closed := fun t : State =>
    let cancelled := t.cmd.load.any (fun l => l.table.verified)
    let states := match t.cmd.load with
      | some l => if l.table.verified then t.cmd.states.put l.table .torn else t.cmd.states
      | none => t.cmd.states
    if t.ver.lockOpen = true then
      { t with
        ver := { t.ver with lockOpen := false }
        cmd := { t.cmd with
          load := if cancelled then none else t.cmd.load
          states := states
          pendingApply := if states.cellw = .modified ∨ states.pitch = .modified ∨ states.calib = .modified then none
            else t.cmd.pendingApply }
        rep := { t.rep with order := raiseIn .lockChanged t.rep.order } }
    else t
  (∀ (s : State) (dt : Nat) (level : Bool), s.powered = true →
      let t := s.passTime dt
      ((t.ver.switch.sample level).2 = .quiet → exec (.switchSample dt level) s = .next (filtered t level))
        ∧ ((t.ver.switch.sample level).2 = .established →
            exec (.switchLevelEstablished dt level) s = .next (filtered t level))
        ∧ ((t.ver.switch.sample true).2 = .changed → exec (.switchAsserted dt) s = .next (filtered t true))
        ∧ ((t.ver.switch.sample false).2 = .changed →
            exec (.switchReleased dt) s = .next (closed (filtered t false)).arbitrate))
    ∧ ∀ (s : State) (bytes : List Byte) (f : Frame), s.Takes bytes f codeVerifyClose [] →
      exec (.verifyClose bytes) s = .next ((closed s).answered f .ok (beBytes 1 s.ver.count ++ [0]))

/-- VERIFY_OPEN with the switch ASSERTED, the lock CLOSED, a count below 127 and no operation or answer outstanding begins a
programming operation of 2000 µs, not yet answered; otherwise it is answered BUSY, SWITCH, OK or EXHAUSTED and changes
nothing. PROGRAMMING_COMPLETION raises the count by one, opens the lock if the switch is ASSERTED, with LOCK_CHANGED, and
places the answer where there is room and no other later answer waits, or leaves it waiting (logs 22, 27, 29), the event and the
answer both offered before the arbiter's one pick (log 28); after a soft reset it only counts. VERIFY_STATUS reports the
record. -/
def Obligations.LockOpens : Prop :=
  (∀ (s : State) (bytes : List Byte) (f : Frame), s.Takes bytes f codeVerifyOpen [] →
      let outstanding := s.ver.prog ≠ none ∨ ∃ rsp, Deferred.verify rsp ∈ s.ring.deferred
      (outstanding → exec (.verifyOpen bytes) s = .next (s.answered f .busy []))
        ∧ (¬ outstanding → s.ver.switch.accepted ≠ some true →
            exec (.verifyOpen bytes) s = .next (s.answered f .switch (beBytes 1 s.ver.count)))
        ∧ (¬ outstanding → s.ver.switch.accepted = some true → s.ver.lockOpen = true →
            exec (.verifyOpen bytes) s = .next (s.answered f .ok (beBytes 1 s.ver.count ++ [1])))
        ∧ (¬ outstanding → s.ver.switch.accepted = some true → s.ver.lockOpen = false → 127 ≤ s.ver.count →
            exec (.verifyOpen bytes) s = .next (s.answered f .exhausted (beBytes 1 s.ver.count)))
        ∧ (¬ outstanding → s.ver.switch.accepted = some true → s.ver.lockOpen = false → s.ver.count < 127 →
            exec (.verifyOpen bytes) s = .next (State.commanded f { s with
              ver := { s.ver with prog := some { src := f.src, left := 2000, forgotten := false } } })))
    ∧ (∀ (s : State) (dt : Nat) (p : Programming), s.powered = true →
      let t := s.passTime dt
      t.ver.prog = some p → p.left = 0 →
      let count := min 127 (t.ver.count + 1)
      let asserted := decide (t.ver.switch.accepted = some true)
      let lock := t.ver.lockOpen || asserted
      let rsp := mkFrame p.src t.ring.addr kindRsp
        ([13, if asserted then 0 else 12] ++ beBytes 1 count ++ beBool lock)
      let order := if lock = t.ver.lockOpen then t.rep.order else raiseIn .lockChanged t.rep.order
      (p.forgotten = true → exec (.programmingCompletion dt) s
          = .next (State.arbitrate { t with ver := { t.ver with count := count, prog := none } }))
        ∧ (p.forgotten = false → t.ring.deferred = [] → t.ring.responses.length < 4 → t.ring.answering = false →
          exec (.programmingCompletion dt) s = .next (State.arbitrate { t with
            ver := { t.ver with count := count, prog := none, lockOpen := lock }
            rep := { t.rep with order := order }
            ring := { t.ring with responses := t.ring.responses ++ [rsp] } }))
        ∧ (p.forgotten = false → t.ring.deferred ≠ [] ∨ 4 ≤ t.ring.responses.length →
          exec (.programmingCompletion dt) s = .next (State.arbitrate { t with
            ver := { t.ver with count := count, prog := none, lockOpen := lock }
            rep := { t.rep with order := order }
            ring := { t.ring with deferred := t.ring.deferred ++ [.verify rsp] } })))
    ∧ ∀ (s : State) (bytes : List Byte) (f : Frame), s.Takes bytes f codeVerifyStatus [] →
      exec (.verifyStatus bytes) s = .next (s.answered f .ok
        (beBytes 1 s.ver.count ++ beBool s.ver.lockOpen ++ beBool (decide (s.ver.switch.accepted = some true))
          ++ beBool (s.ver.prog.isSome || s.ring.deferred.any fun d => match d with
              | .verify _ => true
              | .test _ => false)))

/-! ## The line ring (chapter 11) -/

/-- The receiver: bytes that are no good frame count CRC_ERR; a good frame of the part's own source is removed and counted
RETURNED; one addressed to the part of a kind it does not take counts KIND_ERR; one for another node, or a broadcast that the
part does not take, joins the forward buffer, or is dropped with RING_DROP when 4 are held. A broadcast SEG, CMD or HSTAT is
taken and forwarded as well, in an order left open (log 13). Nothing else changes. -/
def Obligations.FramesReceived : Prop :=
  let forward := fun (f : Frame) (s : State) => State.arbitrate { s with ring :=
    if s.ring.forward.length < 4 then { s.ring with forward := s.ring.forward ++ [f] }
    else { s.ring with ringDrop := min 65535 (s.ring.ringDrop + 1) } }
  (∀ (s : State) (bytes : List Byte), s.powered = true → parseFrame bytes = none →
      exec (.badFrame bytes) s = .next { s with ring := { s.ring with crcErr := min 65535 (s.ring.crcErr + 1) } })
    ∧ ∀ (s : State) (bytes : List Byte) (f : Frame), s.powered = true → parseFrame bytes = some f →
      let kind := f.kind.toNat
      let takeable := kind = 1 ∨ kind = 7 ∨ (kind = 2 ∧ f.src ≠ 31)
      let both := fun (i : Instr) (take : State → State) =>
        exec i s = .next (take (forward f s)) ∨ exec i s = .next (forward f (take s))
      (f.src = s.ring.addr →
          exec (.returnedFrame bytes) s
            = .next { s with ring := { s.ring with returned := min 65535 (s.ring.returned + 1) } })
        ∧ (f.src ≠ s.ring.addr → f.dst = s.ring.addr → ¬ takeable →
          exec (.kindErr bytes) s = .next { s with ring := { s.ring with kindErr := min 65535 (s.ring.kindErr + 1) } })
        ∧ (f.src ≠ s.ring.addr → f.dst ≠ s.ring.addr → f.dst ≠ 31 ∨ ¬ takeable →
          exec (.forwardedFrame bytes) s = .next (forward f s))
        ∧ (f.src ≠ s.ring.addr → f.dst = 31 →
          (kind = 1 → both (.seg bytes) (State.takeSegment f))
            ∧ (kind = 7 → both (.hstat bytes) (State.takeHstat f))
            ∧ ∀ i accepts body, kind = 2 → f.src ≠ 31 → CommandStep i bytes accepts body → accepts f.command = true →
              both i (State.intake f body))
        ∧ (f.src ≠ s.ring.addr → f.dst = 31 → kind = 1 → s.strobe.enable = false ∨ s.assemblerSettled = true →
          exec (.seg bytes) s = .next { forward f s with asm := (s.judgeSegment f).asm })

/-- TRANSMISSION_END frees the output, and on a free output the arbiter picks the oldest marking frame, else the oldest
forwarded frame, else the oldest response, else, with a report address, the report queue's choice as a NOTE, else nothing; a HIDE
or LOT note so handed frees its entry, which starts a finalization attempt (log 37).
DEFERRED_ANSWER_PLACED puts the first waiting later answer at the end of a response buffer with a free place; a test mark
whose answer it is is then over. -/
def Obligations.TransmitterPicks : Prop :=
  (∀ (s : State) (dt : Nat), s.powered = true → s.ring.out ≠ none →
      exec (.transmissionEnd dt) s
        = .next (State.arbitrate { s.passTime dt with ring := { s.ring with out := none } }))
    ∧ (∀ (s : State) (f : Frame), s.ring.out = some f → s.arbitrate = s)
    ∧ (∀ s : State, s.ring.out = none →
      (∀ f rest, s.ring.marking = f :: rest →
          s.arbitrate = { s with ring := { s.ring with marking := rest, out := some f } })
        ∧ (s.ring.marking = [] → ∀ f rest, s.ring.forward = f :: rest →
          s.arbitrate = { s with ring := { s.ring with forward := rest, out := some f } })
        ∧ (s.ring.marking = [] → s.ring.forward = [] → ∀ f rest, s.ring.responses = f :: rest →
          s.arbitrate = { s with ring := { s.ring with responses := rest, out := some f } })
        ∧ (s.ring.marking = [] → s.ring.forward = [] → s.ring.responses = [] →
          (s.ring.report = none ∨ s.rep.order = [] → s.arbitrate = s)
            ∧ ∀ dst item rest, s.ring.report = some dst →
              chooseNote s.cmd.active.notepri s.rep.order = some (item, rest) →
              s.arbitrate = { s with
                ring := { s.ring with out := some (mkFrame dst s.ring.addr kindNote (s.notePayload item)) }
                rep := { s.rep with order := rest, waits := match item with
                  | .hide _ _ | .lot _ => false
                  | .event _ _ | .head _ => s.rep.waits } }))
    ∧ ∀ (s : State) (d : Deferred) (more : List Deferred), s.powered = true → s.ring.deferred = d :: more →
      s.ring.responses.length < 4 →
      exec .deferredAnswerPlaced s = .next (State.arbitrate { s with
        ring := { s.ring with
          deferred := more
          responses := s.ring.responses ++ [match d with
            | .test rsp => rsp
            | .verify rsp => rsp] }
        mark := { s.mark with test := match d with
          | .test _ => none
          | .verify _ => s.mark.test } })

/-! ## Commands, tables and the apply cycle (chapter 12) -/

/-- A CMD that finds the response buffer full is not executed, whatever it is: CMD_DROP counts it and nothing else changes.
An unknown command is answered FORMAT. -/
def Obligations.CommandsDropped : Prop :=
  (∀ (i : Instr) (bytes : List Byte) (kind : Nat → Bool) (body : CommandBody) (s : State) (f : Frame),
      CommandStep i bytes kind body → s.powered = true → s.takenFrame kindCmd bytes = some f → kind f.command = true →
      f.dst ≠ Config.broadcast → 4 ≤ s.ring.responses.length →
      exec i s = .next { s with ring := { s.ring with cmdDrop := min 65535 (s.ring.cmdDrop + 1) } })
    ∧ ∀ (s : State) (bytes : List Byte) (f : Frame), s.Takes bytes f f.command f.args → f.command = 0 ∨ 17 < f.command →
      exec (.unknownCommand bytes) s = .next (s.answered f .format [])

/-- A refused command changes nothing, but for a LOAD_DATA, and for a LOAD_END answered TORN, which ends its load. -/
def Obligations.RefusalChangesNothing : Prop :=
  ∀ (i : Instr) (bytes : List Byte) (kind : Nat → Bool) (body : CommandBody), CommandStep i bytes kind body →
    i ≠ .loadData bytes → ∀ (src : Nat) (args : List Byte) (s t : State) (a : Answer),
      body src args s = (t, some a) → ¬ a.status.accepts → (i = .loadEnd bytes → a.status ≠ .torn) → t = s

/-- STATUS, COUNTERS and READ_TABLE answer with what they report, in the codings of R184, and change nothing but that
COUNTERS with clear sets the 15 counters to 0. STATUS page 0 reports the run state, the drain stage, the command unit, the
position and the ring addresses, page 1 the blocks' tables, heads, slots and queues; the report address is the command's own
source (log 40), a head's state stands before its own fault code and a slot's lot number before its own count (log 41), the widths
and the codes of none are log 22's, and a hide that closed and is not yet handed on counts as OPEN (log 36). -/
def Obligations.ReportsAnswered : Prop :=
  (∀ (s : State) (bytes : List Byte) (f : Frame),
      let st := s.cmd.states
      let counted := fun k : HideState => beBytes 1 (s.trk.records.countP fun r => decide (r.state = k))
      let bit := fun b : Bool => ([if b then 1 else 0] : List Byte)
      let onHeads := fun report : MarkHead → List Byte => (List.range 8).flatMap fun h => report (s.head h)
      (s.Takes bytes f codeStatus [0] →
          exec (.status bytes) s = .next (s.answered f .ok (
            (match s.run with
              | .standby => ([0, 255] : List Byte)
              | .run => [1, 255]
              | .drainFirst => [2, 0]
              | .drainSecond => [2, 1])
            ++ bit s.cmd.configured
            ++ [st.cellw, st.pitch, st.calib, st.scan, st.markp, st.lane, st.head, st.glyph, st.lot, st.notepri].map
                (fun | .clean => (0 : Byte) | .loading => 1 | .modified => 2 | .torn => 3)
            ++ (match s.cmd.load with
              | some l => beBytes 1 l.table.code ++ bit l.down ++ beInt 2 l.next ++ beBytes 2 l.due
              | none => [255, 255, 255, 255, 255, 255])
            ++ (match s.cmd.pendingApply with
              | some p => bit p.force
              | none => [255])
            ++ beInt 6 s.pos.i ++ beInt 6 s.pos.hwm ++ bit s.pos.excursion ++ bit (!s.strobe.steady)
            ++ beBytes 2 s.asm.lastLine.toNat ++ beBytes 4 s.asm.lastTime.toNat ++ beInt 6 s.area.lastAdvance
            ++ beBytes 1 s.ring.addr ++ beBytes 1 f.src)))
        ∧ (s.Takes bytes f codeStatus [1] →
          exec (.status bytes) s = .next (s.answered f .ok (
            counted .free ++ beBytes 1 (s.trk.records.countP fun r => decide (r.state = .isOpen ∨ r.state = .closed))
            ++ counted .waiting ++ counted .marking ++ counted .reporting ++ beBytes 4 s.trk.counter
            ++ beBytes 1 (s.gap.table.countP fun g => decide (g ≠ none))
            ++ beBytes 1 (s.img.countP fun x => decide (x = none))
            ++ onHeads (fun m => (match m.state with
              | .unknown => [0]
              | .online => [1]
              | .offline => [2]) ++ [m.fault])
            ++ onHeads (fun m => match m.engine with
              | none => [0]
              | some sv => [if sv.printing then 2 else 1])
            ++ onHeads (fun m => beBytes 1 m.schedule.length)
            ++ (List.range 4).flatMap (fun n => beBytes 2 (s.lotSlot n).lotNo ++ beBytes 2 (s.lotSlot n).count)
            ++ beBytes 1 (s.rep.order.countP fun
              | .hide _ _ | .lot _ => true
              | .event _ _ | .head _ => false)
            ++ beBytes 1 s.ring.forward.length ++ beBytes 1 s.ring.marking.length)))
        ∧ ∀ page : Byte, 1 < page.toNat → s.Takes bytes f codeStatus [page] →
          exec (.status bytes) s = .next (s.answered f .format []))
    ∧ (∀ (s : State) (bytes : List Byte) (f : Frame),
      let values := [s.pos.encFault, s.strobe.delayedCount, s.asm.stray, s.asm.lateSeg, s.asm.dupSeg, s.asm.malformed,
        s.trk.overflow, s.gap.overflow, s.mark.hstatStray, s.ring.crcErr, s.ring.returned, s.ring.kindErr,
        s.ring.ringDrop, s.ring.cmdDrop, s.ring.markWait].flatMap (beBytes 2)
      (s.Takes bytes f codeCounters [0] → exec (.counters bytes) s = .next (s.answered f .ok values))
        ∧ (s.Takes bytes f codeCounters [1] →
          exec (.counters bytes) s = .next (State.answered f .ok values { s with
            pos := { s.pos with encFault := 0 }
            strobe := { s.strobe with delayedCount := 0 }
            asm := { s.asm with stray := 0, lateSeg := 0, dupSeg := 0, malformed := 0 }
            trk := { s.trk with overflow := 0 }
            gap := { s.gap with overflow := 0 }
            mark := { s.mark with hstatStray := 0 }
            ring := { s.ring with crcErr := 0, returned := 0, kindErr := 0, ringDrop := 0, cmdDrop := 0,
                                  markWait := 0 } })))
    ∧ ∀ (s : State) (bytes : List Byte) (f : Frame) (tb bank f₁ f₀ c₁ c₀ : Byte) (t : TableId),
      s.Takes bytes f codeReadTable [tb, bank, f₁, f₀, c₁, c₀] → TableId.ofCode tb.toNat = some t → bank.toNat ≤ 1 →
      let first := f₁.toNat * 256 + f₀.toNat
      let count := c₁.toNat * 256 + c₀.toNat
      1 ≤ count → count ≤ t.frameMax → first + count ≤ t.entries →
      exec (.readTable bytes) s = .next (s.answered f .ok (beBytes 1 (s.cmd.states.get t).code
        ++ (List.range count).flatMap fun k =>
          (if bank = 0 then s.cmd.staged else s.cmd.active).entryBytes t (first + k)))

/-- A load transfer. LOAD_BEGIN, with a table, range and direction in form, no apply pending and the lock OPEN for a verified
table, ends any load before it with its table TORN and begins its own at its first index UP or its last DOWN; out of form it is
refused FORMAT, then BUSY, then LOCKED, and any load goes on. LOAD_DATA at the next index writes its entries and moves on, to
index -1 where a DOWN load has passed entry 0; a repeat of the last one writes them again and moves nothing; one out of sequence,
one with more entries than are due, and one that is ill-formed or above the table's maximum per frame end the load with its table
TORN. Without a load, LOAD_DATA is answered NOLOAD, or FORMAT where its arguments are missing (log 26). LOAD_END leaves the table
MODIFIED when nothing is due, or TORN where the table was TORN before and not covered whole, and TORN when entries are due. The
widths of the clamped counts and of the entries due are log 22's, and that the load's clamped count has no bound and its answer
holds the count's low 16 bits is the model's choice (log 46). A repeat's clamped fields are added to the load's count as every
frame's are (R172), and its answer's count is that of the first copy (log 24). -/
def Obligations.LoadsTransfer : Prop :=
  (∀ (s : State) (bytes : List Byte) (f : Frame) (args : List Byte), s.Takes bytes f codeLoadBegin args →
      (args.length ≠ 6 → exec (.loadBegin bytes) s = .next (s.answered f .format []))
        ∧ ∀ tb f₁ f₀ c₁ c₀ dir : Byte, args = [tb, f₁, f₀, c₁, c₀, dir] →
          let first := f₁.toNat * 256 + f₀.toNat
          let count := c₁.toNat * 256 + c₀.toNat
          let start := if dir = 1 then first + count - 1 else first
          let states := match s.cmd.load with
            | some l => s.cmd.states.put l.table .torn
            | none => s.cmd.states
          (TableId.ofCode tb.toNat = none ∨ count = 0 ∨ 1 < dir.toNat →
              exec (.loadBegin bytes) s = .next (s.answered f .format []))
            ∧ ∀ t : TableId, TableId.ofCode tb.toNat = some t →
              (t.entries < first + count → exec (.loadBegin bytes) s = .next (s.answered f .format []))
                ∧ (1 ≤ count → first + count ≤ t.entries → dir.toNat ≤ 1 →
                  (s.cmd.pendingApply ≠ none → exec (.loadBegin bytes) s = .next (s.answered f .busy []))
                    ∧ (s.cmd.pendingApply = none → t.verified = true → s.ver.lockOpen = false →
                      exec (.loadBegin bytes) s = .next (s.answered f .locked []))
                    ∧ (s.cmd.pendingApply = none → t.verified = false ∨ s.ver.lockOpen = true →
                      exec (.loadBegin bytes) s = .next (State.answered f .ok (beBytes 2 start) { s with cmd := { s.cmd with
                        states := states.put t .loading
                        load := some { table := t, down := decide (dir = 1), first := first, count := count, next := start
                                       due := count, last := none, wasTorn := decide (states.get t = .torn)
                                       clamped := 0 } } }))))
    ∧ (∀ (s : State) (bytes : List Byte) (f : Frame) (args : List Byte), s.Takes bytes f codeLoadData args →
      (s.cmd.load = none → 3 ≤ args.length → exec (.loadData bytes) s = .next (s.answered f .noload []))
        ∧ (s.cmd.load = none → args.length < 3 → exec (.loadData bytes) s = .next (s.answered f .format []))
        ∧ ∀ l, s.cmd.load = some l →
          let torn := { s with cmd := { s.cmd with load := none, states := s.cmd.states.put l.table .torn } }
          let size := args.length - 2
          (size = 0 ∨ size % l.table.entryLength ≠ 0 ∨ l.table.frameMax * l.table.entryLength < size →
              exec (.loadData bytes) s = .next (torn.answered f .format []))
            ∧ ∀ (i₁ i₀ : Byte) (entries : List (List Byte)), args = i₁ :: i₀ :: entries.flatten →
              (∀ e ∈ entries, e.length = l.table.entryLength) → entries ≠ [] → entries.length ≤ l.table.frameMax →
              let first := i₁.toNat * 256 + i₀.toNat
              let n := entries.length
              let w := s.cmd.staged.storeAll l.table l.down first entries
              let next := if l.down then l.next - n else l.next + n
              let repeated := ∃ d, l.last = some d ∧ d.first = first ∧ d.entries = n ∧ (first : Int) ≠ l.next
              (¬ repeated → n ≤ l.due → (first : Int) = l.next →
                  exec (.loadData bytes) s = .next (State.answered f (if w.clamped = 0 then .ok else .okClamped)
                    (beInt 2 next ++ beBytes 1 w.clamped) { s with cmd := { s.cmd with
                      staged := w.value
                      load := some { l with next := next, due := l.due - n, clamped := l.clamped + w.clamped
                                            last := some { first := first, entries := n, clamped := w.clamped } } } }))
                ∧ (∀ d, l.last = some d → d.first = first → d.entries = n → (first : Int) ≠ l.next →
                  exec (.loadData bytes) s = .next (State.answered f (if d.clamped = 0 then .ok else .okClamped)
                    (beInt 2 l.next ++ beBytes 1 d.clamped)
                    { s with cmd := { s.cmd with staged := w.value, load := some { l with clamped := l.clamped + w.clamped } } }))
                ∧ (¬ repeated → l.due < n ∨ (first : Int) ≠ l.next →
                  exec (.loadData bytes) s
                    = .next (torn.answered f (if l.due < n then .format else .sequence) [])))
    ∧ ∀ (s : State) (bytes : List Byte) (f : Frame), s.Takes bytes f codeLoadEnd [] →
      (s.cmd.load = none → exec (.loadEnd bytes) s = .next (s.answered f .noload []))
        ∧ ∀ l, s.cmd.load = some l →
          let left := if l.due = 0 ∧ (l.wasTorn = false ∨ l.count = l.table.entries) then .modified else StagedState.torn
          exec (.loadEnd bytes) s = .next (State.answered f
            (if l.due ≠ 0 then .torn else if l.clamped = 0 then .ok else .okClamped)
            (beBytes 1 left.code ++ beBytes 2 l.clamped ++ if l.due = 0 then [] else beBytes 2 l.due)
            { s with cmd := { s.cmd with load := none, states := s.cmd.states.put l.table left } })

/-- APPLY is refused BUSY during a load or with an apply pending, TORN with a table TORN, LOCKED for a verified table with
the lock CLOSED; with nothing MODIFIED it does nothing; it takes effect at once outside a belt run, or at a boundary by
FORCE or with no hide OPEN; otherwise it stays pending, as it does within a line that is being handed over. One that comes
while the tracker segments a line that is due finds the line taken (log 14). An APPLY
that takes effect at once keeps a place of the response buffer for its answer meanwhile (log 29), and CONFIG_APPLIED and the
answer are both offered before the arbiter's one pick (log 28). CANCEL_APPLY drops a pending apply; REVERT copies the active bank
back and makes every table CLEAN. -/
def Obligations.ApplyCommands : Prop :=
  (∀ (s : State) (bytes : List Byte) (f : Frame) (mode : Byte), s.Takes bytes f codeApply [mode] → mode.toNat ≤ 1 →
      let tables := TableId.all.filter (fun t => s.cmd.states.get t == .modified)
      let busy := s.cmd.load ≠ none ∨ s.cmd.pendingApply ≠ none
      let torn := ∃ t : TableId, s.cmd.states.get t = .torn
      let locked := s.ver.lockOpen = false ∧ ∃ t : TableId, t.verified = true ∧ s.cmd.states.get t = .modified
      let atBoundary := s.trk.handing = none ∧ (mode = 1 ∨ ∀ r ∈ s.trk.records, r.state ≠ .isOpen)
      let data := [mode] ++ tableSet tables
      (busy → exec (.apply bytes false) s = .next (s.answered f .busy []))
        ∧ (¬ busy → torn → exec (.apply bytes false) s = .next (s.answered f .torn []))
        ∧ (¬ busy → ¬ torn → locked → exec (.apply bytes false) s = .next (s.answered f .locked []))
        ∧ (¬ busy → ¬ torn → ¬ locked → tables = [] → exec (.apply bytes false) s = .next (s.answered f .ok data))
        ∧ (¬ busy → ¬ torn → ¬ locked → tables ≠ [] →
          (s.strobe.enable = false ∨ atBoundary →
              exec (.apply bytes false) s = .next ((((s.reportTo f.src).keepPlace true).takeApply
                (decide (mode = 1))).answered f .ok data))
            ∧ (s.strobe.enable = true → ¬ atBoundary →
              exec (.apply bytes false) s = .next (State.answered f .accepted data { s with cmd := { s.cmd with
                pendingApply := some { force := decide (mode = 1), tables := tables } } }))))
    ∧ (∀ (s : State) (bytes : List Byte) (f : Frame), s.Takes bytes f codeCancelApply [] →
      exec (.cancelApply bytes) s = .next (State.answered f .ok (beBool s.cmd.pendingApply.isSome)
        { s with cmd := { s.cmd with pendingApply := none } }))
    ∧ (∀ (s : State) (bytes : List Byte) (f : Frame), s.takenFrame kindCmd bytes = some f → f.command = codeApply →
      exec (.apply bytes true) s
        = exec (.apply bytes false) (if s.powered = true ∧ s.lineDue = true then s.takeOldest.arbitrate else s))
    ∧ ∀ (s : State) (bytes : List Byte) (f : Frame), s.Takes bytes f codeRevert [] →
      (s.cmd.pendingApply ≠ none → exec (.revert bytes) s = .next (s.answered f .busy []))
        ∧ (s.cmd.pendingApply = none → exec (.revert bytes) s = .next (State.answered f .ok
            (tableSet (TableId.all.filter fun t => s.cmd.states.get t != .clean))
            { s with cmd := { s.cmd with staged := s.cmd.active, states := .clean, load := none } }))

/-- APPLY_TAKES_EFFECT: every MODIFIED table, and no other, becomes active; CUMW follows the active widths; X is 0 if PITCH
changed and stays if not; by FORCE every OPEN hide gets CONFIG_SWITCH; the HEAD entries and then the LOT entries are taken up, in
increasing number; every table is CLEAN, the part is configured, nothing is pending, CONFIG_APPLIED is raised, and the wait state
is entered where a strobe is due by position and not by the new MIN_STROBE (log 9). Position, line number, run state, lock,
staged tables and the hides' places are as before. A HEAD entry disabled or moved makes its head UNKNOWN, with a HEAD note if its
state changed, and the head is lost; changed otherwise, its reservations but the one its engine serves are removed and their hides
tried on the same head and then on the other recorded one, with the outcome of R114 where all fail; newly enabled, its head is
UNKNOWN as well. A LOT_SIZE at or below the count closes the lot, or leaves a close pending where the note queue is full; a new
FIRST_LOT_NO is the number of an empty slot at once, of another from its next lot on (log 33). An apply starts no finalization
attempt (log 37). The HEAD and LOT notes, a test mark's answer and CONFIG_APPLIED are all offered before the arbiter's one pick
(log 28). A change of GUARD alone is such another change (R121; log 44). -/
def Obligations.ApplyTakesEffect : Prop :=
  (∀ (s : State) (p : PendingApply), s.powered = true → s.cmd.pendingApply = some p →
      s.strobe.enable = false
        ∨ (s.trk.handing = none ∧ (p.force = true ∨ ∀ r ∈ s.trk.records, r.state ≠ .isOpen)) →
      let st := s.cmd.states
      let old := s.cmd.active
      let new := s.cmd.staged
      let active : Tables :=
        { cellw := if st.cellw = .modified then new.cellw else old.cellw
          pitch := if st.pitch = .modified then new.pitch else old.pitch
          calib := if st.calib = .modified then new.calib else old.calib
          scan := if st.scan = .modified then new.scan else old.scan
          markp := if st.markp = .modified then new.markp else old.markp
          lanes := if st.lane = .modified then new.lanes else old.lanes
          heads := if st.head = .modified then new.heads else old.heads
          glyphs := if st.glyph = .modified then new.glyphs else old.glyphs
          lots := if st.lot = .modified then new.lots else old.lots
          notepri := if st.notepri = .modified then new.notepri else old.notepri }
      let s₁ : State := { s with
        cmd := { s.cmd with active := active }
        area := { s.area with cumw := deriveCumw active.cellw }
        pos := { s.pos with x := if active.pitch = old.pitch then s.pos.x else 0 }
        trk := { s.trk with records := s.trk.records.map fun r => if p.force = true ∧ r.state = .isOpen then
          { r with flags := r.flags ||| BitVec.ofNat 16 (2 ^ 9) } else r }
        rep := { s.rep with waits := s.rep.waits || (s.firstFinal.isSome && !s.attemptPasses) } }
      let s₂ := (List.range 8).foldl
        (fun t h => t.takeHeadEntry h (old.heads.getD h .default) (active.heads.getD h .default)) s₁
      let s₃ := (List.range 4).foldl
        (fun t n => t.takeLotEntry n (old.lots.getD n .default) (active.lots.getD n .default)) s₂
      let u : State := { s₃ with
        cmd := { s.cmd with active := active, states := .clean, pendingApply := none, configured := true }
        strobe := { s.strobe with wait := s.strobe.wait || (s.strobe.enable && decide (s.strobe.next ≤ s.pos.hwm)
          && decide (s.strobe.period < active.scan.minStrobe)) }
        rep := { s₃.rep with order := raiseIn .configApplied s₃.rep.order } }
      exec .applyTakesEffect s = .next u.arbitrate
        ∧ u = { s with
            cmd := u.cmd, area := s₁.area, pos := s₁.pos, strobe := u.strobe, img := u.img, mark := u.mark, lots := u.lots
            trk := { s.trk with records := u.trk.records }
            rep := { s₁.rep with finals := u.rep.finals, order := u.rep.order }
            ring := { s.ring with responses := u.ring.responses, deferred := u.ring.deferred } })
    ∧ (∀ (s : State) (h : Nat) (old new : HeadRec),
      let unknown : State := { s with
        mark := { s.mark with heads := s.mark.heads.modify h fun m => { m with state := .unknown } }
        rep := { s.rep with order :=
          if (s.head h).state = .unknown ∨ NoteItem.head h ∈ s.rep.order then s.rep.order else s.rep.order ++ [.head h] } }
      let lost := (old.enabled = true ∧ new.enabled = false) ∨ old.ringAddr ≠ new.ringAddr
      let enabled := old.enabled = false ∧ new.enabled = true
      (old = new → s.takeHeadEntry h old new = s)
        ∧ (lost → s.takeHeadEntry h old new = unknown.loseHead h)
        ∧ (¬ lost → enabled → s.takeHeadEntry h old new = unknown.retryHead h)
        ∧ (old ≠ new → ¬ lost → ¬ enabled → s.takeHeadEntry h old new = s.retryHead h))
    ∧ (∀ (s : State) (h : Nat),
      let kept := if (s.head h).engine = none then 0 else 1
      s.retryHead h = ((s.head h).schedule.drop kept).foldl
        (fun t r => t.replan false (fun l => h :: (l.other h).toList) r)
        { s with mark := { s.mark with heads := s.mark.heads.modify h fun m => { m with
          schedule := m.schedule.take kept } } })
    ∧ (∀ (s : State) (h : Nat) (r : Reservation) (seq : Nat) (l : LaneHeads), r.holder = .hide seq → r.lane = some l →
      let other := if h = l.pri then l.alt else some l.pri
      let missed := fun outcome : MarkOutcome => ({ s with
        img := s.img.set r.slot none
        trk := { s.trk with records := s.trk.records.map fun x => if x.state ≠ .free ∧ x.seq = seq then
          { x with state := .reporting, outcome := some outcome } else x }
        rep := { s.rep with finals := s.rep.finals ++ [seq] } } : State)
      let q : StampRequest := { seq := seq, columns := r.columns, pitch := r.pitch, slot := r.slot, anchorP := r.anchorP
                                anchorC := r.anchorC, lane := l }
      let trial := fun o => trialOn (s.headEntry o) (s.head o) s.pos.hwm s.cmd.active.markp.shiftWindow q
      let moved := fun (o : Nat) (p : Int) =>
        let base := nozzleBase (s.headEntry o) (cellCentre s.area.cumw s.cmd.active.cellw r.anchorC)
        ({ s with
          mark := { s.mark with heads := s.mark.heads.modify o fun m => { m with schedule := insertReservation { r with
            start := p, stop := p + ((r.columns * r.pitch : Nat) : Int), base := base.base } m.schedule } }
          trk := { s.trk with records := s.trk.records.map fun x => if x.state ≠ .free ∧ x.seq = seq then
            { x with
              state := .waiting, plan := some { head := o, columns := r.columns, slot := r.slot }
              flags := if base.clamped then x.flags ||| BitVec.ofNat 16 (2 ^ 15) else x.flags } else x } } : State)
      let tried := s.replan false (fun l => h :: (l.other h).toList) r
      (∀ p, trial h = .accepted p → tried = moved h p)
        ∧ ∀ why, trial h = .failed why →
          (other = none → tried = missed (match why with
              | .down => .missedHeadDown
              | .late => .missedLate
              | .busy => .missedBusy))
            ∧ ∀ o, other = some o →
              (∀ p, trial o = .accepted p → tried = moved o p)
                ∧ ∀ why', trial o = .failed why' →
                  tried = missed (if why = .down ∧ why' = .down then .missedHeadDown
                    else if why = .late ∨ why' = .late then .missedLate else .missedBusy))
    ∧ ∀ (s : State) (n : Nat) (l : LotSlot) (old new : LotRec), s.lots[n]? = some l →
      let following := match l.nextNo with
        | some m => m
        | none => if l.lotNo < 65535 then l.lotNo + 1 else 1
      let fresh : LotSlot :=
        { lotNo := following, count := 0, quarters := 0, decimetres := 0, gross := 0, closePending := false, nextNo := none }
      let numbered := fun x : LotSlot =>
        if old.firstNo = new.firstNo then x
        else if x.count = 0 ∧ x.closePending = false then { x with lotNo := new.firstNo }
        else { x with nextNo := some new.firstNo }
      (old = new → s.takeLotEntry n old new = s)
        ∧ (old ≠ new → l.count < new.size → s.takeLotEntry n old new = { s with lots := s.lots.set n (numbered l) })
        ∧ (old ≠ new → new.size ≤ l.count → s.rep.used < 24 → s.takeLotEntry n old new = { s with
            lots := s.lots.set n (numbered fresh)
            rep := { s.rep with order := s.rep.order ++ [.lot { slot := n, lotNo := l.lotNo, count := l.count
                                                                quarters := l.quarters, decimetres := l.decimetres
                                                                gross := l.gross, cause := .apply }] } })
        ∧ (old ≠ new → new.size ≤ l.count → 24 ≤ s.rep.used → s.takeLotEntry n old new = { s with
            lots := s.lots.set n (numbered { l with closePending := true }) })

/-- TEST_MARK is refused STATE outside STANDBY, BUSY during a test mark, FORMAT for a head above 7 or a figure above the
unit's range; on a head not ONLINE it ends MISSED_HEAD_DOWN at once; else, on an IDLE head with a free slot, it renders the
figure into the lowest FREE slot, books the stamp at PRIME_LEAD ahead of the HWM at the middle nozzles, primes at once with
mark tag 0, and is not yet answered. -/
def Obligations.TestMarkBegun : Prop :=
  ∀ (s : State) (bytes : List Byte) (f : Frame) (h v₁ v₀ : Byte), s.Takes bytes f codeTestMark [h, v₁, v₀] →
    let value := v₁.toNat * 256 + v₀.toNat
    let unit := s.cmd.active.calib.unit
    let top := match unit with
      | .footQuarter => 3999
      | .decimetre => 9999
    let m := s.head h.toNat
    (s.run ≠ .standby → exec (.testMark bytes) s = .next (s.answered f .state []))
      ∧ (s.run = .standby → s.mark.test ≠ none → exec (.testMark bytes) s = .next (s.answered f .busy []))
      ∧ (s.run = .standby → s.mark.test = none → 7 < h.toNat ∨ top < value →
        exec (.testMark bytes) s = .next (s.answered f .format []))
      ∧ (s.run = .standby → s.mark.test = none → h.toNat ≤ 7 → value ≤ top → m.state ≠ .online →
        exec (.testMark bytes) s = .next (s.answered f .ok [2]))
      ∧ ∀ slot, s.run = .standby → s.mark.test = none → h.toNat ≤ 7 → value ≤ top → m.state = .online →
        s.freeSlot = some slot → m.engine = none → m.schedule = [] → s.ring.marking.length < 32 → s.mark.waiting = [] →
        let e := s.headEntry h.toNat
        let d := render s.cmd.active.glyphs s.cmd.active.markp.glyphGap (figureText { value := value, unit := unit })
        let pitch := s.cmd.active.markp.columnPitch
        let n := d.columns.length
        let base := (e.nozzles - 16) / 2
        let r : Reservation :=
          { holder := .testMark, start := s.pos.hwm + e.primeLead
            stop := s.pos.hwm + e.primeLead + ((n * pitch : Nat) : Int), columns := n, pitch := pitch, slot := slot
            base := base, anchorP := 0, anchorC := 0, lane := none }
        exec (.testMark bytes) s = .next (State.commanded f { s with
          img := s.img.set slot (some { holder := .testMark, columns := d.columns })
          mark := { s.mark with
            heads := s.mark.heads.modify h.toNat fun m => { m with
              schedule := [r]
              engine := some { printing := false, rotate := e.rotate, mirror := e.mirror, addr := e.ringAddr }
              sent := 0 }
            test := some { src := f.src, columns := n, cut := d.cut, ended := false } }
          ring := { s.ring with marking := s.ring.marking
            ++ [mkFrame e.ringAddr s.ring.addr 5 ([0, 0, 0, 0] ++ beBytes 2 base ++ beBytes 1 n)] } })

/-! ## Encodings (chapters 12 and 13) -/

/-- Frames and their bytes agree: a frame with a payload of at most 72 bytes is read back from its bytes, and bytes that are
read as a frame are that frame's bytes, header, payload and CRC. -/
def Obligations.FramesReadBack : Prop :=
  (∀ f : Frame, f.payload.length ≤ 72 → parseFrame f.bytes = some f)
    ∧ ∀ (bytes : List Byte) (f : Frame), parseFrame bytes = some f → f.bytes = bytes ∧ f.payload.length ≤ 72

/-- Table entries and their bytes agree: the bytes of an entry in range are as many as the entry is long; stored at its
place in any bank they clamp nothing, read back as they were, and leave every other entry as it was; stored in their own
bank they change nothing. An entry loaded with any fields is stored with each brought into its range: a number to the nearest value
of the range of section 12.8, a code without a value to the power-on default; a PMOD of 0 or 1 gives PMOD 2 and PAUX 0; PAUX,
WIN_END, GUARD and CELL_LAST are held against PMOD, WIN_START, PRIME_LEAD and CELL_FIRST as stored, and a HEAD_ALT equal to
HEAD_PRI is absent (an absent HEAD_ALT or PREFIX_GLYPH is all ones, a number above its range the highest: log 25). The clamped
count is that of the fields stored other than as loaded, a PMOD of 0 or 1 counting once for both. The entries of a LOAD_DATA are
written one after another, upward or downward, and their counts added. -/
def Obligations.EntriesReadBack : Prop :=
  let near := fun lo hi v : Nat => max lo (min hi v)
  let off := fun v stored : Nat => if v = stored then 0 else 1
  let beyond := fun last code : Nat => if last < code then 1 else 0
  (∀ (a b : Tables) (t : TableId) (i : Nat), a.InRange → b.InRange → i < t.entries →
    (a.entryBytes t i).length = t.entryLength
      ∧ a.storeEntry t i (a.entryBytes t i) = { value := a, clamped := 0 }
      ∧ (b.storeEntry t i (a.entryBytes t i)).clamped = 0
      ∧ (b.storeEntry t i (a.entryBytes t i)).value.entryBytes t i = a.entryBytes t i
      ∧ ∀ t' j, j < t'.entries → (t', j) ≠ (t, i) →
          (b.storeEntry t i (a.entryBytes t i)).value.entryBytes t' j = b.entryBytes t' j)
    ∧ (∀ (b : Tables) (i v : Nat), v < 2 ^ 16 → b.storeEntry .cellw i (beBytes 2 v)
        = { value := { b with cellw := b.cellw.set i (near 200 8000 v) }, clamped := off v (near 200 8000 v) })
    ∧ (∀ (b : Tables) (i pint pfrac pmod paux : Nat), pint < 2 ^ 16 → pfrac < 2 ^ 24 → pmod < 2 ^ 24 → paux < 2 ^ 24 →
        b.storeEntry .pitch i (beBytes 2 pint ++ beBytes 3 pfrac ++ beBytes 3 pmod ++ beBytes 3 paux)
          = if pmod ≤ 1 then
              { value := { b with pitch := { pint := min 4095 pint, pfrac := pfrac, pmod := 2, paux := 0 } }
                clamped := off pint (min 4095 pint) + 1 }
            else
              { value := { b with pitch := { pint := min 4095 pint, pfrac := pfrac, pmod := pmod, paux := min (pmod - 1) paux } }
                clamped := off pint (min 4095 pint) + off paux (min (pmod - 1) paux) })
    ∧ (∀ (b : Tables) (i unit round hole hide : Nat) (trim : Int), unit < 256 → round < 256 → -32768 ≤ trim → trim ≤ 32767 →
        hole < 2 ^ 16 → hide < 2 ^ 16 →
        b.storeEntry .calib i (beBytes 1 unit ++ beBytes 1 round ++ beInt 2 trim ++ beBytes 2 hole ++ beBytes 2 hide)
          = { value := { b with calib := {
                unit := if unit = 1 then .decimetre else .footQuarter
                round := if round = 0 then .down else if round = 2 then .up else .nearest
                trimPpm := max (-20000) (min 20000 trim), holeLimit := hole, minHide := min 10000 hide } }
              clamped := beyond 1 unit + beyond 2 round + (if trim < -20000 ∨ 20000 < trim then 1 else 0)
                + off hide (min 10000 hide) })
    ∧ (∀ (b : Tables) (i start stop reverse run pitch strobe depth clk dir win count limit : Nat) (mask : Byte),
        start < 2 ^ 16 → stop < 2 ^ 16 → reverse < 256 → run < 256 → pitch < 2 ^ 16 → strobe < 2 ^ 16 → depth < 256 →
        clk < 256 → dir < 256 → win < 256 → count < 256 → limit < 2 ^ 16 →
        let first := min 2047 start
        let last := max first (min 2047 stop)
        b.storeEntry .scan i (beBytes 2 start ++ beBytes 2 stop ++ beBytes 1 reverse ++ beBytes 1 run ++ beBytes 2 pitch
            ++ beBytes 2 strobe ++ beBytes 1 depth ++ [mask] ++ beBytes 1 clk ++ beBytes 1 dir ++ beBytes 1 win
            ++ beBytes 1 count ++ beBytes 2 limit)
          = { value := { b with scan := {
                winStart := first, winEnd := last, barReverse := decide (reverse = 1), minRun := near 1 32 run
                linePitch := near 500 20000 pitch, minStrobe := near 100 10000 strobe, asmDepth := near 2 7 depth
                headMask := mask
                filterClk := if clk = 0 then .quarter else if clk = 2 then .four else if clk = 3 then .sixteen else .one
                encDir := if dir = 1 then .swapped else .normal
                steadyWin := near 1 64 win, steadyCount := near 2 255 count, reverseLimit := limit } }
              clamped := off start first + off stop last + beyond 1 reverse + off run (near 1 32 run)
                + off pitch (near 500 20000 pitch) + off strobe (near 100 10000 strobe) + off depth (near 2 7 depth)
                + beyond 3 clk + beyond 1 dir + off win (near 1 64 win) + off count (near 2 255 count) })
    ∧ (∀ (b : Tables) (i mode offset stride width pitch shift policy : Nat) (gap : Int), mode < 256 → offset < 2 ^ 24 →
        stride < 2 ^ 24 → width < 2 ^ 24 → pitch < 2 ^ 16 → shift < 2 ^ 24 → -128 ≤ gap → gap ≤ 127 → policy < 256 →
        b.storeEntry .markp i (beBytes 1 mode ++ beBytes 3 offset ++ beBytes 3 stride ++ beBytes 3 width ++ beBytes 2 pitch
            ++ beBytes 3 shift ++ beInt 1 gap ++ beBytes 1 policy)
          = { value := { b with markp := {
                anchorMode := if mode = 0 then .leading else .trailing
                anchorOffset := min 2000000 offset, anchorStride := near 1000 200000 stride
                stampWidth := min 400000 width, columnPitch := near 200 5000 pitch, shiftWindow := min 200000 shift
                glyphGap := max (-2) (min 4 gap)
                joinPolicy := if policy = 0 then .value else if policy = 2 then .noMark else .rejectMark } }
              clamped := beyond 1 mode + off offset (min 2000000 offset) + off stride (near 1000 200000 stride)
                + off width (min 400000 width) + off pitch (near 200 5000 pitch) + off shift (min 200000 shift)
                + (if gap < -2 ∨ 4 < gap then 1 else 0) + beyond 2 policy })
    ∧ (∀ (b : Tables) (i first last pri alt lot enabled : Nat), first < 2 ^ 16 → last < 2 ^ 16 → pri < 256 → alt < 256 →
        lot < 256 → enabled < 256 →
        let from_ := min 2047 first
        let to_ := max from_ (min 2047 last)
        let other := if alt = 255 ∨ min 7 alt = min 7 pri then none else some (min 7 alt)
        b.storeEntry .lane i (beBytes 2 first ++ beBytes 2 last ++ beBytes 1 pri ++ beBytes 1 alt ++ beBytes 1 lot
            ++ beBytes 1 enabled)
          = { value := { b with lanes := b.lanes.set i {
                cellFirst := from_, cellLast := to_, headPri := min 7 pri, headAlt := other, lotSlot := min 3 lot
                enabled := decide (enabled = 1) } }
              clamped := off first from_ + off last to_ + off pri (min 7 pri)
                + (if alt = 255 ∨ other = some alt then 0 else 1) + off lot (min 3 lot) + beyond 1 enabled })
    ∧ (∀ (b : Tables) (i addr enabled offset lead guard edge pitch nozzles rotate mirror : Nat), addr < 256 → enabled < 256 →
        offset < 2 ^ 24 → lead < 2 ^ 16 → guard < 2 ^ 24 → edge < 2 ^ 24 → pitch < 2 ^ 16 → nozzles < 2 ^ 16 →
        rotate < 256 → mirror < 256 →
        let ahead := min 50000 lead
        let apart := max ahead (min 100000 guard)
        b.storeEntry .head i (beBytes 1 addr ++ beBytes 1 enabled ++ beBytes 3 offset ++ beBytes 2 lead ++ beBytes 3 guard
            ++ beBytes 3 edge ++ beBytes 2 pitch ++ beBytes 2 nozzles ++ beBytes 1 rotate ++ beBytes 1 mirror)
          = { value := { b with heads := b.heads.set i {
                ringAddr := min 30 addr, enabled := decide (enabled = 1), offset := near 100000 4000000 offset
                primeLead := ahead, guard := apart, edge := edge, nozzlePitch := near 50 2000 pitch
                nozzles := near 16 1024 nozzles, rotate := decide (rotate = 1), mirror := decide (mirror = 1) } }
              clamped := off addr (min 30 addr) + beyond 1 enabled + off offset (near 100000 4000000 offset)
                + off lead ahead + off guard apart + off pitch (near 50 2000 pitch) + off nozzles (near 16 1024 nozzles)
                + beyond 1 rotate + beyond 1 mirror })
    ∧ (∀ (b : Tables) (i width : Nat) (columns : List Dots), width < 256 → columns.length = 12 →
        b.storeEntry .glyph i (beBytes 1 width ++ columns.flatMap fun c => beBytes 2 c.toNat)
          = { value := { b with glyphs := b.glyphs.set i { width := near 1 12 width, columns := columns } }
              clamped := off width (near 1 12 width) })
    ∧ (∀ (b : Tables) (i size glyph number : Nat), size < 2 ^ 16 → glyph < 256 → number < 2 ^ 16 →
        b.storeEntry .lot i (beBytes 2 size ++ beBytes 1 glyph ++ beBytes 2 number)
          = { value := { b with lots := b.lots.set i {
                size := near 1 999 size, prefixGlyph := if glyph = 255 then none else some (min 31 glyph)
                firstNo := max 1 number } }
              clamped := off size (near 1 999 size) + (if glyph = 255 then 0 else off glyph (min 31 glyph))
                + off number (max 1 number) })
    ∧ (∀ (b : Tables) (i v : Nat), v < 256 → b.storeEntry .notepri i (beBytes 1 v)
        = { value := { b with notepri := b.notepri.set i (min 3 v) }, clamped := off v (min 3 v) })
    ∧ ∀ (b : Tables) (t : TableId) (down : Bool) (i : Nat) (entries : List (List Byte)) (e : List Byte),
      let w := b.storeAll t down i entries
      let x := w.value.storeEntry t (if down then i - entries.length else i + entries.length) e
      b.storeAll t down i [] = { value := b, clamped := 0 }
        ∧ b.storeAll t down i (entries ++ [e]) = { value := x.value, clamped := w.clamped + x.clamped }

/-! ## Invariants that every step keeps -/

/-- Every step keeps both banks of every table in their ranges: whatever is loaded is clamped (R172). -/
def Obligations.TablesStayInRange : Prop := ∀ s t : State, s.TablesOk → step s = .next t → t.TablesOk

/-- Every step keeps the position in its ranges with I at or below the HWM (R5, R9), an excursion only below the HWM (R10),
and the strobe enable and wait state to their run states and conditions (R12, R13, R139). -/
def Obligations.PositionStaysInRange : Prop :=
  ∀ s t : State, s.TablesOk → s.PositionOk → s.StrobesOk → step s = .next t → t.PositionOk ∧ t.StrobesOk

/-- Every step keeps the lock to the switch, and the verification count to its range, never lower than before; keeps
verified loads and applies to an OPEN lock; and no step but the power-on event changes the active CELLW, PITCH or CALIB
while the lock is CLOSED. -/
def Obligations.LockSealsTables : Prop :=
  (∀ s t : State, s.LockOk → step s = .next t → t.LockOk ∧ s.ver.count ≤ t.ver.count)
    ∧ (∀ s t : State, s.SealOk → step s = .next t → t.SealOk)
    ∧ ∀ (i : Instr) (s t : State), s.SealOk → s.ver.lockOpen = false → (∀ straps, i ≠ .powerOn straps) →
        exec i s = .next t →
        t.cmd.active.cellw = s.cmd.active.cellw ∧ t.cmd.active.pitch = s.cmd.active.pitch
          ∧ t.cmd.active.calib = s.cmd.active.calib

/-- Every step keeps the ring's buffers and the note queue within their places (R135, R162, R163, R165). -/
def Obligations.BuffersStayWithin : Prop := ∀ s t : State, s.BuffersOk → step s = .next t → t.BuffersOk

/-- Every step keeps each lot slot's count below its active LOT_SIZE, except while a close is pending on it (R130). -/
def Obligations.LotsStayOpen : Prop := ∀ s t : State, s.TablesOk → s.LotsOk → step s = .next t → t.LotsOk
end

