-- ==== Sys2Proof/Laws/State.lean ====
section
/-! SUPPORT. What the shared updates of a state leave as it is: one lemma per update and field. -/

namespace Sys2Proof.Machine

/-! ## mapRecs -/

@[simp] theorem State.mapRecs_powered (f : HideRec → HideRec) (s : State) : (s.mapRecs f).powered = s.powered := rfl
@[simp] theorem State.mapRecs_time (f : HideRec → HideRec) (s : State) : (s.mapRecs f).time = s.time := rfl
@[simp] theorem State.mapRecs_encA (f : HideRec → HideRec) (s : State) : (s.mapRecs f).encA = s.encA := rfl
@[simp] theorem State.mapRecs_encB (f : HideRec → HideRec) (s : State) : (s.mapRecs f).encB = s.encB := rfl
@[simp] theorem State.mapRecs_pos (f : HideRec → HideRec) (s : State) : (s.mapRecs f).pos = s.pos := rfl
@[simp] theorem State.mapRecs_strobe (f : HideRec → HideRec) (s : State) : (s.mapRecs f).strobe = s.strobe := rfl
@[simp] theorem State.mapRecs_asm (f : HideRec → HideRec) (s : State) : (s.mapRecs f).asm = s.asm := rfl
@[simp] theorem State.mapRecs_gap (f : HideRec → HideRec) (s : State) : (s.mapRecs f).gap = s.gap := rfl
@[simp] theorem State.mapRecs_area (f : HideRec → HideRec) (s : State) : (s.mapRecs f).area = s.area := rfl
@[simp] theorem State.mapRecs_img (f : HideRec → HideRec) (s : State) : (s.mapRecs f).img = s.img := rfl
@[simp] theorem State.mapRecs_mark (f : HideRec → HideRec) (s : State) : (s.mapRecs f).mark = s.mark := rfl
@[simp] theorem State.mapRecs_lots (f : HideRec → HideRec) (s : State) : (s.mapRecs f).lots = s.lots := rfl
@[simp] theorem State.mapRecs_rep (f : HideRec → HideRec) (s : State) : (s.mapRecs f).rep = s.rep := rfl
@[simp] theorem State.mapRecs_run (f : HideRec → HideRec) (s : State) : (s.mapRecs f).run = s.run := rfl
@[simp] theorem State.mapRecs_ver (f : HideRec → HideRec) (s : State) : (s.mapRecs f).ver = s.ver := rfl
@[simp] theorem State.mapRecs_ring (f : HideRec → HideRec) (s : State) : (s.mapRecs f).ring = s.ring := rfl
@[simp] theorem State.mapRecs_cmd (f : HideRec → HideRec) (s : State) : (s.mapRecs f).cmd = s.cmd := rfl
@[simp] theorem State.mapRecs_pending (f : HideRec → HideRec) (s : State) : (s.mapRecs f).pending = s.pending := rfl

/-! ## toReporting -/

@[simp] theorem State.toReporting_powered (n : Nat) (o : Option MarkOutcome) (s : State) : (s.toReporting n o).powered = s.powered := rfl
@[simp] theorem State.toReporting_time (n : Nat) (o : Option MarkOutcome) (s : State) : (s.toReporting n o).time = s.time := rfl
@[simp] theorem State.toReporting_encA (n : Nat) (o : Option MarkOutcome) (s : State) : (s.toReporting n o).encA = s.encA := rfl
@[simp] theorem State.toReporting_encB (n : Nat) (o : Option MarkOutcome) (s : State) : (s.toReporting n o).encB = s.encB := rfl
@[simp] theorem State.toReporting_pos (n : Nat) (o : Option MarkOutcome) (s : State) : (s.toReporting n o).pos = s.pos := rfl
@[simp] theorem State.toReporting_strobe (n : Nat) (o : Option MarkOutcome) (s : State) : (s.toReporting n o).strobe = s.strobe := rfl
@[simp] theorem State.toReporting_asm (n : Nat) (o : Option MarkOutcome) (s : State) : (s.toReporting n o).asm = s.asm := rfl
@[simp] theorem State.toReporting_gap (n : Nat) (o : Option MarkOutcome) (s : State) : (s.toReporting n o).gap = s.gap := rfl
@[simp] theorem State.toReporting_area (n : Nat) (o : Option MarkOutcome) (s : State) : (s.toReporting n o).area = s.area := rfl
@[simp] theorem State.toReporting_img (n : Nat) (o : Option MarkOutcome) (s : State) : (s.toReporting n o).img = s.img := rfl
@[simp] theorem State.toReporting_mark (n : Nat) (o : Option MarkOutcome) (s : State) : (s.toReporting n o).mark = s.mark := rfl
@[simp] theorem State.toReporting_lots (n : Nat) (o : Option MarkOutcome) (s : State) : (s.toReporting n o).lots = s.lots := rfl
@[simp] theorem State.toReporting_run (n : Nat) (o : Option MarkOutcome) (s : State) : (s.toReporting n o).run = s.run := rfl
@[simp] theorem State.toReporting_ver (n : Nat) (o : Option MarkOutcome) (s : State) : (s.toReporting n o).ver = s.ver := rfl
@[simp] theorem State.toReporting_ring (n : Nat) (o : Option MarkOutcome) (s : State) : (s.toReporting n o).ring = s.ring := rfl
@[simp] theorem State.toReporting_cmd (n : Nat) (o : Option MarkOutcome) (s : State) : (s.toReporting n o).cmd = s.cmd := rfl
@[simp] theorem State.toReporting_pending (n : Nat) (o : Option MarkOutcome) (s : State) : (s.toReporting n o).pending = s.pending := rfl

/-! ## raise -/

@[simp] theorem State.raise_powered (k : EventKind) (s : State) : (s.raise k).powered = s.powered := rfl
@[simp] theorem State.raise_time (k : EventKind) (s : State) : (s.raise k).time = s.time := rfl
@[simp] theorem State.raise_encA (k : EventKind) (s : State) : (s.raise k).encA = s.encA := rfl
@[simp] theorem State.raise_encB (k : EventKind) (s : State) : (s.raise k).encB = s.encB := rfl
@[simp] theorem State.raise_pos (k : EventKind) (s : State) : (s.raise k).pos = s.pos := rfl
@[simp] theorem State.raise_strobe (k : EventKind) (s : State) : (s.raise k).strobe = s.strobe := rfl
@[simp] theorem State.raise_asm (k : EventKind) (s : State) : (s.raise k).asm = s.asm := rfl
@[simp] theorem State.raise_trk (k : EventKind) (s : State) : (s.raise k).trk = s.trk := rfl
@[simp] theorem State.raise_gap (k : EventKind) (s : State) : (s.raise k).gap = s.gap := rfl
@[simp] theorem State.raise_area (k : EventKind) (s : State) : (s.raise k).area = s.area := rfl
@[simp] theorem State.raise_img (k : EventKind) (s : State) : (s.raise k).img = s.img := rfl
@[simp] theorem State.raise_mark (k : EventKind) (s : State) : (s.raise k).mark = s.mark := rfl
@[simp] theorem State.raise_lots (k : EventKind) (s : State) : (s.raise k).lots = s.lots := rfl
@[simp] theorem State.raise_run (k : EventKind) (s : State) : (s.raise k).run = s.run := rfl
@[simp] theorem State.raise_ver (k : EventKind) (s : State) : (s.raise k).ver = s.ver := rfl
@[simp] theorem State.raise_ring (k : EventKind) (s : State) : (s.raise k).ring = s.ring := rfl
@[simp] theorem State.raise_cmd (k : EventKind) (s : State) : (s.raise k).cmd = s.cmd := rfl
@[simp] theorem State.raise_pending (k : EventKind) (s : State) : (s.raise k).pending = s.pending := rfl

/-! ## raiseIf -/

@[simp] theorem State.raiseIf_powered (c : Bool) (k : EventKind) (s : State) : (s.raiseIf c k).powered = s.powered := by cases c <;> rfl
@[simp] theorem State.raiseIf_time (c : Bool) (k : EventKind) (s : State) : (s.raiseIf c k).time = s.time := by cases c <;> rfl
@[simp] theorem State.raiseIf_encA (c : Bool) (k : EventKind) (s : State) : (s.raiseIf c k).encA = s.encA := by cases c <;> rfl
@[simp] theorem State.raiseIf_encB (c : Bool) (k : EventKind) (s : State) : (s.raiseIf c k).encB = s.encB := by cases c <;> rfl
@[simp] theorem State.raiseIf_pos (c : Bool) (k : EventKind) (s : State) : (s.raiseIf c k).pos = s.pos := by cases c <;> rfl
@[simp] theorem State.raiseIf_strobe (c : Bool) (k : EventKind) (s : State) : (s.raiseIf c k).strobe = s.strobe := by cases c <;> rfl
@[simp] theorem State.raiseIf_asm (c : Bool) (k : EventKind) (s : State) : (s.raiseIf c k).asm = s.asm := by cases c <;> rfl
@[simp] theorem State.raiseIf_trk (c : Bool) (k : EventKind) (s : State) : (s.raiseIf c k).trk = s.trk := by cases c <;> rfl
@[simp] theorem State.raiseIf_gap (c : Bool) (k : EventKind) (s : State) : (s.raiseIf c k).gap = s.gap := by cases c <;> rfl
@[simp] theorem State.raiseIf_area (c : Bool) (k : EventKind) (s : State) : (s.raiseIf c k).area = s.area := by cases c <;> rfl
@[simp] theorem State.raiseIf_img (c : Bool) (k : EventKind) (s : State) : (s.raiseIf c k).img = s.img := by cases c <;> rfl
@[simp] theorem State.raiseIf_mark (c : Bool) (k : EventKind) (s : State) : (s.raiseIf c k).mark = s.mark := by cases c <;> rfl
@[simp] theorem State.raiseIf_lots (c : Bool) (k : EventKind) (s : State) : (s.raiseIf c k).lots = s.lots := by cases c <;> rfl
@[simp] theorem State.raiseIf_run (c : Bool) (k : EventKind) (s : State) : (s.raiseIf c k).run = s.run := by cases c <;> rfl
@[simp] theorem State.raiseIf_ver (c : Bool) (k : EventKind) (s : State) : (s.raiseIf c k).ver = s.ver := by cases c <;> rfl
@[simp] theorem State.raiseIf_ring (c : Bool) (k : EventKind) (s : State) : (s.raiseIf c k).ring = s.ring := by cases c <;> rfl
@[simp] theorem State.raiseIf_cmd (c : Bool) (k : EventKind) (s : State) : (s.raiseIf c k).cmd = s.cmd := by cases c <;> rfl
@[simp] theorem State.raiseIf_pending (c : Bool) (k : EventKind) (s : State) : (s.raiseIf c k).pending = s.pending := by cases c <;> rfl

/-! ## headNote -/

@[simp] theorem State.headNote_powered (h : Nat) (s : State) : (s.headNote h).powered = s.powered := by unfold State.headNote; split <;> rfl
@[simp] theorem State.headNote_time (h : Nat) (s : State) : (s.headNote h).time = s.time := by unfold State.headNote; split <;> rfl
@[simp] theorem State.headNote_encA (h : Nat) (s : State) : (s.headNote h).encA = s.encA := by unfold State.headNote; split <;> rfl
@[simp] theorem State.headNote_encB (h : Nat) (s : State) : (s.headNote h).encB = s.encB := by unfold State.headNote; split <;> rfl
@[simp] theorem State.headNote_pos (h : Nat) (s : State) : (s.headNote h).pos = s.pos := by unfold State.headNote; split <;> rfl
@[simp] theorem State.headNote_strobe (h : Nat) (s : State) : (s.headNote h).strobe = s.strobe := by unfold State.headNote; split <;> rfl
@[simp] theorem State.headNote_asm (h : Nat) (s : State) : (s.headNote h).asm = s.asm := by unfold State.headNote; split <;> rfl
@[simp] theorem State.headNote_trk (h : Nat) (s : State) : (s.headNote h).trk = s.trk := by unfold State.headNote; split <;> rfl
@[simp] theorem State.headNote_gap (h : Nat) (s : State) : (s.headNote h).gap = s.gap := by unfold State.headNote; split <;> rfl
@[simp] theorem State.headNote_area (h : Nat) (s : State) : (s.headNote h).area = s.area := by unfold State.headNote; split <;> rfl
@[simp] theorem State.headNote_img (h : Nat) (s : State) : (s.headNote h).img = s.img := by unfold State.headNote; split <;> rfl
@[simp] theorem State.headNote_mark (h : Nat) (s : State) : (s.headNote h).mark = s.mark := by unfold State.headNote; split <;> rfl
@[simp] theorem State.headNote_lots (h : Nat) (s : State) : (s.headNote h).lots = s.lots := by unfold State.headNote; split <;> rfl
@[simp] theorem State.headNote_run (h : Nat) (s : State) : (s.headNote h).run = s.run := by unfold State.headNote; split <;> rfl
@[simp] theorem State.headNote_ver (h : Nat) (s : State) : (s.headNote h).ver = s.ver := by unfold State.headNote; split <;> rfl
@[simp] theorem State.headNote_ring (h : Nat) (s : State) : (s.headNote h).ring = s.ring := by unfold State.headNote; split <;> rfl
@[simp] theorem State.headNote_cmd (h : Nat) (s : State) : (s.headNote h).cmd = s.cmd := by unfold State.headNote; split <;> rfl
@[simp] theorem State.headNote_pending (h : Nat) (s : State) : (s.headNote h).pending = s.pending := by unfold State.headNote; split <;> rfl

/-! ## appendNote -/

@[simp] theorem State.appendNote_powered (n : NoteItem) (s : State) : (s.appendNote n).powered = s.powered := rfl
@[simp] theorem State.appendNote_time (n : NoteItem) (s : State) : (s.appendNote n).time = s.time := rfl
@[simp] theorem State.appendNote_encA (n : NoteItem) (s : State) : (s.appendNote n).encA = s.encA := rfl
@[simp] theorem State.appendNote_encB (n : NoteItem) (s : State) : (s.appendNote n).encB = s.encB := rfl
@[simp] theorem State.appendNote_pos (n : NoteItem) (s : State) : (s.appendNote n).pos = s.pos := rfl
@[simp] theorem State.appendNote_strobe (n : NoteItem) (s : State) : (s.appendNote n).strobe = s.strobe := rfl
@[simp] theorem State.appendNote_asm (n : NoteItem) (s : State) : (s.appendNote n).asm = s.asm := rfl
@[simp] theorem State.appendNote_trk (n : NoteItem) (s : State) : (s.appendNote n).trk = s.trk := rfl
@[simp] theorem State.appendNote_gap (n : NoteItem) (s : State) : (s.appendNote n).gap = s.gap := rfl
@[simp] theorem State.appendNote_area (n : NoteItem) (s : State) : (s.appendNote n).area = s.area := rfl
@[simp] theorem State.appendNote_img (n : NoteItem) (s : State) : (s.appendNote n).img = s.img := rfl
@[simp] theorem State.appendNote_mark (n : NoteItem) (s : State) : (s.appendNote n).mark = s.mark := rfl
@[simp] theorem State.appendNote_lots (n : NoteItem) (s : State) : (s.appendNote n).lots = s.lots := rfl
@[simp] theorem State.appendNote_run (n : NoteItem) (s : State) : (s.appendNote n).run = s.run := rfl
@[simp] theorem State.appendNote_ver (n : NoteItem) (s : State) : (s.appendNote n).ver = s.ver := rfl
@[simp] theorem State.appendNote_ring (n : NoteItem) (s : State) : (s.appendNote n).ring = s.ring := rfl
@[simp] theorem State.appendNote_cmd (n : NoteItem) (s : State) : (s.appendNote n).cmd = s.cmd := rfl
@[simp] theorem State.appendNote_pending (n : NoteItem) (s : State) : (s.appendNote n).pending = s.pending := rfl

/-! ## arbitrate -/

@[simp] theorem State.arbitrate_powered (s : State) : (s.arbitrate).powered = s.powered := by unfold State.arbitrate; (repeat' split) <;> rfl
@[simp] theorem State.arbitrate_time (s : State) : (s.arbitrate).time = s.time := by unfold State.arbitrate; (repeat' split) <;> rfl
@[simp] theorem State.arbitrate_encA (s : State) : (s.arbitrate).encA = s.encA := by unfold State.arbitrate; (repeat' split) <;> rfl
@[simp] theorem State.arbitrate_encB (s : State) : (s.arbitrate).encB = s.encB := by unfold State.arbitrate; (repeat' split) <;> rfl
@[simp] theorem State.arbitrate_pos (s : State) : (s.arbitrate).pos = s.pos := by unfold State.arbitrate; (repeat' split) <;> rfl
@[simp] theorem State.arbitrate_strobe (s : State) : (s.arbitrate).strobe = s.strobe := by unfold State.arbitrate; (repeat' split) <;> rfl
@[simp] theorem State.arbitrate_asm (s : State) : (s.arbitrate).asm = s.asm := by unfold State.arbitrate; (repeat' split) <;> rfl
@[simp] theorem State.arbitrate_trk (s : State) : (s.arbitrate).trk = s.trk := by unfold State.arbitrate; (repeat' split) <;> rfl
@[simp] theorem State.arbitrate_gap (s : State) : (s.arbitrate).gap = s.gap := by unfold State.arbitrate; (repeat' split) <;> rfl
@[simp] theorem State.arbitrate_area (s : State) : (s.arbitrate).area = s.area := by unfold State.arbitrate; (repeat' split) <;> rfl
@[simp] theorem State.arbitrate_img (s : State) : (s.arbitrate).img = s.img := by unfold State.arbitrate; (repeat' split) <;> rfl
@[simp] theorem State.arbitrate_mark (s : State) : (s.arbitrate).mark = s.mark := by unfold State.arbitrate; (repeat' split) <;> rfl
@[simp] theorem State.arbitrate_lots (s : State) : (s.arbitrate).lots = s.lots := by unfold State.arbitrate; (repeat' split) <;> rfl
@[simp] theorem State.arbitrate_run (s : State) : (s.arbitrate).run = s.run := by unfold State.arbitrate; (repeat' split) <;> rfl
@[simp] theorem State.arbitrate_ver (s : State) : (s.arbitrate).ver = s.ver := by unfold State.arbitrate; (repeat' split) <;> rfl
@[simp] theorem State.arbitrate_cmd (s : State) : (s.arbitrate).cmd = s.cmd := by unfold State.arbitrate; (repeat' split) <;> rfl
@[simp] theorem State.arbitrate_pending (s : State) : (s.arbitrate).pending = s.pending := by unfold State.arbitrate; (repeat' split) <;> rfl

/-! ## forwardFrame -/

@[simp] theorem State.forwardFrame_powered (f : Frame) (s : State) : (s.forwardFrame f).powered = s.powered := by unfold State.forwardFrame; split <;> rfl
@[simp] theorem State.forwardFrame_time (f : Frame) (s : State) : (s.forwardFrame f).time = s.time := by unfold State.forwardFrame; split <;> rfl
@[simp] theorem State.forwardFrame_encA (f : Frame) (s : State) : (s.forwardFrame f).encA = s.encA := by unfold State.forwardFrame; split <;> rfl
@[simp] theorem State.forwardFrame_encB (f : Frame) (s : State) : (s.forwardFrame f).encB = s.encB := by unfold State.forwardFrame; split <;> rfl
@[simp] theorem State.forwardFrame_pos (f : Frame) (s : State) : (s.forwardFrame f).pos = s.pos := by unfold State.forwardFrame; split <;> rfl
@[simp] theorem State.forwardFrame_strobe (f : Frame) (s : State) : (s.forwardFrame f).strobe = s.strobe := by unfold State.forwardFrame; split <;> rfl
@[simp] theorem State.forwardFrame_asm (f : Frame) (s : State) : (s.forwardFrame f).asm = s.asm := by unfold State.forwardFrame; split <;> rfl
@[simp] theorem State.forwardFrame_trk (f : Frame) (s : State) : (s.forwardFrame f).trk = s.trk := by unfold State.forwardFrame; split <;> rfl
@[simp] theorem State.forwardFrame_gap (f : Frame) (s : State) : (s.forwardFrame f).gap = s.gap := by unfold State.forwardFrame; split <;> rfl
@[simp] theorem State.forwardFrame_area (f : Frame) (s : State) : (s.forwardFrame f).area = s.area := by unfold State.forwardFrame; split <;> rfl
@[simp] theorem State.forwardFrame_img (f : Frame) (s : State) : (s.forwardFrame f).img = s.img := by unfold State.forwardFrame; split <;> rfl
@[simp] theorem State.forwardFrame_mark (f : Frame) (s : State) : (s.forwardFrame f).mark = s.mark := by unfold State.forwardFrame; split <;> rfl
@[simp] theorem State.forwardFrame_lots (f : Frame) (s : State) : (s.forwardFrame f).lots = s.lots := by unfold State.forwardFrame; split <;> rfl
@[simp] theorem State.forwardFrame_rep (f : Frame) (s : State) : (s.forwardFrame f).rep = s.rep := by unfold State.forwardFrame; split <;> rfl
@[simp] theorem State.forwardFrame_run (f : Frame) (s : State) : (s.forwardFrame f).run = s.run := by unfold State.forwardFrame; split <;> rfl
@[simp] theorem State.forwardFrame_ver (f : Frame) (s : State) : (s.forwardFrame f).ver = s.ver := by unfold State.forwardFrame; split <;> rfl
@[simp] theorem State.forwardFrame_cmd (f : Frame) (s : State) : (s.forwardFrame f).cmd = s.cmd := by unfold State.forwardFrame; split <;> rfl
@[simp] theorem State.forwardFrame_pending (f : Frame) (s : State) : (s.forwardFrame f).pending = s.pending := by unfold State.forwardFrame; split <;> rfl

/-! ## placeResponse -/

@[simp] theorem State.placeResponse_powered (f : Frame) (s : State) : (s.placeResponse f).powered = s.powered := rfl
@[simp] theorem State.placeResponse_time (f : Frame) (s : State) : (s.placeResponse f).time = s.time := rfl
@[simp] theorem State.placeResponse_encA (f : Frame) (s : State) : (s.placeResponse f).encA = s.encA := rfl
@[simp] theorem State.placeResponse_encB (f : Frame) (s : State) : (s.placeResponse f).encB = s.encB := rfl
@[simp] theorem State.placeResponse_pos (f : Frame) (s : State) : (s.placeResponse f).pos = s.pos := rfl
@[simp] theorem State.placeResponse_strobe (f : Frame) (s : State) : (s.placeResponse f).strobe = s.strobe := rfl
@[simp] theorem State.placeResponse_asm (f : Frame) (s : State) : (s.placeResponse f).asm = s.asm := rfl
@[simp] theorem State.placeResponse_trk (f : Frame) (s : State) : (s.placeResponse f).trk = s.trk := rfl
@[simp] theorem State.placeResponse_gap (f : Frame) (s : State) : (s.placeResponse f).gap = s.gap := rfl
@[simp] theorem State.placeResponse_area (f : Frame) (s : State) : (s.placeResponse f).area = s.area := rfl
@[simp] theorem State.placeResponse_img (f : Frame) (s : State) : (s.placeResponse f).img = s.img := rfl
@[simp] theorem State.placeResponse_mark (f : Frame) (s : State) : (s.placeResponse f).mark = s.mark := rfl
@[simp] theorem State.placeResponse_lots (f : Frame) (s : State) : (s.placeResponse f).lots = s.lots := rfl
@[simp] theorem State.placeResponse_rep (f : Frame) (s : State) : (s.placeResponse f).rep = s.rep := rfl
@[simp] theorem State.placeResponse_run (f : Frame) (s : State) : (s.placeResponse f).run = s.run := rfl
@[simp] theorem State.placeResponse_ver (f : Frame) (s : State) : (s.placeResponse f).ver = s.ver := rfl
@[simp] theorem State.placeResponse_cmd (f : Frame) (s : State) : (s.placeResponse f).cmd = s.cmd := rfl
@[simp] theorem State.placeResponse_pending (f : Frame) (s : State) : (s.placeResponse f).pending = s.pending := rfl

/-! ## releaseSlot -/

@[simp] theorem State.releaseSlot_powered (n : Nat) (s : State) : (s.releaseSlot n).powered = s.powered := rfl
@[simp] theorem State.releaseSlot_time (n : Nat) (s : State) : (s.releaseSlot n).time = s.time := rfl
@[simp] theorem State.releaseSlot_encA (n : Nat) (s : State) : (s.releaseSlot n).encA = s.encA := rfl
@[simp] theorem State.releaseSlot_encB (n : Nat) (s : State) : (s.releaseSlot n).encB = s.encB := rfl
@[simp] theorem State.releaseSlot_pos (n : Nat) (s : State) : (s.releaseSlot n).pos = s.pos := rfl
@[simp] theorem State.releaseSlot_strobe (n : Nat) (s : State) : (s.releaseSlot n).strobe = s.strobe := rfl
@[simp] theorem State.releaseSlot_asm (n : Nat) (s : State) : (s.releaseSlot n).asm = s.asm := rfl
@[simp] theorem State.releaseSlot_trk (n : Nat) (s : State) : (s.releaseSlot n).trk = s.trk := rfl
@[simp] theorem State.releaseSlot_gap (n : Nat) (s : State) : (s.releaseSlot n).gap = s.gap := rfl
@[simp] theorem State.releaseSlot_area (n : Nat) (s : State) : (s.releaseSlot n).area = s.area := rfl
@[simp] theorem State.releaseSlot_mark (n : Nat) (s : State) : (s.releaseSlot n).mark = s.mark := rfl
@[simp] theorem State.releaseSlot_lots (n : Nat) (s : State) : (s.releaseSlot n).lots = s.lots := rfl
@[simp] theorem State.releaseSlot_rep (n : Nat) (s : State) : (s.releaseSlot n).rep = s.rep := rfl
@[simp] theorem State.releaseSlot_run (n : Nat) (s : State) : (s.releaseSlot n).run = s.run := rfl
@[simp] theorem State.releaseSlot_ver (n : Nat) (s : State) : (s.releaseSlot n).ver = s.ver := rfl
@[simp] theorem State.releaseSlot_ring (n : Nat) (s : State) : (s.releaseSlot n).ring = s.ring := rfl
@[simp] theorem State.releaseSlot_cmd (n : Nat) (s : State) : (s.releaseSlot n).cmd = s.cmd := rfl
@[simp] theorem State.releaseSlot_pending (n : Nat) (s : State) : (s.releaseSlot n).pending = s.pending := rfl

/-! ## onHead -/

@[simp] theorem State.onHead_powered (h : Nat) (f : MarkHead → MarkHead) (s : State) : (s.onHead h f).powered = s.powered := rfl
@[simp] theorem State.onHead_time (h : Nat) (f : MarkHead → MarkHead) (s : State) : (s.onHead h f).time = s.time := rfl
@[simp] theorem State.onHead_encA (h : Nat) (f : MarkHead → MarkHead) (s : State) : (s.onHead h f).encA = s.encA := rfl
@[simp] theorem State.onHead_encB (h : Nat) (f : MarkHead → MarkHead) (s : State) : (s.onHead h f).encB = s.encB := rfl
@[simp] theorem State.onHead_pos (h : Nat) (f : MarkHead → MarkHead) (s : State) : (s.onHead h f).pos = s.pos := rfl
@[simp] theorem State.onHead_strobe (h : Nat) (f : MarkHead → MarkHead) (s : State) : (s.onHead h f).strobe = s.strobe := rfl
@[simp] theorem State.onHead_asm (h : Nat) (f : MarkHead → MarkHead) (s : State) : (s.onHead h f).asm = s.asm := rfl
@[simp] theorem State.onHead_trk (h : Nat) (f : MarkHead → MarkHead) (s : State) : (s.onHead h f).trk = s.trk := rfl
@[simp] theorem State.onHead_gap (h : Nat) (f : MarkHead → MarkHead) (s : State) : (s.onHead h f).gap = s.gap := rfl
@[simp] theorem State.onHead_area (h : Nat) (f : MarkHead → MarkHead) (s : State) : (s.onHead h f).area = s.area := rfl
@[simp] theorem State.onHead_img (h : Nat) (f : MarkHead → MarkHead) (s : State) : (s.onHead h f).img = s.img := rfl
@[simp] theorem State.onHead_lots (h : Nat) (f : MarkHead → MarkHead) (s : State) : (s.onHead h f).lots = s.lots := rfl
@[simp] theorem State.onHead_rep (h : Nat) (f : MarkHead → MarkHead) (s : State) : (s.onHead h f).rep = s.rep := rfl
@[simp] theorem State.onHead_run (h : Nat) (f : MarkHead → MarkHead) (s : State) : (s.onHead h f).run = s.run := rfl
@[simp] theorem State.onHead_ver (h : Nat) (f : MarkHead → MarkHead) (s : State) : (s.onHead h f).ver = s.ver := rfl
@[simp] theorem State.onHead_ring (h : Nat) (f : MarkHead → MarkHead) (s : State) : (s.onHead h f).ring = s.ring := rfl
@[simp] theorem State.onHead_cmd (h : Nat) (f : MarkHead → MarkHead) (s : State) : (s.onHead h f).cmd = s.cmd := rfl
@[simp] theorem State.onHead_pending (h : Nat) (f : MarkHead → MarkHead) (s : State) : (s.onHead h f).pending = s.pending := rfl

/-! ## closeLot -/

@[simp] theorem State.closeLot_powered (n : Nat) (c : CloseCause) (s : State) : (s.closeLot n c).powered = s.powered := rfl
@[simp] theorem State.closeLot_time (n : Nat) (c : CloseCause) (s : State) : (s.closeLot n c).time = s.time := rfl
@[simp] theorem State.closeLot_encA (n : Nat) (c : CloseCause) (s : State) : (s.closeLot n c).encA = s.encA := rfl
@[simp] theorem State.closeLot_encB (n : Nat) (c : CloseCause) (s : State) : (s.closeLot n c).encB = s.encB := rfl
@[simp] theorem State.closeLot_pos (n : Nat) (c : CloseCause) (s : State) : (s.closeLot n c).pos = s.pos := rfl
@[simp] theorem State.closeLot_strobe (n : Nat) (c : CloseCause) (s : State) : (s.closeLot n c).strobe = s.strobe := rfl
@[simp] theorem State.closeLot_asm (n : Nat) (c : CloseCause) (s : State) : (s.closeLot n c).asm = s.asm := rfl
@[simp] theorem State.closeLot_trk (n : Nat) (c : CloseCause) (s : State) : (s.closeLot n c).trk = s.trk := rfl
@[simp] theorem State.closeLot_gap (n : Nat) (c : CloseCause) (s : State) : (s.closeLot n c).gap = s.gap := rfl
@[simp] theorem State.closeLot_area (n : Nat) (c : CloseCause) (s : State) : (s.closeLot n c).area = s.area := rfl
@[simp] theorem State.closeLot_img (n : Nat) (c : CloseCause) (s : State) : (s.closeLot n c).img = s.img := rfl
@[simp] theorem State.closeLot_mark (n : Nat) (c : CloseCause) (s : State) : (s.closeLot n c).mark = s.mark := rfl
@[simp] theorem State.closeLot_run (n : Nat) (c : CloseCause) (s : State) : (s.closeLot n c).run = s.run := rfl
@[simp] theorem State.closeLot_ver (n : Nat) (c : CloseCause) (s : State) : (s.closeLot n c).ver = s.ver := rfl
@[simp] theorem State.closeLot_ring (n : Nat) (c : CloseCause) (s : State) : (s.closeLot n c).ring = s.ring := rfl
@[simp] theorem State.closeLot_cmd (n : Nat) (c : CloseCause) (s : State) : (s.closeLot n c).cmd = s.cmd := rfl
@[simp] theorem State.closeLot_pending (n : Nat) (c : CloseCause) (s : State) : (s.closeLot n c).pending = s.pending := rfl

/-! ## closeLock -/

@[simp] theorem State.closeLock_powered (s : State) : (s.closeLock).powered = s.powered := by unfold State.closeLock; split <;> rfl
@[simp] theorem State.closeLock_time (s : State) : (s.closeLock).time = s.time := by unfold State.closeLock; split <;> rfl
@[simp] theorem State.closeLock_encA (s : State) : (s.closeLock).encA = s.encA := by unfold State.closeLock; split <;> rfl
@[simp] theorem State.closeLock_encB (s : State) : (s.closeLock).encB = s.encB := by unfold State.closeLock; split <;> rfl
@[simp] theorem State.closeLock_pos (s : State) : (s.closeLock).pos = s.pos := by unfold State.closeLock; split <;> rfl
@[simp] theorem State.closeLock_strobe (s : State) : (s.closeLock).strobe = s.strobe := by unfold State.closeLock; split <;> rfl
@[simp] theorem State.closeLock_asm (s : State) : (s.closeLock).asm = s.asm := by unfold State.closeLock; split <;> rfl
@[simp] theorem State.closeLock_trk (s : State) : (s.closeLock).trk = s.trk := by unfold State.closeLock; split <;> rfl
@[simp] theorem State.closeLock_gap (s : State) : (s.closeLock).gap = s.gap := by unfold State.closeLock; split <;> rfl
@[simp] theorem State.closeLock_area (s : State) : (s.closeLock).area = s.area := by unfold State.closeLock; split <;> rfl
@[simp] theorem State.closeLock_img (s : State) : (s.closeLock).img = s.img := by unfold State.closeLock; split <;> rfl
@[simp] theorem State.closeLock_mark (s : State) : (s.closeLock).mark = s.mark := by unfold State.closeLock; split <;> rfl
@[simp] theorem State.closeLock_lots (s : State) : (s.closeLock).lots = s.lots := by unfold State.closeLock; split <;> rfl
@[simp] theorem State.closeLock_run (s : State) : (s.closeLock).run = s.run := by unfold State.closeLock; split <;> rfl
@[simp] theorem State.closeLock_ring (s : State) : (s.closeLock).ring = s.ring := by unfold State.closeLock; split <;> rfl
@[simp] theorem State.closeLock_pending (s : State) : (s.closeLock).pending = s.pending := by unfold State.closeLock; split <;> rfl

/-! ## passTime -/

@[simp] theorem State.passTime_powered (dt : Nat) (s : State) : (s.passTime dt).powered = s.powered := by unfold State.passTime; split <;> rfl
@[simp] theorem State.passTime_encA (dt : Nat) (s : State) : (s.passTime dt).encA = s.encA := by unfold State.passTime; split <;> rfl
@[simp] theorem State.passTime_encB (dt : Nat) (s : State) : (s.passTime dt).encB = s.encB := by unfold State.passTime; split <;> rfl
@[simp] theorem State.passTime_pos (dt : Nat) (s : State) : (s.passTime dt).pos = s.pos := by unfold State.passTime; split <;> rfl
@[simp] theorem State.passTime_asm (dt : Nat) (s : State) : (s.passTime dt).asm = s.asm := by unfold State.passTime; split <;> rfl
@[simp] theorem State.passTime_trk (dt : Nat) (s : State) : (s.passTime dt).trk = s.trk := by unfold State.passTime; split <;> rfl
@[simp] theorem State.passTime_gap (dt : Nat) (s : State) : (s.passTime dt).gap = s.gap := by unfold State.passTime; split <;> rfl
@[simp] theorem State.passTime_area (dt : Nat) (s : State) : (s.passTime dt).area = s.area := by unfold State.passTime; split <;> rfl
@[simp] theorem State.passTime_img (dt : Nat) (s : State) : (s.passTime dt).img = s.img := by unfold State.passTime; split <;> rfl
@[simp] theorem State.passTime_mark (dt : Nat) (s : State) : (s.passTime dt).mark = s.mark := by unfold State.passTime; split <;> rfl
@[simp] theorem State.passTime_lots (dt : Nat) (s : State) : (s.passTime dt).lots = s.lots := by unfold State.passTime; split <;> rfl
@[simp] theorem State.passTime_rep (dt : Nat) (s : State) : (s.passTime dt).rep = s.rep := by unfold State.passTime; split <;> rfl
@[simp] theorem State.passTime_run (dt : Nat) (s : State) : (s.passTime dt).run = s.run := by unfold State.passTime; split <;> rfl
@[simp] theorem State.passTime_ring (dt : Nat) (s : State) : (s.passTime dt).ring = s.ring := by unfold State.passTime; split <;> rfl
@[simp] theorem State.passTime_cmd (dt : Nat) (s : State) : (s.passTime dt).cmd = s.cmd := by unfold State.passTime; split <;> rfl
@[simp] theorem State.passTime_pending (dt : Nat) (s : State) : (s.passTime dt).pending = s.pending := by unfold State.passTime; split <;> rfl

/-! ## withSample -/

@[simp] theorem State.withSample_powered (a b : Bool) (s : State) : (s.withSample a b).powered = s.powered := rfl
@[simp] theorem State.withSample_time (a b : Bool) (s : State) : (s.withSample a b).time = s.time := rfl
@[simp] theorem State.withSample_pos (a b : Bool) (s : State) : (s.withSample a b).pos = s.pos := rfl
@[simp] theorem State.withSample_strobe (a b : Bool) (s : State) : (s.withSample a b).strobe = s.strobe := rfl
@[simp] theorem State.withSample_asm (a b : Bool) (s : State) : (s.withSample a b).asm = s.asm := rfl
@[simp] theorem State.withSample_trk (a b : Bool) (s : State) : (s.withSample a b).trk = s.trk := rfl
@[simp] theorem State.withSample_gap (a b : Bool) (s : State) : (s.withSample a b).gap = s.gap := rfl
@[simp] theorem State.withSample_area (a b : Bool) (s : State) : (s.withSample a b).area = s.area := rfl
@[simp] theorem State.withSample_img (a b : Bool) (s : State) : (s.withSample a b).img = s.img := rfl
@[simp] theorem State.withSample_mark (a b : Bool) (s : State) : (s.withSample a b).mark = s.mark := rfl
@[simp] theorem State.withSample_lots (a b : Bool) (s : State) : (s.withSample a b).lots = s.lots := rfl
@[simp] theorem State.withSample_rep (a b : Bool) (s : State) : (s.withSample a b).rep = s.rep := rfl
@[simp] theorem State.withSample_run (a b : Bool) (s : State) : (s.withSample a b).run = s.run := rfl
@[simp] theorem State.withSample_ver (a b : Bool) (s : State) : (s.withSample a b).ver = s.ver := rfl
@[simp] theorem State.withSample_ring (a b : Bool) (s : State) : (s.withSample a b).ring = s.ring := rfl
@[simp] theorem State.withSample_cmd (a b : Bool) (s : State) : (s.withSample a b).cmd = s.cmd := rfl
@[simp] theorem State.withSample_pending (a b : Bool) (s : State) : (s.withSample a b).pending = s.pending := rfl

/-! ## enterWait -/

@[simp] theorem State.enterWait_powered (s : State) : (s.enterWait).powered = s.powered := by unfold State.enterWait; split <;> rfl
@[simp] theorem State.enterWait_time (s : State) : (s.enterWait).time = s.time := by unfold State.enterWait; split <;> rfl
@[simp] theorem State.enterWait_encA (s : State) : (s.enterWait).encA = s.encA := by unfold State.enterWait; split <;> rfl
@[simp] theorem State.enterWait_encB (s : State) : (s.enterWait).encB = s.encB := by unfold State.enterWait; split <;> rfl
@[simp] theorem State.enterWait_pos (s : State) : (s.enterWait).pos = s.pos := by unfold State.enterWait; split <;> rfl
@[simp] theorem State.enterWait_asm (s : State) : (s.enterWait).asm = s.asm := by unfold State.enterWait; split <;> rfl
@[simp] theorem State.enterWait_trk (s : State) : (s.enterWait).trk = s.trk := by unfold State.enterWait; split <;> rfl
@[simp] theorem State.enterWait_gap (s : State) : (s.enterWait).gap = s.gap := by unfold State.enterWait; split <;> rfl
@[simp] theorem State.enterWait_area (s : State) : (s.enterWait).area = s.area := by unfold State.enterWait; split <;> rfl
@[simp] theorem State.enterWait_img (s : State) : (s.enterWait).img = s.img := by unfold State.enterWait; split <;> rfl
@[simp] theorem State.enterWait_mark (s : State) : (s.enterWait).mark = s.mark := by unfold State.enterWait; split <;> rfl
@[simp] theorem State.enterWait_lots (s : State) : (s.enterWait).lots = s.lots := by unfold State.enterWait; split <;> rfl
@[simp] theorem State.enterWait_rep (s : State) : (s.enterWait).rep = s.rep := by unfold State.enterWait; split <;> rfl
@[simp] theorem State.enterWait_run (s : State) : (s.enterWait).run = s.run := by unfold State.enterWait; split <;> rfl
@[simp] theorem State.enterWait_ver (s : State) : (s.enterWait).ver = s.ver := by unfold State.enterWait; split <;> rfl
@[simp] theorem State.enterWait_ring (s : State) : (s.enterWait).ring = s.ring := by unfold State.enterWait; split <;> rfl
@[simp] theorem State.enterWait_cmd (s : State) : (s.enterWait).cmd = s.cmd := by unfold State.enterWait; split <;> rfl
@[simp] theorem State.enterWait_pending (s : State) : (s.enterWait).pending = s.pending := by unfold State.enterWait; split <;> rfl

/-! ## withSwitch -/

@[simp] theorem State.withSwitch_powered (l : Bool) (s : State) : (s.withSwitch l).powered = s.powered := rfl
@[simp] theorem State.withSwitch_time (l : Bool) (s : State) : (s.withSwitch l).time = s.time := rfl
@[simp] theorem State.withSwitch_encA (l : Bool) (s : State) : (s.withSwitch l).encA = s.encA := rfl
@[simp] theorem State.withSwitch_encB (l : Bool) (s : State) : (s.withSwitch l).encB = s.encB := rfl
@[simp] theorem State.withSwitch_pos (l : Bool) (s : State) : (s.withSwitch l).pos = s.pos := rfl
@[simp] theorem State.withSwitch_strobe (l : Bool) (s : State) : (s.withSwitch l).strobe = s.strobe := rfl
@[simp] theorem State.withSwitch_asm (l : Bool) (s : State) : (s.withSwitch l).asm = s.asm := rfl
@[simp] theorem State.withSwitch_trk (l : Bool) (s : State) : (s.withSwitch l).trk = s.trk := rfl
@[simp] theorem State.withSwitch_gap (l : Bool) (s : State) : (s.withSwitch l).gap = s.gap := rfl
@[simp] theorem State.withSwitch_area (l : Bool) (s : State) : (s.withSwitch l).area = s.area := rfl
@[simp] theorem State.withSwitch_img (l : Bool) (s : State) : (s.withSwitch l).img = s.img := rfl
@[simp] theorem State.withSwitch_mark (l : Bool) (s : State) : (s.withSwitch l).mark = s.mark := rfl
@[simp] theorem State.withSwitch_lots (l : Bool) (s : State) : (s.withSwitch l).lots = s.lots := rfl
@[simp] theorem State.withSwitch_rep (l : Bool) (s : State) : (s.withSwitch l).rep = s.rep := rfl
@[simp] theorem State.withSwitch_run (l : Bool) (s : State) : (s.withSwitch l).run = s.run := rfl
@[simp] theorem State.withSwitch_ring (l : Bool) (s : State) : (s.withSwitch l).ring = s.ring := rfl
@[simp] theorem State.withSwitch_cmd (l : Bool) (s : State) : (s.withSwitch l).cmd = s.cmd := rfl
@[simp] theorem State.withSwitch_pending (l : Bool) (s : State) : (s.withSwitch l).pending = s.pending := rfl

/-! ## reportTo -/

@[simp] theorem State.reportTo_powered (n : Nat) (s : State) : (s.reportTo n).powered = s.powered := rfl
@[simp] theorem State.reportTo_time (n : Nat) (s : State) : (s.reportTo n).time = s.time := rfl
@[simp] theorem State.reportTo_encA (n : Nat) (s : State) : (s.reportTo n).encA = s.encA := rfl
@[simp] theorem State.reportTo_encB (n : Nat) (s : State) : (s.reportTo n).encB = s.encB := rfl
@[simp] theorem State.reportTo_pos (n : Nat) (s : State) : (s.reportTo n).pos = s.pos := rfl
@[simp] theorem State.reportTo_strobe (n : Nat) (s : State) : (s.reportTo n).strobe = s.strobe := rfl
@[simp] theorem State.reportTo_asm (n : Nat) (s : State) : (s.reportTo n).asm = s.asm := rfl
@[simp] theorem State.reportTo_trk (n : Nat) (s : State) : (s.reportTo n).trk = s.trk := rfl
@[simp] theorem State.reportTo_gap (n : Nat) (s : State) : (s.reportTo n).gap = s.gap := rfl
@[simp] theorem State.reportTo_area (n : Nat) (s : State) : (s.reportTo n).area = s.area := rfl
@[simp] theorem State.reportTo_img (n : Nat) (s : State) : (s.reportTo n).img = s.img := rfl
@[simp] theorem State.reportTo_mark (n : Nat) (s : State) : (s.reportTo n).mark = s.mark := rfl
@[simp] theorem State.reportTo_lots (n : Nat) (s : State) : (s.reportTo n).lots = s.lots := rfl
@[simp] theorem State.reportTo_rep (n : Nat) (s : State) : (s.reportTo n).rep = s.rep := rfl
@[simp] theorem State.reportTo_run (n : Nat) (s : State) : (s.reportTo n).run = s.run := rfl
@[simp] theorem State.reportTo_ver (n : Nat) (s : State) : (s.reportTo n).ver = s.ver := rfl
@[simp] theorem State.reportTo_cmd (n : Nat) (s : State) : (s.reportTo n).cmd = s.cmd := rfl
@[simp] theorem State.reportTo_pending (n : Nat) (s : State) : (s.reportTo n).pending = s.pending := rfl

/-! ## keepPlace -/

@[simp] theorem State.keepPlace_powered (k : Bool) (s : State) : (s.keepPlace k).powered = s.powered := rfl
@[simp] theorem State.keepPlace_time (k : Bool) (s : State) : (s.keepPlace k).time = s.time := rfl
@[simp] theorem State.keepPlace_encA (k : Bool) (s : State) : (s.keepPlace k).encA = s.encA := rfl
@[simp] theorem State.keepPlace_encB (k : Bool) (s : State) : (s.keepPlace k).encB = s.encB := rfl
@[simp] theorem State.keepPlace_pos (k : Bool) (s : State) : (s.keepPlace k).pos = s.pos := rfl
@[simp] theorem State.keepPlace_strobe (k : Bool) (s : State) : (s.keepPlace k).strobe = s.strobe := rfl
@[simp] theorem State.keepPlace_asm (k : Bool) (s : State) : (s.keepPlace k).asm = s.asm := rfl
@[simp] theorem State.keepPlace_trk (k : Bool) (s : State) : (s.keepPlace k).trk = s.trk := rfl
@[simp] theorem State.keepPlace_gap (k : Bool) (s : State) : (s.keepPlace k).gap = s.gap := rfl
@[simp] theorem State.keepPlace_area (k : Bool) (s : State) : (s.keepPlace k).area = s.area := rfl
@[simp] theorem State.keepPlace_img (k : Bool) (s : State) : (s.keepPlace k).img = s.img := rfl
@[simp] theorem State.keepPlace_mark (k : Bool) (s : State) : (s.keepPlace k).mark = s.mark := rfl
@[simp] theorem State.keepPlace_lots (k : Bool) (s : State) : (s.keepPlace k).lots = s.lots := rfl
@[simp] theorem State.keepPlace_rep (k : Bool) (s : State) : (s.keepPlace k).rep = s.rep := rfl
@[simp] theorem State.keepPlace_run (k : Bool) (s : State) : (s.keepPlace k).run = s.run := rfl
@[simp] theorem State.keepPlace_ver (k : Bool) (s : State) : (s.keepPlace k).ver = s.ver := rfl
@[simp] theorem State.keepPlace_cmd (k : Bool) (s : State) : (s.keepPlace k).cmd = s.cmd := rfl
@[simp] theorem State.keepPlace_pending (k : Bool) (s : State) : (s.keepPlace k).pending = s.pending := rfl

/-! ## dropWaiting -/

@[simp] theorem State.dropWaiting_powered (h : Nat) (s : State) : (s.dropWaiting h).powered = s.powered := rfl
@[simp] theorem State.dropWaiting_time (h : Nat) (s : State) : (s.dropWaiting h).time = s.time := rfl
@[simp] theorem State.dropWaiting_encA (h : Nat) (s : State) : (s.dropWaiting h).encA = s.encA := rfl
@[simp] theorem State.dropWaiting_encB (h : Nat) (s : State) : (s.dropWaiting h).encB = s.encB := rfl
@[simp] theorem State.dropWaiting_pos (h : Nat) (s : State) : (s.dropWaiting h).pos = s.pos := rfl
@[simp] theorem State.dropWaiting_strobe (h : Nat) (s : State) : (s.dropWaiting h).strobe = s.strobe := rfl
@[simp] theorem State.dropWaiting_asm (h : Nat) (s : State) : (s.dropWaiting h).asm = s.asm := rfl
@[simp] theorem State.dropWaiting_trk (h : Nat) (s : State) : (s.dropWaiting h).trk = s.trk := rfl
@[simp] theorem State.dropWaiting_gap (h : Nat) (s : State) : (s.dropWaiting h).gap = s.gap := rfl
@[simp] theorem State.dropWaiting_area (h : Nat) (s : State) : (s.dropWaiting h).area = s.area := rfl
@[simp] theorem State.dropWaiting_img (h : Nat) (s : State) : (s.dropWaiting h).img = s.img := rfl
@[simp] theorem State.dropWaiting_lots (h : Nat) (s : State) : (s.dropWaiting h).lots = s.lots := rfl
@[simp] theorem State.dropWaiting_rep (h : Nat) (s : State) : (s.dropWaiting h).rep = s.rep := rfl
@[simp] theorem State.dropWaiting_run (h : Nat) (s : State) : (s.dropWaiting h).run = s.run := rfl
@[simp] theorem State.dropWaiting_ver (h : Nat) (s : State) : (s.dropWaiting h).ver = s.ver := rfl
@[simp] theorem State.dropWaiting_ring (h : Nat) (s : State) : (s.dropWaiting h).ring = s.ring := rfl
@[simp] theorem State.dropWaiting_cmd (h : Nat) (s : State) : (s.dropWaiting h).cmd = s.cmd := rfl
@[simp] theorem State.dropWaiting_pending (h : Nat) (s : State) : (s.dropWaiting h).pending = s.pending := rfl

/-! ## closeOverdue -/

@[simp] theorem State.closeOverdue_powered (s : State) : (s.closeOverdue).powered = s.powered := rfl
@[simp] theorem State.closeOverdue_time (s : State) : (s.closeOverdue).time = s.time := rfl
@[simp] theorem State.closeOverdue_encA (s : State) : (s.closeOverdue).encA = s.encA := rfl
@[simp] theorem State.closeOverdue_encB (s : State) : (s.closeOverdue).encB = s.encB := rfl
@[simp] theorem State.closeOverdue_pos (s : State) : (s.closeOverdue).pos = s.pos := rfl
@[simp] theorem State.closeOverdue_strobe (s : State) : (s.closeOverdue).strobe = s.strobe := rfl
@[simp] theorem State.closeOverdue_trk (s : State) : (s.closeOverdue).trk = s.trk := rfl
@[simp] theorem State.closeOverdue_gap (s : State) : (s.closeOverdue).gap = s.gap := rfl
@[simp] theorem State.closeOverdue_area (s : State) : (s.closeOverdue).area = s.area := rfl
@[simp] theorem State.closeOverdue_img (s : State) : (s.closeOverdue).img = s.img := rfl
@[simp] theorem State.closeOverdue_mark (s : State) : (s.closeOverdue).mark = s.mark := rfl
@[simp] theorem State.closeOverdue_lots (s : State) : (s.closeOverdue).lots = s.lots := rfl
@[simp] theorem State.closeOverdue_rep (s : State) : (s.closeOverdue).rep = s.rep := rfl
@[simp] theorem State.closeOverdue_run (s : State) : (s.closeOverdue).run = s.run := rfl
@[simp] theorem State.closeOverdue_ver (s : State) : (s.closeOverdue).ver = s.ver := rfl
@[simp] theorem State.closeOverdue_ring (s : State) : (s.closeOverdue).ring = s.ring := rfl
@[simp] theorem State.closeOverdue_cmd (s : State) : (s.closeOverdue).cmd = s.cmd := rfl
@[simp] theorem State.closeOverdue_pending (s : State) : (s.closeOverdue).pending = s.pending := rfl

/-! ## closeHides -/

@[simp] theorem State.closeHides_powered (c : List Nat) (s : State) : (s.closeHides c).powered = s.powered := rfl
@[simp] theorem State.closeHides_time (c : List Nat) (s : State) : (s.closeHides c).time = s.time := rfl
@[simp] theorem State.closeHides_encA (c : List Nat) (s : State) : (s.closeHides c).encA = s.encA := rfl
@[simp] theorem State.closeHides_encB (c : List Nat) (s : State) : (s.closeHides c).encB = s.encB := rfl
@[simp] theorem State.closeHides_pos (c : List Nat) (s : State) : (s.closeHides c).pos = s.pos := rfl
@[simp] theorem State.closeHides_strobe (c : List Nat) (s : State) : (s.closeHides c).strobe = s.strobe := rfl
@[simp] theorem State.closeHides_asm (c : List Nat) (s : State) : (s.closeHides c).asm = s.asm := rfl
@[simp] theorem State.closeHides_gap (c : List Nat) (s : State) : (s.closeHides c).gap = s.gap := rfl
@[simp] theorem State.closeHides_area (c : List Nat) (s : State) : (s.closeHides c).area = s.area := rfl
@[simp] theorem State.closeHides_img (c : List Nat) (s : State) : (s.closeHides c).img = s.img := rfl
@[simp] theorem State.closeHides_mark (c : List Nat) (s : State) : (s.closeHides c).mark = s.mark := rfl
@[simp] theorem State.closeHides_lots (c : List Nat) (s : State) : (s.closeHides c).lots = s.lots := rfl
@[simp] theorem State.closeHides_rep (c : List Nat) (s : State) : (s.closeHides c).rep = s.rep := rfl
@[simp] theorem State.closeHides_run (c : List Nat) (s : State) : (s.closeHides c).run = s.run := rfl
@[simp] theorem State.closeHides_ver (c : List Nat) (s : State) : (s.closeHides c).ver = s.ver := rfl
@[simp] theorem State.closeHides_ring (c : List Nat) (s : State) : (s.closeHides c).ring = s.ring := rfl
@[simp] theorem State.closeHides_cmd (c : List Nat) (s : State) : (s.closeHides c).cmd = s.cmd := rfl
@[simp] theorem State.closeHides_pending (c : List Nat) (s : State) : (s.closeHides c).pending = s.pending := rfl

/-! ## reachBoundary -/

@[simp] theorem State.reachBoundary_powered (s : State) : (s.reachBoundary).powered = s.powered := rfl
@[simp] theorem State.reachBoundary_time (s : State) : (s.reachBoundary).time = s.time := rfl
@[simp] theorem State.reachBoundary_encA (s : State) : (s.reachBoundary).encA = s.encA := rfl
@[simp] theorem State.reachBoundary_encB (s : State) : (s.reachBoundary).encB = s.encB := rfl
@[simp] theorem State.reachBoundary_pos (s : State) : (s.reachBoundary).pos = s.pos := rfl
@[simp] theorem State.reachBoundary_strobe (s : State) : (s.reachBoundary).strobe = s.strobe := rfl
@[simp] theorem State.reachBoundary_asm (s : State) : (s.reachBoundary).asm = s.asm := rfl
@[simp] theorem State.reachBoundary_gap (s : State) : (s.reachBoundary).gap = s.gap := rfl
@[simp] theorem State.reachBoundary_area (s : State) : (s.reachBoundary).area = s.area := rfl
@[simp] theorem State.reachBoundary_img (s : State) : (s.reachBoundary).img = s.img := rfl
@[simp] theorem State.reachBoundary_mark (s : State) : (s.reachBoundary).mark = s.mark := rfl
@[simp] theorem State.reachBoundary_lots (s : State) : (s.reachBoundary).lots = s.lots := rfl
@[simp] theorem State.reachBoundary_rep (s : State) : (s.reachBoundary).rep = s.rep := rfl
@[simp] theorem State.reachBoundary_run (s : State) : (s.reachBoundary).run = s.run := rfl
@[simp] theorem State.reachBoundary_ver (s : State) : (s.reachBoundary).ver = s.ver := rfl
@[simp] theorem State.reachBoundary_ring (s : State) : (s.reachBoundary).ring = s.ring := rfl
@[simp] theorem State.reachBoundary_cmd (s : State) : (s.reachBoundary).cmd = s.cmd := rfl
@[simp] theorem State.reachBoundary_pending (s : State) : (s.reachBoundary).pending = s.pending := rfl

/-! ## keepWaiting -/

@[simp] theorem State.keepWaiting_powered (s : State) : (s.keepWaiting).powered = s.powered := rfl
@[simp] theorem State.keepWaiting_time (s : State) : (s.keepWaiting).time = s.time := rfl
@[simp] theorem State.keepWaiting_encA (s : State) : (s.keepWaiting).encA = s.encA := rfl
@[simp] theorem State.keepWaiting_encB (s : State) : (s.keepWaiting).encB = s.encB := rfl
@[simp] theorem State.keepWaiting_pos (s : State) : (s.keepWaiting).pos = s.pos := rfl
@[simp] theorem State.keepWaiting_strobe (s : State) : (s.keepWaiting).strobe = s.strobe := rfl
@[simp] theorem State.keepWaiting_asm (s : State) : (s.keepWaiting).asm = s.asm := rfl
@[simp] theorem State.keepWaiting_trk (s : State) : (s.keepWaiting).trk = s.trk := rfl
@[simp] theorem State.keepWaiting_gap (s : State) : (s.keepWaiting).gap = s.gap := rfl
@[simp] theorem State.keepWaiting_area (s : State) : (s.keepWaiting).area = s.area := rfl
@[simp] theorem State.keepWaiting_img (s : State) : (s.keepWaiting).img = s.img := rfl
@[simp] theorem State.keepWaiting_mark (s : State) : (s.keepWaiting).mark = s.mark := rfl
@[simp] theorem State.keepWaiting_lots (s : State) : (s.keepWaiting).lots = s.lots := rfl
@[simp] theorem State.keepWaiting_run (s : State) : (s.keepWaiting).run = s.run := rfl
@[simp] theorem State.keepWaiting_ver (s : State) : (s.keepWaiting).ver = s.ver := rfl
@[simp] theorem State.keepWaiting_ring (s : State) : (s.keepWaiting).ring = s.ring := rfl
@[simp] theorem State.keepWaiting_cmd (s : State) : (s.keepWaiting).cmd = s.cmd := rfl
@[simp] theorem State.keepWaiting_pending (s : State) : (s.keepWaiting).pending = s.pending := rfl

/-! ## Fields within a block -/

@[simp] theorem State.passTime_strobe_enable (dt : Nat) (s : State) : (s.passTime dt).strobe.enable = s.strobe.enable := by unfold State.passTime; split <;> rfl
@[simp] theorem State.passTime_strobe_next (dt : Nat) (s : State) : (s.passTime dt).strobe.next = s.strobe.next := by unfold State.passTime; split <;> rfl
@[simp] theorem State.passTime_strobe_wait (dt : Nat) (s : State) : (s.passTime dt).strobe.wait = s.strobe.wait := by unfold State.passTime; split <;> rfl
@[simp] theorem State.passTime_strobe_nextLine (dt : Nat) (s : State) : (s.passTime dt).strobe.nextLine = s.strobe.nextLine := by unfold State.passTime; split <;> rfl
@[simp] theorem State.passTime_strobe_prevPeriod (dt : Nat) (s : State) : (s.passTime dt).strobe.prevPeriod = s.strobe.prevPeriod := by unfold State.passTime; split <;> rfl
@[simp] theorem State.passTime_strobe_steady (dt : Nat) (s : State) : (s.passTime dt).strobe.steady = s.strobe.steady := by unfold State.passTime; split <;> rfl
@[simp] theorem State.passTime_strobe_inWindow (dt : Nat) (s : State) : (s.passTime dt).strobe.inWindow = s.strobe.inWindow := by unfold State.passTime; split <;> rfl
@[simp] theorem State.passTime_strobe_strobed (dt : Nat) (s : State) : (s.passTime dt).strobe.strobed = s.strobe.strobed := by unfold State.passTime; split <;> rfl
@[simp] theorem State.passTime_strobe_delayedCount (dt : Nat) (s : State) : (s.passTime dt).strobe.delayedCount = s.strobe.delayedCount := by unfold State.passTime; split <;> rfl
@[simp] theorem State.passTime_ver_count (dt : Nat) (s : State) : (s.passTime dt).ver.count = s.ver.count := by unfold State.passTime; split <;> rfl
@[simp] theorem State.passTime_ver_lockOpen (dt : Nat) (s : State) : (s.passTime dt).ver.lockOpen = s.ver.lockOpen := by unfold State.passTime; split <;> rfl
@[simp] theorem State.passTime_ver_switch (dt : Nat) (s : State) : (s.passTime dt).ver.switch = s.ver.switch := by unfold State.passTime; split <;> rfl

@[simp] theorem State.enterWait_strobe_enable (s : State) : (s.enterWait).strobe.enable = s.strobe.enable := by unfold State.enterWait; split <;> rfl
@[simp] theorem State.enterWait_strobe_next (s : State) : (s.enterWait).strobe.next = s.strobe.next := by unfold State.enterWait; split <;> rfl
@[simp] theorem State.enterWait_strobe_period (s : State) : (s.enterWait).strobe.period = s.strobe.period := by unfold State.enterWait; split <;> rfl
@[simp] theorem State.enterWait_strobe_nextLine (s : State) : (s.enterWait).strobe.nextLine = s.strobe.nextLine := by unfold State.enterWait; split <;> rfl
@[simp] theorem State.enterWait_strobe_prevPeriod (s : State) : (s.enterWait).strobe.prevPeriod = s.strobe.prevPeriod := by unfold State.enterWait; split <;> rfl
@[simp] theorem State.enterWait_strobe_steady (s : State) : (s.enterWait).strobe.steady = s.strobe.steady := by unfold State.enterWait; split <;> rfl
@[simp] theorem State.enterWait_strobe_inWindow (s : State) : (s.enterWait).strobe.inWindow = s.strobe.inWindow := by unfold State.enterWait; split <;> rfl
@[simp] theorem State.enterWait_strobe_strobed (s : State) : (s.enterWait).strobe.strobed = s.strobe.strobed := by unfold State.enterWait; split <;> rfl
@[simp] theorem State.enterWait_strobe_delayedCount (s : State) : (s.enterWait).strobe.delayedCount = s.strobe.delayedCount := by unfold State.enterWait; split <;> rfl
@[simp] theorem State.enterWait_strobe_pulse (s : State) : (s.enterWait).strobe.pulse = s.strobe.pulse := by unfold State.enterWait; split <;> rfl

@[simp] theorem State.arbitrate_ring_addr (s : State) : (s.arbitrate).ring.addr = s.ring.addr := by unfold State.arbitrate; (repeat' split) <;> rfl
@[simp] theorem State.arbitrate_ring_report (s : State) : (s.arbitrate).ring.report = s.ring.report := by unfold State.arbitrate; (repeat' split) <;> rfl
@[simp] theorem State.arbitrate_ring_answering (s : State) : (s.arbitrate).ring.answering = s.ring.answering := by unfold State.arbitrate; (repeat' split) <;> rfl
@[simp] theorem State.arbitrate_ring_deferred (s : State) : (s.arbitrate).ring.deferred = s.ring.deferred := by unfold State.arbitrate; (repeat' split) <;> rfl
@[simp] theorem State.arbitrate_ring_crcErr (s : State) : (s.arbitrate).ring.crcErr = s.ring.crcErr := by unfold State.arbitrate; (repeat' split) <;> rfl
@[simp] theorem State.arbitrate_ring_returned (s : State) : (s.arbitrate).ring.returned = s.ring.returned := by unfold State.arbitrate; (repeat' split) <;> rfl
@[simp] theorem State.arbitrate_ring_kindErr (s : State) : (s.arbitrate).ring.kindErr = s.ring.kindErr := by unfold State.arbitrate; (repeat' split) <;> rfl
@[simp] theorem State.arbitrate_ring_ringDrop (s : State) : (s.arbitrate).ring.ringDrop = s.ring.ringDrop := by unfold State.arbitrate; (repeat' split) <;> rfl
@[simp] theorem State.arbitrate_ring_cmdDrop (s : State) : (s.arbitrate).ring.cmdDrop = s.ring.cmdDrop := by unfold State.arbitrate; (repeat' split) <;> rfl
@[simp] theorem State.arbitrate_ring_markWait (s : State) : (s.arbitrate).ring.markWait = s.ring.markWait := by unfold State.arbitrate; (repeat' split) <;> rfl
@[simp] theorem State.arbitrate_rep_finals (s : State) : (s.arbitrate).rep.finals = s.rep.finals := by unfold State.arbitrate; (repeat' split) <;> rfl
@[simp] theorem State.arbitrate_rep_resetDatum (s : State) : (s.arbitrate).rep.resetDatum = s.rep.resetDatum := by unfold State.arbitrate; (repeat' split) <;> rfl

@[simp] theorem State.forwardFrame_ring_addr (f : Frame) (s : State) : (s.forwardFrame f).ring.addr = s.ring.addr := by unfold State.forwardFrame; split <;> rfl
@[simp] theorem State.forwardFrame_ring_report (f : Frame) (s : State) : (s.forwardFrame f).ring.report = s.ring.report := by unfold State.forwardFrame; split <;> rfl
@[simp] theorem State.forwardFrame_ring_answering (f : Frame) (s : State) : (s.forwardFrame f).ring.answering = s.ring.answering := by unfold State.forwardFrame; split <;> rfl
@[simp] theorem State.forwardFrame_ring_responses (f : Frame) (s : State) : (s.forwardFrame f).ring.responses = s.ring.responses := by unfold State.forwardFrame; split <;> rfl
@[simp] theorem State.forwardFrame_ring_deferred (f : Frame) (s : State) : (s.forwardFrame f).ring.deferred = s.ring.deferred := by unfold State.forwardFrame; split <;> rfl
@[simp] theorem State.forwardFrame_ring_marking (f : Frame) (s : State) : (s.forwardFrame f).ring.marking = s.ring.marking := by unfold State.forwardFrame; split <;> rfl
@[simp] theorem State.forwardFrame_ring_out (f : Frame) (s : State) : (s.forwardFrame f).ring.out = s.ring.out := by unfold State.forwardFrame; split <;> rfl
@[simp] theorem State.forwardFrame_ring_crcErr (f : Frame) (s : State) : (s.forwardFrame f).ring.crcErr = s.ring.crcErr := by unfold State.forwardFrame; split <;> rfl
@[simp] theorem State.forwardFrame_ring_returned (f : Frame) (s : State) : (s.forwardFrame f).ring.returned = s.ring.returned := by unfold State.forwardFrame; split <;> rfl
@[simp] theorem State.forwardFrame_ring_kindErr (f : Frame) (s : State) : (s.forwardFrame f).ring.kindErr = s.ring.kindErr := by unfold State.forwardFrame; split <;> rfl
@[simp] theorem State.forwardFrame_ring_cmdDrop (f : Frame) (s : State) : (s.forwardFrame f).ring.cmdDrop = s.ring.cmdDrop := by unfold State.forwardFrame; split <;> rfl
@[simp] theorem State.forwardFrame_ring_markWait (f : Frame) (s : State) : (s.forwardFrame f).ring.markWait = s.ring.markWait := by unfold State.forwardFrame; split <;> rfl

theorem onLockClose_banks (c : CommandUnit) :
    c.onLockClose.staged = c.staged ∧ c.onLockClose.active = c.active ∧ c.onLockClose.configured = c.configured := by
  unfold CommandUnit.onLockClose CommandUnit.cancelLoad
  cases c.load with
  | none => simp only; split <;> exact ⟨rfl, rfl, rfl⟩
  | some l => simp only; split <;> split <;> exact ⟨rfl, rfl, rfl⟩

@[simp] theorem State.closeLock_ver_count (s : State) : (s.closeLock).ver.count = s.ver.count := by unfold State.closeLock; split <;> rfl
@[simp] theorem State.closeLock_ver_switch (s : State) : (s.closeLock).ver.switch = s.ver.switch := by unfold State.closeLock; split <;> rfl
@[simp] theorem State.closeLock_ver_prog (s : State) : (s.closeLock).ver.prog = s.ver.prog := by unfold State.closeLock; split <;> rfl
@[simp] theorem State.closeLock_cmd_staged (s : State) : (s.closeLock).cmd.staged = s.cmd.staged := by unfold State.closeLock; split; exacts [(onLockClose_banks s.cmd).1, rfl]
@[simp] theorem State.closeLock_cmd_active (s : State) : (s.closeLock).cmd.active = s.cmd.active := by unfold State.closeLock; split; exacts [(onLockClose_banks s.cmd).2.1, rfl]
@[simp] theorem State.closeLock_cmd_configured (s : State) : (s.closeLock).cmd.configured = s.cmd.configured := by unfold State.closeLock; split; exacts [(onLockClose_banks s.cmd).2.2, rfl]

@[simp] theorem State.keepPlace_ring_addr (k : Bool) (s : State) : (s.keepPlace k).ring.addr = s.ring.addr := rfl
@[simp] theorem State.keepPlace_ring_report (k : Bool) (s : State) : (s.keepPlace k).ring.report = s.ring.report := rfl
@[simp] theorem State.keepPlace_ring_forward (k : Bool) (s : State) : (s.keepPlace k).ring.forward = s.ring.forward := rfl
@[simp] theorem State.keepPlace_ring_responses (k : Bool) (s : State) : (s.keepPlace k).ring.responses = s.ring.responses := rfl
@[simp] theorem State.keepPlace_ring_deferred (k : Bool) (s : State) : (s.keepPlace k).ring.deferred = s.ring.deferred := rfl
@[simp] theorem State.keepPlace_ring_marking (k : Bool) (s : State) : (s.keepPlace k).ring.marking = s.ring.marking := rfl
@[simp] theorem State.keepPlace_ring_out (k : Bool) (s : State) : (s.keepPlace k).ring.out = s.ring.out := rfl

@[simp] theorem State.reportTo_ring_addr (n : Nat) (s : State) : (s.reportTo n).ring.addr = s.ring.addr := rfl
@[simp] theorem State.reportTo_ring_forward (n : Nat) (s : State) : (s.reportTo n).ring.forward = s.ring.forward := rfl
@[simp] theorem State.reportTo_ring_responses (n : Nat) (s : State) : (s.reportTo n).ring.responses = s.ring.responses := rfl
@[simp] theorem State.reportTo_ring_answering (n : Nat) (s : State) : (s.reportTo n).ring.answering = s.ring.answering := rfl
@[simp] theorem State.reportTo_ring_deferred (n : Nat) (s : State) : (s.reportTo n).ring.deferred = s.ring.deferred := rfl
@[simp] theorem State.reportTo_ring_marking (n : Nat) (s : State) : (s.reportTo n).ring.marking = s.ring.marking := rfl
@[simp] theorem State.reportTo_ring_out (n : Nat) (s : State) : (s.reportTo n).ring.out = s.ring.out := rfl

@[simp] theorem State.mapRecs_trk_prev (f : HideRec → HideRec) (s : State) : (s.mapRecs f).trk.prev = s.trk.prev := rfl
@[simp] theorem State.mapRecs_trk_cur (f : HideRec → HideRec) (s : State) : (s.mapRecs f).trk.cur = s.trk.cur := rfl
@[simp] theorem State.mapRecs_trk_counter (f : HideRec → HideRec) (s : State) : (s.mapRecs f).trk.counter = s.trk.counter := rfl
@[simp] theorem State.mapRecs_trk_overflow (f : HideRec → HideRec) (s : State) : (s.mapRecs f).trk.overflow = s.trk.overflow := rfl
@[simp] theorem State.mapRecs_trk_handing (f : HideRec → HideRec) (s : State) : (s.mapRecs f).trk.handing = s.trk.handing := rfl

@[simp] theorem State.toReporting_trk_prev (n : Nat) (o : Option MarkOutcome) (s : State) : (s.toReporting n o).trk.prev = s.trk.prev := rfl
@[simp] theorem State.toReporting_trk_cur (n : Nat) (o : Option MarkOutcome) (s : State) : (s.toReporting n o).trk.cur = s.trk.cur := rfl
@[simp] theorem State.toReporting_trk_counter (n : Nat) (o : Option MarkOutcome) (s : State) : (s.toReporting n o).trk.counter = s.trk.counter := rfl
@[simp] theorem State.toReporting_trk_overflow (n : Nat) (o : Option MarkOutcome) (s : State) : (s.toReporting n o).trk.overflow = s.trk.overflow := rfl
@[simp] theorem State.toReporting_trk_handing (n : Nat) (o : Option MarkOutcome) (s : State) : (s.toReporting n o).trk.handing = s.trk.handing := rfl
@[simp] theorem State.toReporting_rep_order (n : Nat) (o : Option MarkOutcome) (s : State) : (s.toReporting n o).rep.order = s.rep.order := rfl
@[simp] theorem State.toReporting_rep_resetDatum (n : Nat) (o : Option MarkOutcome) (s : State) : (s.toReporting n o).rep.resetDatum = s.rep.resetDatum := rfl
@[simp] theorem State.toReporting_rep_waits (n : Nat) (o : Option MarkOutcome) (s : State) : (s.toReporting n o).rep.waits = s.rep.waits := rfl

@[simp] theorem State.raise_rep_finals (k : EventKind) (s : State) : (s.raise k).rep.finals = s.rep.finals := rfl
@[simp] theorem State.raise_rep_resetDatum (k : EventKind) (s : State) : (s.raise k).rep.resetDatum = s.rep.resetDatum := rfl
@[simp] theorem State.raise_rep_waits (k : EventKind) (s : State) : (s.raise k).rep.waits = s.rep.waits := rfl

@[simp] theorem State.closeOverdue_asm_depth (s : State) : (s.closeOverdue).asm.depth = s.asm.depth := rfl
@[simp] theorem State.closeOverdue_asm_lastLine (s : State) : (s.closeOverdue).asm.lastLine = s.asm.lastLine := rfl
@[simp] theorem State.closeOverdue_asm_lastTime (s : State) : (s.closeOverdue).asm.lastTime = s.asm.lastTime := rfl
@[simp] theorem State.closeOverdue_asm_stray (s : State) : (s.closeOverdue).asm.stray = s.asm.stray := rfl
@[simp] theorem State.closeOverdue_asm_lateSeg (s : State) : (s.closeOverdue).asm.lateSeg = s.asm.lateSeg := rfl
@[simp] theorem State.closeOverdue_asm_dupSeg (s : State) : (s.closeOverdue).asm.dupSeg = s.asm.dupSeg := rfl
@[simp] theorem State.closeOverdue_asm_malformed (s : State) : (s.closeOverdue).asm.malformed = s.asm.malformed := rfl

@[simp] theorem State.closeHides_trk_prev (c : List Nat) (s : State) : (s.closeHides c).trk.prev = s.trk.prev := rfl
@[simp] theorem State.closeHides_trk_cur (c : List Nat) (s : State) : (s.closeHides c).trk.cur = s.trk.cur := rfl
@[simp] theorem State.closeHides_trk_counter (c : List Nat) (s : State) : (s.closeHides c).trk.counter = s.trk.counter := rfl
@[simp] theorem State.closeHides_trk_overflow (c : List Nat) (s : State) : (s.closeHides c).trk.overflow = s.trk.overflow := rfl

@[simp] theorem State.reachBoundary_trk_records (s : State) : (s.reachBoundary).trk.records = s.trk.records := rfl
@[simp] theorem State.reachBoundary_trk_counter (s : State) : (s.reachBoundary).trk.counter = s.trk.counter := rfl
@[simp] theorem State.reachBoundary_trk_overflow (s : State) : (s.reachBoundary).trk.overflow = s.trk.overflow := rfl

@[simp] theorem State.keepWaiting_rep_finals (s : State) : (s.keepWaiting).rep.finals = s.rep.finals := rfl
@[simp] theorem State.keepWaiting_rep_order (s : State) : (s.keepWaiting).rep.order = s.rep.order := rfl
@[simp] theorem State.keepWaiting_rep_resetDatum (s : State) : (s.keepWaiting).rep.resetDatum = s.rep.resetDatum := rfl

end Sys2Proof.Machine
end

