-- ==== Sys2Proof/Laws/Marking.lean ====
section
/-! SUPPORT. What the operations of the mark scheduler can change: `MarkStep s t` says it once, and every operation of
Machine/Marking.lean has a lemma that it makes such a step. -/

namespace Sys2Proof.Machine

/-- All that the mark scheduler's operations can do: change hide records, image slots, the mark scheduler, the finalization
list and the set flags of the report queue, and the ring's responses, later answers, marking queue and MARK_WAIT. The note
queue's entries stay, and neither buffer grows beyond its places. -/
structure MarkStep (s t : State) : Prop where
  frame : t = { s with
    trk := { s.trk with records := t.trk.records }
    img := t.img
    mark := t.mark
    rep := { s.rep with finals := t.rep.finals, order := t.rep.order }
    ring := { s.ring with responses := t.ring.responses, deferred := t.ring.deferred, marking := t.ring.marking,
                          markWait := t.ring.markWait } }
  used : t.rep.used = s.rep.used
  responses : s.ring.responses.length + s.ring.kept ≤ Config.responsePlaces →
    t.ring.responses.length + t.ring.kept ≤ Config.responsePlaces
  marking : s.ring.marking.length ≤ Config.markingPlaces → t.ring.marking.length ≤ Config.markingPlaces
  heads : t.mark.heads.length = s.mark.heads.length
  records : t.trk.records.length = s.trk.records.length

theorem MarkStep.refl (s : State) : MarkStep s s := ⟨rfl, rfl, id, id, rfl, rfl⟩

theorem MarkStep.trans {s t u : State} (h₁ : MarkStep s t) (h₂ : MarkStep t u) : MarkStep s u := by
  refine ⟨?_, h₂.used.trans h₁.used, h₂.responses ∘ h₁.responses, h₂.marking ∘ h₁.marking, h₂.heads.trans h₁.heads,
    h₂.records.trans h₁.records⟩
  have e₁ := h₁.frame
  have e₂ := h₂.frame
  generalize ht : t.trk.records = r₁ at e₁ e₂
  rw [e₂]
  rw [e₁]

section fields
variable {s t : State} (h : MarkStep s t)
include h
theorem MarkStep.powered : t.powered = s.powered := by rw [h.frame]
theorem MarkStep.time : t.time = s.time := by rw [h.frame]
theorem MarkStep.encA : t.encA = s.encA := by rw [h.frame]
theorem MarkStep.encB : t.encB = s.encB := by rw [h.frame]
theorem MarkStep.pos : t.pos = s.pos := by rw [h.frame]
theorem MarkStep.strobe : t.strobe = s.strobe := by rw [h.frame]
theorem MarkStep.asm : t.asm = s.asm := by rw [h.frame]
theorem MarkStep.gap : t.gap = s.gap := by rw [h.frame]
theorem MarkStep.area : t.area = s.area := by rw [h.frame]
theorem MarkStep.lots : t.lots = s.lots := by rw [h.frame]
theorem MarkStep.run : t.run = s.run := by rw [h.frame]
theorem MarkStep.ver : t.ver = s.ver := by rw [h.frame]
theorem MarkStep.cmd : t.cmd = s.cmd := by rw [h.frame]
theorem MarkStep.pending : t.pending = s.pending := by rw [h.frame]
theorem MarkStep.prev : t.trk.prev = s.trk.prev := by rw [h.frame]
theorem MarkStep.counter : t.trk.counter = s.trk.counter := by rw [h.frame]
theorem MarkStep.forward : t.ring.forward = s.ring.forward := by rw [h.frame]
theorem MarkStep.addr : t.ring.addr = s.ring.addr := by rw [h.frame]
theorem MarkStep.report : t.ring.report = s.ring.report := by rw [h.frame]
end fields

/-- A fold of mark steps is one. -/
theorem MarkStep.foldl {α : Type} {f : State → α → State} (hf : ∀ s a, MarkStep s (f s a)) (l : List α) (s : State) :
    MarkStep s (l.foldl f s) := by
  induction l generalizing s with
  | nil => exact .refl s
  | cons a l ih => exact (hf s a).trans (ih _)

theorem mapRecs_step (f : HideRec → HideRec) (s : State) : MarkStep s (s.mapRecs f) :=
  ⟨rfl, rfl, id, id, rfl, by simp [State.mapRecs]⟩

theorem toReporting_step (n : Nat) (o : Option MarkOutcome) (s : State) : MarkStep s (s.toReporting n o) :=
  ⟨rfl, rfl, id, id, rfl, by simp [State.toReporting, State.mapRecs]⟩

theorem onHead_step (h : Nat) (f : MarkHead → MarkHead) (s : State) : MarkStep s (s.onHead h f) :=
  ⟨rfl, rfl, id, id, by simp [State.onHead], rfl⟩

theorem releaseSlot_step (n : Nat) (s : State) : MarkStep s (s.releaseSlot n) := ⟨rfl, rfl, id, id, rfl, rfl⟩

theorem dropWaiting_step (h : Nat) (s : State) : MarkStep s (s.dropWaiting h) := ⟨rfl, rfl, id, id, rfl, rfl⟩

theorem headNote_step (h : Nat) (s : State) : MarkStep s (s.headNote h) := by
  unfold State.headNote
  split
  · exact .refl s
  · exact ⟨rfl, by simp [ReportQueue.used, NoteItem.isEntry], id, id, rfl, rfl⟩

theorem accept_step (h : Nat) (q : StampRequest) (start : Int) (s : State) : MarkStep s (s.accept h q start) :=
  (onHead_step _ _ s).trans (mapRecs_step _ _)

theorem tryHeads_step (q : StampRequest) (hs : List Nat) (s t : State) (e : s.tryHeads q hs = .ok t) : MarkStep s t := by
  induction hs with
  | nil => simp [State.tryHeads] at e
  | cons h hs ih =>
    unfold State.tryHeads at e
    split at e
    · cases e
      exact accept_step _ _ _ s
    · split at e
      · cases e
        exact ih (by assumption)
      · cases e

theorem giveUp_step (q : StampRequest) (o : MarkOutcome) (s : State) : MarkStep s (s.giveUp q o) :=
  (releaseSlot_step _ s).trans (toReporting_step _ _ _)

theorem planOn_step (hs : List Nat) (q : StampRequest) (s : State) : MarkStep s (s.planOn hs q) := by
  unfold State.planOn
  split
  · exact tryHeads_step q hs s _ (by assumption)
  · exact giveUp_step _ _ s

theorem answerLater_step (d : Deferred) (s : State) : MarkStep s (s.answerLater d).1 := by
  unfold State.answerLater
  split
  · rename_i h
    refine ⟨rfl, rfl, fun _ => ?_, id, rfl, rfl⟩
    have h₁ : s.ring.responses.length + s.ring.kept < Config.responsePlaces := by
      simpa using (Bool.and_eq_true_iff.mp h).1
    simp only [State.placeResponse, List.length_append, List.length_cons, List.length_nil]
    change s.ring.responses.length + 1 + s.ring.kept ≤ _
    omega
  · exact ⟨rfl, rfl, id, id, rfl, rfl⟩

theorem setTest_step (m : Option TestMark) (s : State) : MarkStep s { s with mark := { s.mark with test := m } } :=
  ⟨rfl, rfl, id, id, rfl, rfl⟩

theorem endTest_step (o : TestOutcome) (n slot : Nat) (s : State) : MarkStep s (s.endTest o n slot) := by
  unfold State.endTest
  split
  · exact releaseSlot_step _ s
  · exact ((releaseSlot_step _ s).trans (answerLater_step _ _)).trans (setTest_step _ _)

theorem setHeadState_step (h : Nat) (st : HeadState) (s : State) : MarkStep s (s.setHeadState h st) := by
  unfold State.setHeadState
  split
  · exact .refl s
  · exact (onHead_step _ _ s).trans (headNote_step _ _)

theorem replan_step (lost : Bool) (hs : LaneHeads → List Nat) (r : Reservation) (s : State) :
    MarkStep s (s.replan lost hs r) := by
  unfold State.replan
  split
  · exact endTest_step _ _ _ s
  · exact (releaseSlot_step _ s).trans (toReporting_step _ _ _)
  · split
    · exact tryHeads_step _ _ s _ (by assumption)
    · exact giveUp_step _ _ s

theorem replanLost_step (h : Nat) (r : Reservation) (s : State) : MarkStep s (s.replanLost h r) := replan_step _ _ r s

theorem abortEngine_step (h : Nat) (s : State) : MarkStep s (s.abortEngine h) := by
  unfold State.abortEngine
  split
  · rename_i sv r rest _ _
    have h₁ := (onHead_step h (fun m => { m with engine := none, schedule := rest }) s).trans (dropWaiting_step h _)
    simp only
    split
    · split
      · exact (h₁.trans (releaseSlot_step _ _)).trans (toReporting_step _ _ _)
      · exact h₁.trans (endTest_step _ _ _ _)
    · exact h₁.trans (replanLost_step _ _ _)
  · exact onHead_step _ _ s

theorem loseHead_step (h : Nat) (s : State) : MarkStep s (s.loseHead h) :=
  ((abortEngine_step h s).trans (onHead_step _ _ _)).trans (.foldl (fun t r => replanLost_step h r t) _ _)

theorem retryHead_step (h : Nat) (s : State) : MarkStep s (s.retryHead h) :=
  (onHead_step _ _ s).trans (.foldl (fun t r => replan_step _ _ r t) _ _)

theorem takeHeadEntry_step (h : Nat) (old new : HeadRec) (s : State) : MarkStep s (s.takeHeadEntry h old new) := by
  unfold State.takeHeadEntry
  split
  · exact .refl s
  · split
    · exact (setHeadState_step _ _ s).trans (loseHead_step _ _)
    · split
      · exact (setHeadState_step _ _ s).trans (retryHead_step _ _)
      · exact retryHead_step _ s

theorem takeStatus_step (fault : Bool) (code : Byte) (s : State) (h : Nat) : MarkStep s (State.takeStatus fault code s h) := by
  unfold State.takeStatus
  split
  · simp only
    split
    · exact (onHead_step _ _ s).trans (setHeadState_step _ _ _)
    · exact ((onHead_step _ _ s).trans (setHeadState_step _ _ _)).trans (loseHead_step _ _)
    · exact onHead_step _ _ s
  · exact setHeadState_step _ _ s

theorem complete_step (h : Nat) (r : Reservation) (s : State) : MarkStep s (s.complete h r) := by
  unfold State.complete
  simp only
  split
  · exact ((onHead_step _ _ s).trans (releaseSlot_step _ _)).trans (toReporting_step _ _ _)
  · exact (onHead_step _ _ s).trans (endTest_step _ _ _ _)

theorem columnHanded_step (h : Nat) (s : State) : MarkStep s (s.columnHanded h) := by
  unfold State.columnHanded
  split
  · simp only
    split
    · exact (onHead_step _ _ s).trans (complete_step _ _ _)
    · exact onHead_step _ _ s
  · exact .refl s

/-- A frame handed to a marking queue with a free place. -/
theorem hand_step (w : WaitingFrame) (s : State) (room : s.ring.marking.length < Config.markingPlaces) :
    MarkStep s (s.hand w) := by
  have h₁ : MarkStep s { s with ring := { s.ring with marking := s.ring.marking ++ [w.frame] } } :=
    ⟨rfl, rfl, id, fun _ => by simp only [List.length_append, List.length_cons, List.length_nil]; omega, rfl, rfl⟩
  unfold State.hand
  simp only
  split
  · exact h₁.trans (columnHanded_step _ _)
  · exact h₁

theorem leaveWaiting_step (w : WaitingFrame) (s : State) : MarkStep s (s.leaveWaiting w) := by
  have h₁ : MarkStep s { s with
    mark := { s.mark with waiting := s.mark.waiting ++ [w] }
    ring := { s.ring with markWait := bump s.ring.markWait } } := ⟨rfl, rfl, id, id, rfl, rfl⟩
  unfold State.leaveWaiting
  simp only
  split
  · exact h₁.trans (onHead_step _ _ _)
  · exact h₁

theorem offer_step (w : WaitingFrame) (s : State) : MarkStep s (s.offer w) := by
  unfold State.offer
  split
  · exact hand_step w s (by simp_all)
  · exact leaveWaiting_step w s

theorem prime_step (h : Nat) (s : State) : MarkStep s (s.prime h) := by
  unfold State.prime
  split
  · exact .refl s
  · simp only
    split
    · exact ((onHead_step _ _ s).trans (mapRecs_step _ _)).trans (offer_step _ _)
    · exact (onHead_step _ _ s).trans (offer_step _ _)

theorem sendColumn_step (h : Nat) (s : State) : MarkStep s (s.sendColumn h) := by
  unfold State.sendColumn
  split
  · exact offer_step _ s
  · exact .refl s

theorem handWaiting_step (s : State) (room : s.ring.marking.length < Config.markingPlaces) : MarkStep s s.handWaiting := by
  unfold State.handWaiting
  split
  · exact .refl s
  · rename_i w rest _
    have h₁ : MarkStep s { s with mark := { s.mark with waiting := rest } } := ⟨rfl, rfl, id, id, rfl, rfl⟩
    exact h₁.trans (hand_step w _ room)

theorem beginTest_step (src h slot : Nat) (d : Rendered) (s : State) : MarkStep s (s.beginTest src h slot d) := by
  have h₁ : MarkStep s { s with
      img := s.img.set slot (some { holder := .testMark, columns := d.columns })
      mark := { s.mark with test := some { src := src, columns := d.columns.length, cut := d.cut, ended := false } } } :=
    ⟨rfl, rfl, id, id, rfl, rfl⟩
  unfold State.beginTest
  simp only
  split
  · exact (h₁.trans (onHead_step _ _ _)).trans (prime_step _ _)
  · exact h₁.trans (onHead_step _ _ _)

theorem testMark_step (src h value : Nat) (s : State) : MarkStep s (s.testMark src h value).1 := by
  unfold State.testMark
  simp only
  split; · exact .refl s
  split; · exact .refl s
  split; · exact .refl s
  split; · exact .refl s
  split
  · split
    · exact beginTest_step _ _ _ _ s
    · exact .refl s
  · exact .refl s

theorem compose_fst (s : State) (r : HideRec) : (s.compose r).1.seq = r.seq := by
  unfold State.compose HideRec.anchored
  simp only
  split; · rfl
  split; · rfl
  split
  · rfl
  · split
    · rfl
    · unfold HideRec.setFlagIf; split <;> rfl

theorem disposeHide_step (r : HideRec) (c : Composed) (s : State) : MarkStep s (s.disposeHide r c) := by
  unfold State.disposeHide
  split
  · exact toReporting_step _ _ s
  · exact toReporting_step _ _ s
  · exact toReporting_step _ _ s
  · exact planOn_step _ _ s

theorem handOn_step (s : State) (n : Nat) : MarkStep s (s.handOn n) := by
  unfold State.handOn
  simp only
  refine MarkStep.trans ?_ (disposeHide_step _ _ _)
  exact ⟨rfl, rfl, id, id, rfl, by simp⟩

end Sys2Proof.Machine
end

