-- ==== Sys2Proof/Laws/Steps.lean ====
section
/-! SUPPORT. What a step can do, said once per shared form (inversion of stepWhen, onFrame, receive, intake), and what the
large effects (hand-over, apply, lots, arbiter) leave as it is. -/

namespace Sys2Proof.Machine

/-! ## The forms of a step -/

theorem stepWhen_next {s t : State} {due : Bool} {effect : State} (h : stepWhen s due effect = .next t) :
    t = s ∨ (s.powered = true ∧ due = true ∧ t = effect) := by
  unfold stepWhen at h
  split at h
  · cases h
    simp_all
  · cases h
    exact .inl rfl

theorem stepWhen_due {s effect : State} {due : Bool} (hp : s.powered = true) (hd : due = true) :
    stepWhen s due effect = .next effect := by
  simp [stepWhen, hp, hd]

theorem onFrame_next {s t : State} {frame : Option Frame} {effect : Frame → State} (h : onFrame s frame effect = .next t) :
    t = s ∨ ∃ f, frame = some f ∧ s.powered = true ∧ t = effect f := by
  unfold onFrame at h
  split at h
  · rcases stepWhen_next h with h | ⟨h₁, -, h₂⟩
    · exact .inl h
    · exact .inr ⟨_, rfl, h₁, h₂⟩
  · cases h
    exact .inl rfl

theorem onFrame_some {s : State} {f : Frame} {effect : Frame → State} (hp : s.powered = true) :
    onFrame s (some f) effect = .next (effect f) := stepWhen_due hp rfl

/-- A taken frame that is no broadcast goes to its block and nowhere else (R161). -/
theorem receive_own {s : State} {f : Frame} {take : State → State} (h : f.dst ≠ Config.broadcast) :
    s.receive f take = take s := by
  simp [State.receive, h]

/-- What holds of a state, and is kept by forwarding, the arbiter and the taking block, holds after a frame is received. -/
theorem receive_keeps {P : State → Prop} {f : Frame} {take : State → State} {s : State} (h : P s)
    (hf : ∀ u, P u → P (u.forwardFrame f)) (ha : ∀ u, P u → P u.arbitrate) (ht : ∀ u, P u → P (take u)) :
    P (s.receive f take) := by
  unfold State.receive
  split
  · split
    · exact ht _ (ha _ (hf _ h))
    · exact ha _ (hf _ (ht _ h))
  · exact ht _ h

/-- The three things the command intake can do (R163). -/
theorem intake_cases (f : Frame) (body : CommandBody) (s : State) :
    (s.responseRoom = false ∧ s.intake f body = { s with ring := { s.ring with cmdDrop := bump s.ring.cmdDrop } }) ∨
    (s.responseRoom = true ∧
      s.intake f body =
        (((body f.src f.args ((s.reportTo f.src).keepPlace true)).1.keepPlace false).reply f
          (body f.src f.args ((s.reportTo f.src).keepPlace true)).2).arbitrate) := by
  unfold State.intake
  split
  · rename_i h
    exact .inr ⟨h, rfl⟩
  · rename_i h
    exact .inl ⟨by simpa using h, rfl⟩

theorem onCommand_next {s t : State} {kind : Nat → Bool} {bytes : List Byte} {body : CommandBody}
    (h : onCommand kind bytes body s = .next t) :
    t = s ∨ ∃ f, s.command kind bytes = some f ∧ s.powered = true ∧ t = s.receive f (State.intake f body) :=
  onFrame_next h

theorem command_some {s : State} {kind : Nat → Bool} {bytes : List Byte} {f : Frame}
    (ht : s.takenFrame kindCmd bytes = some f) (hk : kind f.command = true) : s.command kind bytes = some f := by
  simp [State.command, ht, hk]

/-! ## The arbiter (R166) -/

/-- All that the arbiter can do: leave the state as it is, or move the front of one buffer, or a note, to a free output. -/
theorem arbitrate_cases (s : State) :
    s.arbitrate = s ∨
    (∃ f rest, s.ring.out = none ∧ s.ring.marking = f :: rest ∧
      s.arbitrate = { s with ring := { s.ring with marking := rest, out := some f } }) ∨
    (∃ f rest, s.ring.out = none ∧ s.ring.marking = [] ∧ s.ring.forward = f :: rest ∧
      s.arbitrate = { s with ring := { s.ring with forward := rest, out := some f } }) ∨
    (∃ f rest, s.ring.out = none ∧ s.ring.marking = [] ∧ s.ring.forward = [] ∧ s.ring.responses = f :: rest ∧
      s.arbitrate = { s with ring := { s.ring with responses := rest, out := some f } }) ∨
    (∃ dst item rest, s.ring.out = none ∧ s.ring.marking = [] ∧ s.ring.forward = [] ∧ s.ring.responses = [] ∧
      s.ring.report = some dst ∧ chooseNote s.cmd.active.notepri s.rep.order = some (item, rest) ∧
      s.arbitrate = { s with
        ring := { s.ring with out := some (mkFrame dst s.ring.addr kindNote (s.notePayload item)) }
        rep := { s.rep with order := rest, waits := s.rep.waits && !item.isEntry } }) := by
  unfold State.arbitrate
  split
  · exact .inl rfl
  · exact .inr (.inl ⟨_, _, ‹_›, ‹_›, rfl⟩)
  · exact .inr (.inr (.inl ⟨_, _, ‹_›, ‹_›, ‹_›, rfl⟩))
  · exact .inr (.inr (.inr (.inl ⟨_, _, ‹_›, ‹_›, ‹_›, ‹_›, rfl⟩)))
  · exact .inl rfl
  · split
    · exact .inl rfl
    · exact .inr (.inr (.inr (.inr ⟨_, _, _, ‹_›, ‹_›, ‹_›, ‹_›, ‹_›, ‹_›, rfl⟩)))

theorem takeFirst_perm {α : Type} (p : α → Bool) (l : List α) (a : α) (rest : List α)
    (h : takeFirst p l = some (a, rest)) : l.Perm (a :: rest) := by
  induction l generalizing a rest with
  | nil => simp [takeFirst] at h
  | cons x l ih =>
    unfold takeFirst at h
    split at h
    · cases h
      exact .refl _
    · rw [Option.map_eq_some_iff] at h
      obtain ⟨⟨b, r⟩, h₁, h₂⟩ := h
      cases h₂
      exact ((ih _ _ h₁).cons x).trans (.swap _ _ _)

theorem arbitrate_used (s : State) : s.arbitrate.rep.used ≤ s.rep.used := by
  rcases arbitrate_cases s with h | ⟨f, r, _, _, h⟩ | ⟨f, r, _, _, _, h⟩ | ⟨f, r, _, _, _, _, h⟩ |
    ⟨d, i, r, _, _, _, _, _, hc, h⟩
  · rw [h]
  · rw [h]
  · rw [h]
  · rw [h]
  · rw [h]
    have hp := takeFirst_perm _ _ _ _ hc
    simp only [ReportQueue.used, hp.countP_eq, List.countP_cons]
    omega

theorem arbitrate_forward (s : State) : s.arbitrate.ring.forward.length ≤ s.ring.forward.length := by
  rcases arbitrate_cases s with h | ⟨f, r, _, h₁, h⟩ | ⟨f, r, _, _, h₁, h⟩ | ⟨f, r, _, _, _, h₁, h⟩ |
    ⟨d, i, r, _, _, _, _, _, hc, h⟩ <;>
    simp_all

theorem arbitrate_responses (s : State) : s.arbitrate.ring.responses.length ≤ s.ring.responses.length := by
  rcases arbitrate_cases s with h | ⟨f, r, _, h₁, h⟩ | ⟨f, r, _, _, h₁, h⟩ | ⟨f, r, _, _, _, h₁, h⟩ |
    ⟨d, i, r, _, _, _, _, _, hc, h⟩ <;>
    simp_all

theorem arbitrate_marking (s : State) : s.arbitrate.ring.marking.length ≤ s.ring.marking.length := by
  rcases arbitrate_cases s with h | ⟨f, r, _, h₁, h⟩ | ⟨f, r, _, _, h₁, h⟩ | ⟨f, r, _, _, _, h₁, h⟩ |
    ⟨d, i, r, _, _, _, _, _, hc, h⟩ <;>
    simp_all

/-! ## Events -/

theorem raiseIn_used (k : EventKind) (l : List NoteItem) :
    (raiseIn k l).countP NoteItem.isEntry = l.countP NoteItem.isEntry := by
  induction l with
  | nil => rfl
  | cons x l ih =>
    cases x with
    | event k' n =>
      simp only [raiseIn]
      split <;> simp [NoteItem.isEntry, ih]
    | hide r n => simp [raiseIn, List.countP_cons, ih]
    | lot n => simp [raiseIn, List.countP_cons, ih]
    | head n => simp [raiseIn, List.countP_cons, ih]

theorem raise_step (k : EventKind) (s : State) : MarkStep s (s.raise k) :=
  ⟨rfl, raiseIn_used k s.rep.order, id, id, rfl, rfl⟩

theorem raiseIf_step (c : Bool) (k : EventKind) (s : State) : MarkStep s (s.raiseIf c k) := by
  cases c
  · exact .refl s
  · exact raise_step k s

theorem raiseTimes_step (n : Nat) (k : EventKind) (s : State) : MarkStep s (s.raiseTimes n k) := by
  unfold State.raiseTimes
  induction n with
  | zero => exact .refl s
  | succ n ih => exact ih.trans (raise_step k _)

/-! ## What holds of a state and every step keeps -/

theorem stepWhen_keeps {P : State → Prop} {s t effect : State} {due : Bool} (h : stepWhen s due effect = .next t) (hs : P s)
    (he : s.powered = true → due = true → P effect) : P t := by
  rcases stepWhen_next h with h | ⟨h₁, h₂, h⟩
  · exact h ▸ hs
  · exact h ▸ he h₁ h₂

theorem onFrame_keeps {P : State → Prop} {s t : State} {frame : Option Frame} {effect : Frame → State}
    (h : onFrame s frame effect = .next t) (hs : P s) (he : ∀ f, frame = some f → P (effect f)) : P t := by
  rcases onFrame_next h with h | ⟨f, h₁, -, h⟩
  · exact h ▸ hs
  · exact h ▸ he f h₁

/-- A property that does not depend on the ring interface, on the arrival order of notes or on a finalization's waiting. -/
def RingFree (P : State → Prop) : Prop :=
  ∀ (s : State) (ring : RingInterface) (order : List NoteItem) (waits : Bool), P s →
    P { s with ring := ring, rep := { s.rep with order := order, waits := waits } }

theorem RingFree.ring {P : State → Prop} (hP : RingFree P) (s : State) (ring : RingInterface) (h : P s) :
    P { s with ring := ring } := hP s ring s.rep.order s.rep.waits h

theorem RingFree.order {P : State → Prop} (hP : RingFree P) (s : State) (order : List NoteItem) (h : P s) :
    P { s with rep := { s.rep with order := order } } := hP s s.ring order s.rep.waits h

theorem RingFree.arbitrate {P : State → Prop} (hP : RingFree P) (s : State) (h : P s) : P s.arbitrate := by
  rcases arbitrate_cases s with e | ⟨f, r, _, _, e⟩ | ⟨f, r, _, _, _, e⟩ | ⟨f, r, _, _, _, _, e⟩ | ⟨d, i, r, _, _, _, _, _, _, e⟩
    <;> rw [e]
  · exact h
  all_goals exact hP s _ _ _ h

theorem RingFree.raise {P : State → Prop} (hP : RingFree P) (k : EventKind) (s : State) (h : P s) : P (s.raise k) :=
  hP.order s _ h

theorem RingFree.forwardFrame {P : State → Prop} (hP : RingFree P) (f : Frame) (s : State) (h : P s) :
    P (s.forwardFrame f) := by
  unfold State.forwardFrame
  split
  · exact hP.ring s _ h
  · exact hP.ring s _ h

theorem RingFree.receive {P : State → Prop} (hP : RingFree P) {f : Frame} {take : State → State} {s : State} (h : P s)
    (ht : ∀ u, P u → P (take u)) : P (s.receive f take) :=
  receive_keeps h (fun u => hP.forwardFrame f u) (fun u => hP.arbitrate u) ht

/-- A property that does not depend on the ring interface is kept by a step about a CMD frame if its command keeps it. -/
theorem RingFree.onCommand {P : State → Prop} (hP : RingFree P) {kind : Nat → Bool} {bytes : List Byte} {body : CommandBody}
    {s t : State} (h : onCommand kind bytes body s = .next t) (hs : P s)
    (hb : ∀ src args u, P u → P (body src args u).1) : P t := by
  refine onFrame_keeps h hs fun f _ => hP.receive hs fun u hu => ?_
  rcases intake_cases f body u with ⟨-, e⟩ | ⟨-, e⟩ <;> rw [e]
  · exact hP.ring u _ hu
  · refine hP.arbitrate _ ?_
    have h₁ := hb f.src f.args _ (hP.ring u _ hu : P ((u.reportTo f.src).keepPlace true))
    unfold State.reply
    split
    · exact hP.ring _ _ (hP.ring _ _ h₁)
    · exact hP.ring _ _ h₁

theorem withoutArgs_keeps {P : State → Prop} {act : Nat → State → State × Option Answer}
    (h : ∀ src u, P u → P (act src u).1) (src : Nat) (args : List Byte) (u : State) (hu : P u) :
    P (withoutArgs act src args u).1 := by
  unfold withoutArgs
  split
  · exact h src u hu
  · exact hu

theorem withByte_keeps {P : State → Prop} {act : Byte → State → State × Option Answer}
    (h : ∀ b u, P u → P (act b u).1) (src : Nat) (args : List Byte) (u : State) (hu : P u) :
    P (withByte act src args u).1 := by
  unfold withByte
  split
  · exact h _ u hu
  · exact hu

/-! ## The hand-over of a line -/

/-- What a step at a line leaves as it is: everything but the assembler, the trackers, the area unit, the marking path, and the
report queue's set flags and finalization list. -/
structure LineStep (s t : State) : Prop where
  frame : t = { s with
    asm := t.asm
    trk := t.trk
    gap := t.gap
    area := t.area
    img := t.img
    mark := t.mark
    rep := { s.rep with finals := t.rep.finals, order := t.rep.order }
    ring := { s.ring with responses := t.ring.responses, deferred := t.ring.deferred, marking := t.ring.marking,
                          markWait := t.ring.markWait } }
  used : t.rep.used = s.rep.used
  responses : s.ring.responses.length + s.ring.kept ≤ Config.responsePlaces →
    t.ring.responses.length + t.ring.kept ≤ Config.responsePlaces
  marking : s.ring.marking.length ≤ Config.markingPlaces → t.ring.marking.length ≤ Config.markingPlaces
  heads : t.mark.heads.length = s.mark.heads.length

theorem LineStep.refl (s : State) : LineStep s s := ⟨rfl, rfl, id, id, rfl⟩

theorem LineStep.trans {s t u : State} (h₁ : LineStep s t) (h₂ : LineStep t u) : LineStep s u := by
  refine ⟨?_, h₂.used.trans h₁.used, h₂.responses ∘ h₁.responses, h₂.marking ∘ h₁.marking, h₂.heads.trans h₁.heads⟩
  have e₁ := h₁.frame
  have e₂ := h₂.frame
  rw [e₂]
  rw [e₁]

theorem MarkStep.line {s t : State} (h : MarkStep s t) : LineStep s t := by
  refine ⟨?_, h.used, h.responses, h.marking, h.heads⟩
  have e := h.frame
  rw [e]

theorem releaseLine_step (line : FormedLine) (s : State) : LineStep s (s.releaseLine line) := by
  have h₀ : LineStep s
      { s with asm := { s.asm with slots := s.asm.slots.drop 1, lastLine := line.number, lastTime := line.time } } :=
    ⟨rfl, rfl, id, id, rfl⟩
  exact h₀.trans (raiseIf_step _ _ _).line

theorem setArea_step (a : AreaUnit) (s : State) : LineStep s { s with area := a } := ⟨rfl, rfl, id, id, rfl⟩

theorem segment_step (line : FormedLine) (s : State) : LineStep s (s.segment line).1 := by
  have h₀ : LineStep s
      { s with trk := (segmentLine (s.run == .run) s.pos.excursion s.ver.lockOpen line s.trk).trk } :=
    ⟨rfl, rfl, id, id, rfl⟩
  exact h₀.trans (raiseTimes_step _ _ _).line

theorem examine_step (line : FormedLine) (merges : List (Nat × Nat)) (advance : Nat) (s : State) :
    LineStep s (s.examine line merges advance) := by
  have h₀ : ∀ g records, LineStep s { s with gap := g, trk := { s.trk with records := records } } :=
    fun _ _ => ⟨rfl, rfl, id, id, rfl⟩
  exact (h₀ _ _).trans (raiseTimes_step _ _ _).line

theorem addStrips_step (advance : Nat) (s : State) : LineStep s (s.addStrips advance) := ⟨rfl, rfl, id, id, rfl⟩

theorem sampleLine_step (sPos : Int) (s : State) : LineStep s (s.sampleLine sPos) := ⟨rfl, rfl, id, id, rfl⟩

theorem reachBoundary_step (s : State) : LineStep s s.reachBoundary := ⟨rfl, rfl, id, id, rfl⟩

theorem closeHides_step (closing : List Nat) (s : State) : LineStep s (s.closeHides closing) := ⟨rfl, rfl, id, id, rfl⟩

theorem passLine_step (line : FormedLine) (s : State) : LineStep s (s.passLine line) := by
  unfold State.passLine
  refine LineStep.trans ?_ (closeHides_step _ _)
  refine LineStep.trans ?_ (sampleLine_step _ _)
  refine LineStep.trans ?_ (addStrips_step _ _)
  refine LineStep.trans ?_ (examine_step _ _ _ _)
  refine LineStep.trans ?_ (segment_step _ _)
  exact (releaseLine_step line s).trans (setArea_step _ _)

theorem takeOldest_step (s : State) : LineStep s s.takeOldest := by
  unfold State.takeOldest
  split
  · exact .refl s
  · exact passLine_step _ s

theorem setHanding_step (h : Option (List Nat)) (s : State) : LineStep s { s with trk := { s.trk with handing := h } } :=
  ⟨rfl, rfl, id, id, rfl⟩

theorem handOnNext_step (s : State) : LineStep s s.handOnNext := by
  unfold State.handOnNext
  split
  · exact .refl s
  · exact reachBoundary_step s
  · exact (handOn_step s _).line.trans (reachBoundary_step _)
  · exact (handOn_step s _).line.trans (setHanding_step _ _)

theorem lineStep_step (s : State) : LineStep s s.lineStep := by
  refine LineStep.trans ?_ (handOnNext_step _)
  split
  · exact takeOldest_step s
  · exact .refl s

end Sys2Proof.Machine
end

