-- ==== Sys2Proof/Laws/Effects.lean ====
section
/-! SUPPORT. What the taking effect of an apply, the lot tally and the later answers leave as it is. -/

namespace Sys2Proof.Machine

/-! ## The lot tally -/

/-- All that the lot tally's operations can do: change the lot slots, the report queue's order and a finalization's waiting. -/
structure LotStep (s t : State) : Prop where
  frame : t = { s with lots := t.lots, rep := { s.rep with order := t.rep.order, waits := t.rep.waits } }
  used : s.rep.used ≤ Config.noteEntries → t.rep.used ≤ Config.noteEntries
  length : t.lots.length = s.lots.length

theorem LotStep.refl (s : State) : LotStep s s := ⟨rfl, id, rfl⟩

theorem LotStep.trans {s t u : State} (h₁ : LotStep s t) (h₂ : LotStep t u) : LotStep s u := by
  refine ⟨?_, h₂.used ∘ h₁.used, h₂.length.trans h₁.length⟩
  have e₁ := h₁.frame
  have e₂ := h₂.frame
  rw [e₂]
  rw [e₁]

theorem LotStep.foldl {α : Type} {f : State → α → State} (hf : ∀ s a, LotStep s (f s a)) (l : List α) (s : State) :
    LotStep s (l.foldl f s) := by
  induction l generalizing s with
  | nil => exact .refl s
  | cons a l ih => exact (hf s a).trans (ih _)

/-- A close takes one entry of the note queue (R131). -/
theorem closeLot_used (n : Nat) (c : CloseCause) (s : State) : (s.closeLot n c).rep.used = s.rep.used + 1 := by
  simp [State.closeLot, ReportQueue.used, NoteItem.isEntry]

theorem closeLot_step (n : Nat) (c : CloseCause) (s : State) (room : s.noteRoom 1 = true) : LotStep s (s.closeLot n c) := by
  refine ⟨rfl, fun _ => ?_, by simp [State.closeLot]⟩
  rw [closeLot_used]
  simpa [State.noteRoom] using room

theorem takeLotSize_step (n : Nat) (new : LotRec) (s : State) : LotStep s (s.takeLotSize n new) := by
  unfold State.takeLotSize
  split
  · split
    · exact closeLot_step _ _ s (by assumption)
    · exact ⟨rfl, id, by simp⟩
  · exact .refl s

theorem takeFirstNo_step (n : Nat) (old new : LotRec) (s : State) : LotStep s (s.takeFirstNo n old new) := by
  unfold State.takeFirstNo
  split
  · exact .refl s
  · exact ⟨rfl, id, by simp⟩

theorem takeLotEntry_step (n : Nat) (old new : LotRec) (s : State) : LotStep s (s.takeLotEntry n old new) := by
  unfold State.takeLotEntry
  split
  · exact .refl s
  · exact (takeLotSize_step _ _ s).trans (takeFirstNo_step _ _ _ _)

theorem applyLots_step (old new : List LotRec) (s : State) : LotStep s (s.applyLots old new) :=
  .foldl (fun t n => takeLotEntry_step n _ _ t) _ s

theorem applyHeads_step (old new : List HeadRec) (s : State) : MarkStep s (s.applyHeads old new) :=
  .foldl (fun t h => takeHeadEntry_step h _ _ t) _ s

theorem commandClose_step (n : Nat) (s : State) : LotStep s (s.commandClose n).1 := by
  unfold State.commandClose
  simp only
  split; · exact .refl s
  split; · exact .refl s
  split; · exact .refl s
  split
  · exact .refl s
  · exact closeLot_step _ _ s (by simp_all)

theorem donePendingClose_step (s : State) (room : s.noteRoom 1 = true) : LotStep s s.donePendingClose := by
  unfold State.donePendingClose
  split
  · have h : ∀ t : State, LotStep t { t with rep := { t.rep with waits := false } } := fun _ => ⟨rfl, id, rfl⟩
    exact (closeLot_step _ _ s room).trans (h _)
  · exact .refl s

/-! ## Finalization -/

theorem countInto_frame (n : Nat) (r : HideRec) (s : State) :
    s.countInto n r = { s with lots := (s.countInto n r).lots, rep := { s.rep with order := (s.countInto n r).rep.order } } := by
  unfold State.countInto
  simp only
  split <;> rfl

/-- The counting of a hide takes one entry of the note queue where it fills the lot (R130). -/
theorem countInto_used (n : Nat) (r : HideRec) (s : State) :
    (s.countInto n r).rep.used = s.rep.used + (if s.fillsLot n = true then 1 else 0) := by
  unfold State.countInto
  simp only
  split
  · rw [closeLot_used]
  · rfl

/-- All that a finalization can change: hide records, the lot slots, and the report queue's list and order. -/
theorem finalizeHide_frame (seq : Nat) (r : HideRec) (s : State) :
    s.finalizeHide seq r = { s with
      trk := { s.trk with records := (s.finalizeHide seq r).trk.records }
      lots := (s.finalizeHide seq r).lots
      rep := { s.rep with finals := (s.finalizeHide seq r).rep.finals, order := (s.finalizeHide seq r).rep.order } } := by
  unfold State.finalizeHide
  simp only
  split
  · unfold State.freeHide State.mapRecs State.appendNote
    simp only
    rw [countInto_frame]
  · rfl

/-- A finalization takes exactly the note queue entries it was judged to need (R129, R130). -/
theorem finalizeHide_used (seq : Nat) (r : HideRec) (s : State) :
    (s.finalizeHide seq r).rep.used = s.rep.used + s.roomNeeded r := by
  unfold State.finalizeHide State.roomNeeded
  simp only
  cases h : r.countsInto with
  | none => simp [State.freeHide, State.mapRecs, State.appendNote, ReportQueue.used, NoteItem.isEntry]
  | some n =>
    have e : ∀ r' s', s'.lots = s.lots → s'.cmd = s.cmd → s'.rep.used = s.rep.used →
        (State.countInto n r' s').rep.used = s.rep.used + (if s.fillsLot n = true then 1 else 0) := by
      intro r' s' h₁ h₂ h₃
      have : s'.fillsLot n = s.fillsLot n := by
        simp only [State.fillsLot, State.lotSlot, State.lotEntry, h₁, h₂]
      rw [countInto_used, h₃, this]
    simp only [ReportQueue.used] at e
    simp only [State.freeHide, State.mapRecs, State.appendNote, ReportQueue.used, List.countP_append, List.countP_cons,
      List.countP_nil, NoteItem.isEntry]
    rw [e _ { s with rep := { s.rep with finals := s.rep.finals.drop 1 } } rfl rfl rfl]
    by_cases hf : s.fillsLot n = true <;> simp [hf]

theorem finalizeFirst_frame (s : State) :
    s.finalizeFirst = { s with
      trk := { s.trk with records := s.finalizeFirst.trk.records }
      lots := s.finalizeFirst.lots
      rep := { s.rep with finals := s.finalizeFirst.rep.finals, order := s.finalizeFirst.rep.order } } := by
  unfold State.finalizeFirst
  split
  · exact finalizeHide_frame _ _ s
  · rfl

/-! ## The taking effect of an apply (R177) -/

/-- All that the first steps of an apply's taking effect can change. -/
theorem applyTables_frame (force : Bool) (s : State) :
    s.applyTables force = { s with
      pos := { s.pos with x := if s.cmd.appliedBank.pitch = s.cmd.active.pitch then s.pos.x else 0 }
      trk := { s.trk with records := (s.applyTables force).trk.records }
      area := { s.area with cumw := deriveCumw s.cmd.appliedBank.cellw }
      cmd := { s.cmd with active := s.cmd.appliedBank } } := by
  unfold State.applyTables State.mapRecs
  simp only
  split <;> split <;> rfl

/-- All that an apply's taking effect can change: the active bank and what follows from it. -/
theorem takeApply_frame (force : Bool) (s : State) :
    s.takeApply force = { s with
      pos := { s.pos with x := if s.cmd.appliedBank.pitch = s.cmd.active.pitch then s.pos.x else 0 }
      strobe := { s.strobe with wait := (s.takeApply force).strobe.wait }
      trk := { s.trk with records := (s.takeApply force).trk.records }
      area := { s.area with cumw := deriveCumw s.cmd.appliedBank.cellw }
      img := (s.takeApply force).img
      mark := (s.takeApply force).mark
      lots := (s.takeApply force).lots
      rep := { s.rep with finals := (s.takeApply force).rep.finals, order := (s.takeApply force).rep.order
                          waits := (s.takeApply force).rep.waits }
      ring := { s.ring with
        responses := (s.takeApply force).ring.responses, deferred := (s.takeApply force).ring.deferred,
        marking := (s.takeApply force).ring.marking, markWait := (s.takeApply force).ring.markWait }
      cmd := { s.cmd with active := s.cmd.appliedBank, states := .clean, pendingApply := none, configured := true } } := by
  have e₁ : s.keepWaiting.applyTables force = { s with
      pos := { s.pos with x := if s.cmd.appliedBank.pitch = s.cmd.active.pitch then s.pos.x else 0 }
      trk := { s.trk with records := (s.keepWaiting.applyTables force).trk.records }
      area := { s.area with cumw := deriveCumw s.cmd.appliedBank.cellw }
      rep := { s.rep with waits := s.keepWaiting.rep.waits }
      cmd := { s.cmd with active := s.cmd.appliedBank } } := applyTables_frame force s.keepWaiting
  have e₂ := (applyHeads_step s.cmd.active.heads s.cmd.appliedBank.heads (s.keepWaiting.applyTables force)).frame
  have e₃ := (applyLots_step s.cmd.active.lots s.cmd.appliedBank.lots
    ((s.keepWaiting.applyTables force).applyHeads s.cmd.active.heads s.cmd.appliedBank.heads)).frame
  rw [e₁] at e₂
  have e₄ : ∀ u : State, u.applyDone.enterWait = { u with
      strobe := { u.strobe with wait := u.applyDone.enterWait.strobe.wait }
      rep := { u.rep with order := u.applyDone.enterWait.rep.order }
      cmd := { u.cmd with states := .clean, pendingApply := none, configured := true } } := by
    intro u
    unfold State.applyDone State.raise State.enterWait
    simp only
    split <;> rfl
  have e₅ : s.takeApply force =
      (((s.keepWaiting.applyTables force).applyHeads s.cmd.active.heads s.cmd.appliedBank.heads).applyLots s.cmd.active.lots
        s.cmd.appliedBank.lots).applyDone.enterWait := rfl
  rw [e₄, e₃, e₁, e₂] at e₅
  rw [e₅]

theorem applyDone_used (s : State) : s.applyDone.rep.used = s.rep.used := raiseIn_used _ _

/-- An apply's taking effect keeps the note queue and the ring's buffers within their places. -/
theorem takeApply_room (force : Bool) (s : State) :
    (s.rep.used ≤ Config.noteEntries → (s.takeApply force).rep.used ≤ Config.noteEntries)
    ∧ (s.ring.responses.length + s.ring.kept ≤ Config.responsePlaces →
        (s.takeApply force).ring.responses.length + (s.takeApply force).ring.kept ≤ Config.responsePlaces)
    ∧ (s.ring.marking.length ≤ Config.markingPlaces → (s.takeApply force).ring.marking.length ≤ Config.markingPlaces)
    ∧ (s.takeApply force).lots.length = s.lots.length := by
  have h₁ := applyHeads_step s.cmd.active.heads s.cmd.appliedBank.heads (s.keepWaiting.applyTables force)
  have h₂ := applyLots_step s.cmd.active.lots s.cmd.appliedBank.lots
    ((s.keepWaiting.applyTables force).applyHeads s.cmd.active.heads s.cmd.appliedBank.heads)
  have h₀ : (s.keepWaiting.applyTables force).rep.used = s.rep.used ∧ (s.keepWaiting.applyTables force).ring = s.ring
      ∧ (s.keepWaiting.applyTables force).lots = s.lots := by
    unfold State.applyTables State.mapRecs
    simp only
    split <;> exact ⟨rfl, rfl, rfl⟩
  have h₃ : ∀ u : State, u.applyDone.enterWait.rep = u.applyDone.rep ∧ u.applyDone.enterWait.ring = u.ring
      ∧ u.applyDone.enterWait.lots = u.lots := by
    intro u
    refine ⟨by simp, by simp [State.applyDone], by simp [State.applyDone]⟩
  have hr : ∀ {a b : State}, LotStep a b → b.ring = a.ring := fun h => by rw [h.frame]
  unfold State.takeApply
  simp only
  rw [(h₃ _).1, (h₃ _).2.1, (h₃ _).2.2, applyDone_used, hr h₂]
  refine ⟨fun h => h₂.used (by rw [h₁.used, h₀.1]; exact h), fun h => h₁.responses (by rw [h₀.2.1]; exact h),
    fun h => h₁.marking (by rw [h₀.2.1]; exact h), ?_⟩
  rw [h₂.length, h₁.lots, h₀.2.2]

/-! ## Later answers (R163) -/

theorem placeDeferred_frame (s : State) :
    s.placeDeferred = { s with
      mark := { s.mark with test := s.placeDeferred.mark.test }
      ring := { s.ring with responses := s.placeDeferred.ring.responses, deferred := s.placeDeferred.ring.deferred } } := by
  unfold State.placeDeferred
  split
  · rfl
  · simp only
    split <;> rfl

/-! ## What a segment finds (R27; log 42) -/

/-- All that can be done next before a segment is judged: a timeout, an apply, the end of the drain's first stage, or a
hand-over, each where it is due. -/
theorem settleNext_cases {s t : State} (h : s.settleNext = some t) : s.strobe.enable = true ∧
    (s.timeoutDue = true ∧ t = s.closeOverdue
      ∨ s.timeoutDue = false ∧ s.atBoundary = true ∧
        (s.applyDue = true ∧ t = s.takePendingApply.arbitrate
          ∨ s.applyDue = false ∧ s.drainFirstDue = true ∧ t = s.endFirstStage
          ∨ s.applyDue = false ∧ s.drainFirstDue = false ∧ s.handoverReady = true ∧ t = s.handOver)) := by
  unfold State.settleNext at h
  split at h
  · cases h
  · rename_i he
    refine ⟨by simpa using he, ?_⟩
    split at h
    · exact .inl ⟨‹_›, (Option.some.inj h).symm⟩
    · split at h
      · cases h
      · rename_i ht hb
        refine .inr ⟨by simpa using ht, by simpa using hb, ?_⟩
        split at h
        · exact .inl ⟨‹_›, (Option.some.inj h).symm⟩
        · have ha : s.applyDue = false := by simpa using ‹¬ s.applyDue = true›
          split at h
          · exact .inr (.inl ⟨ha, ‹_›, (Option.some.inj h).symm⟩)
          · split at h
            · exact .inr (.inr ⟨ha, by simpa using ‹¬ s.drainFirstDue = true›, ‹_›, (Option.some.inj h).symm⟩)
            · cases h

/-- With nothing left to do, nothing is done. -/
theorem settle_none {s : State} (h : s.settleNext = none) : s.settle = s := by
  simp [State.settle, State.settleWithin, h]

/-- A settled assembler finds a segment at once. -/
theorem settle_settled {s : State} (h : s.assemblerSettled = true) : s.settle = s := by
  refine settle_none (Option.eq_none_iff_forall_ne_some.mpr fun t e => ?_)
  simp only [State.assemblerSettled, Bool.and_eq_true, Bool.not_eq_true'] at h
  obtain ⟨-, ⟨ht, -⟩ | ⟨-, -, ⟨ha, -⟩ | ⟨-, hd, -⟩ | ⟨-, -, hr, -⟩⟩⟩ := settleNext_cases e <;> simp_all

/-- With the strobe enable clear nothing is due before a segment. -/
theorem settle_disabled {s : State} (h : s.strobe.enable = false) : s.settle = s :=
  settle_none (by simp [State.settleNext, h])

/-- A property that each such thing keeps holds after all of them. -/
theorem settle_keeps {P : State → Prop} (hP : ∀ s t, P s → s.settleNext = some t → P t) {s : State} (h : P s) : P s.settle := by
  unfold State.settle
  generalize s.asm.slots.length + 3 = n
  induction n generalizing s with
  | zero => exact h
  | succ n ih =>
    rw [State.settleWithin]
    split
    · exact ih (hP _ _ h ‹_›)
    · exact h

end Sys2Proof.Machine
end

