-- ==== Sys2Proof/Laws/Position.lean ====
section
/-! SUPPORT. What a count does to the position, and that it keeps the fractions in their ranges. -/

namespace Sys2Proof.Machine

/-- All that a forward count changes (R6). -/
theorem Position.forward_frame (q : PitchRec) (p : Position) :
    p.forward q = { p with i := (p.forward q).i, f := (p.forward q).f, x := (p.forward q).x } := by
  simp only [Position.forward]
  generalize (if q.pmod ≤ p.x + q.paux then 1 else 0) = c
  generalize (if 2 ^ 24 ≤ p.f + q.pfrac + c then 1 else 0) = d
  split <;> rfl

/-- All that a backward count changes (R7). -/
theorem Position.backward_frame (q : PitchRec) (p : Position) :
    p.backward q = { p with i := (p.backward q).i, f := (p.backward q).f, x := (p.backward q).x } := by
  simp only [Position.backward]
  generalize (if p.x < q.paux then 1 else 0) = c
  generalize (if p.f < q.pfrac + c then 1 else 0) = d
  split <;> rfl

@[simp] theorem Position.forward_hwm (q : PitchRec) (p : Position) : (p.forward q).hwm = p.hwm := by
  rw [forward_frame]

@[simp] theorem Position.forward_excursion (q : PitchRec) (p : Position) : (p.forward q).excursion = p.excursion := by
  rw [forward_frame]

@[simp] theorem Position.backward_hwm (q : PitchRec) (p : Position) : (p.backward q).hwm = p.hwm := by
  rw [backward_frame]

@[simp] theorem Position.backward_excursion (q : PitchRec) (p : Position) : (p.backward q).excursion = p.excursion := by
  rw [backward_frame]

/-- A forward count's carries, and the two things it can do with them (R5, R6). -/
theorem Position.forward_cases (q : PitchRec) (p : Position) :
    ∃ c d : Nat, ((c = 1 ∧ q.pmod ≤ p.x + q.paux) ∨ (c = 0 ∧ p.x + q.paux < q.pmod))
      ∧ ((d = 1 ∧ 2 ^ 24 ≤ p.f + q.pfrac + c) ∨ (d = 0 ∧ p.f + q.pfrac + c < 2 ^ 24))
      ∧ ((posMax < p.i + q.pint + d ∧ p.forward q = p)
        ∨ (p.i + q.pint + d ≤ posMax ∧ p.forward q =
            { p with x := p.x + q.paux - c * q.pmod, f := p.f + q.pfrac + c - d * 2 ^ 24, i := p.i + q.pint + d })) := by
  simp only [Position.forward]
  refine ⟨if q.pmod ≤ p.x + q.paux then 1 else 0,
    if 2 ^ 24 ≤ p.f + q.pfrac + (if q.pmod ≤ p.x + q.paux then 1 else 0) then 1 else 0, ?_, ?_, ?_⟩
  · split
    · exact .inl ⟨rfl, by assumption⟩
    · exact .inr ⟨rfl, by omega⟩
  · generalize (if q.pmod ≤ p.x + q.paux then 1 else 0) = c
    split
    · exact .inl ⟨rfl, by assumption⟩
    · exact .inr ⟨rfl, by omega⟩
  · generalize (if q.pmod ≤ p.x + q.paux then 1 else 0) = c
    generalize (if 2 ^ 24 ≤ p.f + q.pfrac + c then 1 else 0) = d
    by_cases h : posMax < p.i + ((q.pint + d : Nat) : Int)
    · rw [if_pos h]
      exact .inl ⟨by push_cast at h; omega, rfl⟩
    · rw [if_neg h]
      refine .inr ⟨by push_cast at h; omega, ?_⟩
      rw [show p.i + ((q.pint + d : Nat) : Int) = p.i + q.pint + d by push_cast; omega]

/-- A backward count's borrows, and the two things it can do with them (R5, R7). -/
theorem Position.backward_cases (q : PitchRec) (p : Position) :
    ∃ c d : Nat, ((c = 1 ∧ p.x < q.paux) ∨ (c = 0 ∧ q.paux ≤ p.x))
      ∧ ((d = 1 ∧ p.f < q.pfrac + c) ∨ (d = 0 ∧ q.pfrac + c ≤ p.f))
      ∧ ((p.i - q.pint - d < posMin ∧ p.backward q = p)
        ∨ (posMin ≤ p.i - q.pint - d ∧ p.backward q =
            { p with x := p.x + c * q.pmod - q.paux, f := p.f + d * 2 ^ 24 - (q.pfrac + c), i := p.i - q.pint - d })) := by
  simp only [Position.backward]
  refine ⟨if p.x < q.paux then 1 else 0,
    if p.f < q.pfrac + (if p.x < q.paux then 1 else 0) then 1 else 0, ?_, ?_, ?_⟩
  · split
    · exact .inl ⟨rfl, by assumption⟩
    · exact .inr ⟨rfl, by omega⟩
  · generalize (if p.x < q.paux then 1 else 0) = c
    split
    · exact .inl ⟨rfl, by assumption⟩
    · exact .inr ⟨rfl, by omega⟩
  · generalize (if p.x < q.paux then 1 else 0) = c
    generalize (if p.f < q.pfrac + c then 1 else 0) = d
    by_cases h : p.i - ((q.pint + d : Nat) : Int) < posMin
    · rw [if_pos h]
      exact .inl ⟨by push_cast at h; omega, rfl⟩
    · rw [if_neg h]
      refine .inr ⟨by push_cast at h; omega, ?_⟩
      rw [show p.i - ((q.pint + d : Nat) : Int) = p.i - q.pint - d by push_cast; omega]

/-- A forward count keeps I, F and X in their ranges (R5, R6). -/
theorem Position.forward_range (q : PitchRec) (p : Position) (hq : q.InRange) (hf : p.f < 2 ^ 24) (hx : p.x < q.pmod)
    (hi : p.i ≤ posMax) :
    (p.forward q).i ≤ posMax ∧ p.i ≤ (p.forward q).i ∧ (p.forward q).f < 2 ^ 24 ∧ (p.forward q).x < q.pmod := by
  obtain ⟨-, h₁, -, -, h₂⟩ := hq
  obtain ⟨c, d, h₃, h₄, ⟨-, e⟩ | ⟨h₅, e⟩⟩ := p.forward_cases q <;> rw [e]
  · exact ⟨hi, le_refl _, hf, hx⟩
  · refine ⟨h₅, by simp only; omega, ?_, ?_⟩
    · simp only
      rcases h₄ with ⟨rfl, h₄⟩ | ⟨rfl, h₄⟩ <;> omega
    · simp only
      rcases h₃ with ⟨rfl, h₃⟩ | ⟨rfl, h₃⟩ <;> omega

/-- A backward count keeps I, F and X in their ranges (R5, R7). -/
theorem Position.backward_range (q : PitchRec) (p : Position) (hq : q.InRange) (hf : p.f < 2 ^ 24) (hx : p.x < q.pmod)
    (hi : posMin ≤ p.i) :
    posMin ≤ (p.backward q).i ∧ (p.backward q).i ≤ p.i ∧ (p.backward q).f < 2 ^ 24 ∧ (p.backward q).x < q.pmod := by
  obtain ⟨-, h₁, -, -, h₂⟩ := hq
  obtain ⟨c, d, h₃, h₄, ⟨-, e⟩ | ⟨h₅, e⟩⟩ := p.backward_cases q <;> rw [e]
  · exact ⟨hi, le_refl _, hf, hx⟩
  · refine ⟨h₅, by simp only; omega, ?_, ?_⟩
    · simp only
      rcases h₄ with ⟨rfl, h₄⟩ | ⟨rfl, h₄⟩ <;> omega
    · simp only
      rcases h₃ with ⟨rfl, h₃⟩ | ⟨rfl, h₃⟩ <;> omega

end Sys2Proof.Machine
end

