-- ==== Sys2Proof/Laws/View.lean ====
section
/-! SUPPORT. What any step can do to run control, the position, the strobes, the lock and the tables, said once: a list of
moves, and the theorem that every step is a chain of them. An invariant of these parts is then proved move by move. -/

namespace Sys2Proof.Machine

/-- The parts that the moves are about. -/
structure CoreView where
  run : RunState
  pos : Position
  strobe : StrobeGen
  ver : Verification
  cmd : CommandUnit

/-- The parts of a state that the moves are about. -/
def State.view (s : State) : CoreView := { run := s.run, pos := s.pos, strobe := s.strobe, ver := s.ver, cmd := s.cmd }

/-- The sorts of moves: those that restart the position and the strobes, the one that can open the lock, and the others. -/
inductive MoveKind where
  | restart | opens | other
  deriving DecidableEq, Repr

/-- A move: one of the changes that a step can make to those parts. -/
inductive CoreMove : MoveKind → CoreView → CoreView → Prop
  /-- the passing of time (R13, R15, R152) -/
  | time (v : CoreView) (dt : Nat) : CoreMove .other v { v with
      strobe := { v.strobe with
        period := satAdd periodTop v.strobe.period dt, pulse := v.strobe.pulse.map fun p => { p with left := p.left - dt } }
      ver := { v.ver with prog := v.ver.prog.map fun p => { p with left := p.left - dt } } }
  /-- a forward count (R6, R9, R10) -/
  | forward (v : CoreView) : CoreMove .other v { v with pos := (v.pos.forward v.cmd.active.pitch).afterForward }
  /-- a backward count (R7) -/
  | backward (v : CoreView) : CoreMove .other v { v with pos := v.pos.backward v.cmd.active.pitch }
  /-- the start of an excursion (R10) -/
  | excursion (v : CoreView) (h : v.pos.i < v.pos.hwm) : CoreMove .other v { v with pos := { v.pos with excursion := true } }
  /-- the wait state entered (R13) -/
  | wait (v : CoreView) (h₁ : v.strobe.enable = true) (h₂ : v.strobe.next ≤ v.pos.hwm) :
      CoreMove .other v { v with strobe := { v.strobe with wait := true } }
  /-- a strobe (R14) -/
  | strobe (v : CoreView) : CoreMove .other v { v with strobe := v.strobe.afterStrobe v.cmd.active.scan v.pos.hwm }
  /-- the strobe line's pulse ended (R15, R148) -/
  | pulse (v : CoreView) : CoreMove .other v { v with strobe := { v.strobe with pulse := none } }
  /-- a counter of the position unit or the strobe generator set (R4, R180) -/
  | counters (v : CoreView) (n m : Nat) : CoreMove .other v { v with
      pos := { v.pos with encFault := n }, strobe := { v.strobe with delayedCount := m } }
  /-- an apply taking effect (R175, R177) -/
  | apply (v : CoreView) (h : v.ver.lockOpen = true ∨ v.cmd.verifiedModified = false ∨ v.cmd.pendingApply.isSome = true) :
      CoreMove .other v { v with
        pos := { v.pos with x := if v.cmd.appliedBank.pitch = v.cmd.active.pitch then v.pos.x else 0 }
        cmd := { v.cmd with active := v.cmd.appliedBank, states := .clean, pendingApply := none, configured := true } }
  /-- an accepted START (R11, R16, R140) -/
  | start (v : CoreView) : CoreMove .restart v { v with
      run := .run, pos := v.pos.restart, strobe := v.strobe.started v.pos.restart.hwm v.cmd.active.scan.linePitch }
  /-- an accepted STOP (R142) -/
  | stop (v : CoreView) (h : v.run = .run) : CoreMove .other v { v with run := .drainFirst }
  /-- the end of the drain's first stage (R143) -/
  | endFirst (v : CoreView) : CoreMove .other v { v with
      run := .drainSecond, strobe := { v.strobe with enable := false, wait := false } }
  /-- the end of the drain's second stage (R144) -/
  | endSecond (v : CoreView) (h : v.run = .drainSecond) : CoreMove .other v { v with run := .standby }
  /-- a soft reset (R11, R19, R146, R155, R181) -/
  | softReset (v : CoreView) : CoreMove .restart v
      { run := .standby, pos := v.pos.softReset
        strobe := v.strobe.softReset v.pos.softReset.hwm v.cmd.active.scan.linePitch
        ver := v.ver.softReset, cmd := v.cmd.softReset }
  /-- the power-on event (R148) -/
  | powerOn (v : CoreView) (addr : Nat) : CoreMove .restart v (State.afterPowerOn addr v.ver.count []).view
  /-- a switch sample that releases no accepted level (R151) -/
  | switch (v : CoreView) (level : Bool) (h : level = true ∨ (v.ver.switch.sample level).2 ≠ .changed) :
      CoreMove .other v { v with ver := { v.ver with switch := (v.ver.switch.sample level).1 } }
  /-- a switch sample, an OPEN lock closed with it (R154) -/
  | release (v : CoreView) : CoreMove .other v { v with
      ver := { v.ver with switch := (v.ver.switch.sample false).1, lockOpen := false }
      cmd := if v.ver.lockOpen then v.cmd.onLockClose else v.cmd }
  /-- the lock closed by command (R154) -/
  | close (v : CoreView) (h : v.ver.lockOpen = true) : CoreMove .other v { v with
      ver := { v.ver with lockOpen := false }, cmd := v.cmd.onLockClose }
  /-- a programming operation begun, or cut (R152, R155) -/
  | programming (v : CoreView) (p : Option Programming) : CoreMove .other v { v with ver := { v.ver with prog := p } }
  /-- a programming operation completed (R153) -/
  | completed (v : CoreView) (p : Programming) : CoreMove .opens v { v with ver := v.ver.completed p }
  /-- LOAD_BEGIN taken (R150, R170) -/
  | loadBegin (v : CoreView) (t : TableId) (first count : Nat) (down : Bool) (h₁ : v.cmd.pendingApply = none)
      (h₂ : t.verified = true → v.ver.lockOpen = true) :
      CoreMove .other v { v with cmd := v.cmd.startLoad t first count down }
  /-- entries written by a LOAD_DATA (R171) -/
  | loadWrite (v : CoreView) (l l' : Load) (first : Nat) (entries : List (List Byte)) (h₁ : v.cmd.load = some l)
      (h₂ : l'.table = l.table) (h₃ : ∀ e ∈ entries, e.length = l.table.entryLength) :
      CoreMove .other v { v with cmd := { v.cmd with staged := (l.write first entries v.cmd.staged).value, load := some l' } }
  /-- a load ended complete (R173) -/
  | loadEnd (v : CoreView) (l : Load) (h : v.cmd.load = some l) :
      CoreMove .other v { v with cmd := { v.cmd with load := none, states := v.cmd.states.put l.table l.completed } }
  /-- a load ended incomplete (R171, R173) -/
  | tear (v : CoreView) : CoreMove .other v { v with cmd := v.cmd.cancelLoad }
  /-- an APPLY left pending (R175) -/
  | pend (v : CoreView) (p : PendingApply) (h₁ : v.cmd.load = none)
      (h₂ : v.ver.lockOpen = true ∨ v.cmd.verifiedModified = false) :
      CoreMove .other v { v with cmd := { v.cmd with pendingApply := some p } }
  /-- a pending apply dropped (R178) -/
  | cancel (v : CoreView) : CoreMove .other v { v with cmd := { v.cmd with pendingApply := none } }
  /-- a REVERT (R178) -/
  | revert (v : CoreView) (h : v.cmd.pendingApply = none) : CoreMove .other v { v with cmd := v.cmd.reverted }

/-- A chain of moves of some sorts. -/
abbrev CoreMoves (A : MoveKind → Prop) : CoreView → CoreView → Prop :=
  Relation.ReflTransGen fun v w => ∃ k, A k ∧ CoreMove k v w

/-- A property of the parts that every move of some sorts keeps is kept by every chain of them. -/
theorem CoreMoves.keeps {A : MoveKind → Prop} {P : CoreView → Prop} (hP : ∀ k v w, A k → CoreMove k v w → P v → P w)
    {v w : CoreView} (h : CoreMoves A v w) (hv : P v) : P w := by
  induction h with
  | refl => exact hv
  | tail _ h ih =>
    obtain ⟨k, ha, hm⟩ := h
    exact hP k _ _ ha hm ih

theorem ringFree_view (P : CoreView → Prop) : RingFree (fun s => P s.view) := fun _ _ _ _ h => h

/-- A state reached by a chain of moves of some sorts from some parts. -/
def Reaches (A : MoveKind → Prop) (v : CoreView) (s : State) : Prop := CoreMoves A v s.view

variable {A : MoveKind → Prop}

theorem Reaches.ringFree (A : MoveKind → Prop) (v : CoreView) : RingFree (Reaches A v) := ringFree_view (CoreMoves A v)

theorem Reaches.moveOf {v : CoreView} {s t : State} (k : MoveKind) (ha : A k) (h : Reaches A v s)
    (hm : CoreMove k s.view t.view) : Reaches A v t := Relation.ReflTransGen.tail h ⟨k, ha, hm⟩

theorem Reaches.of_view {v : CoreView} {s t : State} (h : Reaches A v s) (e : t.view = s.view) : Reaches A v t := by
  unfold Reaches at *
  rw [e]
  exact h

theorem Reaches.refl (s : State) : Reaches A s.view s := Relation.ReflTransGen.refl

/-! ## Cancelled loads and the close of the lock -/

/-- All that the cancelling of a load changes: the load is gone, its table is TORN (R154, R170). -/
theorem cancelLoad_frame (c : CommandUnit) :
    c.cancelLoad = { c with load := none, states := c.cancelLoad.states } := by
  unfold CommandUnit.cancelLoad
  split
  · rfl
  · rename_i h
    rw [← h]

/-- All that a close of the lock changes at the command unit: a verified load is gone, and with a verified table MODIFIED
then, no apply is pending (R154). -/
theorem onLockClose_frame (c : CommandUnit) :
    c.onLockClose = { c with
      load := if c.verifiedLoad then none else c.load
      states := c.onLockClose.states
      pendingApply := if c.onLockClose.verifiedModified then none else c.pendingApply } := by
  have key : ∀ d : CommandUnit, d = { c with load := if c.verifiedLoad then none else c.load, states := d.states } →
      (if d.verifiedModified then { d with pendingApply := none } else d) = { c with
        load := if c.verifiedLoad then none else c.load
        states := (if d.verifiedModified then { d with pendingApply := none } else d).states
        pendingApply := if (if d.verifiedModified then { d with pendingApply := none } else d).verifiedModified then none
          else c.pendingApply } := by
    intro d hd
    have e : ∀ d : CommandUnit, CommandUnit.verifiedModified { d with pendingApply := none } = d.verifiedModified :=
      fun _ => rfl
    by_cases h : d.verifiedModified = true
    · simp only [h, if_true, e]
      rw [hd]
    · rw [Bool.not_eq_true] at h
      simp only [h, Bool.false_eq_true, if_false]
      exact hd
  refine key _ ?_
  unfold CommandUnit.verifiedLoad
  cases hl : c.load with
  | none => simp [← hl]
  | some l =>
    cases hv : l.table.verified
    · simp only [Option.any, hv, Bool.false_eq_true, if_false, ← hl]
    · simp only [Option.any, hv, if_true]
      exact cancelLoad_frame c

/-! ## The moves of the shared operations -/

theorem passTime_reaches (ho : A .other) {v : CoreView} {s : State} (dt : Nat) (h : Reaches A v s) : Reaches A v (s.passTime dt) := by
  unfold State.passTime
  split
  · exact h.moveOf .other ho (.time s.view dt)
  · exact h

theorem enterWait_reaches (ho : A .other) {v : CoreView} {s : State} (h : Reaches A v s) : Reaches A v s.enterWait := by
  unfold State.enterWait
  split
  · rename_i hw
    simp only [Bool.and_eq_true, State.positionCondition, decide_eq_true_eq] at hw
    exact h.moveOf .other ho (.wait s.view hw.1.1 hw.1.2)
  · exact h

theorem MarkStep.view {s t : State} (h : MarkStep s t) : t.view = s.view := by
  rw [h.frame]
  rfl

theorem LotStep.view {s t : State} (h : LotStep s t) : t.view = s.view := by
  rw [h.frame]
  rfl

theorem LineStep.view {s t : State} (h : LineStep s t) : t.view = s.view := by
  rw [h.frame]
  rfl

theorem takeApply_reaches (ho : A .other) {v : CoreView} {s : State} (force : Bool)
    (hc : s.ver.lockOpen = true ∨ s.cmd.verifiedModified = false ∨ s.cmd.pendingApply.isSome = true) (h : Reaches A v s) :
    Reaches A v (s.takeApply force) := by
  have e : s.takeApply force =
      (((s.keepWaiting.applyTables force).applyHeads s.cmd.active.heads s.cmd.appliedBank.heads).applyLots s.cmd.active.lots
        s.cmd.appliedBank.lots).applyDone.enterWait := rfl
  rw [e]
  refine enterWait_reaches ho (h.moveOf .other ho ?_)
  have h₁ : (((s.keepWaiting.applyTables force).applyHeads s.cmd.active.heads s.cmd.appliedBank.heads).applyLots
        s.cmd.active.lots s.cmd.appliedBank.lots).view = (s.keepWaiting.applyTables force).view := by
    exact (applyLots_step _ _ _).view.trans (applyHeads_step _ _ _).view
  have h₂ : (s.keepWaiting.applyTables force).view = { s.view with
      pos := { s.pos with x := if s.cmd.appliedBank.pitch = s.cmd.active.pitch then s.pos.x else 0 }
      cmd := { s.cmd with active := s.cmd.appliedBank } } := by
    rw [applyTables_frame]
    rfl
  have h₃ : ∀ u : State, u.applyDone.view = { u.view with cmd := { u.cmd with
      states := .clean, pendingApply := none, configured := true } } := fun _ => rfl
  rw [h₃]
  have h₄ : (((s.keepWaiting.applyTables force).applyHeads s.cmd.active.heads s.cmd.appliedBank.heads).applyLots
        s.cmd.active.lots s.cmd.appliedBank.lots).cmd = { s.cmd with active := s.cmd.appliedBank } := congrArg CoreView.cmd (h₁.trans h₂)
  rw [h₁, h₂, h₄]
  exact .apply s.view hc

theorem closeLock_reaches (ho : A .other) {v : CoreView} {s : State} (h : Reaches A v s) : Reaches A v s.closeLock := by
  unfold State.closeLock
  split
  · rename_i hl
    exact h.moveOf .other ho (.close s.view hl)
  · exact h

/-! ## Commands -/

theorem startCommand_reaches (hr : A .restart) {v : CoreView} {s : State} (h : Reaches A v s) : Reaches A v s.startCommand.1 := by
  unfold State.startCommand
  split
  · exact h
  · split
    · exact h
    · exact h.moveOf .restart hr (.start s.view)

theorem stopCommand_reaches (ho : A .other) {v : CoreView} {s : State} (h : Reaches A v s) : Reaches A v s.stopCommand.1 := by
  unfold State.stopCommand
  split
  · exact h
  · exact h.moveOf .other ho (.stop s.view (by assumption))
  · exact h
  · exact h

theorem loadBegin_reaches (ho : A .other) {v : CoreView} {s : State} (code first count dir : Nat) (h : Reaches A v s) :
    Reaches A v (s.loadBegin code first count dir).1 := by
  unfold State.loadBegin
  split
  · exact h
  · rename_i t _
    split
    · exact h
    · split
      · exact h
      · rename_i hp
        split
        · exact h
        · rename_i hl
          refine h.moveOf .other ho (.loadBegin s.view t first count (dir == 1) (by simpa [State.view] using hp) ?_)
          intro hv
          simpa [hv, State.view] using hl

theorem loadData_reaches (ho : A .other) {v : CoreView} {s : State} (l : Load) (first : Nat) (bytes : List Byte) (hl : s.cmd.load = some l)
    (h : Reaches A v s) : Reaches A v (s.loadData l first bytes).1 := by
  have ht : Reaches A v s.tearLoad := h.moveOf .other ho (.tear s.view)
  have hlen : bytes.length % l.table.entryLength = 0 →
      ∀ e ∈ chunks l.table.entryLength (bytes.length / l.table.entryLength) bytes, e.length = l.table.entryLength := by
    intro hm
    have hn := Nat.div_add_mod bytes.length l.table.entryLength
    rw [hm, add_zero] at hn
    revert hn
    generalize bytes.length / l.table.entryLength = n
    induction n generalizing bytes with
    | zero => simp [chunks]
    | succ n ih =>
      intro hn e he
      rw [Nat.mul_succ] at hn
      rcases List.mem_cons.mp he with rfl | he
      · simp only [List.length_take]
        omega
      · exact ih (bytes.drop l.table.entryLength) (by simp only [List.length_drop]; rw [← hn]; simp)
          (by simp only [List.length_drop]; omega) e he
  unfold State.loadData
  simp only
  split
  · exact ht
  · rename_i hb
    rw [not_or, not_not] at hb
    split
    · exact h.moveOf .other ho (.loadWrite s.view l _ first _ hl rfl (hlen hb.1))
    · split
      · exact ht
      · split
        · exact ht
        · exact h.moveOf .other ho (.loadWrite s.view l _ first _ hl rfl (hlen hb.1))

theorem loadEnd_reaches (ho : A .other) {v : CoreView} {s : State} (h : Reaches A v s) : Reaches A v s.loadEnd.1 := by
  unfold State.loadEnd
  split
  · exact h
  · rename_i l hl
    split
    · exact h.moveOf .other ho (.loadEnd s.view l hl)
    · exact h.moveOf .other ho (.tear s.view)

theorem applyCommand_reaches (ho : A .other) {v : CoreView} {s : State} (force : Bool) (h : Reaches A v s) :
    Reaches A v (s.applyCommand force).1 := by
  unfold State.applyCommand
  simp only
  split
  · exact h
  · rename_i hb
    simp only [Bool.or_eq_true, not_or, Option.isSome_iff_ne_none, ne_eq, not_not] at hb
    split
    · exact h
    · split
      · exact h
      · rename_i hl
        have hc : s.ver.lockOpen = true ∨ s.cmd.verifiedModified = false := by
          cases hv : s.cmd.verifiedModified
          · exact .inr rfl
          · rw [hv, Bool.and_true] at hl
            exact .inl (by simpa using hl)
        have hc' : s.ver.lockOpen = true ∨ s.cmd.verifiedModified = false ∨ s.cmd.pendingApply.isSome = true :=
          hc.imp_right .inl
        split
        · exact h
        · split
          · exact takeApply_reaches ho force hc' h
          · split
            · exact takeApply_reaches ho force hc' h
            · exact h.moveOf .other ho (.pend s.view _ hb.1 hc)

theorem revertCommand_reaches (ho : A .other) {v : CoreView} {s : State} (h : Reaches A v s) : Reaches A v s.revertCommand.1 := by
  unfold State.revertCommand
  split
  · exact h
  · rename_i hp
    exact h.moveOf .other ho (.revert s.view (by simpa [State.view] using hp))

theorem openLock_reaches (ho : A .other) {v : CoreView} {s : State} (src : Nat) (h : Reaches A v s) : Reaches A v (s.openLock src).1 := by
  unfold State.openLock
  split
  · exact h
  · split
    · exact h
    · split
      · exact h
      · split
        · exact h
        · exact h.moveOf .other ho (.programming s.view _)

/-! ## What a segment finds (R27) -/

theorem takePendingApply_reaches (ho : A .other) {v : CoreView} {s : State} (h : Reaches A v s) :
    Reaches A v s.takePendingApply := by
  unfold State.takePendingApply
  split
  · rename_i p hp
    exact takeApply_reaches ho _ (.inr (.inr (by rw [hp]; rfl))) h
  · exact h

theorem handLine_reaches {v : CoreView} {s : State} (h : Reaches A v s) : Reaches A v s.handLine :=
  (Reaches.ringFree A v).arbitrate _ (h.of_view (lineStep_step s).view)

theorem handOver_reaches {v : CoreView} {s : State} (h : Reaches A v s) : Reaches A v s.handOver := by
  unfold State.handOver
  simp only
  split
  · exact handLine_reaches h
  · rename_i left _
    generalize left.length = n
    induction n with
    | zero => exact handLine_reaches h
    | succ n ih => exact handLine_reaches ih

theorem enterLine_reaches {v : CoreView} {s : State} (h : Reaches A v s) : Reaches A v s.enterLine := by
  unfold State.enterLine
  split
  · exact (Reaches.ringFree A v).arbitrate _ (h.of_view (takeOldest_step s).view)
  · exact h

theorem settle_reaches (ho : A .other) {v : CoreView} {s : State} (h : Reaches A v s) : Reaches A v s.settle := by
  have R := Reaches.ringFree A v
  refine settle_keeps (fun u t hu e => ?_) h
  obtain ⟨-, ⟨-, rfl⟩ | ⟨-, -, ⟨-, rfl⟩ | ⟨-, -, rfl⟩ | ⟨-, -, -, rfl⟩⟩⟩ := settleNext_cases e
  · exact hu.of_view rfl
  · exact R.arbitrate _ (takePendingApply_reaches ho hu)
  · exact hu.moveOf .other ho (.endFirst u.view)
  · exact handOver_reaches hu

/-- A step about a CMD frame is a chain of moves if its command is. -/
theorem onCommand_reaches {kind : Nat → Bool} {bytes : List Byte} {body : CommandBody} {s t : State}
    (h : onCommand kind bytes body s = .next t)
    (hb : ∀ src args u, Reaches A s.view u → Reaches A s.view (body src args u).1) : Reaches A s.view t :=
  (Reaches.ringFree A s.view).onCommand h (.refl s) hb

/-! ## Every step -/

theorem completeProgramming_reaches (hp : A .opens) {v : CoreView} {s : State} (p : Programming) (h : Reaches A v s) :
    Reaches A v (s.completeProgramming p) := by
  unfold State.completeProgramming
  simp only
  have h₁ : Reaches A v { s with ver := s.ver.completed p } := h.moveOf .opens hp (.completed s.view p)
  split
  · exact h₁
  · exact (h₁.of_view (raiseIf_step _ _ _).view).of_view (answerLater_step _ _).view

/-- The inputs that restart the position and the strobes (R11, R19, R148). -/
def restartsPosition : Instr → Bool
  | .powerOn .. | .start .. | .softReset .. => true
  | _ => false

/-- The one input that can open the verification lock (R153). -/
def canOpenLock : Instr → Bool
  | .programmingCompletion .. => true
  | _ => false

/-- What any command or event can do to run control, the position, the strobes, the lock and the tables: a chain of
moves, a restart only where the input is one, and an opening only where the input is the one that opens. -/
theorem exec_moves {i : Instr} {s t : State} (ho : A .other) (hr : restartsPosition i = true → A .restart)
    (hp : canOpenLock i = true → A .opens) (h : exec i s = .next t) : Reaches A s.view t := by
  have R := Reaches.ringFree A s.view
  have hT : ∀ dt, Reaches A s.view (s.passTime dt) := fun dt => passTime_reaches ho dt (.refl s)
  cases i with
  | powerOn straps =>
    cases h
    exact (Reaches.refl s).moveOf .restart (hr rfl) (.powerOn s.view (strapAddress straps))
  | powerLossOrResetAsserted =>
    cases h
    exact ((Reaches.refl s).moveOf .other ho (t := { s with strobe := { s.strobe with pulse := none } }) (.pulse s.view)).moveOf .other ho
      (.programming _ none)
  | encoderLevelEstablished dt a b => exact stepWhen_keeps h (.refl s) fun _ _ => (hT dt).of_view rfl
  | encoderSample dt a b => exact stepWhen_keeps h (.refl s) fun _ _ => (hT dt).of_view rfl
  | forwardCount dt a b =>
    refine stepWhen_keeps h (.refl s) fun _ _ => enterWait_reaches ho ?_
    exact (hT dt).moveOf .other ho (.forward _)
  | backwardCount dt a b =>
    refine stepWhen_keeps h (.refl s) fun _ _ => ?_
    have h₁ : Reaches A s.view { (s.passTime dt).withSample a b with
        pos := (s.passTime dt).pos.backward (s.passTime dt).cmd.active.pitch } := (hT dt).moveOf .other ho (.backward _)
    unfold State.countBackward
    simp only
    split
    · rename_i hb
      refine R.arbitrate _ ?_
      simp only [Position.beginsExcursion, Bool.and_eq_true, decide_eq_true_eq] at hb
      refine h₁.moveOf .other ho (.excursion _ ?_)
      simp only [State.view]
      simp only [State.withSample] at hb
      omega
    · exact h₁
  | encoderFault dt a b =>
    refine stepWhen_keeps h (.refl s) fun _ _ => R.arbitrate _ ?_
    exact (hT dt).moveOf .other ho (.counters _ _ _)
  | strobe dt =>
    refine stepWhen_keeps h (.refl s) fun _ _ => ?_
    have h₁ : ∀ asm, Reaches A s.view { s.passTime dt with
        strobe := (s.passTime dt).strobe.afterStrobe (s.passTime dt).cmd.active.scan (s.passTime dt).pos.hwm, asm := asm } :=
      fun _ => (hT dt).moveOf .other ho (.strobe _)
    unfold State.issueStrobe
    simp only
    split
    · exact R.arbitrate _ (R.raise _ _ (h₁ _))
    · exact h₁ _
  | pulseEnd dt => exact stepWhen_keeps h (.refl s) fun _ _ => (hT dt).moveOf .other ho (.pulse _)
  | lineTimeout => exact stepWhen_keeps h (.refl s) fun _ _ => (Reaches.refl s).of_view rfl
  | seg b =>
    refine onFrame_keeps h (.refl s) fun f _ => R.receive (.refl s) fun u hu => ?_
    have hv := settle_reaches ho hu
    unfold State.takeSegment State.judgeSegment
    split
    · exact hv
    · split <;> exact hv.of_view rfl
  | hstat b =>
    refine onFrame_keeps h (.refl s) fun f _ => R.receive (.refl s) fun u hu => ?_
    unfold State.takeHstat
    simp only
    split
    · split
      · exact hu.of_view rfl
      · split
        · exact hu.of_view rfl
        · exact R.arbitrate _ (hu.of_view (MarkStep.foldl (takeStatus_step _ _) _ u).view)
    · exact hu.of_view rfl
  | forwardedFrame b => exact onFrame_keeps h (.refl s) fun f _ => R.arbitrate _ (R.forwardFrame f _ (.refl s))
  | badFrame b => exact stepWhen_keeps h (.refl s) fun _ _ => R.ring s _ (.refl s)
  | returnedFrame b => exact onFrame_keeps h (.refl s) fun _ _ => R.ring s _ (.refl s)
  | kindErr b => exact onFrame_keeps h (.refl s) fun _ _ => R.ring s _ (.refl s)
  | lineHandover => exact stepWhen_keeps h (.refl s) fun _ _ => handLine_reaches (.refl s)
  | enginePrime hd =>
    exact stepWhen_keeps h (.refl s) fun _ _ => R.arbitrate _ ((Reaches.refl s).of_view (prime_step _ s).view)
  | columnSend hd =>
    exact stepWhen_keeps h (.refl s) fun _ _ => R.arbitrate _ ((Reaches.refl s).of_view (sendColumn_step _ s).view)
  | waitingFrameHanded =>
    refine stepWhen_keeps h (.refl s) fun _ hd => R.arbitrate _ ((Reaches.refl s).of_view (handWaiting_step s ?_).view)
    simp only [State.waitingHandDue, Bool.and_eq_true, decide_eq_true_eq] at hd
    exact hd.2
  | applyTakesEffect =>
    exact stepWhen_keeps h (.refl s) fun _ _ => R.arbitrate _ (takePendingApply_reaches ho (.refl s))
  | drainFirstStageEnd => exact stepWhen_keeps h (.refl s) fun _ _ => (Reaches.refl s).moveOf .other ho (.endFirst s.view)
  | drainSecondStageEnd =>
    refine stepWhen_keeps h (.refl s) fun _ hd => R.arbitrate _ (R.raise _ _ ((Reaches.refl s).moveOf .other ho (.endSecond s.view ?_)))
    simp only [State.drainSecondDue, Bool.and_eq_true, beq_iff_eq] at hd
    exact hd.1.1
  | finalization =>
    refine stepWhen_keeps h (.refl s) fun _ _ => R.arbitrate _ ((Reaches.refl s).of_view ?_)
    rw [finalizeFirst_frame]
    rfl
  | pendingLotClose =>
    refine stepWhen_keeps h (.refl s) fun _ hd => R.arbitrate _ ((Reaches.refl s).of_view (donePendingClose_step s ?_).view)
    simp only [State.pendingCloseDue, Bool.and_eq_true] at hd
    exact hd.2
  | transmissionEnd dt => exact stepWhen_keeps h (.refl s) fun _ _ => R.arbitrate _ (R.ring _ _ (hT dt))
  | deferredAnswerPlaced =>
    refine stepWhen_keeps h (.refl s) fun _ _ => R.arbitrate _ ((Reaches.refl s).of_view ?_)
    rw [placeDeferred_frame]
    rfl
  | switchLevelEstablished dt a =>
    refine stepWhen_keeps h (.refl s) fun _ hd => (hT dt).moveOf .other ho (.switch _ a (.inr ?_))
    simp only [State.switchChange, beq_iff_eq] at hd
    change ((s.passTime dt).ver.switch.sample a).2 ≠ _
    rw [hd]
    decide
  | switchSample dt a =>
    refine stepWhen_keeps h (.refl s) fun _ hd => (hT dt).moveOf .other ho (.switch _ a (.inr ?_))
    simp only [State.switchChange, beq_iff_eq] at hd
    change ((s.passTime dt).ver.switch.sample a).2 ≠ _
    rw [hd]
    decide
  | switchAsserted dt => exact stepWhen_keeps h (.refl s) fun _ _ => (hT dt).moveOf .other ho (.switch _ true (.inl rfl))
  | switchReleased dt =>
    refine stepWhen_keeps h (.refl s) fun _ _ => R.arbitrate _ ((hT dt).moveOf .other ho ?_)
    have e : ((s.passTime dt).withSwitch false).closeLock.view = { (s.passTime dt).view with
        ver := { (s.passTime dt).ver with switch := ((s.passTime dt).ver.switch.sample false).1, lockOpen := false }
        cmd := if (s.passTime dt).ver.lockOpen then (s.passTime dt).cmd.onLockClose else (s.passTime dt).cmd } := by
      unfold State.closeLock State.withSwitch
      simp only
      split
      · rfl
      · rename_i ho
        rw [Bool.not_eq_true] at ho
        simp only [State.view, ho]
    rw [e]
    exact .release _
  | programmingCompletion dt =>
    refine stepWhen_keeps h (.refl s) fun _ _ => R.arbitrate _ ?_
    unfold State.finishProgramming
    split
    · exact completeProgramming_reaches (hp rfl) _ (hT dt)
    · exact hT dt
  | status b => exact onCommand_reaches h (withByte_keeps fun _ _ hu => hu)
  | counters b =>
    refine onCommand_reaches h (withByte_keeps fun b u hu => ?_)
    simp only
    split
    · exact hu
    · split
      · exact hu.moveOf .other ho (.counters u.view 0 0)
      · exact hu
  | start b => exact onCommand_reaches h (withoutArgs_keeps fun _ _ hu => startCommand_reaches (hr rfl) hu)
  | stop b => exact onCommand_reaches h (withoutArgs_keeps fun _ _ hu => stopCommand_reaches ho hu)
  | softReset b => exact onCommand_reaches h (withoutArgs_keeps fun _ u hu => hu.moveOf .restart (hr rfl) (.softReset u.view))
  | loadBegin b =>
    refine onCommand_reaches h fun src args u hu => ?_
    unfold bodyLoadBegin
    split
    · exact loadBegin_reaches ho _ _ _ _ hu
    · exact hu
  | loadData b =>
    refine onCommand_reaches h fun src args u hu => ?_
    unfold bodyLoadData
    split
    · exact hu
    · exact hu
    · exact loadData_reaches ho _ _ _ (by assumption) hu
    · exact hu.moveOf .other ho (.tear u.view)
  | loadEnd b => exact onCommand_reaches h (withoutArgs_keeps fun _ _ hu => loadEnd_reaches ho hu)
  | readTable b =>
    refine onCommand_reaches h fun src args u hu => ?_
    unfold bodyReadTable
    split <;> exact hu
  | apply b midLine =>
    have h₀ : Reaches A s.view (if midLine && (s.command (· == codeApply) b).isSome then s.enterLine else s) := by
      split
      · exact enterLine_reaches (.refl s)
      · exact .refl s
    refine R.onCommand h h₀ (withByte_keeps fun b u hu => ?_)
    split
    · exact applyCommand_reaches ho _ hu
    · split
      · exact applyCommand_reaches ho _ hu
      · exact hu
  | cancelApply b => exact onCommand_reaches h (withoutArgs_keeps fun _ u hu => hu.moveOf .other ho (.cancel u.view))
  | revert b => exact onCommand_reaches h (withoutArgs_keeps fun _ _ hu => revertCommand_reaches ho hu)
  | verifyOpen b => exact onCommand_reaches h (withoutArgs_keeps fun _ _ hu => openLock_reaches ho _ hu)
  | verifyClose b => exact onCommand_reaches h (withoutArgs_keeps fun _ _ hu => closeLock_reaches ho hu)
  | verifyStatus b => exact onCommand_reaches h (withoutArgs_keeps fun _ _ hu => hu)
  | closeLot b =>
    exact onCommand_reaches h (withByte_keeps fun _ u hu => hu.of_view (commandClose_step _ u).view)
  | testMark b =>
    refine onCommand_reaches h fun src args u hu => ?_
    unfold bodyTestMark
    split
    · exact hu.of_view (testMark_step _ _ _ u).view
    · exact hu
  | unknownCommand b => exact onCommand_reaches h fun _ _ _ hu => hu

/-- What any step can do to those parts. -/
theorem step_moves {s t : State} (h : step s = .next t) : Reaches (fun _ => True) s.view t := by
  unfold step at h
  split at h
  · rename_i rest _
    exact exec_moves (s := { s with pending := rest }) trivial (fun _ => trivial) (fun _ => trivial) h
  · unfold State.idle at h
    split at h
    · split at h
      · exact exec_moves trivial (fun _ => trivial) (fun _ => trivial) h
      · cases h
        exact passTime_reaches (A := fun _ => True) trivial 1 (.refl s)
    · cases h
      exact .refl s

end Sys2Proof.Machine
end

