-- ==== Sys2Proof/WellFormed.lean ====
section
/-! DEFINITION. Which terms of `Instr` are well formed: the frame operand of a row is a frame that row can be about,
whatever the state. -/

namespace Sys2Proof
open Machine

/-- A good frame of a kind. -/
def goodOfKind (k : Nat) (bytes : List Byte) : Bool :=
  match parseFrame bytes with
  | some f => f.kind.toNat == k
  | none => false

/-- A good CMD frame of a command kind whose source can be answered (R161). -/
def goodCommand (code : Nat) (bytes : List Byte) : Bool :=
  match parseFrame bytes with
  | some f => f.kind.toNat == kindCmd && f.src != Config.broadcast && f.command == code
  | none => false

/-- A good CMD frame whose command kind is none of section 13.3 (R168, R183). -/
def goodUnknownCommand (bytes : List Byte) : Bool :=
  match parseFrame bytes with
  | some f => f.kind.toNat == kindCmd && f.src != Config.broadcast && !knownCommand f.command
  | none => false

/-- The well-formed steps. -/
def Instr.wellFormed : Instr → Bool
  | .seg bytes => goodOfKind kindSeg bytes
  | .hstat bytes => goodOfKind kindHstat bytes
  | .forwardedFrame bytes => (parseFrame bytes).isSome
  | .badFrame bytes => (parseFrame bytes).isNone
  | .returnedFrame bytes => (parseFrame bytes).isSome
  | .kindErr bytes => (parseFrame bytes).isSome
  | .status bytes => goodCommand codeStatus bytes
  | .counters bytes => goodCommand codeCounters bytes
  | .start bytes => goodCommand codeStart bytes
  | .stop bytes => goodCommand codeStop bytes
  | .softReset bytes => goodCommand codeSoftReset bytes
  | .loadBegin bytes => goodCommand codeLoadBegin bytes
  | .loadData bytes => goodCommand codeLoadData bytes
  | .loadEnd bytes => goodCommand codeLoadEnd bytes
  | .readTable bytes => goodCommand codeReadTable bytes
  | .apply bytes _ => goodCommand codeApply bytes
  | .cancelApply bytes => goodCommand codeCancelApply bytes
  | .revert bytes => goodCommand codeRevert bytes
  | .verifyOpen bytes => goodCommand codeVerifyOpen bytes
  | .verifyClose bytes => goodCommand codeVerifyClose bytes
  | .verifyStatus bytes => goodCommand codeVerifyStatus bytes
  | .closeLot bytes => goodCommand codeCloseLot bytes
  | .testMark bytes => goodCommand codeTestMark bytes
  | .unknownCommand bytes => goodUnknownCommand bytes
  | .powerOn _ => true
  | .encoderLevelEstablished _ _ _ => true
  | .forwardCount _ _ _ => true
  | .backwardCount _ _ _ => true
  | .encoderFault _ _ _ => true
  | .strobe _ => true
  | .pulseEnd _ => true
  | .lineTimeout => true
  | .lineHandover => true
  | .enginePrime _ => true
  | .columnSend _ => true
  | .waitingFrameHanded => true
  | .applyTakesEffect => true
  | .drainFirstStageEnd => true
  | .drainSecondStageEnd => true
  | .finalization => true
  | .pendingLotClose => true
  | .transmissionEnd _ => true
  | .deferredAnswerPlaced => true
  | .switchLevelEstablished _ _ => true
  | .switchAsserted _ => true
  | .switchReleased _ => true
  | .programmingCompletion _ => true
  | .encoderSample _ _ _ => true
  | .switchSample _ _ => true
  | .powerLossOrResetAsserted => true

end Sys2Proof
end

