-- ==== Sys2Proof/Tests/Slice0.lean ====
section
/-! SUPPORT. Tests by evaluation: ill-formed terms that WellFormed refuses, single steps and operations with results from the
spec's own worked examples and rules, and for every statement with hypotheses a state that meets them. -/

namespace Sys2Proof.Tests
open Sys2Proof Sys2Proof.Machine

/-! ## Small states and frames -/

/-- The state that a step answers. -/
def after (i : Instr) (s : State) : State :=
  match exec i s with
  | .next t => t
  | _ => s

/-- A CMD frame from node 5 to the part's address at reset. -/
def cmdFrame (code : Nat) (args : List Byte) : Frame := mkFrame 0 5 kindCmd (BitVec.ofNat 8 code :: args)

/-- The bytes of such a frame. -/
def cmd (code : Nat) (args : List Byte) : List Byte := (cmdFrame code args).bytes

/-- A frame from node 12 to the part's address at reset. -/
def frame (kind : Nat) (payload : List Byte) : Frame := mkFrame 0 12 kind payload

/-- The part at reset. -/
def idle : State := State.reset

/-- The part with an active bank. -/
def withActive (b : Tables) (s : State) : State := { s with cmd := { s.cmd with active := b } }

/-- The part in RUN, configured, strobes enabled. -/
def running : State :=
  { idle with
    run := .run
    strobe := { idle.strobe with enable := true }
    cmd := { idle.cmd with configured := true } }

/-- The bank of section 1.4: 31.415927 µm per count. -/
def pitch14 : PitchRec := { pint := 31, pfrac := 6978097, pmod := 15625, paux := 1863 }

/-- The part with the PITCH of section 1.4, both encoder channels established at 0. -/
def counting : State :=
  { withActive { Tables.default with pitch := pitch14 } idle with
    encA := { accepted := some false, run := 2, cand := true }
    encB := { accepted := some false, run := 2, cand := true } }

/-- A record with a state and a number. -/
def hideIn (st : HideState) (seq : Nat) : HideRec := { HideRec.free with state := st, seq := seq }

/-- The table of records that begins with some records. -/
def recordsOf (rs : List HideRec) : List HideRec := rs ++ List.replicate (48 - rs.length) .free

/-- The part with some hide records. -/
def withHides (rs : List HideRec) (s : State) : State := { s with trk := { s.trk with records := recordsOf rs } }

/-- The part with some of its frames waiting. -/
def withRing (f : RingInterface → RingInterface) (s : State) : State := { s with ring := f s.ring }

/-! ## WellFormed refuses ill-formed terms -/

theorem test_wf_seg_of_another_kind : Instr.wellFormed (.seg (frame kindHstat [0, 0]).bytes) = false := by decide +kernel
theorem test_wf_hstat_of_another_kind : Instr.wellFormed (.hstat (frame kindSeg [0, 0]).bytes) = false := by decide +kernel
theorem test_wf_forwarded_bad_frame : Instr.wellFormed (.forwardedFrame [0, 12, 1, 0, 0, 0]) = false := by decide +kernel
theorem test_wf_bad_frame_that_is_good : Instr.wellFormed (.badFrame (frame kindSeg []).bytes) = false := by decide +kernel
theorem test_wf_returned_bad_frame : Instr.wellFormed (.returnedFrame []) = false := by decide +kernel
theorem test_wf_kind_err_bad_frame : Instr.wellFormed (.kindErr [1, 2, 3]) = false := by decide +kernel
theorem test_wf_command_of_another_code :
    [Instr.status (cmd 2 []), .counters (cmd 1 []), .start (cmd 4 []), .stop (cmd 3 []), .softReset (cmd 6 []),
      .loadBegin (cmd 5 []), .loadData (cmd 8 []), .loadEnd (cmd 7 []), .readTable (cmd 10 []), .apply (cmd 9 []) false,
      .cancelApply (cmd 12 []), .revert (cmd 11 []), .verifyOpen (cmd 14 []), .verifyClose (cmd 13 []),
      .verifyStatus (cmd 16 []), .closeLot (cmd 15 []), .testMark (cmd 18 [])].all (fun i => !i.wellFormed) = true := by
  decide +kernel
theorem test_wf_unknown_command_that_is_known : Instr.wellFormed (.unknownCommand (cmd 17 [])) = false := by decide +kernel
theorem test_wf_command_from_broadcast :
    Instr.wellFormed (.start (mkFrame 0 31 kindCmd [3]).bytes) = false := by decide +kernel
theorem test_wf_good_terms :
    [Instr.start (cmd 3 []), .unknownCommand (cmd 18 []), .unknownCommand (frame kindCmd []).bytes,
      .seg (frame kindSeg []).bytes, .badFrame [], .lineHandover].all Instr.wellFormed = true := by decide +kernel

/-! ## Frames (section 13.1) -/

/-- The usual check string of this CRC: its value over the digits 1 to 9 is 0x29B1. -/
theorem test_crc_check_value : crc16 [0x31, 0x32, 0x33, 0x34, 0x35, 0x36, 0x37, 0x38, 0x39] = 0x29B1#16 := by decide +kernel
theorem test_frame_header : (mkFrame 3 9 4 [7]).body = [3, 9, 4, 1, 7] := by decide
theorem test_signed_field : beInt 6 (-2) = [255, 255, 255, 255, 255, 254] := by decide
theorem test_decode_has_no_words : decodeTableWord 8 0 = none := by decide

/-! ## Position and strobes (chapter 1) -/

def at14 (i : Int) (f x : Nat) : Position := { i := i, f := f, x := x, hwm := i, excursion := false, encFault := 0 }

/-- Section 1.4, the third count: both fractions carried. -/
theorem test_forward_carries : (at14 62 13956194 3726).forward pitch14 = { at14 62 13956194 3726 with i := 94, f := 4157075, x := 5589 } := by
  decide
/-- Section 1.4, the backward count from the third state gives the second. -/
theorem test_backward_borrows : ((at14 94 4157075 5589).backward pitch14).i = 62 ∧ ((at14 94 4157075 5589).backward pitch14).f = 13956194
    ∧ ((at14 94 4157075 5589).backward pitch14).x = 3726 := by decide
/-- R5: a count that would leave the range of I leaves all three parts. -/
theorem test_count_at_the_end_of_the_range : (at14 posMax 16777215 0).forward pitch14 = at14 posMax 16777215 0 := by decide
/-- R3: A leads B: forward. -/
theorem test_forward_step : (after (.forwardCount 1 true false) counting).pos.i = 31 := by decide +kernel
theorem test_backward_step : (after (.backwardCount 1 false true) counting).pos.i = -32 := by decide +kernel
/-- R4: both channels change. -/
theorem test_encoder_fault : (after (.encoderFault 1 true true) counting).pos.encFault = 1
    ∧ (after (.encoderFault 1 true true) counting).pos.i = 0 := by decide +kernel
/-- R2: three equal samples establish a level. -/
theorem test_level_established :
    (after (.encoderLevelEstablished 1 true true)
      { idle with encA := { accepted := none, run := 2, cand := true } }).encA.accepted = some true := by decide +kernel
/-- R1: a differing sample after one that did not starts the run at 1. -/
theorem test_encoder_sample :
    (after (.encoderSample 1 true false) { counting with encA := { accepted := some false, run := 0, cand := true },
                                                          encB := { accepted := some false, run := 1, cand := true } }).encA.run = 1 := by
  decide +kernel

/-- Section 1.8, line 0: the HWM at 12,250, NEXT 11,600, DELAYED. -/
def overspeed : State :=
  { running with
    pos := { i := 12250, f := 0, x := 0, hwm := 12250, excursion := false, encFault := 0 }
    strobe := { running.strobe with next := 11600, period := 1499, wait := true }
    cmd := { running.cmd with active := { Tables.default with scan := { ScanRec.default with minStrobe := 1500 } } } }

theorem test_strobe_delayed : (after (.strobe 1) overspeed).strobe.next = 13850
    ∧ (after (.strobe 1) overspeed).asm.slots.map LineSlot.delayed = [true] := by decide +kernel
/-- Section 1.8, lines 2 and 3: a period of 1,600 after 1,500 is out of the window, after 1,600 in it. -/
theorem test_period_window : inWindowPeriod 13 1500 1600 = false ∧ inWindowPeriod 13 1600 1600 = true := by decide
theorem test_pulse_end : (after (.pulseEnd 2) { running with strobe := { running.strobe with pulse := some { sync := false, left := 2 } } }).strobe.pulse = none := by
  decide +kernel

/-! ## Lines (chapter 2) -/

def spans (l : List (Nat × Nat)) : List Span := l.map fun p => { first := p.1, last := p.2 }

/-- The slot of section 2.8. -/
def slot28 (head1 : Arrival) : LineSlot :=
  { number := 517, s := 827200, time := 0, delayed := false, steady := true, expected := 7, winStart := 1290, winEnd := 2040,
    barReverse := true, minRun := 3
    entries := [.usable (spans [(3, 40), (100, 101), (250, 255)]) false, head1, .usable (spans [(10, 12), (240, 255)]) false]
      ++ List.replicate 5 .notArrived
    ready := true, gapped := false }

def runsOf (l : FormedLine) : List (Nat × Nat × Bool) := l.runs.map fun r => (r.first, r.last, r.edge)

/-- Section 2.8: the run list of line 517. -/
theorem test_line_formed : runsOf (formLine (slot28 (.usable (spans [(0, 19), (200, 203)]) false)))
    = [(1290, 1295, true), (1523, 1525, false), (1588, 1591, false), (1772, 1797, false), (2007, 2040, true)] := by
  decide +kernel
/-- Section 2.8, with head 1's segment lost. -/
theorem test_line_with_lost_segment : runsOf (formLine (slot28 .unusable))
      = [(1290, 1295, true), (1523, 1525, false), (1792, 1797, false), (2007, 2040, true)]
    ∧ (formLine (slot28 .unusable)).missing = spans [(1536, 1791)] := by decide +kernel

/-- A line slot that waits for its heads. -/
def openSlot (n : LineNo) (expected : BitVec 8) : LineSlot :=
  { slot28 .notArrived with number := n, expected := expected, entries := List.replicate 8 .notArrived, ready := false }

/-- The part in RUN with some line slots, before a line number. -/
def withSlots (slots : List LineSlot) (next : LineNo) (s : State) : State :=
  { s with asm := { s.asm with slots := slots }, strobe := { s.strobe with nextLine := next } }

/-- Section 2.9: at the strobe of 522, line 518 is closed GAPPED, line 521 stays. -/
theorem test_line_timeout :
    (after .lineTimeout (withSlots [openSlot 518 7, openSlot 521 7, openSlot 522 7] 523 running)).asm.slots.map
      (fun s => (s.ready, s.gapped)) = [(true, true), (false, false), (false, false)] := by decide +kernel

/-- A SEG payload: line, head, flags, runs (section 13.2). -/
def segPayload (line : Nat) (head flags : Byte) (runs : List (Byte × Byte)) : List Byte :=
  beBytes 2 line ++ [head, flags, BitVec.ofNat 8 runs.length] ++ runs.flatMap fun r => [r.1, r.2]

def seg (line : Nat) (head flags : Byte) (runs : List (Byte × Byte)) : List Byte :=
  (frame kindSeg (segPayload line head flags runs)).bytes

/-- Section 2.9: the segment of 518 after the window stands at 521 is late. -/
theorem test_segment_late :
    (after (.seg (seg 518 1 0 [])) (withSlots [openSlot 521 7, openSlot 522 7] 523 running)).asm.lateSeg = 1 := by
  decide +kernel
/-- R27: the strobe of 522 taken first closes 518, and its segment is late. -/
theorem test_segment_after_strobe :
    let t := after (.seg (seg 518 1 0 [])) (withSlots [openSlot 518 7, openSlot 519 7, openSlot 520 7, openSlot 521 7, openSlot 522 7] 523 running)
    t.asm.lateSeg = 1 ∧ t.asm.lastLine = 518 ∧ t.rep.order = [.event .lineGapped 1] := by decide +kernel
theorem test_segment_completes_line :
    (after (.seg (seg 521 0 0 [(3, 40)])) (withSlots [openSlot 521 1] 522 running)).asm.slots.map LineSlot.ready = [true] := by
  decide +kernel

/-! ## Hides, gaps and areas (chapters 3 to 5) -/

/-- A READY line whose runs are one list under head 2, BAR_REVERSE OFF. -/
def lineOf (n : LineNo) (s : Int) (runs : List (Nat × Nat)) : LineSlot :=
  { slot28 .notArrived with
    number := n, s := s, expected := 4, winStart := 0, winEnd := 2047, barReverse := false, minRun := 2
    entries := [.notArrived, .notArrived, .usable (spans runs) false] ++ List.replicate 5 .notArrived }

/-- The U-shaped side of section 3.7 before line 204, its cells counted from 512 on: records 7 and 8 hold hides 41 and 42. -/
def beforeMerge : State :=
  let arm := fun seq lo hi covered => { hideIn .isOpen seq with
    firstLine := 200, leading := 320000, lastLine := 203, trailing := 324800, cellMin := lo, cellMax := hi, lineCount := 4,
    covered := covered }
  { running with
    trk := { running.trk with
      records := recordsOf (List.replicate 7 (hideIn .waiting 1) ++ [arm 41 595 660 504320000, arm 42 680 746 514560000])
      prev := { real := [{ first := 595, last := 660, edge := false, label := .hide 7 },
                         { first := 680, last := 746, edge := false, label := .hide 8 }], held := [] }
      counter := 43 }
    area := { running.area with base := .previous 324800 }
    asm := { running.asm with slots := [lineOf 204 326400 [(594 - 512, 746 - 512)]] } }

/-- Section 3.7, line 204: survivor 41 takes 42. -/
theorem test_line_merges :
    let rs := (after .lineHandover beforeMerge).trk.records
    (rs.map fun r => [r.seq, r.cellMin, r.cellMax, r.lineCount, r.covered, r.joinCount])[7]? = some [41, 594, 746, 9, 1410560000, 1]
      ∧ (rs.map HideRec.state)[8]? = some .free := by decide +kernel

/-- Section 4.7, line 603: two holes become one. -/
theorem test_gap_spans : interiorSpans [] [⟨100, 138, false, .hide 3⟩, ⟨188, 300, false, .hide 3⟩]
    = [{ first := 139, last := 187, hide := 3, gap := none }] := by decide

/-- Section 4.7, line 605: record 5 is a hole, record 6 a notch. -/
theorem test_hole_and_notch :
    let v : GapView :=
      { prevSpans := [⟨151, 169, 3, some 5⟩, ⟨251, 259, 3, some 6⟩], prevMissing := [], curMissing := [], prevReal := []
        curReal := [⟨100, 250, false, .hide 3⟩], cumw := [], advance := 1600, limit := 2500000000 }
    let r := fun a => ({ hide := 3, topClosed := true, bottomOpen := false, area := a } : GapRec)
    isHole v (r 235520000) (v.lastSpans 5) = true ∧ isHole v (r 23040000) (v.lastSpans 6) = false := by decide +kernel

/-- R65: a cell of a missing span is not covered, also under a clamped run that crosses the span; R69, R33: at an opening it is. -/
theorem test_missing_cell_uncovered :
    (coveredBy [] [⟨100, 250, false, .hide 3⟩] 3 160, coveredBy (spans [(160, 165)]) [⟨100, 250, false, .hide 3⟩] 3 160,
      coveredBy (spans [(160, 165)]) [⟨100, 250, false, .hide 3⟩] 3 166) = (true, false, true)
      ∧ (examineLine [] 0 0 [] [] [⟨100, 250, false, .hide 3⟩] [⟨100, 159, false, .hide 3⟩, ⟨166, 250, false, .hide 3⟩] []
        { table := [none], order := [], prevSpans := [], prevMissing := spans [(160, 165)], overflow := 0 }).gap.table.map
          (Option.map GapRec.topClosed) = [some true] := by decide +kernel

/-- Section 5.4: the width of [400,899], with cells 400 to 409 at 1,598 µm. -/
theorem test_cell_width :
    cellWidth (deriveCumw (List.replicate 400 1600 ++ List.replicate 10 1598 ++ List.replicate 800 1600)) 400 899 = 799980 := by
  decide +kernel

/-- Section 5.6: the trimmed area of hide 1,204, and its value under each rounding. -/
theorem test_trimmed : trimmed { CalibRec.default with trimPpm := 1200 } 2149100000000 = 2151678920000 := by decide
theorem test_rounded : [Rounding.down, .nearest, .up].map (fun m => roundedValue m 23225760000 2151678920000) = [92, 93, 93]
    ∧ [Rounding.down, .nearest, .up].map (fun m => roundedValue m 10000000000 2151678920000) = [215, 215, 216] := by decide
/-- Section 5.7: a negative trim and the floor; an exact half step. -/
theorem test_limits : trimmed { CalibRec.default with trimPpm := -20000 } 1000000000003 = 980000000002
    ∧ roundedValue .nearest 23225760000 243870480000 = 11 := by decide
/-- Section 5.7: saturation decided by rounding; a fragment. -/
theorem test_valued :
    ({ hideIn .waiting 9 with covered := 92891427120000 }.valued .default).value = some { value := 3999, unit := .footQuarter }
      ∧ ({ hideIn .waiting 9 with covered := 92891427120000 }.valued .default).has .overrange = true
      ∧ ({ hideIn .waiting 9 with covered := 41000000000 }.valued .default).value = none := by decide

/-! ## Anchors and images (chapter 6) -/

/-- The ring of section 6.9. -/
def ring69 : List Sample :=
  [⟨1716800, 1012, 604800⟩, ⟨1768000, 1018, 588800⟩, ⟨1819200, 1177, 9600⟩, ⟨1870400, 1020, 576000⟩,
   ⟨1921600, 1015, 512000⟩, ⟨1972800, 1011, 430400⟩, ⟨2024000, 1004, 307200⟩, ⟨2075200, 998, 163200⟩]

theorem test_trailing_anchor : trailingSearch .default 2120000 ring69 = some ⟨1870400, 1020, 576000⟩ := by decide

/-- The GLYPH table of section 6.10. -/
def glyphs610 : List GlyphRec :=
  (List.range 32).map fun g =>
    { width := if g < 10 then 9 else if g = 10 then 7 else if g = 13 then 5 else 6, columns := List.replicate 12 1 }

/-- Section 6.10: the text of hide 1,204, its full width with both gaps, and the cut image. -/
theorem test_text : valueText (some 17) true { value := 93, unit := .footQuarter } = [17, 2, 3, 10, 13] := by decide
theorem test_rendering : (placeText glyphs610 1 [17, 2, 3, 10, 13]).map Placed.start = [0, 7, 17, 27, 35]
    ∧ (placeText glyphs610 (-2) [17, 2, 3, 10, 13]).map Placed.start = [0, 4, 11, 18, 23]
    ∧ (render glyphs610 4 [17, 9, 9, 9, 9, 13]).columns.length = 64
    ∧ (render glyphs610 4 [17, 9, 9, 9, 9, 13]).cut = true := by decide +kernel

/-! ## Marking (chapter 7) -/

/-- Head 2 of section 7.10. -/
def head710 : HeadRec :=
  { ringAddr := 12, enabled := true, offset := 1500000, primeLead := 20000, guard := 20000, edge := 400000,
    nozzlePitch := 1250, nozzles := 1024, rotate := false, mirror := false }

def request (seq : Nat) (p : Int) (c columns : Nat) : StampRequest :=
  { seq := seq, columns := columns, pitch := 1000, slot := 0, anchorP := p, anchorC := c, lane := { pri := 2, alt := some 3 } }

def reservation (holder : Holder) (start : Int) (columns : Nat) : Reservation :=
  { holder := holder, start := start, stop := start + columns * 1000, columns := columns, pitch := 1000, slot := 0, base := 440
    anchorP := 5000000, anchorC := 600, lane := some { pri := 2, alt := some 3 } }

def online (schedule : List Reservation) (engine : Option Service) (sent : Nat := 0) : MarkHead :=
  { state := .online, fault := 0, schedule := schedule, engine := engine, sent := sent }

/-- Section 7.10: hides 301, 302 and 303 on head 2. -/
theorem test_trials :
    trialOn head710 (online [] none) 5362000 20000 (request 301 5000000 600 40) = .accepted 6480000
      ∧ trialOn head710 (online [reservation (.hide 301) 6480000 40] none) 5362000 20000 (request 302 5050000 700 36)
          = .accepted 6540000
      ∧ trialOn head710 (online [reservation (.hide 301) 6480000 40, reservation (.hide 302) 6540000 36] none) 5362000 20000
          (request 303 5060000 650 40) = .failed .busy := by decide +kernel
/-- Section 7.11: the replan of hide 303 on head 2 at 6,530,000 comes too late. -/
theorem test_trial_late : trialOn head710 (online [] none) 6530000 20000 (request 303 5060000 650 40) = .failed .late := by
  decide +kernel
/-- Section 7.10: the nozzle bases of hides 301 and 302. -/
theorem test_nozzle_bases : nozzleBase head710 960800 = { base := 440, clamped := false }
    ∧ (nozzleBase head710 1120800).base = 568 := by decide

/-- The part with head 2 of section 7.10 ENABLED, at an HWM. -/
def withHead (m : MarkHead) (hwm : Int) (s : State) : State :=
  { withActive { Tables.default with heads := (List.replicate 8 HeadRec.default).set 2 head710 } s with
    pos := { s.pos with hwm := hwm }
    mark := { s.mark with heads := s.mark.heads.set 2 m } }

/-- An engine in LEAD or PRINTING. -/
def service (printing : Bool) : Service :=
  { printing := printing, rotate := false, mirror := false, addr := 12 }

def marking301 (sent : Nat) : State :=
  withHides [hideIn .marking 301]
    (withHead (online [reservation (.hide 301) 6480000 40] (some (service true)) sent) 6519000 running)

/-- Section 7.10: the engine primes hide 301 at 6,460,000. -/
theorem test_engine_primes :
    let t := after (.enginePrime 2)
      (withHides [hideIn .waiting 301] (withHead (online [reservation (.hide 301) 6480000 40] none) 6460000 running))
    t.trk.records.head?.map HideRec.state = some .marking ∧ t.ring.out.map Frame.payload = some [0, 0, 1, 45, 1, 184, 40] := by
  decide +kernel
/-- Section 7.10: column 39 of hide 301 at 6,519,000 is its last. -/
theorem test_last_column :
    let t := after (.columnSend 2) (marking301 39)
    t.trk.records.head?.map (fun r => (r.state, r.outcome)) = some (.reporting, some .marked)
      ∧ (t.head 2).schedule = [] ∧ t.rep.finals = [301] := by decide +kernel
theorem test_column_counts : ((after (.columnSend 2) (marking301 38)).head 2).sent = 39
    ∧ ((after (.columnSend 2) (marking301 38)).head 2).engine = some (service true) := by decide +kernel
/-- R126: an IDLE engine has a sent count, 0 at power-on; a soft reset leaves the engine where it stands. -/
theorem test_idle_engine_sent : ((after (.powerOn 0) (marking301 38)).head 2).sent = 0
    ∧ ((after (.softReset (cmd 5 [])) (marking301 38)).head 2).sent = 38 := by decide +kernel

/-- Two heads whose priming rise passes their start as well. -/
def twoHeadsDue : State :=
  let due := fun seq => online [reservation (.hide seq) 6480000 40] none
  { withActive { Tables.default with heads := List.replicate 8 head710 } running with
    pos := { running.pos with hwm := 6480000 }
    mark := { running.mark with heads := (running.mark.heads.set 2 (due 301)).set 3 (due 302) } }

/-- R116, R165: the first column of head 2 follows its PRIME; head 3 has its turn after it. -/
theorem test_heads_in_order : twoHeadsDue.ownStep = some (.enginePrime 2)
    ∧ (after (.enginePrime 2) twoHeadsDue).ownStep = some (.columnSend 2)
    ∧ ((after (.enginePrime 3) (after (.enginePrime 2) twoHeadsDue)).head 3).engine = none := by decide +kernel
/-- R117: ROTATE reverses both orders, MIRROR the columns. -/
theorem test_orientation : orientedColumn true false [1, 2, 4] 3 0 = 0x2000#16 ∧ orientedColumn false true [1, 2, 4] 3 0 = 4 := by
  decide

/-- A PRIME frame for head 2 of section 7.10. -/
def primeFrame : Frame := mkFrame 12 0 kindPrime [0, 0, 1, 45, 1, 184, 40]

/-- The line of section 6.11 as hide 2,040 is to be handed on: slot 9 is FREE, hide 2,042 is being marked from slot 3. -/
def contending : State :=
  let closed := fun seq p => { hideIn .closed seq with covered := 2145600000000, ring := [⟨p, 600, 20000⟩] }
  let s := withHides [closed 2040 5100000, closed 2041 5200000, hideIn .marking 2042, closed 2043 5300000]
    (withHead (online [{ reservation (.hide 2042) 6480000 40 with slot := 3 }] (some (service true)) 39) 6519000 running)
  { withActive { s.cmd.active with lanes := [{ LaneRec.default with headPri := 2, enabled := true }] } s with
    trk := { s.trk with handing := some [0, 1, 3] }
    img := (List.replicate 16 (some { holder := .hide 1, columns := [] })).set 9 none }

/-- Section 6.11: 2,040 takes slot 9, 2,041 finds none; then slot 3 is released, and 2,043 takes it. -/
theorem test_slot_contention :
    let t := after .lineHandover (after .lineHandover contending)
    let u := after .lineHandover (after (.columnSend 2) t)
    (t.img[9]?.join.map HeldImage.holder, (t.trk.records.map HideRec.outcome)[1]?.join, t.trk.handing)
        = (some (.hide 2040), some .missedNoImage, some [3])
      ∧ u.img[3]?.join.map HeldImage.holder = some (.hide 2043) ∧ u.trk.handing = none := by decide +kernel

theorem test_waiting_frame :
    (after .waitingFrameHanded (withRing (fun r => { r with out := some primeFrame })
      { running with mark := { running.mark with waiting := [{ head := 2, column := none, frame := primeFrame }] } })).ring.marking
      = [primeFrame] := by decide +kernel

/-- R165: a frame that falls due while others wait is handed after them, whatever its head. -/
theorem test_waiting_order :
    let s := withRing (fun r => { r with marking := List.replicate 32 primeFrame })
      (withHead (online [reservation (.hide 301) 6480000 40] none) 6460000 running)
    ((after (.enginePrime 2) { s with mark := { s.mark with waiting := [⟨4, some 3, primeFrame⟩] } }).mark.waiting.map
      WaitingFrame.head) = [4, 2] := by decide +kernel

/-- R106: READY makes an ENABLED head at the source ONLINE, FAULT makes it OFFLINE with the code. -/
theorem test_hstat_ready :
    ((after (.hstat (frame kindHstat [0, 0]).bytes) (withHead .powerOn 0 running)).head 2).state = .online := by decide +kernel
theorem test_hstat_fault :
    (after (.hstat (frame kindHstat [1, 7]).bytes) (withHead (online [] none) 0 running)).head 2
      = { state := .offline, fault := 7, schedule := [], engine := none, sent := 0 } := by decide +kernel

/-! ## Lots and notes (chapter 8) -/

/-- Section 8.7: slot 0 fills lot 41 of 3 hides; hide 500 is next on the list. -/
def fillingLot (count : Nat) : State :=
  { withHides [{ hideIn .reporting 500 with
      covered := 2145600000000, addBack := 3500000000, value := some { value := 93, unit := .footQuarter }, lotSlot := some 0 }]
      (withActive { Tables.default with lots := List.replicate 4 { size := 3, prefixGlyph := none, firstNo := 1 } } running) with
    lots := List.replicate 4
      { lotNo := 41, count := count, quarters := 180, decimetres := 0, gross := 4200000000000, closePending := false, nextNo := none }
    rep := { finals := [500], order := [], resetDatum := 0, waits := false } }

theorem test_lot_filled :
    let t := after .finalization (fillingLot 2)
    t.rep.order.head? = some (.lot { slot := 0, lotNo := 41, count := 3, quarters := 273, decimetres := 0,
                                     gross := 6349100000000, cause := .size })
      ∧ t.lots.head? = some (.fresh 42) ∧ t.rep.used = 2 := by decide +kernel
/-- R129: a hide without room for its two notes goes on waiting when an apply makes one enough. -/
theorem test_apply_is_no_attempt :
    let s := { fillingLot 2 with rep := { (fillingLot 2).rep with order := List.replicate 23 (.hide .free 0) } }
    let t := after .applyTakesEffect { s with
      ring := { s.ring with out := some primeFrame, report := some 5 }
      cmd := { s.cmd with states := { StagedStates.clean with lot := .modified }, pendingApply := some { force := true, tables := [.lot] } } }
    t.attemptPasses = true ∧ t.finalizationDue = false ∧ (after (.transmissionEnd 9) t).finalizationDue = true := by decide +kernel
theorem test_hide_counted :
    (after .finalization (fillingLot 0)).lots.head?.map LotSlot.count = some 1 := by decide +kernel

/-- Section 8.8: slot 1 with its close pending and 700 as the next number. -/
def closingLot : State :=
  { running with
    lots := running.lots.set 1 { lotNo := 87, count := 12, quarters := 0, decimetres := 0, gross := 0, closePending := true,
                                 nextNo := some 700 } }

theorem test_pending_close : (after .pendingLotClose closingLot).lots[1]? = some (.fresh 700) := by decide +kernel
theorem test_close_lot_refused : (after (.closeLot (cmd 16 [1])) closingLot).ring.out.map Frame.payload = some [16, 3] := by
  decide +kernel
/-- R137: of the highest level the earliest; LOT is at level 3. -/
theorem test_note_chosen :
    (chooseNote [2, 3, 1, 1] [.event .speedUnsteady 1, .hide .free 0,
      .lot { slot := 0, lotNo := 41, count := 3, quarters := 0, decimetres := 0, gross := 0, cause := .size }]).map
      (fun p => p.1.kindIndex) = some 1 := by decide +kernel

/-! ## Run control (chapter 9) -/

def configured : State := { idle with cmd := { idle.cmd with configured := true } }

theorem test_start : (after (.start (cmd 3 [])) configured).run = .run ∧ (after (.start (cmd 3 [])) configured).strobe.next = 1600
    ∧ (after (.start (cmd 3 [])) configured).ring.out.map Frame.payload = some [3, 0, 0, 0, 0, 0, 0, 0, 0, 0] := by decide +kernel
theorem test_start_not_configured : (after (.start (cmd 3 [])) idle).ring.out.map Frame.payload = some [3, 5] := by
  decide +kernel
theorem test_stop : (after (.stop (cmd 4 [])) running).run = .drainFirst := by decide +kernel
theorem test_soft_reset : (after (.softReset (cmd 5 [])) (withHides [hideIn .isOpen 1, hideIn .waiting 2] running)).ring.out.map
    Frame.payload = some [5, 0, 2] := by decide +kernel
theorem test_first_stage_end : (after .drainFirstStageEnd { running with run := .drainFirst }).run = .drainSecond := by
  decide +kernel
theorem test_second_stage_end :
    (after .drainSecondStageEnd { running with run := .drainSecond }).rep.order = [.event .drained 1] := by decide +kernel
theorem test_power_on_straps : (after (.powerOn 31) idle).ring.addr = 30 ∧ (after (.powerOn 7) idle).ring.addr = 7 := by
  decide +kernel
theorem test_power_loss : (after .powerLossOrResetAsserted running).powered = false := by decide +kernel

/-! ## The lock (chapter 10) -/

/-- Section 10.6: the count at 37, the switch ASSERTED. -/
def locked37 : State :=
  { idle with ver := { count := 37, lockOpen := false, switch := { accepted := some true, run := 0, cand := true }, prog := none } }

def opening (left : Nat) : State :=
  { locked37 with ver := { locked37.ver with prog := some { src := 5, left := left, forgotten := false } } }

theorem test_verify_open : (after (.verifyOpen (cmd 13 [])) locked37).ver.prog = some { src := 5, left := 2000, forgotten := false } := by
  decide +kernel
theorem test_verify_open_busy : (after (.verifyOpen (cmd 13 [])) (opening 1300)).ring.out.map Frame.payload = some [13, 3] := by
  decide +kernel
/-- Section 10.6, the completion: OK, count 38, OPEN. -/
theorem test_completion :
    let t := after (.programmingCompletion 1300) (opening 1300)
    t.ver.count = 38 ∧ t.ver.lockOpen = true ∧ t.rep.order = [.event .lockChanged 1]
      ∧ t.ring.out.map Frame.payload = some [13, 0, 38, 1] := by decide +kernel
theorem test_verify_close :
    (after (.verifyClose (cmd 14 [])) { locked37 with ver := { locked37.ver with lockOpen := true } }).ver.lockOpen = false := by
  decide +kernel
theorem test_verify_status : (after (.verifyStatus (cmd 15 [])) (opening 1300)).ring.out.map Frame.payload
    = some [15, 0, 37, 0, 1, 1] := by decide +kernel

/-- A switch two samples into a run at a level. -/
def switchAt (accepted : Option Bool) (run : Nat) (cand : Bool) (s : State) : State :=
  { s with ver := { s.ver with switch := { accepted := accepted, run := run, cand := cand } } }

theorem test_switch_asserted :
    (after (.switchAsserted 1000) (switchAt (some false) 2 true idle)).ver.switch.accepted = some true := by decide +kernel
theorem test_switch_released_closes :
    (after (.switchReleased 1000)
      (switchAt (some true) 2 false { locked37 with ver := { locked37.ver with lockOpen := true } })).ver.lockOpen = false := by
  decide +kernel
theorem test_switch_level_established :
    (after (.switchLevelEstablished 1000 false) (switchAt none 2 false idle)).ver.switch.accepted = some false := by
  decide +kernel
theorem test_switch_sample : (after (.switchSample 1000 true) (switchAt (some false) 1 true idle)).ver.switch.run = 2 := by
  decide +kernel

/-! ## The ring (chapter 11) -/

/-- A frame for another node. -/
def foreign : Frame := mkFrame 20 12 kindRsp [1]

theorem test_forwarded : (after (.forwardedFrame foreign.bytes) idle).ring.out = some foreign := by decide +kernel
/-- Section 11.9: a frame for a full forward buffer is dropped. -/
theorem test_ring_drop :
    (after (.forwardedFrame foreign.bytes)
      (withRing (fun r => { r with forward := List.replicate 4 foreign, out := some foreign }) idle)).ring.ringDrop = 1 := by
  decide +kernel
theorem test_bad_frame : (after (.badFrame [20, 12, 3, 0, 0, 0]) idle).ring.crcErr = 1 := by decide +kernel
theorem test_returned : (after (.returnedFrame (mkFrame 20 0 kindRsp []).bytes) idle).ring.returned = 1 := by decide +kernel
theorem test_kind_err : (after (.kindErr (frame kindNote [1]).bytes) idle).ring.kindErr = 1 := by decide +kernel
/-- Section 11.9: marking frames go before forwarded frames. -/
theorem test_transmission_end :
    (after (.transmissionEnd 10) (withRing (fun r => { r with marking := [primeFrame], forward := [foreign], out := some foreign }) idle)).ring.out
      = some primeFrame := by decide +kernel
theorem test_deferred_answer :
    (after .deferredAnswerPlaced (withRing (fun r => { r with deferred := [.verify foreign], out := some foreign }) idle)).ring.responses
      = [foreign] := by decide +kernel
theorem test_cmd_dropped :
    (after (.status (cmd 1 [0])) (withRing (fun r => { r with responses := List.replicate 4 foreign }) idle)).ring.cmdDrop = 1 := by
  decide +kernel
theorem test_unknown_command : (after (.unknownCommand (cmd 18 [])) idle).ring.out.map Frame.payload = some [18, 6] := by
  decide +kernel

/-! ## Commands and tables (chapter 12) -/

theorem test_status_is_answered :
    (after (.status (cmd 1 [0])) idle).ring.out.map (fun f => (f.dst, f.payload.take 2)) = some (5, [1, 0]) := by decide +kernel
theorem test_counters_cleared :
    (after (.counters (cmd 2 [1])) { idle with pos := { idle.pos with encFault := 9 } }).pos.encFault = 0
      ∧ (after (.counters (cmd 2 [0])) { idle with pos := { idle.pos with encFault := 9 } }).ring.out.map
          (fun f => f.payload.take 4) = some [2, 0, 0, 9] := by decide +kernel

/-- Section 12.9: the lock open, CELLW loaded DOWN from 1,792, 256 entries. -/
def unlocked : State := { locked37 with ver := { locked37.ver with lockOpen := true } }

theorem test_load_begin :
    (after (.loadBegin (cmd 6 [1, 7, 0, 1, 0, 1])) unlocked).ring.out.map Frame.payload = some [6, 0, 7, 255]
      ∧ (after (.loadBegin (cmd 6 [1, 7, 0, 1, 0, 1])) unlocked).cmd.load.map (fun l => (l.next, l.due)) = some (2047, 256) := by
  decide +kernel
theorem test_load_begin_locked : (after (.loadBegin (cmd 6 [1, 7, 0, 1, 0, 1])) idle).ring.out.map Frame.payload = some [6, 7] := by
  decide +kernel

/-- The load of section 12.9 with some frames taken. -/
def loading (next : Int) (due : Nat) (last : Option LastData) : State :=
  { unlocked with cmd := { unlocked.cmd with
      states := { StagedStates.clean with cellw := .loading }
      load := some { table := .cellw, down := true, first := 1792, count := 256, next := next, due := due, last := last,
                     wasTorn := false, clamped := 0 } } }

/-- Two entries of 1,604 µm at 2,047 and 2,046. -/
theorem test_load_data :
    let t := after (.loadData (cmd 7 [7, 255, 6, 68, 6, 68])) (loading 2047 256 none)
    t.ring.out.map Frame.payload = some [7, 0, 7, 253, 0] ∧ t.cmd.staged.cellw.getD 2046 0 = 1604
      -- R184: past entry 0 a DOWN load expects -1
      ∧ (after (.loadData (cmd 7 [0, 0, 6, 68])) (loading 0 1 none)).ring.out.map Frame.payload = some [7, 0, 255, 255, 0] := by
  decide +kernel
/-- A repeat of the last frame moves nothing; its clamped fields count again (R172). -/
theorem test_load_data_repeated :
    (after (.loadData (cmd 7 [7, 255, 6, 68, 6, 68])) (loading 2045 254 (some { first := 2047, entries := 2, clamped := 0 }))).ring.out.map
      Frame.payload = some [7, 0, 7, 253, 0]
    ∧ (after (.loadData (cmd 7 [7, 255, 0, 0, 6, 68])) (loading 2045 254 (some { first := 2047, entries := 2, clamped := 1 }))).cmd.load.map
      Load.clamped = some 1 := by decide +kernel
theorem test_load_end : (after (.loadEnd (cmd 8 [])) (loading 1791 0 none)).cmd.states.cellw = .modified
    ∧ (after (.loadEnd (cmd 8 [])) (loading 1792 1 none)).cmd.states.cellw = .torn := by decide +kernel
theorem test_read_table :
    (after (.readTable (cmd 9 [2, 1, 0, 0, 0, 1])) (withActive { Tables.default with pitch := pitch14 } idle)).ring.out.map
      (fun f => f.payload.take 5) = some [9, 0, 0, 0, 31] := by decide +kernel

/-- CELLW staged at 1,604 µm for cells 1,792 and up, and MODIFIED. -/
def modified : State :=
  { unlocked with cmd := { unlocked.cmd with
      staged := { Tables.default with cellw := List.replicate 1792 1600 ++ List.replicate 256 1604 }
      states := { StagedStates.clean with cellw := .modified } } }

/-- Section 12.9: the apply takes effect, CUMW[2,048] becomes 3,277,824. -/
theorem test_apply_at_once :
    (after (.apply (cmd 10 [0]) false) modified).area.cumw.getD 2048 0 = 3277824
      ∧ (after (.apply (cmd 10 [0]) false) modified).cmd.configured = true := by decide +kernel
/-- Section 12.9: in RUN with a hide OPEN it stays pending. -/
theorem test_apply_pending :
    (after (.apply (cmd 10 [0]) false) { withHides [hideIn .isOpen 71] running with ver := modified.ver, cmd := modified.cmd }).ring.out.map
      (fun f => f.payload.take 3) = some [10, 2, 0] := by decide +kernel

/-- R175: an APPLY that comes while a line is segmented finds it taken and waits for its boundary. -/
theorem test_apply_within_line :
    let s := { beforeMerge with ver := modified.ver, cmd := modified.cmd }
    let t := after (.apply (cmd 10 [1]) true) s
    t.cmd.pendingApply.map PendingApply.force = some true ∧ t.trk.handing = some [] ∧ t.asm.slots = []
      ∧ (after .lineHandover t).applyDue = true := by decide +kernel

/-- An apply pending AT_GAP. -/
def applying : State :=
  { modified with cmd := { modified.cmd with pendingApply := some { force := false, tables := [.cellw] } } }

theorem test_apply_takes_effect :
    (after .applyTakesEffect applying).area.cumw.getD 1792 0 = 2867200
      ∧ (after .applyTakesEffect applying).rep.order = [.event .configApplied 1] := by decide +kernel
theorem test_cancel_apply : (after (.cancelApply (cmd 11 [])) applying).cmd.pendingApply = none := by decide +kernel
theorem test_revert : (after (.revert (cmd 12 [])) modified).cmd.states.cellw = .clean
    ∧ (after (.revert (cmd 12 [])) modified).cmd.staged.cellw.getD 2047 0 = 1600 := by decide +kernel
/-- R132: EMPTY for a count of 0. -/
theorem test_close_lot_empty : (after (.closeLot (cmd 16 [0])) idle).ring.out.map Frame.payload = some [16, 9] := by decide +kernel
/-- R123: a head that is not ONLINE is answered at once; outcome code 2 is log 21. -/
theorem test_test_mark_head_down : (after (.testMark (cmd 17 [2, 0, 93])) idle).ring.out.map Frame.payload = some [17, 0, 2] := by
  decide +kernel
theorem test_test_mark_begins :
    ((after (.testMark (cmd 17 [2, 0, 93])) (withHead (online [] none) 0 idle)).head 2).schedule.map
      (fun r => (r.start, r.base)) = [(20000, 504)] := by decide +kernel
/-- R172: a field out of range is clamped and counted. -/
theorem test_clamped_entry : (Tables.default.storeEntry .cellw 3 [0, 0]).clamped = 1
    ∧ (Tables.default.storeEntry .cellw 3 [0, 0]).value.cellw.getD 3 0 = 200 := by decide +kernel

/-! ## Witnesses: states and operands that meet the hypotheses of the statements -/

/-- Whether a state takes a command of a code and arguments from node 5. -/
def takesCmd (s : State) (code : Nat) (args : List Byte) : Bool :=
  s.powered && decide (s.takenFrame kindCmd (cmd code args) = some (cmdFrame code args))
    && decide ((cmdFrame code args).command = code) && decide (s.ring.responses.length < 4)

theorem takes {s : State} {code : Nat} {args : List Byte} (h : takesCmd s code args = true) :
    s.Takes (cmd code args) (cmdFrame code args) code args := by
  simp only [takesCmd, Bool.and_eq_true, decide_eq_true_eq] at h
  exact ⟨h.1.1.1, h.1.1.2, (by decide : ¬ (0 % 32 = 31)), h.1.2, rfl, h.2⟩

theorem takes_all {l : List State} {code : Nat} {args : List Byte} (h : l.all (fun s => takesCmd s code args) = true) :
    ∀ s ∈ l, s.Takes (cmd code args) (cmdFrame code args) code args :=
  fun s hs => takes (List.all_eq_true.mp h s hs)

/-- The part held in reset. -/
def held : State := { idle with powered := false }

theorem witness_HeldPartTakesNothing : held.powered = false ∧ held.pending = [] ∧ Instr.lineTimeout ≠ .powerLossOrResetAsserted
    ∧ ∀ straps, Instr.lineTimeout ≠ .powerOn straps := ⟨rfl, rfl, nofun, nofun⟩

theorem witness_ForwardCountMoves :
    counting.powered = true ∧ ((counting.passTime 1).encoderSampled true false).2.2 = .forward := by decide +kernel

/-- The part of section 1.4 with a REVERSE_LIMIT. -/
def reversing (limit : Nat) : State :=
  { counting with cmd := { counting.cmd with active := { counting.cmd.active with
      scan := { ScanRec.default with reverseLimit := limit } } } }

/-- A count back from 0 leaves the HWM 32 above I: past a limit of 31, at a limit of 32. -/
theorem witness_BackwardCountMoves : ((reversing 31).passTime 1).pos.excursion = false
    ∧ (((reversing 31).passTime 1).encoderSampled false true).2.2 = .backward
    ∧ (31 : Int) < 0 - (((reversing 31).passTime 1).pos.backward pitch14).i
    ∧ ¬ (32 : Int) < 0 - (((reversing 32).passTime 1).pos.backward pitch14).i := by decide +kernel

/-- Counts that end exactly at either end of I's range, carry or borrow included, and one past it. -/
theorem witness_CountsExact : pitch14.InRange ∧ (at14 (posMax - 32) 16777215 15624).i + (pitch14.pint + 1) ≤ posMax
    ∧ posMin ≤ (at14 (posMin + 32) 0 0).i - (pitch14.pint + 1) ∧ (15624 : Nat) < pitch14.pmod
    ∧ (at14 (posMax - 31) 0 0).i + pitch14.pint + (0 : Nat) ≤ 2 ^ 47 - 1 ∧ 2 ^ 24 ≤ 16777215 + pitch14.pfrac + 0
    ∧ (2 ^ 47 - 1 : Int) < (at14 (posMax - 31) 16777215 0).i + pitch14.pint + (1 : Nat)
    ∧ -(2 ^ 47) ≤ (at14 (posMin + 32) 0 0).i - pitch14.pint - (1 : Nat)
    ∧ (at14 (posMin + 31) 0 0).i - pitch14.pint - (1 : Nat) < -(2 ^ 47) := by decide

theorem witness_EncoderSamplesTaken :
    ((counting.passTime 1).encoderSampled false false).2.2 = .quiet
      ∧ (({ counting with encA := { accepted := none, run := 2, cand := true }, encB := { accepted := none, run := 2, cand := true } }.passTime
          1).encoderSampled true true).2.2 = .establishes
      ∧ ((counting.passTime 1).encoderSampled true true).2.2 = .fault := by decide +kernel

theorem witness_ShortPulsesIgnored : ¬ [true, true, true] <:+: [true, true, false, true, true]
    ∧ (∀ l, ¬ [l, l, l] <:+: [true, false, true, true]) ∧ [true, true] <:+ [true, false, true, true]
    ∧ ¬ [false, false] <:+ [true, false, true, true] ∧ idle.encA.accepted = none ∧ idle.encA.run = 0 := by decide

theorem witness_QuadratureSense :
    let c := fun l => ({ accepted := some l, run := 2, cand := !l } : Channel)
    ((c false).sample true).2 = .changed ∧ ((c false).sample false).2 ≠ .changed := by decide

theorem witness_HwmNeverFalls : ∃ t, exec (.forwardCount 1 true false) counting = .next t
    ∧ (∀ straps, Instr.forwardCount 1 true false ≠ .powerOn straps) ∧ (∀ b, Instr.forwardCount 1 true false ≠ .start b)
    ∧ ∀ b, Instr.forwardCount 1 true false ≠ .softReset b := ⟨_, rfl, nofun, nofun, nofun⟩

/-- The period counter exactly at MIN_STROBE; a pulse at its end; a part with nothing due. -/
theorem witness_StrobesIssued : overspeed.powered = true ∧ (overspeed.passTime 1).strobe.enable = true
    ∧ (overspeed.passTime 1).strobe.next ≤ (overspeed.passTime 1).pos.hwm
    ∧ (overspeed.passTime 1).cmd.active.scan.minStrobe = (overspeed.passTime 1).strobe.period
    ∧ (overspeed.passTime 1).assemblerSettled = true
    ∧ ({ overspeed with strobe := { overspeed.strobe with pulse := some { sync := true, left := 3 } } }.passTime 3).strobe.pulse
        = some { sync := true, left := 0 }
    ∧ idle.powered = true ∧ idle.pending = [] ∧ idle.ownStep = none := by decide +kernel

/-- At the edge of the window: 13 parts of 256 are in it, 14 are out. -/
theorem witness_PeriodJudgedAndNextMoved : (13 : Nat) * 256 ≤ 256 * ScanRec.default.steadyWin
    ∧ 256 * ScanRec.default.steadyWin < 14 * 256 ∧ 0 < ScanRec.default.linePitch := by decide

/-- The part in RUN with the lines 518 to 522 of section 2.9. -/
def window : State :=
  withSlots [openSlot 518 7, openSlot 519 7, openSlot 520 7, { openSlot 521 7 with entries := .unusable :: List.replicate 7 .notArrived },
    openSlot 522 7] 523 running

/-- The window of section 2.9 before the strobe of 522, in which no line is overdue. -/
def settled : State :=
  withSlots [openSlot 518 7, openSlot 519 7, openSlot 520 7, { openSlot 521 7 with entries := .unusable :: List.replicate 7 .notArrived }]
    522 running

/-- A part with an apply pending, by FORCE; and a part in the drain with no hide left. -/
def applyForced (s : State) : State := { s with cmd := { s.cmd with pendingApply := some { force := true, tables := [.scan] } } }
def draining (s : State) : State := { s with run := .drainFirst, trk := { running.trk with counter := 43 } }

/-- The part of section 3.7, its line READY, at a boundary where an apply or the end of the drain's first stage is due. -/
def lineReady : State := applyForced beforeMerge
def drainReady : State := draining beforeMerge

/-- Every case of a segment: before the enable, too short, the first line not yet strobed, the last that counts as such, the
first late one, a head above 7, one not expected, one there already, one awaited; each thing still due before it; and a line that
is being handed over. -/
theorem witness_SegmentPlaced :
    idle.takenFrame kindSeg (seg 0 0 0 []) = some (frame kindSeg (segPayload 0 0 0 [])) ∧ idle.strobe.enable = false
      ∧ settled.takenFrame kindSeg (seg 521 1 0 []) = some (frame kindSeg (segPayload 521 1 0 []))
      ∧ settled.powered = true ∧ settled.strobe.enable = true ∧ settled.assemblerSettled = true ∧ readSegment [1, 2, 3, 4] = none
      ∧ [522, 518 + 32767, 518 + 32768, 517].map (fun n => ((BitVec.ofNat 16 n - 518 : LineNo).toNat)) = [4, 32767, 32768, 65535]
      ∧ (settled.asm.slots[3]?.map (fun s => (s.expected.getLsbD 3, s.entry 0, s.entry 1)))
          = some (false, .unusable, .notArrived)
      ∧ (readSegment (segPayload 521 1 0 [(3, 40)])).isSome = true ∧ (readSegment (segPayload 521 8 0 [])).isSome = true
      ∧ window.timeoutDue = true ∧ window.strobe.enable = true
      ∧ (∀ s ∈ [lineReady, drainReady, beforeMerge, applyForced settled, draining settled],
          s.powered = true ∧ s.strobe.enable = true ∧ s.timeoutDue = false ∧ s.trk.handing = none)
      ∧ (∀ s ∈ [lineReady, applyForced settled], s.applyDue = true)
      ∧ (∀ s ∈ [drainReady, draining settled], s.applyDue = false ∧ s.drainFirstDue = true)
      ∧ (applyForced settled).handoverReady = false ∧ (draining settled).handoverReady = false
      ∧ beforeMerge.applyDue = false ∧ beforeMerge.drainFirstDue = false ∧ beforeMerge.handoverReady = true
      ∧ ({ settled with trk := { settled.trk with handing := some [8] } } : State).timeoutDue = false
      ∧ ({ settled with trk := { settled.trk with handing := some [8] } } : State).trk.handing ≠ none := by decide +kernel

/-- A line that closes two hides, so that its hand-over takes two steps. -/
def closingTwo : State := { beforeMerge with asm := { beforeMerge.asm with slots := [lineOf 204 326400 []] } }

/-- Each of those steps answers; the hand-over reaches its boundary by one step or by two. -/
theorem witness_SegmentPlaced_steps : (∃ t, exec .lineTimeout window = .next t) ∧ (∃ t, exec .applyTakesEffect lineReady = .next t)
    ∧ (∃ t, exec .applyTakesEffect (applyForced settled) = .next t)
    ∧ (∃ t, exec .drainFirstStageEnd drainReady = .next t) ∧ (∃ t, exec .drainFirstStageEnd (draining settled) = .next t)
    ∧ (∃ t, exec .lineHandover beforeMerge = .next t ∧ t.trk.handing = none)
    ∧ (closingTwo.applyDue = false ∧ closingTwo.drainFirstDue = false ∧ closingTwo.timeoutDue = false
      ∧ closingTwo.handoverReady = true)
    ∧ ∃ t u, exec .lineHandover closingTwo = .next t ∧ t.trk.handing = some [8] ∧ exec .lineHandover t = .next u
      ∧ u.trk.handing = none :=
  ⟨⟨_, rfl⟩, ⟨_, rfl⟩, ⟨_, rfl⟩, ⟨_, rfl⟩, ⟨_, rfl⟩, ⟨_, rfl, by decide +kernel⟩, by decide +kernel,
    ⟨_, _, rfl, by decide +kernel, rfl, by decide +kernel⟩⟩

/-- A segment of line 20,000 comes after the hand-over of line 204, which closes the last hides. In RUN it is STRAY. In the drain
the first stage ends at the boundary of 204: the segment is discarded without a count, and line 205 has lost its slot (R143). -/
theorem test_seg_discarded_at_drain_end :
    let s := withSlots [lineOf 204 326400 [], openSlot 205 1] 206 closingTwo
    let t := after (.seg (seg 20000 0 0 [])) s
    let u := after (.seg (seg 20000 0 0 [])) { s with run := .drainFirst }
    (t.asm.stray, t.asm.lateSeg, t.asm.slots.length) = (s.asm.stray + 1, s.asm.lateSeg, 1)
      ∧ (u.asm.stray, u.asm.lateSeg, u.asm.slots.length, u.run) = (s.asm.stray, s.asm.lateSeg, 0, .drainSecond) := by
  decide +kernel

theorem witness_LineTimedOut : window.powered = true ∧ window.timeoutDue = true := by decide +kernel

/-- A hide to be handed on as record 0, with an area, a lane entry and one image slot, FREE or HELD. -/
def handingOn (covered : Nat) (flags : BitVec 16) (lane : LaneRec) (free : Bool) (m : MarkHead) : State :=
  let s := withHides [{ hideIn .closed 303 with covered := covered, flags := flags, ring := [⟨5000000, 600, 20000⟩] }]
    (withHead m 5362000 running)
  { withActive { s.cmd.active with lanes := [LaneRec.default, lane], markp := { MarkpRec.default with joinPolicy := .noMark } } s with
    img := [if free then none else some { holder := .hide 1, columns := [] }] }

/-- No other record of such a state holds a hide. -/
theorem only_first (r : HideRec) : ∀ m x, (recordsOf [r])[m]? = some x → x.state ≠ .free → m = 0 := by
  intro m x h hx
  cases m with
  | zero => rfl
  | succ m =>
    simp only [recordsOf, List.cons_append, List.nil_append, List.getElem?_cons_succ, List.getElem?_replicate] at h
    split at h
    · cases h
      exact absurd rfl hx
    · cases h

/-- A lane whose range ends, or begins, at the anchor's cell. -/
def laneAt (first last : Nat) (alt : Option Nat) : LaneRec :=
  { LaneRec.default with cellFirst := first, cellLast := last, headPri := 2, headAlt := alt, enabled := true }

/-- A hand-over at a line boundary, within a line with hides or with none left to be handed on; and a hide handed on: a FRAGMENT, a JOINED one under NO_MARK, without a
lane, without a slot, with its image. -/
theorem witness_LineHandedOver : beforeMerge.powered = true ∧ beforeMerge.strobe.enable = true ∧ beforeMerge.trk.handing = none
    ∧ beforeMerge.asm.slots.map LineSlot.ready = [true] ∧ beforeMerge.applyDue = false ∧ beforeMerge.drainFirstDue = false
    ∧ contending.powered = true ∧ contending.trk.handing = some [0, 1, 3]
    ∧ { beforeMerge with trk := { beforeMerge.trk with handing := some [] } }.trk.handing = some []
    ∧ (let r := fun s : State => (s.trk.records.getD 0 .free).valued s.cmd.active.calib
       (r (handingOn 49999999999 0 .default true .powerOn)).has .fragment = true
         ∧ (r (handingOn 2145600000000 1 .default true .powerOn)).has .joined = true
         ∧ (r (handingOn 2145600000000 0 .default true .powerOn)).flags = 0
         ∧ ((r (handingOn 2145600000000 0 .default true .powerOn)).anchor .default).map Sample.c = some 600)
    ∧ (handingOn 2145600000000 0 (laneAt 600 600 none) false .powerOn).img.all Option.isSome = true
    ∧ (handingOn 2145600000000 0 (laneAt 0 600 none) true .powerOn).img[0]? = some none := by decide +kernel

/-- The trials of a hide with its image: taken by HEAD_PRI, or failed there without or with a HEAD_ALT, which takes it or fails. -/
theorem witness_LineHandedOver_trials :
    let q := request 303 5000000 600 40
    let trial := fun (s : State) h => trialOn (s.headEntry h) (s.head h) s.pos.hwm 20000 q
    let lane := laneAt 600 2047 (some 3)
    trial (handingOn 2145600000000 0 lane true (online [] none)) 2 = .accepted 6480000
      ∧ trial (handingOn 2145600000000 0 lane true .powerOn) 2 = .failed .down
      ∧ trial (handingOn 2145600000000 0 lane true .powerOn) 3 = .failed .down := by decide +kernel

/-- The groups of section 3.7's line, one that merges; a group of one hide; UNTRACKED; a new run, with a FREE record and without;
a hide that the line leaves. -/
theorem witness_LineSegmented :
    let hides := fun (prev : RunList) runs => (runGroups prev (runs.map fun p : Nat × Nat => (⟨p.1, p.2, false⟩ : FormRun))).map
      fun g => (g.hides, g.untracked, g.keys.isEmpty)
    let prev := beforeMerge.trk.prev
    hides prev [(594, 746)] = [([7, 8], false, false)] ∧ hides prev [(660, 661)] = [([7], false, false)]
      ∧ hides prev [(662, 678)] = [([], false, true)]
      ∧ hides { real := [⟨10, 20, false, .untracked⟩], held := [] } [(21, 22)] = [([], true, false)]
      ∧ (beforeMerge.trk.records[7]?).map HideRec.state = some .isOpen
      ∧ ((List.range 48).filter fun n => decide ((beforeMerge.trk.records.getD n .free).state = .free)).head? = some 9
      ∧ (segmentLine true false false { formLine (lineOf 204 326400 []) with number := 204 } beforeMerge.trk).closing = [7, 8]
      ∧ (segmentLine true false false (formLine (lineOf 204 326400 [(3, 40)])) { beforeMerge.trk with records := [] }).refused = 1
      ∧ (segmentLine true false false (formLine (lineOf 204 326400 [(594 - 512, 746 - 512)])) beforeMerge.trk).merges = [(8, 7)] := by
  decide +kernel

/-- The check of a slot's entries that the statement's last hypothesis asks. -/
theorem entries_in_form {slot : LineSlot}
    (h : slot.entries.all (fun a => match a with
      | .usable rs _ => runsInForm rs && rs.all fun r => decide (r.last ≤ 255)
      | _ => true) = true) :
    ∀ k runs clamped, slot.entry k = .usable runs clamped → runsInForm runs = true ∧ ∀ r ∈ runs, r.last ≤ 255 := by
  intro k runs clamped e
  by_cases hk : k < slot.entries.length
  · have key := List.all_eq_true.mp h _ (List.getElem_mem hk)
    rw [LineSlot.entry, List.getD_eq_getElem _ _ hk] at e
    simpa [e] using key
  · rw [LineSlot.entry, List.getD_eq_default _ _ (by omega)] at e
    cases e

/-- A line with 90 runs of three heads, under BAR_REVERSE. -/
def crowded : LineSlot :=
  { openSlot 7 0x07 with
    winStart := 0, winEnd := 2047, minRun := 1, barReverse := true
    entries := List.replicate 3 (.usable ((List.range 30).map fun k => { first := 8 * k, last := 8 * k + 3 }) false)
      ++ List.replicate 5 .notArrived }

/-- The line of section 2.8 with a head UNUSABLE; a run at either side of the window and one across its end; a crowded line. -/
theorem witness_FormedRunsSeparated : (slot28 .unusable).winStart ≤ (slot28 .unusable).winEnd ∧ (slot28 .unusable).winEnd ≤ 2047
    ∧ (∀ h runs clamped, (slot28 .unusable).entry h = .usable runs clamped → runsInForm runs = true ∧ ∀ r ∈ runs, r.last ≤ 255)
    ∧ (∀ h runs clamped, crowded.entry h = .usable runs clamped → runsInForm runs = true ∧ ∀ r ∈ runs, r.last ≤ 255)
    ∧ (crowded.unclampedRuns[63]?).isSome = true ∧ crowded.unclampedRuns.length = 90
    ∧ [(⟨3, 9⟩ : Span), ⟨10, 12⟩, ⟨5, 40⟩, ⟨31, 33⟩].map (fun r => (clipRun 10 30 r).map fun c => (c.first, c.last, c.edge))
        = [none, some (10, 12, true), some (10, 30, true), none] :=
  ⟨by decide, by decide, entries_in_form (by decide +kernel), entries_in_form (by decide +kernel), by decide +kernel,
    by decide +kernel, by decide⟩

theorem witness_RunsJoinedAndFiltered :
    let runs : List FormRun := [⟨1772, 1791, false⟩, ⟨1792, 1797, false⟩, ⟨1799, 1799, true⟩]
    (∀ r ∈ runs, r.first ≤ r.last) ∧ runs.Pairwise (fun a b => a.first ≤ b.first) := by decide

theorem witness_GroupsAreConnected : 0 < [[1, 2], [2, 3], [4]].length ∧ 1 < [[1, 2], [2, 3], [4]].length := by decide

/-- In the drain hide 7 goes on. -/
theorem witness_NoOpeningInDrain :
    ∃ r, (segmentLine false false false (formLine (lineOf 204 326400 [(594 - 512, 746 - 512)])) beforeMerge.trk).trk.records[7]? = some r
      ∧ r.state = .isOpen := ⟨_, rfl, by decide +kernel⟩

theorem witness_HeldRunsBounded :
    beforeMerge.trk.prev.real.Pairwise (fun a b => a.first ≤ b.first) ∧ touchesMissing (spans [(640, 700)]) 595 660 = true := by
  decide +kernel

theorem witness_MergeCombines : [hideIn .isOpen 42, hideIn .isOpen 43] ≠ [] := by decide

/-- The gap records of section 4.7 at line 605. -/
def view605 : GapView :=
  { prevSpans := [⟨151, 169, 3, some 5⟩, ⟨251, 259, 3, some 6⟩], prevMissing := [], curMissing := [⟨170, 172⟩], prevReal := []
    curReal := [⟨100, 250, false, .hide 3⟩], cumw := [], advance := 1600, limit := 235520000 }

/-- A record whose last spans are covered, of an area at the limit and one above it, and a record whose are not. -/
theorem witness_GapEnds :
    let closed := fun n => ∀ p ∈ view605.prevSpans, p.gap = some n → ∀ c, p.first ≤ c → c ≤ p.last →
      (∃ x ∈ view605.curReal, x.label = .hide 3 ∧ x.first ≤ c ∧ c ≤ x.last)
        ∧ ∀ m ∈ view605.curMissing, c < m.first ∨ m.last < c
    closed 5 ∧ ¬ closed 6 ∧ (235520000 : Nat) ≤ view605.limit ∧ view605.limit < 235520001 := by decide +kernel

/-- A group that continues the two records, one with UNTRACKED_GAP, and one without a label, with a FREE record and without. -/
theorem witness_GapEnds_groups :
    let rec5 : GapRec := { hide := 3, topClosed := true, bottomOpen := false, area := 235520000 }
    let groups := fun prev (l : List (Nat × Nat)) =>
      (spanGroups prev (l.map fun p => ({ first := p.1, last := p.2, hide := 3, gap := none } : GapSpan))).map
        fun g => (g.gapRecords, g.untrackedGap, g.keys.isEmpty, g.members)
    ([some rec5, none] : List (Option GapRec))[0]? = some (some rec5)
      ∧ groups view605.prevSpans [(169, 251)] = [([5, 6], false, false, [0])]
      ∧ groups [⟨151, 169, 3, none⟩] [(169, 169)] = [([], true, false, [0])]
      ∧ groups view605.prevSpans [(171, 200)] = [([], false, true, [0])]
      ∧ [3, 6, 5].find? (fun x => decide (x ∈ [5, 6])) = some 6
      ∧ (∀ x ∈ [some rec5], x ≠ none) ∧ ([some rec5, none] : List (Option GapRec))[1]? = some none := by decide +kernel

/-- A run of one cell, one of all cells; a hide with runs on the line, and one without. -/
theorem witness_CellWidthIsSum : ([200, 8000, 1600] : List Nat)[2]? = some 1600 ∧ (0 : Nat) ≤ 2 ∧ 2 < [200, 8000, 1600].length
    ∧ (let own := fun n => ([⟨0, 0, false, .hide 7⟩, ⟨2, 2, true, .hide 7⟩] : List RealRun).filter fun x => decide (x.label = .hide n)
       own 8 = [] ∧ own 7 ≠ [] ∧ ∀ x ∈ own 7, x.first ≤ x.last ∧ x.last < [200, 8000, 1600].length) := by decide

/-- The least and the greatest gross area; trims of either sign and none; a trimmed area below MIN_HIDE and one at it. -/
theorem witness_AreaTrimmedAndValued : CalibRec.default.InRange ∧ { CalibRec.default with trimPpm := 20000 }.InRange
    ∧ { CalibRec.default with trimPpm := -20000 }.InRange ∧ (2 ^ 64 - 1 : Nat) < 2 ^ 64
    ∧ trimmed .default 49999999999 < CalibRec.default.minHide * 10 ^ 8
    ∧ ¬ trimmed .default 50000000000 < CalibRec.default.minHide * 10 ^ 8 := by decide

theorem witness_RoundedBySteps : 0 < MeasureUnit.decimetre.quantum ∧ 9300 * MeasureUnit.decimetre.quantum % 10000000000 = 0 := by
  decide

/-- A ring with a fit sample, and one with none; a line exactly ANCHOR_STRIDE on, and one short of it. -/
theorem witness_TrailingAnchorFound : ring69 ≠ [] ∧ ring69.Pairwise (fun a b => a.p < b.p)
    ∧ (∃ y ∈ ring69, MarkpRec.default.stampWidth ≤ y.w)
    ∧ (∀ y ∈ ([⟨0, 1, 11999⟩, ⟨50000, 1, 11999⟩] : List Sample), y.w < MarkpRec.default.stampWidth)
    ∧ ring69.getLast? = some ⟨2075200, 998, 163200⟩ ∧ (2075200 : Int) + MarkpRec.default.anchorStride ≤ 2125200
    ∧ ¬ (2075200 : Int) + MarkpRec.default.anchorStride ≤ 2125199
    ∧ ([⟨100, 138, false, .hide 3⟩, ⟨188, 300, false, .hide 3⟩] : List RealRun).Pairwise (fun a b => a.first < b.first) := by decide

/-- A JOINED hide and one that is not; a text of two glyphs. -/
theorem witness_TextRendered :
    let r := { hideIn .closed 9 with value := some { value := 9999, unit := .decimetre } }
    r.value = some { value := 9999, unit := .decimetre } ∧ (r.setFlag .joined).has .joined = true ∧ r.has .joined = false
      ∧ (placeText glyphs610 (-2) [17, 2]).length = 2 ∧ 63 < (render glyphs610 4 [17, 9, 9, 9, 9, 13]).columns.length := by
  decide +kernel

/-- An HSTAT out of form, a READY, and a FAULT of an ONLINE head and of one that is not; two heads at one address. -/
theorem witness_HstatTaken :
    let s := withHead (online [] none) 0 running
    s.powered = true ∧ (∀ p ∈ [[2, 0], [0, 0], [1, 7]], s.takenFrame kindHstat (frame kindHstat p).bytes = some (frame kindHstat p))
      ∧ (frame kindHstat [0, 0]).dst ≠ Config.broadcast ∧ headsAt s.cmd.active.heads 12 = [2] ∧ 2 < s.mark.heads.length
      ∧ (s.head 2).state = .online ∧ ((withHead .powerOn 0 running).head 2).state ≠ .online
      ∧ headsAt ((List.replicate 8 HeadRec.default).set 2 head710 |>.set 5 head710) 12 = [2, 5] := by decide +kernel

/-- A head lost, no longer ONLINE: IDLE, in LEAD and PRINTING. Its hide's other head: none, one that fails, one that takes it. -/
theorem witness_HstatTaken_loss :
    let r := reservation (.hide 301) 6480000 40
    let lost := fun engine => withHead { online [r] engine with state := .offline } 5362000 running
    let q := request 301 5000000 600 40
    (∀ e ∈ [none, some (service false), some (service true)], ((lost e).head 2).state ≠ .online ∧ ((lost e).head 2).engine = e
        ∧ ((lost e).head 2).schedule = [r])
      ∧ r.holder = .hide 301 ∧ r.lane = some { pri := 2, alt := some 3 } ∧ LaneHeads.other { pri := 2, alt := none } 2 = none
      ∧ trialOn ((lost none).headEntry 3) ((lost none).head 3) 5362000 20000 q = .failed .down
      ∧ trialOn head710 (online [] none) 5362000 20000 q = .accepted 6480000 := by decide +kernel

/-- The part with a test mark of one column at head 2. -/
def testMarking : State :=
  { withHead (online [{ reservation .testMark 20000 1 with lane := none }] (some (service false))) 20000 idle with
    mark := { (withHead (online [{ reservation .testMark 20000 1 with lane := none }] (some (service false))) 20000 idle).mark with
      test := some { src := 5, columns := 1, cut := false, ended := false } } }

/-- A test mark on a lost head: in LEAD and PRINTING; its answer with room, with the one place kept, and behind another. -/
theorem witness_HstatTaken_test :
    let r := { reservation .testMark 20000 1 with lane := none }
    let lost := fun printing => testMarking.onHead 2 fun m => { m with state := .offline, engine := some (service printing) }
    (∀ p ∈ [false, true], ((lost p).head 2).state ≠ .online ∧ ((lost p).head 2).engine = some (service p)
        ∧ ((lost p).head 2).schedule = [r] ∧ (lost p).mark.test = some { src := 5, columns := 1, cut := false, ended := false })
      ∧ r.holder = .testMark ∧ 2 < (lost true).mark.heads.length ∧ (lost true).ring.deferred = []
      ∧ (lost true).ring.responses.length + 1 < 4 := by decide +kernel

/-- Rows 7, 8 and the two at the far edge; below EDGE. -/
theorem witness_StampPlaced : 16 ≤ head710.nozzles ∧ 0 < head710.nozzlePitch
    ∧ [399999, 400000 + 7 * 1250, 400000 + 8 * 1250, 400000 + 1016 * 1250, 400000 + 1017 * 1250].map (nozzleBase head710)
        = [⟨0, true⟩, ⟨0, true⟩, ⟨0, false⟩, ⟨1008, false⟩, ⟨1008, true⟩] := by decide

/-- The schedule of section 7.10 before hide 303, and after hide 301 alone. -/
theorem witness_TrialTakesEarliest :
    ScheduleOk [reservation (.hide 301) 6480000 40, reservation (.hide 302) 6540000 36]
      ∧ ∀ r ∈ [reservation (.hide 301) 6480000 40, reservation (.hide 302) 6540000 36], r.start < r.stop := by
  unfold ScheduleOk
  decide

theorem witness_ScheduleStaysDisjoint :
    let q := request 302 5050000 700 36
    let r := reservation (.hide 302) 6540000 36
    ScheduleOk [reservation (.hide 301) 6480000 40] ∧ (∀ x ∈ [reservation (.hide 301) 6480000 40], x.start < x.stop)
      ∧ 0 < q.columns ∧ 0 < q.pitch ∧ r.stop = r.start + q.columns * q.pitch
      ∧ trialOn head710 (online [reservation (.hide 301) 6480000 40] none) 5362000 20000 q = .accepted r.start := by
  refine ⟨by unfold ScheduleOk; decide, by decide, by decide, by decide, by decide, by decide +kernel⟩

/-- The engine of section 7.10 exactly at PRIME_LEAD, with room in the marking queue and with none; a PRIME and a column
waiting; a lower head with something due. -/
theorem witness_EnginePrimed :
    let s := withHead (online [reservation (.hide 301) 6480000 40] none) 6460000 running
    let w := fun column => [({ head := 2, column := column, frame := primeFrame } : WaitingFrame)]
    s.powered = true ∧ (s.head 2).engine = none ∧ (s.head 2).schedule = [reservation (.hide 301) 6480000 40]
      ∧ (6480000 : Int) - (s.headEntry 2).primeLead = s.pos.hwm ∧ s.mark.waiting = [] ∧ s.ring.marking.length < 32
      ∧ (∀ k, k < 2 → s.engineDue k = false) ∧ twoHeadsDue.engineDue 2 = true
      ∧ 32 ≤ (withRing (fun r => { r with marking := List.replicate 32 primeFrame }) s).ring.marking.length
      ∧ { marking301 3 with mark := { (marking301 3).mark with waiting := w none } }.mark.waiting = w none
      ∧ ((marking301 3).head 2).engine = some (service true) ∧ ((marking301 3).head 2).sent = 3 ∧ 3 + 1 ≠ (reservation (.hide 301) 6480000 40).columns := by
  decide +kernel

/-- A column due exactly at the HWM: one before the last, the last of a hide's, the last of a test mark's, its answer with room and
without; the last one with the marking queue full; the last one waiting. -/
theorem witness_ColumnSent :
    let r := reservation (.hide 301) 6480000 40
    let w : WaitingFrame := { head := 2, column := some 39, frame := primeFrame }
    let full := withRing (fun r => { r with marking := List.replicate 32 primeFrame }) (marking301 39)
    let waiting := { marking301 39 with mark := { (marking301 39).mark with waiting := [w] } }
    ((marking301 39).head 2).engine = some (service true) ∧ ((marking301 39).head 2).sent = 39
      ∧ ((marking301 39).head 2).schedule = [r]
      ∧ (marking301 39).powered = true ∧ (marking301 39).mark.waiting = [] ∧ (marking301 39).ring.marking.length < 32
      ∧ (∀ k, k < 2 → (marking301 39).engineDue k = false ∧ testMarking.engineDue k = false)
      ∧ r.start + ((39 * r.pitch : Nat) : Int) = (marking301 39).pos.hwm ∧ 39 + 1 = r.columns ∧ 38 + 1 < r.columns
      ∧ (testMarking.head 2).sent = 0 ∧ (testMarking.head 2).engine = some (service false) ∧ (testMarking.head 2).schedule.map Reservation.holder = [.testMark]
      ∧ testMarking.mark.test.isSome = true ∧ testMarking.ring.deferred = [] ∧ testMarking.ring.responses.length < 4
      ∧ testMarking.ring.answering = false
      ∧ 4 ≤ (withRing (fun r => { r with responses := List.replicate 4 foreign }) testMarking).ring.responses.length
      ∧ 32 ≤ full.ring.marking.length ∧ full.mark.waiting.countP (fun w => decide (w.head = 2 ∧ w.column ≠ none)) = 0
      ∧ waiting.mark.waiting = [w] ∧ (waiting.head 2).schedule = [r] ∧ waiting.ring.marking.length < 32 := by decide +kernel

/-- The note queue with 24 entries. -/
def fullNotes (s : State) : State :=
  { s with rep := { s.rep with order := List.replicate 24 (.hide .free 0) } }

/-- A hide that waits; an uncounted hide, a counted one below the size, and one that fills the lot. -/
theorem witness_HideFinalized : (fillingLot 2).keepWaiting.rep.waits = false ∧ (fullNotes (fillingLot 2)).keepWaiting.rep.waits = true
    ∧ (fillingLot 2).powered = true ∧ (fillingLot 2).rep.finals = [500]
    ∧ ((fillingLot 2).recOf 500).map (fun r => (r.counted, r.lotSlot)) = some (true, some 0) ∧ (fillingLot 2).pendingCloseDue = false
    ∧ (fillingLot 2).lots.map LotSlot.closePending = [false, false, false, false]
    ∧ 2 + 1 = ((fillingLot 2).lotEntry 0).size ∧ 0 + 1 ≠ ((fillingLot 0).lotEntry 0).size ∧ (fillingLot 2).rep.used + 2 ≤ 24
    ∧ (HideRec.setFlag .fragment (hideIn .reporting 500)).has .fragment = true := by decide +kernel

/-- CLOSE_LOT for slot 4, for a slot with a close pending, an empty one, and a filled one with the note queue full or not. -/
theorem witness_LotsClosed :
    (∀ s ∈ [closingLot, fillingLot 2, fullNotes (fillingLot 2)], s.Takes (cmd 16 [1]) (cmdFrame 16 [1]) codeCloseLot [1])
      ∧ closingLot.Takes (cmd 16 [4]) (cmdFrame 16 [4]) codeCloseLot [4] ∧ idle.Takes (cmd 16 [0]) (cmdFrame 16 [0]) codeCloseLot [0]
      ∧ closingLot.lots.map LotSlot.closePending = [false, true, false, false] ∧ closingLot.rep.used < 24
      ∧ (idle.lots[0]?).map LotSlot.count = some 0 ∧ ((fillingLot 2).lots[1]?).map LotSlot.count = some 2
      ∧ 24 ≤ (fullNotes (fillingLot 2)).rep.used :=
  ⟨takes_all (by decide +kernel), takes (by decide +kernel), takes (by decide +kernel), by decide +kernel⟩

theorem witness_NotesOrdered : (∀ n, NoteItem.event .drained n ∉ [NoteItem.event .lockChanged 3, .head 2])
    ∧ [NoteItem.head 2, .event .drained 65535] = [.head 2] ++ .event .drained 65535 :: [] := by
  refine ⟨fun n => by simp, rfl⟩

/-- START, STOP and the two ends of the drain, in the states they ask for. -/
theorem witness_RunControlMoves :
    (∀ s ∈ [running, idle, configured], s.Takes (cmd 3 []) (cmdFrame 3 []) codeStart [])
      ∧ (∀ s ∈ [running, idle, { running with run := .drainSecond }], s.Takes (cmd 4 []) (cmdFrame 4 []) codeStop [])
      ∧ running.trk.handing = none ∧ idle.run = .standby ∧ idle.cmd.configured = false ∧ configured.cmd.configured = true ∧ running.run ≠ .standby
      ∧ (∀ r ∈ running.trk.records, r.state ≠ .isOpen) ∧ running.trk.prev.held = []
      ∧ (∀ r ∈ running.trk.records, r.state = .free) ∧ ∀ m ∈ running.mark.heads, m.engine = none :=
  ⟨takes_all (by decide +kernel), takes_all (by decide +kernel), by decide +kernel⟩

theorem witness_SoftResetClears : (loading 2047 256 none).Takes (cmd 5 []) (cmdFrame 5 []) codeSoftReset [] :=
  takes (by decide +kernel)

/-- The four outcomes of a switch sample, and VERIFY_CLOSE with the lock OPEN during a verified load. -/
theorem witness_SwitchAndLock :
    (loading 2047 256 none).Takes (cmd 14 []) (cmdFrame 14 []) codeVerifyClose [] ∧ (loading 2047 256 none).ver.lockOpen = true
      ∧ (((switchAt (some false) 1 true idle).passTime 1000).ver.switch.sample true).2 = .quiet
      ∧ (((switchAt none 2 true idle).passTime 1000).ver.switch.sample true).2 = .established
      ∧ (((switchAt (some false) 2 true idle).passTime 1000).ver.switch.sample true).2 = .changed
      ∧ (((switchAt (some true) 2 false idle).passTime 1000).ver.switch.sample false).2 = .changed :=
  ⟨takes (by decide +kernel), by decide +kernel⟩

/-- VERIFY_OPEN in its five cases, the count at 126 and at 127; a completion with room, without, and with another answer waiting. -/
theorem witness_LockOpens :
    let atCount := fun n => { locked37 with ver := { locked37.ver with count := n } }
    (∀ s ∈ [opening 1300, idle, unlocked, atCount 127, atCount 126], s.Takes (cmd 13 []) (cmdFrame 13 []) codeVerifyOpen [])
      ∧ (opening 1300).Takes (cmd 15 []) (cmdFrame 15 []) codeVerifyStatus []
      ∧ (opening 1300).ver.prog ≠ none ∧ idle.ver.switch.accepted ≠ some true ∧ locked37.ver.switch.accepted = some true
      ∧ unlocked.ver.lockOpen = true ∧ ((opening 1300).passTime 1300).ver.prog = some { src := 5, left := 0, forgotten := false }
      ∧ (opening 1300).ring.deferred = [] ∧ (opening 1300).ring.responses.length < 4 ∧ (opening 1300).ring.answering = false
      ∧ (withRing (fun r => { r with deferred := [.test foreign] }) (opening 1300)).ring.deferred ≠ []
      ∧ 4 ≤ (withRing (fun r => { r with responses := List.replicate 4 foreign }) (opening 1300)).ring.responses.length :=
  ⟨takes_all (by decide +kernel), takes (by decide +kernel), by decide +kernel⟩

theorem witness_FramesReceived : idle.powered = true ∧ parseFrame [20, 12, 3, 0, 0, 0] = none
    ∧ parseFrame foreign.bytes = some foreign ∧ foreign.src ≠ idle.ring.addr ∧ foreign.dst ≠ idle.ring.addr ∧ foreign.dst ≠ 31
    ∧ (frame kindNote [1]).dst = idle.ring.addr ∧ (frame kindNote [1]).kind.toNat = 4
    ∧ (∀ f ∈ [mkFrame 31 12 kindSeg [], mkFrame 31 12 kindHstat [0, 0], mkFrame 31 5 kindCmd [1, 0]], parseFrame f.bytes = some f)
    ∧ settled.assemblerSettled = true ∧ (mkFrame 31 5 kindCmd [1, 0]).command = codeStatus
    ∧ (mkFrame 20 0 kindRsp []).src = idle.ring.addr := by decide +kernel

theorem witness_FramesReceived_command :
    CommandStep (.status (mkFrame 31 5 kindCmd [1, 0]).bytes) (mkFrame 31 5 kindCmd [1, 0]).bytes (· == codeStatus) bodyStatus := .status _

theorem witness_TransmitterPicks :
    let busy := withRing (fun r => { r with out := some foreign }) running
    busy.powered = true ∧ busy.ring.out ≠ none ∧ running.ring.out = none ∧ running.ring.marking = [] ∧ running.ring.forward = []
      ∧ running.ring.responses.length < 4 ∧ chooseNote Tables.default.notepri [.event .drained 1] = some (.event .drained 1, [])
      ∧ (withRing (fun r => { r with deferred := [.verify foreign] }) running).ring.deferred = [.verify foreign] := by
  decide +kernel

/-- A STATUS that finds four answers waiting; a command of kind 0 and one of kind 18. -/
theorem witness_CommandsDropped : CommandStep (.status (cmd 1 [0])) (cmd 1 [0]) (· == codeStatus) bodyStatus
    ∧ idle.takenFrame kindCmd (cmd 1 [0]) = some (cmdFrame 1 [0]) ∧ (cmdFrame 1 [0]).command = codeStatus
    ∧ 4 ≤ (withRing (fun r => { r with responses := List.replicate 4 foreign }) idle).ring.responses.length
    ∧ idle.Takes (cmd 0 []) (cmdFrame 0 []) 0 [] ∧ idle.Takes (cmd 18 []) (cmdFrame 18 []) 18 [] :=
  ⟨.status _, by decide +kernel, by decide, by decide, takes (by decide +kernel), takes (by decide +kernel)⟩

/-- START refused in RUN. -/
theorem witness_RefusalChangesNothing : CommandStep (.start (cmd 3 [])) (cmd 3 []) (· == codeStart) bodyStart
    ∧ Instr.start (cmd 3 []) ≠ .loadData (cmd 3 []) ∧ (bodyStart 5 [] running).2 = some { status := .state, data := [] }
    ∧ ¬ Status.accepts .state := ⟨.start _, nofun, by decide +kernel, by unfold Status.accepts; decide⟩

/-- STATUS of both pages and of the first above them; READ_TABLE at both ends of CELLW. -/
theorem witness_ReportsAnswered :
    idle.Takes (cmd 1 [0]) (cmdFrame 1 [0]) codeStatus [0] ∧ idle.Takes (cmd 1 [1]) (cmdFrame 1 [1]) codeStatus [1]
      ∧ idle.Takes (cmd 1 [2]) (cmdFrame 1 [2]) codeStatus [2]
      ∧ idle.Takes (cmd 2 [0]) (cmdFrame 2 [0]) codeCounters [0] ∧ idle.Takes (cmd 2 [1]) (cmdFrame 2 [1]) codeCounters [1]
      ∧ idle.Takes (cmd 9 [1, 0, 7, 255, 0, 1]) (cmdFrame 9 [1, 0, 7, 255, 0, 1]) codeReadTable [1, 0, 7, 255, 0, 1]
      ∧ TableId.ofCode 1 = some .cellw ∧ 2047 + 1 ≤ TableId.cellw.entries ∧ 1 ≤ TableId.cellw.frameMax :=
  ⟨takes (by decide +kernel), takes (by decide +kernel), takes (by decide +kernel), takes (by decide +kernel),
    takes (by decide +kernel), takes (by decide +kernel), by decide⟩

/-- The load of section 12.9 from its LOAD_BEGIN to its LOAD_END: refused BUSY, LOCKED, begun, out of form; a frame at the next
index, its repeat, one too long, one out of sequence; ended whole, short, and without a load. -/
theorem witness_LoadsTransfer :
    let begin := [1, 7, 0, 1, 0, 1]
    let data : List Byte := [7, 255] ++ [[6, 68], [6, 68]].flatten
    (∀ s ∈ [idle, unlocked, applying], s.Takes (cmd 6 begin) (cmdFrame 6 begin) codeLoadBegin begin)
      ∧ (∀ s ∈ [loading 2047 256 none, loading 2045 254 (some { first := 2047, entries := 2, clamped := 0 }), loading 2047 1 none,
          loading 2046 256 none], s.Takes (cmd 7 data) (cmdFrame 7 data) codeLoadData data)
      ∧ (∀ s ∈ [idle, loading 1791 0 none, loading 1792 1 none], s.Takes (cmd 8 []) (cmdFrame 8 []) codeLoadEnd [])
      ∧ applying.cmd.pendingApply ≠ none ∧ idle.ver.lockOpen = false ∧ 1792 + 256 ≤ TableId.cellw.entries
      ∧ (∀ e ∈ ([[6, 68], [6, 68]] : List (List Byte)), e.length = TableId.cellw.entryLength) ∧ 2 ≤ TableId.cellw.frameMax
      ∧ idle.cmd.load = none ∧ (loading 1791 0 none).cmd.load.map Load.due = some 0 :=
  ⟨takes_all (by decide +kernel), takes_all (by decide +kernel), takes_all (by decide +kernel), by decide +kernel⟩

/-- A load UP of the last entry of a table. -/
def loadingUp (t : TableId) : State :=
  { unlocked with cmd := { unlocked.cmd with
      load := some { table := t, down := false, first := t.entries - 1, count := 1, next := t.entries - 1, due := 1, last := none,
                     wasTorn := true, clamped := 0 } } }

/-- UP: LOAD_BEGIN of the last entry, of one too many, of an unknown table, and too short; LOAD_DATA without a load, with an
argument missing and with one entry; in the load, an entry, none, one byte too many, and five entries of NOTEPRI. -/
theorem witness_LoadsTransfer_up :
    unlocked.Takes (cmd 6 [1, 7, 255, 0, 1, 0]) (cmdFrame 6 [1, 7, 255, 0, 1, 0]) codeLoadBegin [1, 7, 255, 0, 1, 0]
      ∧ unlocked.Takes (cmd 6 [1, 7, 255, 0, 2, 0]) (cmdFrame 6 [1, 7, 255, 0, 2, 0]) codeLoadBegin [1, 7, 255, 0, 2, 0]
      ∧ unlocked.Takes (cmd 6 [11, 0, 0, 0, 1, 2]) (cmdFrame 6 [11, 0, 0, 0, 1, 2]) codeLoadBegin [11, 0, 0, 0, 1, 2]
      ∧ unlocked.Takes (cmd 6 [1]) (cmdFrame 6 [1]) codeLoadBegin [1]
      ∧ (∀ s ∈ [unlocked, loadingUp .cellw], s.Takes (cmd 7 [7, 255]) (cmdFrame 7 [7, 255]) codeLoadData [7, 255])
      ∧ (∀ s ∈ [unlocked, loadingUp .cellw], s.Takes (cmd 7 [7, 255, 6, 68]) (cmdFrame 7 [7, 255, 6, 68]) codeLoadData [7, 255, 6, 68])
      ∧ (loadingUp .cellw).Takes (cmd 7 [7, 255, 6, 68, 0]) (cmdFrame 7 [7, 255, 6, 68, 0]) codeLoadData [7, 255, 6, 68, 0]
      ∧ (loadingUp .notepri).Takes (cmd 7 [0, 3, 1, 1, 1, 1, 1]) (cmdFrame 7 [0, 3, 1, 1, 1, 1, 1]) codeLoadData [0, 3, 1, 1, 1, 1, 1]
      ∧ TableId.ofCode 11 = none ∧ TableId.ofCode 1 = some .cellw ∧ TableId.cellw.entries < 2047 + 2
      ∧ TableId.notepri.frameMax * TableId.notepri.entryLength < 5 ∧ 3 % TableId.cellw.entryLength ≠ 0 ∧ unlocked.cmd.load = none
      ∧ (loadingUp .cellw).cmd.load.isSome = true :=
  ⟨takes (by decide +kernel), takes (by decide +kernel), takes (by decide +kernel), takes (by decide +kernel),
    takes_all (by decide +kernel), takes_all (by decide +kernel), takes (by decide +kernel), takes (by decide +kernel),
    by decide +kernel⟩

/-- APPLY in its cases: BUSY, TORN, LOCKED, nothing MODIFIED, at once, pending with a hide OPEN. -/
theorem witness_ApplyCommands :
    let torn := { idle with cmd := { idle.cmd with states := { StagedStates.clean with scan := .torn } } }
    let locked := { modified with ver := idle.ver }
    let busyRun := { withHides [hideIn .isOpen 71] running with ver := modified.ver, cmd := modified.cmd }
    (∀ s ∈ [applying, torn, locked, idle, modified, busyRun], s.Takes (cmd 10 [0]) (cmdFrame 10 [0]) codeApply [0])
      ∧ applying.Takes (cmd 11 []) (cmdFrame 11 []) codeCancelApply [] ∧ modified.Takes (cmd 12 []) (cmdFrame 12 []) codeRevert []
      ∧ applying.cmd.pendingApply ≠ none ∧ torn.cmd.states.get .scan = .torn ∧ locked.ver.lockOpen = false
      ∧ locked.cmd.states.get .cellw = .modified ∧ modified.strobe.enable = false ∧ busyRun.strobe.enable = true
      ∧ busyRun.hasOpen = true ∧ modified.cmd.pendingApply = none :=
  ⟨takes_all (by decide +kernel), takes (by decide +kernel), takes (by decide +kernel), by decide +kernel⟩

/-- FORCE with a hide OPEN, at a boundary and within a line; a frame that comes while a line that is due is segmented, and one that
comes when none is. -/
theorem witness_ApplyCommands_force :
    let atBoundary := { withHides [hideIn .isOpen 71] running with ver := modified.ver, cmd := modified.cmd }
    let within := { contending with ver := modified.ver, cmd := modified.cmd }
    (∀ s ∈ [atBoundary, within], s.Takes (cmd 10 [1]) (cmdFrame 10 [1]) codeApply [1])
      ∧ atBoundary.trk.handing = none ∧ within.trk.handing ≠ none ∧ atBoundary.strobe.enable = true ∧ within.strobe.enable = true
      ∧ beforeMerge.takenFrame kindCmd (cmd 10 [1]) = some (cmdFrame 10 [1]) ∧ (cmdFrame 10 [1]).command = codeApply
      ∧ beforeMerge.lineDue = true ∧ atBoundary.lineDue = false
      ∧ atBoundary.cmd.load = none ∧ atBoundary.cmd.pendingApply = none ∧ (atBoundary.cmd.states.having .modified) = [.cellw] :=
  ⟨takes_all (by decide +kernel), by decide +kernel⟩

/-- At a boundary with no hide OPEN; outside a belt run; and by FORCE with a hide OPEN. -/
theorem witness_ApplyTakesEffect :
    let inRun := { running with ver := applying.ver, cmd := applying.cmd }
    let byForce := { withHides [hideIn .isOpen 71] lineReady with ver := modified.ver }
    applying.powered = true ∧ applying.cmd.pendingApply = some { force := false, tables := [.cellw] }
      ∧ applying.strobe.enable = false ∧ inRun.strobe.enable = true ∧ (∀ r ∈ inRun.trk.records, r.state ≠ .isOpen)
      ∧ inRun.trk.handing = none ∧ byForce.cmd.pendingApply = some { force := true, tables := [.scan] }
      ∧ byForce.trk.handing = none ∧ byForce.hasOpen = true ∧ byForce.powered = true := by decide +kernel

/-- HEAD entries disabled, moved, newly enabled and changed otherwise; a hide tried anew: taken by its own head, or with none
other, or by the other, or missed; LOT entries changed with the new size at the count, above it, and with the note queue full. -/
theorem witness_ApplyTakesEffect_entries :
    let off := { head710 with enabled := false }
    let r := reservation (.hide 301) 6480000 40
    let q := request 301 5000000 600 40
    let s := withHead (online [] none) 5362000 running
    head710.enabled = true ∧ off.enabled = false ∧ head710.ringAddr ≠ { head710 with ringAddr := 13 }.ringAddr
      ∧ head710 ≠ { head710 with edge := 0 } ∧ r.holder = .hide 301 ∧ r.lane = some { pri := 2, alt := some 3 }
      ∧ trialOn (s.headEntry 2) (s.head 2) 5362000 20000 q = .accepted 6480000
      ∧ trialOn (s.headEntry 3) (s.head 3) 5362000 20000 q = .failed .down
      ∧ ((fillingLot 2).lots[0]?).map LotSlot.count = some 2 ∧ LotRec.default ≠ { LotRec.default with size := 2 }
      ∧ LotRec.default ≠ { LotRec.default with size := 3, firstNo := 700 } ∧ (fillingLot 2).rep.used < 24
      ∧ 24 ≤ (fullNotes (fillingLot 2)).rep.used := by decide +kernel

/-- TEST_MARK in its cases: out of STANDBY, during a test mark, head 8, a figure of 4,000, a head not ONLINE, and begun. -/
theorem witness_TestMarkBegun :
    (∀ s ∈ [running, testMarking, withHead (online [] none) 0 idle], s.Takes (cmd 17 [2, 15, 159]) (cmdFrame 17 [2, 15, 159]) codeTestMark
        [2, 15, 159])
      ∧ idle.Takes (cmd 17 [8, 0, 1]) (cmdFrame 17 [8, 0, 1]) codeTestMark [8, 0, 1]
      ∧ idle.Takes (cmd 17 [7, 15, 160]) (cmdFrame 17 [7, 15, 160]) codeTestMark [7, 15, 160]
      ∧ running.run ≠ .standby ∧ testMarking.run = .standby ∧ testMarking.mark.test ≠ none ∧ (idle.head 7).state ≠ .online
      ∧ (withHead (online [] none) 0 idle).freeSlot = some 0 ∧ ((withHead (online [] none) 0 idle).head 2).engine = none
      ∧ ((withHead (online [] none) 0 idle).head 2).state = .online ∧ idle.mark.waiting = [] :=
  ⟨takes_all (by decide +kernel), takes (by decide +kernel), takes (by decide +kernel), by decide +kernel⟩

/-- A frame with the longest payload. -/
theorem witness_FramesReadBack : (mkFrame 3 9 4 (List.replicate 72 1)).payload.length ≤ 72
    ∧ parseFrame foreign.bytes = some foreign := by decide +kernel

theorem default_bank_inRange : Tables.default.InRange :=
  ⟨⟨by decide +kernel, fun w hw => by rw [List.eq_of_mem_replicate hw]; decide⟩, by decide, by decide, by decide, by decide,
    ⟨by decide, by decide⟩, ⟨by decide, by decide⟩, ⟨by decide, by decide⟩, ⟨by decide, by decide⟩, ⟨by decide, by decide⟩⟩

theorem witness_EntriesReadBack : Tables.default.InRange ∧ 2047 < TableId.cellw.entries := ⟨default_bank_inRange, by decide⟩

/-- R172: a PMOD of 1; a window turned round; GUARD below PRIME_LEAD; HEAD_ALT equal to HEAD_PRI, and brought to it. -/
theorem test_dependent_fields :
    (loadPitch 5 6 1 9).value = { pint := 5, pfrac := 6, pmod := 2, paux := 0 } ∧ (loadPitch 5 6 1 9).clamped = 1
      ∧ (loadLane 900 800 7 7 0 1).value.cellLast = 900 ∧ (loadLane 900 800 7 7 0 1).clamped = 2
      ∧ [7, 9, 3, 255].map (loadAlt 7) = [⟨none, 1⟩, ⟨none, 1⟩, ⟨some 3, 0⟩, ⟨none, 0⟩]
      ∧ (loadHead 31 0 1000000 10000 9999 0 500 256 0 0).value.guard = 10000 := by decide

/-- Loaded fields at the ends of their widths. -/
theorem witness_EntriesReadBack_fields : (65535 : Nat) < 2 ^ 16 ∧ (255 : Nat) < 256 ∧ (16777215 : Nat) < 2 ^ 24
    ∧ (-32768 : Int) ≤ -32768 ∧ (127 : Int) ≤ 127 ∧ (List.replicate 12 (0xFFFF : Dots)).length = 12 := by decide

/-- The part in RUN that is about to strobe, with the strobe at the front of its queue. -/
def stepping : State := { overspeed with pending := [.strobe 1] }

theorem witness_TablesStayInRange : running.TablesOk ∧ ∃ t, step running = .next t :=
  ⟨⟨default_bank_inRange, default_bank_inRange⟩, _, rfl⟩

theorem witness_PositionStaysInRange : stepping.TablesOk ∧ stepping.PositionOk ∧ stepping.StrobesOk ∧ ∃ t, step stepping = .next t :=
  ⟨⟨default_bank_inRange, { default_bank_inRange with scan := by decide }⟩, by unfold State.PositionOk; decide +kernel,
    by unfold State.StrobesOk; decide +kernel, _, rfl⟩

/-- The lock OPEN during a verified load, and CLOSED. -/
theorem witness_LockSealsTables : (loading 2047 256 none).LockOk ∧ (loading 2047 256 none).SealOk
    ∧ (∃ t, step (loading 2047 256 none) = .next t) ∧ locked37.SealOk ∧ locked37.ver.lockOpen = false
    ∧ (∀ straps, Instr.switchSample 1000 true ≠ .powerOn straps) ∧ ∃ t, exec (.switchSample 1000 true) locked37 = .next t :=
  ⟨by unfold State.LockOk; decide +kernel, by unfold State.SealOk; decide +kernel, ⟨_, rfl⟩, by unfold State.SealOk; decide +kernel,
    rfl, nofun, _, rfl⟩

/-- Every buffer with all its places held. -/
def fullBuffers : State :=
  fullNotes (withRing (fun r => { r with
    forward := List.replicate 4 foreign, responses := List.replicate 4 foreign, marking := List.replicate 32 primeFrame }) running)

theorem witness_BuffersStayWithin : fullBuffers.BuffersOk ∧ ∃ t, step fullBuffers = .next t :=
  ⟨by unfold State.BuffersOk; decide +kernel, _, rfl⟩

/-- A lot one below its size, and one above its size that is closing. -/
def fullLots : State :=
  { fillingLot 2 with lots := (fillingLot 2).lots.set 1 ({ lotNo := 87, count := 12, quarters := 0, decimetres := 0, gross := 0,
                                                           closePending := true, nextNo := none }) }

theorem witness_LotsStayOpen : fullLots.TablesOk ∧ fullLots.LotsOk ∧ ∃ t, step fullLots = .next t :=
  ⟨⟨default_bank_inRange, { default_bank_inRange with lots := ⟨by decide, by decide⟩ }⟩, by unfold State.LotsOk; decide +kernel, _, rfl⟩

end Sys2Proof.Tests
end

section
/-! PROOFS. What a loaded PITCH record holds (R172, R184), and which bank an apply makes active (R177). -/

namespace Sys2Proof.Machine

/-! ## Fields of bytes and the loaded PITCH record (R172, R184) -/

theorem ofBytes_append_one (bs : List Byte) (b : Byte) : ofBytes (bs ++ [b]) = ofBytes bs * 256 + b.toNat := by
  simp [ofBytes]

theorem ofBytes_lt (bs : List Byte) : ofBytes bs < 256 ^ bs.length := by
  induction bs using List.reverseRecOn with
  | nil => decide
  | append_singleton bs b ih =>
    rw [ofBytes_append_one, List.length_append, List.length_singleton, pow_succ]
    have := b.isLt
    omega

/-- The fields that bytes are cut into have the widths asked for. -/
theorem splitFields_widths {ws : List Nat} {bs : List Byte} {fs : List (List Byte)} (h : splitFields ws bs = some fs) :
    fs.map List.length = ws := by
  induction ws generalizing bs fs with
  | nil =>
    cases bs with
    | nil => cases h; rfl
    | cons b bs => cases h
  | cons w ws ih =>
    unfold splitFields at h
    split at h
    · cases h
    · obtain ⟨gs, hg, rfl⟩ := Option.map_eq_some_iff.mp h
      have hw : min w bs.length = w := by omega
      simp [ih hg, hw]

theorem keepNat_range {lo hi : Nat} (h : lo ≤ hi) (v : Nat) : lo ≤ (keepNat lo hi v).value ∧ (keepNat lo hi v).value ≤ hi := by
  unfold keepNat
  split
  · exact ⟨le_refl _, h⟩
  · split
    · exact ⟨h, le_refl _⟩
    · exact ⟨by simp only; omega, by simp only; omega⟩

/-- A PITCH record as loaded from fields of three bytes is in range (R172). -/
theorem loadPitch_inRange (pint paux : Nat) {pfrac pmod : Nat} (hf : pfrac < 2 ^ 24) (hm : pmod < 2 ^ 24) :
    (loadPitch pint pfrac pmod paux).value.InRange := by
  have hi := (keepNat_range (Nat.zero_le 4095) pint).2
  unfold loadPitch
  simp only
  split
  · exact ⟨hi, hf, le_refl 2, by simp, by simp⟩
  · have ha := (keepNat_range (Nat.zero_le (pmod - 1)) paux).2
    exact ⟨hi, hf, by simp only; omega, by simp only; omega, by simp only; omega⟩

/-- An entry written to a bank leaves a PITCH record in range, whichever table it is written to (R172). -/
theorem storeEntry_pitch_inRange {b : Tables} (h : b.pitch.InRange) (t : TableId) (i : Nat) (bs : List Byte) :
    (b.storeEntry t i bs).value.pitch.InRange := by
  unfold Tables.storeEntry
  split
  case h_2 f₁ f₂ f₃ f₄ hs =>
    have hw := splitFields_widths hs
    simp only [TableId.widths, List.map_cons, List.map_nil, List.cons.injEq] at hw
    obtain ⟨-, h₂, h₃, -⟩ := hw
    have hf := ofBytes_lt f₂
    have hm := ofBytes_lt f₃
    rw [h₂] at hf
    rw [h₃] at hm
    exact loadPitch_inRange _ _ hf hm
  all_goals exact h

theorem storeAll_pitch_inRange (t : TableId) (down : Bool) (entries : List (List Byte)) {b : Tables} (h : b.pitch.InRange)
    (i : Nat) : (b.storeAll t down i entries).value.pitch.InRange := by
  induction entries generalizing b i with
  | nil => exact h
  | cons e rest ih => exact ih (storeEntry_pitch_inRange h t i e) _

/-! ## The active bank of an apply (R177 step 1) -/

/-- A table copied where a condition holds is one field chosen by it. -/
theorem copyFrom_if (c : Prop) [Decidable c] (src dst : Tables) (t : TableId) :
    (if c then src.copyFrom dst t else dst) =
      { cellw := if t = .cellw ∧ c then src.cellw else dst.cellw
        pitch := if t = .pitch ∧ c then src.pitch else dst.pitch
        calib := if t = .calib ∧ c then src.calib else dst.calib
        scan := if t = .scan ∧ c then src.scan else dst.scan
        markp := if t = .markp ∧ c then src.markp else dst.markp
        lanes := if t = .lane ∧ c then src.lanes else dst.lanes
        heads := if t = .head ∧ c then src.heads else dst.heads
        glyphs := if t = .glyph ∧ c then src.glyphs else dst.glyphs
        lots := if t = .lot ∧ c then src.lots else dst.lots
        notepri := if t = .notepri ∧ c then src.notepri else dst.notepri } := by
  by_cases hc : c <;> cases t <;> simp [hc, Tables.copyFrom]

/-- The active bank after an apply holds the staged table where it is MODIFIED, and the active one where not (R177 step 1). -/
theorem appliedBank_eq (c : CommandUnit) : c.appliedBank =
    { cellw := if c.states.cellw = .modified then c.staged.cellw else c.active.cellw
      pitch := if c.states.pitch = .modified then c.staged.pitch else c.active.pitch
      calib := if c.states.calib = .modified then c.staged.calib else c.active.calib
      scan := if c.states.scan = .modified then c.staged.scan else c.active.scan
      markp := if c.states.markp = .modified then c.staged.markp else c.active.markp
      lanes := if c.states.lane = .modified then c.staged.lanes else c.active.lanes
      heads := if c.states.head = .modified then c.staged.heads else c.active.heads
      glyphs := if c.states.glyph = .modified then c.staged.glyphs else c.active.glyphs
      lots := if c.states.lot = .modified then c.staged.lots else c.active.lots
      notepri := if c.states.notepri = .modified then c.staged.notepri else c.active.notepri } := by
  simp only [CommandUnit.appliedBank, StagedStates.having, TableId.all, List.foldl_filter, List.foldl_cons, List.foldl_nil,
    StagedStates.get, beq_iff_eq, copyFrom_if, true_and, reduceCtorEq, false_and, if_false]

end Sys2Proof.Machine
end

section
/-! PROOFS. The invariant of the position and the strobes (O57) and the HWM (O12), move by move over `step_moves` and `exec_moves`. -/

namespace Sys2Proof.Machine

/-! ## The position and the strobes stay legal, move by move (R5, R9, R10, R12, R13, R139) -/

/-- A position in its ranges, as `State.PositionOk` has it of a state, for a modulus of X. -/
structure Position.Legal (pmod : Nat) (p : Position) : Prop where
  i_ge : posMin ≤ p.i
  i_le_hwm : p.i ≤ p.hwm
  hwm_le : p.hwm ≤ posMax
  f_lt : p.f < 2 ^ 24
  x_lt : p.x < pmod
  excursion : p.excursion = true → p.i < p.hwm

theorem State.positionOk_iff (s : State) : s.PositionOk ↔ s.pos.Legal s.cmd.active.pitch.pmod :=
  ⟨fun ⟨h₁, h₂, h₃, h₄, h₅, h₆⟩ => ⟨h₁, h₂, h₃, h₄, h₅, h₆⟩, fun ⟨h₁, h₂, h₃, h₄, h₅, h₆⟩ => ⟨h₁, h₂, h₃, h₄, h₅, h₆⟩⟩

/-- A strobe generator whose enable and wait state fit a run state and an HWM, as `State.StrobesOk` has it of a state. -/
structure StrobeGen.Legal (r : RunState) (hwm : Int) (g : StrobeGen) : Prop where
  enable : g.enable = true ↔ r = .run ∨ r = .drainFirst
  wait : g.wait = true → g.enable = true ∧ g.next ≤ hwm

theorem State.strobesOk_iff (s : State) : s.StrobesOk ↔ s.strobe.Legal s.run s.pos.hwm :=
  ⟨fun ⟨h₁, h₂⟩ => ⟨h₁, h₂⟩, fun ⟨h₁, h₂⟩ => ⟨h₁, h₂⟩⟩

theorem Position.Legal.forward {q : PitchRec} {p : Position} (hq : q.InRange) (h : p.Legal q.pmod) :
    ((p.forward q).afterForward).Legal q.pmod := by
  have hi : p.i ≤ posMax := h.i_le_hwm.trans h.hwm_le
  obtain ⟨hmax, hup, hf, hx⟩ := p.forward_range q hq h.f_lt h.x_lt hi
  refine ⟨h.i_ge.trans hup, le_max_right _ _, ?_, hf, hx, ?_⟩
  · exact max_le (by rw [forward_hwm]; exact h.hwm_le) hmax
  · intro he
    simp only [afterForward, Bool.and_eq_true, decide_eq_true_eq] at he
    exact he.2

theorem Position.Legal.backward {q : PitchRec} {p : Position} (hq : q.InRange) (h : p.Legal q.pmod) :
    (p.backward q).Legal q.pmod := by
  obtain ⟨hmin, hdown, hf, hx⟩ := p.backward_range q hq h.f_lt h.x_lt h.i_ge
  refine ⟨hmin, ?_, ?_, hf, hx, ?_⟩
  · rw [backward_hwm]
    exact hdown.trans h.i_le_hwm
  · rw [backward_hwm]
    exact h.hwm_le
  · rw [backward_hwm, backward_excursion]
    exact fun he => lt_of_le_of_lt hdown (h.excursion he)

theorem Position.Legal.restart {pmod : Nat} {p : Position} (h : p.Legal pmod) : p.restart.Legal pmod :=
  ⟨h.i_ge, le_refl _, h.i_le_hwm.trans h.hwm_le, h.f_lt, h.x_lt, nofun⟩

/-- A forward count never lowers the HWM (R9). -/
theorem Position.hwm_le_forward (q : PitchRec) (p : Position) : p.hwm ≤ ((p.forward q).afterForward).hwm :=
  (forward_hwm q p).symm.le.trans (le_max_left _ _)

theorem StrobeGen.Legal.mono {r : RunState} {hwm hwm' : Int} {g : StrobeGen} (h : g.Legal r hwm) (up : hwm ≤ hwm') :
    g.Legal r hwm' :=
  ⟨h.enable, fun hw => ⟨(h.wait hw).1, (h.wait hw).2.trans up⟩⟩

/-- The power-on values are legal (R148). -/
theorem reset_legal : State.reset.cmd.active.pitch.InRange ∧ State.reset.pos.Legal State.reset.cmd.active.pitch.pmod :=
  ⟨by decide, by decide, by decide, by decide, by decide, by decide, nofun⟩

/-- The HWM falls at no move but a restart (R9, R11). -/
theorem CoreMove.hwm_le {k : MoveKind} {v w : CoreView} (hk : k ≠ .restart) (m : CoreMove k v w) : v.pos.hwm ≤ w.pos.hwm := by
  cases m
  case forward => exact Position.hwm_le_forward _ _
  case backward => exact (Position.backward_hwm _ _).symm.le
  case start => exact absurd rfl hk
  case softReset => exact absurd rfl hk
  case powerOn => exact absurd rfl hk
  all_goals exact le_refl _

/-- The PITCH records of both banks are in range (section 12.8). -/
structure CommandUnit.PitchesOk (c : CommandUnit) : Prop where
  staged : c.staged.pitch.InRange
  active : c.active.pitch.InRange

theorem cancelLoad_banks (c : CommandUnit) : c.cancelLoad.staged = c.staged ∧ c.cancelLoad.active = c.active := by
  rw [cancelLoad_frame]
  exact ⟨rfl, rfl⟩

theorem CommandUnit.PitchesOk.of_banks {c d : CommandUnit} (h : c.PitchesOk) (e : d.staged = c.staged ∧ d.active = c.active) :
    d.PitchesOk := ⟨by rw [e.1]; exact h.staged, by rw [e.2]; exact h.active⟩

theorem CommandUnit.PitchesOk.onLockClose {c : CommandUnit} (h : c.PitchesOk) : c.onLockClose.PitchesOk :=
  h.of_banks ⟨(onLockClose_banks c).1, (onLockClose_banks c).2.1⟩

theorem CommandUnit.PitchesOk.appliedBank {c : CommandUnit} (h : c.PitchesOk) : c.appliedBank.pitch.InRange := by
  rw [appliedBank_eq]
  simp only
  split
  · exact h.staged
  · exact h.active

/-- Every move keeps the PITCH records in range: a loaded one is brought into range (R172), an applied or reverted one was. -/
theorem CoreMove.keeps_pitches {k : MoveKind} {v w : CoreView} (m : CoreMove k v w) (h : v.cmd.PitchesOk) :
    w.cmd.PitchesOk := by
  cases m
  case apply => exact ⟨h.staged, h.appliedBank⟩
  case softReset => exact h.of_banks (cancelLoad_banks v.cmd)
  case powerOn => exact ⟨reset_legal.1, reset_legal.1⟩
  case release =>
    simp only
    split
    · exact h.onLockClose
    · exact h
  case close => exact h.onLockClose
  case loadBegin => exact h.of_banks (cancelLoad_banks v.cmd)
  case loadWrite => exact ⟨storeAll_pitch_inRange _ _ _ h.staged _, h.active⟩
  case tear => exact h.of_banks (cancelLoad_banks v.cmd)
  case revert => exact ⟨h.active, h.active⟩
  all_goals exact ⟨h.staged, h.active⟩

/-- Every move keeps the position legal. -/
theorem CoreMove.keeps_position {k : MoveKind} {v w : CoreView} (m : CoreMove k v w) (hc : v.cmd.PitchesOk)
    (h : v.pos.Legal v.cmd.active.pitch.pmod) : w.pos.Legal w.cmd.active.pitch.pmod := by
  cases m
  case forward => exact h.forward hc.active
  case backward => exact h.backward hc.active
  case excursion below => exact { h with excursion := fun _ => below }
  case counters => exact ⟨h.i_ge, h.i_le_hwm, h.hwm_le, h.f_lt, h.x_lt, h.excursion⟩
  case apply =>
    refine ⟨h.i_ge, h.i_le_hwm, h.hwm_le, h.f_lt, ?_, h.excursion⟩
    simp only
    split
    · rename_i same
      rw [same]
      exact h.x_lt
    · have := hc.appliedBank.2.2.1
      omega
  case start => exact h.restart
  case softReset =>
    rw [show v.cmd.softReset.active = v.cmd.active from (cancelLoad_banks v.cmd).2]
    have := h.restart
    exact ⟨this.i_ge, this.i_le_hwm, this.hwm_le, this.f_lt, this.x_lt, this.excursion⟩
  case powerOn => exact reset_legal.2
  case release =>
    simp only
    split
    · rw [(onLockClose_banks v.cmd).2.1]
      exact h
    · exact h
  case close =>
    simp only
    rw [(onLockClose_banks v.cmd).2.1]
    exact h
  case loadBegin t first count down _ _ =>
    rw [show (v.cmd.startLoad t first count down).active = v.cmd.active from (cancelLoad_banks v.cmd).2]
    exact h
  case tear =>
    simp only
    rw [(cancelLoad_banks v.cmd).2]
    exact h
  all_goals exact h

/-- Every move keeps the strobe enable and the wait state to their run states and conditions. -/
theorem CoreMove.keeps_strobes {k : MoveKind} {v w : CoreView} (m : CoreMove k v w) (h : v.strobe.Legal v.run v.pos.hwm) :
    w.strobe.Legal w.run w.pos.hwm := by
  cases m
  case time => exact ⟨h.enable, h.wait⟩
  case forward => exact h.mono (Position.hwm_le_forward _ _)
  case backward => exact h.mono (Position.backward_hwm _ _).symm.le
  case wait enabled due => exact ⟨h.enable, fun _ => ⟨enabled, due⟩⟩
  case strobe => exact ⟨h.enable, nofun⟩
  case pulse => exact ⟨h.enable, h.wait⟩
  case counters => exact ⟨h.enable, h.wait⟩
  case start => exact ⟨by simp [StrobeGen.started], nofun⟩
  case stop run => exact ⟨by simpa [run] using h.enable, h.wait⟩
  case endFirst => exact ⟨by simp, nofun⟩
  case endSecond run => exact ⟨by simpa [run] using h.enable, h.wait⟩
  case softReset => exact ⟨by simp [StrobeGen.softReset], nofun⟩
  case powerOn => exact ⟨by simp [State.view, State.afterPowerOn], nofun⟩
  all_goals exact h

/-- What the moves keep together: the position's modulus is the active PMOD, which an apply takes from the staged bank. -/
structure CoreView.Legal (v : CoreView) : Prop where
  pitches : v.cmd.PitchesOk
  position : v.pos.Legal v.cmd.active.pitch.pmod
  strobes : v.strobe.Legal v.run v.pos.hwm

theorem CoreMove.keeps_legal {k : MoveKind} {v w : CoreView} (m : CoreMove k v w) (h : v.Legal) : w.Legal :=
  ⟨m.keeps_pitches h.pitches, m.keeps_position h.pitches h.position, m.keeps_strobes h.strobes⟩

/-- Settles O57: every step is a chain of moves, and every move keeps the position and the strobes legal. -/
theorem positionStaysInRange : Obligations.PositionStaysInRange := by
  intro s t hT hP hS h
  have legal : s.view.Legal :=
    { pitches := ⟨hT.1.pitch, hT.2.pitch⟩, position := s.positionOk_iff.mp hP, strobes := s.strobesOk_iff.mp hS }
  have after : t.view.Legal := CoreMoves.keeps (fun _ _ _ _ m => m.keeps_legal) (step_moves h) legal
  exact ⟨t.positionOk_iff.mpr after.position, t.strobesOk_iff.mpr after.strobes⟩

/-- Settles O12: the moves of every other input lower the HWM nowhere. -/
theorem hwmNeverFalls : Obligations.HwmNeverFalls := by
  intro i s t h notPowerOn notStart notReset
  have noRestart : restartsPosition i = false := by
    cases i
    case powerOn straps => exact absurd rfl (notPowerOn straps)
    case start b => exact absurd rfl (notStart b)
    case softReset b => exact absurd rfl (notReset b)
    all_goals rfl
  have moves : Reaches (· ≠ .restart) s.view t :=
    exec_moves nofun (fun restarts => by simp [noRestart] at restarts) (fun _ => nofun) h
  have up : ∀ k v w, k ≠ MoveKind.restart → CoreMove k v w → s.pos.hwm ≤ v.pos.hwm → s.pos.hwm ≤ w.pos.hwm :=
    fun _ _ _ hk m hv => hv.trans (m.hwm_le hk)
  exact moves.keeps up (le_refl _)

end Sys2Proof.Machine
end

section
/-! PROOFS. The encoder steps (O6, O7, O9), the strobe generator (O13, O14) and the quadrature decode (O11). -/

namespace Sys2Proof.Machine

/-! ## The shared effects in closed form -/

/-- The wait state after its entry is judged: kept, or entered where the enable is set, the HWM has reached NEXT and the period
counter is below MIN_STROBE (R13; log 9). -/
theorem enterWait_eq (s : State) : s.enterWait = { s with strobe := { s.strobe with
    wait := s.strobe.wait || (s.strobe.enable && decide (s.strobe.next ≤ s.pos.hwm)
      && decide (s.strobe.period < s.cmd.active.scan.minStrobe)) } } := by
  have below : (!s.timeCondition) = decide (s.strobe.period < s.cmd.active.scan.minStrobe) := by
    rw [State.timeCondition, ← decide_not]
    simp only [not_le]
  unfold State.enterWait
  rw [below, State.positionCondition]
  split
  · rename_i enters
    rw [enters, Bool.or_true]
  · rename_i stays
    rw [Bool.not_eq_true] at stays
    rw [stays, Bool.or_false]

/-- A flag set in every OPEN hide, written out (R37). -/
theorem onOpen_setFlag_eq (k : Flag) : onOpen (HideRec.setFlag k) =
    fun r => if r.state = .isOpen then { r with flags := r.flags ||| BitVec.ofNat 16 (2 ^ k.bit) } else r := by
  funext r
  simp [onOpen, HideRec.setFlag, Flag.mask]

/-! ## The encoder steps (R1, R4, R6, R7) -/

/-- Settles O6: the HWM and the excursion by `Position.afterForward`, the wait state by `enterWait_eq`. -/
theorem forwardCountMoves : Obligations.ForwardCountMoves := by
  intro dt a b s hp t o p forward
  refine (stepWhen_due hp (by simpa using forward)).trans (congrArg _ ?_)
  simp only [State.countForward, enterWait_eq]
  simp [State.withSample, Position.afterForward, t, o, p]

/-- Settles O9: each step is due by its sort of sample, and the first two have no effect but the sample's. -/
theorem encoderSamplesTaken : Obligations.EncoderSamplesTaken := by
  intro dt a b s hp t o
  refine ⟨fun quiet => stepWhen_due hp (by simpa using quiet), fun establishes => stepWhen_due hp (by simpa using establishes),
    fun fault => ?_⟩
  refine (stepWhen_due hp (by simpa using fault)).trans (congrArg _ ?_)
  simp [State.takeEncoderFault, State.mapRecs, State.raise, State.withSample, onOpen_setFlag_eq, t, o, bump, satAdd, Flag.bit]

/-- Settles O7: the two cases are whether the count begins an excursion. -/
theorem backwardCountMoves : Obligations.BackwardCountMoves := by
  intro dt a b s hp t o p backward
  have taken : exec (.backwardCount dt a b) s = .next (t.withSample a b).countBackward :=
    stepWhen_due hp (by simpa using backward)
  have begins : p.beginsExcursion t.cmd.active.scan.reverseLimit = true ↔
      t.pos.excursion = false ∧ (t.cmd.active.scan.reverseLimit : Int) < t.pos.hwm - p.i := by
    simp [Position.beginsExcursion, p]
  have effect : (t.withSample a b).countBackward = if p.beginsExcursion t.cmd.active.scan.reverseLimit
      then ({ t.withSample a b with pos := p } : State).beginExcursion.arbitrate else { t.withSample a b with pos := p } := rfl
  refine ⟨Position.backward_hwm _ _, Position.backward_excursion _ _, ?_⟩
  rw [taken, effect]
  split
  · rename_i h
    rw [if_pos (begins.mpr h)]
    simp [State.beginExcursion, State.mapRecs, State.raise, State.withSample, onOpen_setFlag_eq, o, Flag.bit]
  · rename_i h
    rw [if_neg (mt begins.mp h)]
    rfl

/-! ## The strobe generator (R13 to R17) -/

theorem inWindowPeriod_iff (win prev t : Nat) :
    inWindowPeriod win prev t = true ↔ (max t prev - min t prev) * 256 ≤ prev * win := by
  have dist : ((t : Int) - prev).natAbs = max t prev - min t prev := by omega
  rw [inWindowPeriod, decide_eq_true_iff, dist]

theorem judgePeriod_inWindow {scan : ScanRec} {prev t : Nat} (h : inWindowPeriod scan.steadyWin prev t = true)
    (steady : Bool) (n : Nat) : judgePeriod scan steady n prev t =
      { steady := steady || decide (scan.steadyCount ≤ min 255 (n + 1)), inWindow := min 255 (n + 1),
        event := if steady = false ∧ scan.steadyCount ≤ min 255 (n + 1) then some .speedSteady else none } := by
  unfold judgePeriod
  rw [if_pos h, satAdd]
  cases steady <;> by_cases hc : scan.steadyCount ≤ min 255 (n + 1) <;> simp [hc]

/-- NEXT raised by whole pitches exceeds S, and no position fewer pitches on does (R14 step 5). -/
theorem raiseNext_least (next : Int) {pitch : Nat} (sPos : Int) (hp : 0 < pitch) :
    ∃ k : Nat, raiseNext next pitch sPos = next + k * pitch ∧ sPos < raiseNext next pitch sPos
      ∧ ∀ j : Nat, sPos < next + j * pitch → k ≤ j := by
  unfold raiseNext
  split
  · exact ⟨0, by simp, by assumption, fun j _ => Nat.zero_le j⟩
  · rename_i h
    have hp' : (0 : Int) < pitch := by exact_mod_cast hp
    have nonneg : 0 ≤ (sPos - next) / pitch := Int.ediv_nonneg (by omega) hp'.le
    obtain ⟨n, hn⟩ := Int.eq_ofNat_of_zero_le nonneg
    have up : sPos - next < (pitch : Int) * ((sPos - next) / pitch + 1) := by
      have := Int.lt_ediv_add_one_mul_self (sPos - next) hp'
      linarith
    refine ⟨n + 1, by rw [hn]; push_cast; ring, by linarith, fun j hj => ?_⟩
    have below : (sPos - next) / (pitch : Int) < j := Int.ediv_lt_of_lt_mul hp' (by linarith)
    omega

/-- Settles O14: the judgement by whether the period is in window, NEXT by `raiseNext_least`. -/
theorem periodJudgedAndNextMoved : Obligations.PeriodJudgedAndNextMoved := by
  refine ⟨fun scan g => ⟨fun unjudged => ?_, fun prev hs hprev => ?_⟩, fun _ _ sPos hp => raiseNext_least _ sPos hp⟩
  · unfold StrobeGen.verdict
    split
    · simp_all
    · rfl
  · intro dist n
    have judged : g.verdict scan = judgePeriod scan g.steady g.inWindow prev g.period := by
      simp [StrobeGen.verdict, hs, hprev]
    rw [judged]
    refine ⟨fun inside => ?_, fun outside => ?_⟩
    · rw [judgePeriod_inWindow ((inWindowPeriod_iff _ _ _).mpr inside)]
      exact ⟨rfl, by simp [n], rfl⟩
    · have h : ¬ inWindowPeriod scan.steadyWin prev g.period = true := by
        rw [inWindowPeriod_iff]
        exact not_le.mpr outside
      rw [judgePeriod, if_neg h]

/-- The time that passes for a part that is not held (R13, R15, R152). -/
theorem passTime_powered {s : State} (hp : s.powered = true) (dt : Nat) : s.passTime dt = { s with
    time := s.time + BitVec.ofNat 32 dt
    strobe := { s.strobe with
      period := satAdd periodTop s.strobe.period dt
      pulse := s.strobe.pulse.map (fun p => { p with left := p.left - dt }) }
    ver := { s.ver with prog := s.ver.prog.map (fun p => { p with left := p.left - dt }) } } := by
  rw [State.passTime, if_pos hp]

/-- Settles O13: a strobe, the end of its pulse, passing time, and a part with nothing to do. -/
theorem strobesIssued : Obligations.StrobesIssued := by
  refine ⟨?strobe, ?pulseEnd, ?time, ?idle⟩
  case strobe =>
    intro dt s hp t scan v enabled passed elapsed settled slot u
    have due : t.strobeDue = true := by
      have position : t.positionCondition = true := decide_eq_true passed
      have time : t.timeCondition = true := decide_eq_true elapsed
      simp only [State.strobeDue, enabled, position, time, settled, Bool.and_self]
    exact stepWhen_due hp due
  case pulseEnd =>
    intro dt s sync hp ended
    exact stepWhen_due hp (by simp [State.pulseOver, ended])
  case time =>
    intro dt s t
    refine ⟨fun held => ?_, fun hp => ?_⟩
    · simp [t, State.passTime, held]
    · have e : t = _ := passTime_powered hp dt
      rw [e]
      refine ⟨rfl, by simp, fun h => by simp [h], fun p h => by simp [h], fun h => by simp [h], fun p h => by simp [h]⟩
  case idle =>
    intro s hp queue nothing
    simp [step, queue, State.idle, hp, nothing]

/-! ## The quadrature decode (R3, R4) -/

/-- A sample of a channel with an accepted level changes that level or does nothing (R1). -/
theorem sample_quiet {c : Channel} {l : Bool} (h : c.accepted = some l) (level : Bool) (still : (c.sample level).2 ≠ .changed) :
    (c.sample level).2 = .quiet := by
  revert still
  unfold Channel.sample
  rw [h]
  simp only
  split
  · exact fun _ => rfl
  · split
    · exact fun still => absurd rfl still
    · exact fun _ => rfl

/-- The four steps of R3 along which the levels of A and B move forward under NORMAL. -/
theorem forwardStep_iff (la lb : Bool) :
    (forwardStep la lb true = true ↔ ((la, lb), (!la, lb)) ∈
      [((false, false), (true, false)), ((true, false), (true, true)), ((true, true), (false, true)),
       ((false, true), (false, false))])
    ∧ (forwardStep la lb false = true ↔ ((la, lb), (la, !lb)) ∈
      [((false, false), (true, false)), ((true, false), (true, true)), ((true, true), (false, true)),
       ((false, true), (false, false))]) := by
  revert la lb
  decide

/-- ENC_DIR exchanges the senses (R3). -/
theorem sense_eq (dir : EncDir) {step : Bool} {along : Prop} [Decidable along] (h : step = true ↔ along) :
    (if (step == (dir == .normal)) = true then SampleKind.forward else .backward)
      = if along ↔ dir = .normal then .forward else .backward := by
  refine if_congr ?_ rfl rfl
  rw [← h, beq_iff_eq, Bool.eq_iff_iff, beq_iff_eq]

/-- Settles O11: the cases are which of the two channels change. -/
theorem quadratureSense : Obligations.QuadratureSense := by
  intro dir ca cb a b la lb ha hb k changedA changedB along
  have hk : k = (encoderOutcome dir ca cb a b).2.2 := rfl
  simp only [encoderOutcome, ha, hb] at hk
  have quietA := sample_quiet ha a
  have quietB := sample_quiet hb b
  by_cases hA : changedA <;> by_cases hB : changedB
  · rw [show (ca.sample a).2 = .changed from hA, show (cb.sample b).2 = .changed from hB] at hk
    exact ⟨fun _ => hk, fun h => absurd hA h.1, fun h => absurd (iff_of_true hA hB) h⟩
  · rw [show (ca.sample a).2 = .changed from hA, quietB hB] at hk
    refine ⟨fun h => absurd h.2 hB, fun h => absurd hA h.1, fun _ => hk.trans (sense_eq dir ?_)⟩
    rw [(forwardStep_iff la lb).1]
    simp [along, hA, hB]
  · rw [quietA hA, show (cb.sample b).2 = .changed from hB] at hk
    refine ⟨fun h => absurd h.1 hA, fun h => absurd hB h.2, fun _ => hk.trans (sense_eq dir ?_)⟩
    rw [(forwardStep_iff la lb).2]
    simp [along, hA, hB]
  · rw [quietA hA, quietB hB] at hk
    exact ⟨fun h => absurd h.1 hA, fun _ => hk, fun h => absurd (iff_of_false hA hB) h⟩

end Sys2Proof.Machine
end

section
/-! PROOFS. The exactness of counts (O8), from the carries and borrows that Laws/Position.lean gives. -/

namespace Sys2Proof.Machine

/-! ## Counts are exact (R6, R7) -/

/-- Where F and X are in their ranges, I is the floor of the true position (R5). -/
theorem Position.i_eq_floor {m : Nat} {p : Position} (hf : p.f < 2 ^ 24) (hx : p.x < m) :
    p.i = p.scaled m / (2 ^ 24 * m) := by
  have frac : p.f * m + p.x < 2 ^ 24 * m := by nlinarith
  have hm : (0 : Int) < 2 ^ 24 * m := by
    have : 0 < m := by omega
    positivity
  have split : p.scaled m = (p.f * m + p.x : Nat) + p.i * (2 ^ 24 * m) := by
    rw [Position.scaled]
    push_cast
    ring
  rw [split, Int.add_mul_ediv_right _ _ hm.ne', Int.ediv_eq_zero_of_lt (by positivity) (by exact_mod_cast frac), zero_add]

/-- A forward count in range, its carries as sums without a subtraction (R6). -/
theorem Position.forward_sums {q : PitchRec} {p : Position} (room : p.i + (q.pint + 1) ≤ posMax) :
    ∃ c d : Nat, d ≤ 1 ∧ (p.forward q).x + c * q.pmod = p.x + q.paux ∧ (p.forward q).f + d * 2 ^ 24 = p.f + q.pfrac + c
      ∧ (p.forward q).i = p.i + q.pint + d := by
  obtain ⟨c, d, hc, hd, ⟨beyond, -⟩ | ⟨-, e⟩⟩ := p.forward_cases q
  · omega
  · rw [e]
    refine ⟨c, d, by omega, ?_, ?_, rfl⟩
    · rcases hc with ⟨rfl, h⟩ | ⟨rfl, h⟩ <;> simp only <;> omega
    · simp only
      omega

/-- A backward count in range, its borrows as sums without a subtraction (R7). -/
theorem Position.backward_sums {q : PitchRec} {p : Position} (hq : q.InRange) (room : posMin ≤ p.i - (q.pint + 1)) :
    ∃ c d : Nat, c ≤ 1 ∧ d ≤ 1 ∧ (p.backward q).x + q.paux = p.x + c * q.pmod
      ∧ (p.backward q).f + (q.pfrac + c) = p.f + d * 2 ^ 24 ∧ (p.backward q).i = p.i - q.pint - d := by
  obtain ⟨-, hfrac, -, -, haux⟩ := hq
  obtain ⟨c, d, hc, hd, ⟨beyond, -⟩ | ⟨-, e⟩⟩ := p.backward_cases q
  · omega
  · rw [e]
    refine ⟨c, d, by omega, by omega, ?_, ?_, rfl⟩
    · rcases hc with ⟨rfl, h⟩ | ⟨rfl, h⟩ <;> simp only <;> omega
    · simp only
      omega

/-- `n` forward counts in range travel exactly `n` pitches, at most PINT + 1 µm each (R6). -/
theorem Position.forward_iterate {q : PitchRec} (hq : q.InRange) {p : Position} (hf : p.f < 2 ^ 24) (hx : p.x < q.pmod)
    (n : Nat) (room : p.i + n * (q.pint + 1) ≤ posMax) :
    let r := (Position.forward q)^[n] p
    r.scaled q.pmod = p.scaled q.pmod + n * q.scaled ∧ r.f < 2 ^ 24 ∧ r.x < q.pmod ∧ r.i ≤ p.i + n * (q.pint + 1) := by
  induction n with
  | zero => exact ⟨by simp, hf, hx, by simp⟩
  | succ n ih =>
    push_cast at room
    obtain ⟨hs, hf', hx', hi⟩ := ih (by linarith)
    rw [Function.iterate_succ_apply']
    generalize (Position.forward q)^[n] p = r at *
    have room' : r.i + (q.pint + 1) ≤ posMax := by linarith
    obtain ⟨-, -, hf'', hx''⟩ := r.forward_range q hq hf' hx' (by omega)
    obtain ⟨c, d, hd, ex, ef, ei⟩ := r.forward_sums room'
    refine ⟨?_, hf'', hx'', ?_⟩
    · zify at ex ef
      simp only [Position.scaled, PitchRec.scaled] at hs ⊢
      push_cast
      rw [ei]
      linear_combination hs + (q.pmod : Int) * ef + ex
    · push_cast
      rw [ei]
      have : (d : Int) ≤ 1 := by exact_mod_cast hd
      linarith

/-- A forward count undoes a backward count in range: it carries exactly what was borrowed (R6, R7). -/
theorem Position.forward_backward {q : PitchRec} {p : Position} (hq : q.InRange) (hf : p.f < 2 ^ 24) (hx : p.x < q.pmod)
    (low : posMin ≤ p.i - (q.pint + 1)) (high : p.i ≤ posMax) : (p.backward q).forward q = p := by
  obtain ⟨c, d, hc, hd, ex, ef, ei⟩ := p.backward_sums hq low
  obtain ⟨c', d', hc', hd', h⟩ := (p.backward q).forward_cases q
  have sameX : c' = c := by
    rcases hc' with ⟨rfl, h⟩ | ⟨rfl, h⟩ <;> interval_cases c <;> omega
  subst sameX
  have sameF : d' = d := by omega
  subst sameF
  obtain ⟨beyond, -⟩ | ⟨-, e⟩ := h
  · omega
  · rw [e, show (p.backward q).x + q.paux - c' * q.pmod = p.x by omega,
      show (p.backward q).f + q.pfrac + c' - d' * 2 ^ 24 = p.f by omega,
      show (p.backward q).i + q.pint + d' = p.i by omega, Position.backward_frame]

/-- A backward count in range subtracts exactly one pitch (R7). -/
theorem Position.backward_scaled {q : PitchRec} {p : Position} (hq : q.InRange) (low : posMin ≤ p.i - (q.pint + 1)) :
    (p.backward q).scaled q.pmod = p.scaled q.pmod - q.scaled := by
  obtain ⟨c, d, -, -, ex, ef, ei⟩ := p.backward_sums hq low
  zify at ex ef
  simp only [Position.scaled, PitchRec.scaled]
  rw [ei]
  linear_combination (q.pmod : Int) * ef + ex

/-- A carry or borrow is told by its condition. -/
theorem eq_ite_of_cases {c : Nat} {P : Prop} [Decidable P] (h : (c = 1 ∧ P) ∨ (c = 0 ∧ ¬ P)) : c = if P then 1 else 0 := by
  obtain ⟨rfl, hP⟩ | ⟨rfl, hP⟩ := h
  · exact (if_pos hP).symm
  · exact (if_neg hP).symm

/-- Settles O8: the stages by the cases of a count, `n` counts by induction, the round trip by the borrows being carried. -/
theorem countsExact : Obligations.CountsExact := by
  refine ⟨⟨?carries, ?iterate⟩, ?borrows, ?undoes⟩
  case carries =>
    intro q p
    obtain ⟨c, d, hc, hd, h⟩ := p.forward_cases q
    rw [← not_le] at hc hd
    rw [← eq_ite_of_cases hc]
    intro c₁
    rw [← eq_ite_of_cases hd]
    obtain ⟨beyond, e⟩ | ⟨fits, e⟩ := h
    · exact ⟨fun fits => absurd beyond (not_lt.mpr fits), fun _ => e⟩
    · exact ⟨fun _ => e, fun beyond => absurd beyond (not_lt.mpr fits)⟩
  case iterate =>
    intro q p n hq hf hx room r
    obtain ⟨hs, hf', hx', -⟩ := Position.forward_iterate hq hf hx n room
    exact ⟨hs, hf', hx', Position.i_eq_floor hf' hx'⟩
  case borrows =>
    intro q p
    obtain ⟨c, d, hc, hd, h⟩ := p.backward_cases q
    rw [← not_lt] at hc hd
    rw [← eq_ite_of_cases hc]
    intro b₁
    rw [← eq_ite_of_cases hd]
    obtain ⟨beyond, e⟩ | ⟨fits, e⟩ := h
    · exact ⟨fun fits => absurd beyond (not_lt.mpr fits), fun _ => e⟩
    · exact ⟨fun _ => e, fun beyond => absurd beyond (not_lt.mpr fits)⟩
  case undoes =>
    exact fun q p hq hf hx low high => ⟨Position.backward_scaled hq low, Position.forward_backward hq hf hx low high⟩

end Sys2Proof.Machine
end

section
/-! PROOFS. The three-sample filter (O10). -/

namespace Sys2Proof.Machine

/-! ## The three-sample filter (R1, R2) -/

/-- The state of a filter after a list of samples. -/
def Channel.sampled (c : Channel) (xs : List Bool) : Channel := xs.foldl (fun c x => (c.sample x).1) c

/-! An established channel (R1). -/

theorem sample_same {c : Channel} {l : Bool} (h : c.accepted = some l) :
    c.sample l = ({ accepted := some l, run := 0, cand := l }, .quiet) := by
  simp [Channel.sample, h]

theorem sample_other_short {c : Channel} {l : Bool} (h : c.accepted = some l) (short : c.run < 2) :
    c.sample (!l) = ({ accepted := some l, run := c.run + 1, cand := !l }, .quiet) := by
  have : ¬ 3 ≤ c.run + 1 := by omega
  simp [Channel.sample, h, this]

theorem sample_other_third {c : Channel} {l : Bool} (h : c.accepted = some l) (third : c.run = 2) :
    c.sample (!l) = ({ accepted := some (!l), run := 0, cand := !l }, .changed) := by
  simp [Channel.sample, h, third]

/-- The candidate run counts the samples since the last one that did not differ, so the accepted level stays while that run
and the samples to come hold no three that differ. -/
theorem sampled_keeps_level {l : Bool} (xs : List Bool) {c : Channel} (h : c.accepted = some l) (hr : c.run ≤ 2)
    (short : ¬ [!l, !l, !l] <:+: List.replicate c.run (!l) ++ xs) : (c.sampled xs).accepted = some l := by
  induction xs generalizing c with
  | nil => exact h
  | cons x xs ih =>
    change ((c.sample x).1.sampled xs).accepted = some l
    by_cases same : x = l
    · subst same
      rw [sample_same h]
      refine ih rfl (Nat.zero_le 2) fun pulse => short ?_
      exact pulse.trans ((List.suffix_cons x xs).trans (List.suffix_append _ _)).isInfix
    · obtain rfl : x = !l := Bool.eq_not.mpr same
      by_cases third : c.run = 2
      · rw [third] at short
        exact absurd (List.prefix_append [!l, !l, !l] xs).isInfix short
      · rw [sample_other_short h (by omega)]
        refine ih rfl (by simp only; omega) ?_
        simpa only [List.replicate_succ', List.append_assoc, List.singleton_append] using short

/-! A channel without an accepted level (R2). -/

theorem sample_first_third {c : Channel} {x : Bool} (h : c.accepted = none) (third : c.run = 2 ∧ c.cand = x) :
    c.sample x = ({ accepted := some x, run := 0, cand := x }, .established) := by
  simp [Channel.sample, h, third]

theorem sample_first_short {c : Channel} {x : Bool} (h : c.accepted = none) (hr : c.run ≤ 2)
    (short : ¬ (c.run = 2 ∧ c.cand = x)) :
    c.sample x = ({ accepted := none, run := if c.run ≠ 0 ∧ c.cand = x then 2 else 1, cand := x }, .quiet) := by
  have run : (if c.run = 0 ∨ c.cand ≠ x then 1 else c.run + 1) = if c.run ≠ 0 ∧ c.cand = x then 2 else 1 := by
    split <;> split <;> grind
  have below : ¬ 3 ≤ (if c.run ≠ 0 ∧ c.cand = x then 2 else 1) := by
    split <;> omega
  simp only [Channel.sample, h]
  rw [run, if_neg below]

/-- A filter without an accepted level tells the last two of its samples: its run, up to 2, and its candidate level. -/
structure Channel.Tells (c : Channel) (xs : List Bool) : Prop where
  accepted : c.accepted = none
  run_le : c.run ≤ 2
  one : ∀ l, c.run ≠ 0 ∧ c.cand = l ↔ [l] <:+ xs
  two : ∀ l, c.run = 2 ∧ c.cand = l ↔ [l, l] <:+ xs

theorem concat_suffix_concat (ys xs : List Bool) (l x : Bool) : ys ++ [l] <:+ xs ++ [x] ↔ l = x ∧ ys <:+ xs := by
  rw [← List.reverse_prefix]
  simp [List.cons_prefix_cons]

theorem Channel.Tells.concat {c : Channel} {xs : List Bool} (h : c.Tells xs) (x : Bool) (short : ¬ [x, x, x] <:+: xs ++ [x]) :
    (c.sample x).1.Tells (xs ++ [x]) := by
  have noThird : ¬ (c.run = 2 ∧ c.cand = x) := fun third =>
    short (List.IsSuffix.isInfix ((concat_suffix_concat [x, x] xs x x).mpr ⟨rfl, (h.two x).mp third⟩))
  rw [sample_first_short h.accepted h.run_le noThird]
  refine ⟨rfl, by simp only; split <;> omega, fun l => ?_, fun l => ?_⟩
  · have one : [l] <:+ xs ++ [x] ↔ l = x := by simp
    rw [one]
    simp only
    exact ⟨fun told => told.2.symm, fun e => ⟨by split <;> decide, e.symm⟩⟩
  · have two : [l, l] <:+ xs ++ [x] ↔ l = x ∧ [l] <:+ xs := concat_suffix_concat [l] xs l x
    rw [two, ← h.one l]
    simp only
    split <;> grind

theorem sampled_tells {c : Channel} (h : c.accepted = none) (hr : c.run = 0) (xs : List Bool)
    (short : ∀ l, ¬ [l, l, l] <:+: xs) : (c.sampled xs).Tells xs := by
  induction xs using List.reverseRecOn with
  | nil => exact ⟨h, by simp [Channel.sampled, hr], by simp [Channel.sampled, hr], by simp [Channel.sampled, hr]⟩
  | append_singleton xs x ih =>
    have before := ih fun l three => short l (three.trans (List.prefix_append xs [x]).isInfix)
    rw [Channel.sampled, List.foldl_concat]
    exact before.concat x (short x)

/-- Settles O10: an established channel by its candidate run, another by what it tells of its last two samples. -/
theorem shortPulsesIgnored : Obligations.ShortPulsesIgnored := by
  refine ⟨fun c l xs h hr short => sampled_keeps_level xs h (by omega) (by simpa [hr] using short), fun c l h hr => ?_,
    fun c xs h hr short => ?_⟩
  · simp [sample_other_short, sample_other_third, h, hr]
  · have tells := sampled_tells h hr xs short
    refine ⟨tells.accepted, fun l => ⟨fun third => ?_, fun noThird => ?_⟩⟩
    · exact sample_first_third tells.accepted ((tells.two l).mpr third)
    · have quiet := sample_first_short tells.accepted tells.run_le (mt (tells.two l).mp noThird)
      exact ⟨congrArg (·.2) quiet, congrArg (·.1.accepted) quiet⟩

end Sys2Proof.Machine
end

section
/-! PROOFS. What an apply's taking effect changes, in closed form (R177): the frame of the entries taken up, and the rest around it. -/

namespace Sys2Proof.Machine

/-! ## What the taking up of a table entry leaves of the ring and the report queue (R121, R133) -/

/-- The marking queue and MARK_WAIT are left as they are: no frame is handed and none is left waiting (R165). -/
structure QueueKept (s t : State) : Prop where
  marking : t.ring.marking = s.ring.marking
  markWait : t.ring.markWait = s.ring.markWait

theorem QueueKept.of_ring {s t : State} (h : t.ring = s.ring) : QueueKept s t := ⟨by rw [h], by rw [h]⟩

theorem QueueKept.trans {s t u : State} (h₁ : QueueKept s t) (h₂ : QueueKept t u) : QueueKept s u :=
  ⟨h₂.marking.trans h₁.marking, h₂.markWait.trans h₁.markWait⟩

theorem QueueKept.foldl {α : Type} {f : State → α → State} (hf : ∀ s a, QueueKept s (f s a)) (l : List α) (s : State) :
    QueueKept s (l.foldl f s) := by
  induction l generalizing s with
  | nil => exact .of_ring rfl
  | cons a l ih => exact (hf s a).trans (ih _)

theorem onHead_queue (h : Nat) (f : MarkHead → MarkHead) (s : State) : QueueKept s (s.onHead h f) := .of_ring rfl

theorem tryHeads_ring {q : StampRequest} {hs : List Nat} {s t : State} (e : s.tryHeads q hs = .ok t) : t.ring = s.ring := by
  induction hs with
  | nil => cases e
  | cons h hs ih =>
    unfold State.tryHeads at e
    split at e
    · cases e
      rfl
    · split at e
      · cases e
        exact ih ‹_›
      · cases e

theorem endTest_queue (o : TestOutcome) (n slot : Nat) (s : State) : QueueKept s (s.endTest o n slot) := by
  unfold State.endTest State.answerLater
  split
  · exact .of_ring rfl
  · simp only
    split <;> exact ⟨rfl, rfl⟩

theorem replan_queue (lost : Bool) (hs : LaneHeads → List Nat) (r : Reservation) (s : State) :
    QueueKept s (s.replan lost hs r) := by
  unfold State.replan
  split
  · exact endTest_queue _ _ _ s
  · exact .of_ring rfl
  · split
    · exact .of_ring (tryHeads_ring ‹_›)
    · exact .of_ring rfl

theorem abortEngine_queue (h : Nat) (s : State) : QueueKept s (s.abortEngine h) := by
  unfold State.abortEngine
  split
  · rename_i rest _ _
    have idle : QueueKept s ((s.onHead h (fun m => { m with engine := none, schedule := rest })).dropWaiting h) := .of_ring rfl
    simp only
    split
    · split
      · exact .of_ring rfl
      · exact idle.trans (endTest_queue _ _ _ _)
    · exact idle.trans (replan_queue _ _ _ _)
  · exact .of_ring rfl

theorem loseHead_queue (h : Nat) (s : State) : QueueKept s (s.loseHead h) :=
  ((abortEngine_queue h s).trans (onHead_queue _ _ _)).trans (.foldl (fun t r => replan_queue _ _ r t) _ _)

theorem retryHead_queue (h : Nat) (s : State) : QueueKept s (s.retryHead h) :=
  (onHead_queue _ _ s).trans (.foldl (fun t r => replan_queue _ _ r t) _ _)

theorem setHeadState_ring (h : Nat) (st : HeadState) (s : State) : (s.setHeadState h st).ring = s.ring := by
  unfold State.setHeadState
  split
  · rfl
  · rw [State.headNote_ring, State.onHead_ring]

theorem takeHeadEntry_queue (h : Nat) (old new : HeadRec) (s : State) : QueueKept s (s.takeHeadEntry h old new) := by
  have unknown : QueueKept s (s.setHeadState h .unknown) := .of_ring (setHeadState_ring _ _ s)
  unfold State.takeHeadEntry
  split
  · exact .of_ring rfl
  · split
    · exact unknown.trans (loseHead_queue _ _)
    · split
      · exact unknown.trans (retryHead_queue _ _)
      · exact retryHead_queue _ s

theorem takeLotEntry_waits (n : Nat) (old new : LotRec) (s : State) : (s.takeLotEntry n old new).rep.waits = s.rep.waits := by
  have size : (s.takeLotSize n new).rep.waits = s.rep.waits := by
    unfold State.takeLotSize
    split
    · split <;> rfl
    · rfl
  unfold State.takeLotEntry State.takeFirstNo
  split
  · rfl
  · split <;> exact size

theorem applyLots_waits (old new : List LotRec) (s : State) : (s.applyLots old new).rep.waits = s.rep.waits := by
  unfold State.applyLots
  generalize List.range 4 = slots
  induction slots generalizing s with
  | nil => rfl
  | cons n slots ih => exact (ih _).trans (takeLotEntry_waits n _ _ s)

/-- All that the taking up of the HEAD and LOT entries can change (R121, R133). -/
theorem applyEntries_frame (oldH newH : List HeadRec) (oldL newL : List LotRec) (s t : State)
    (ht : t = (s.applyHeads oldH newH).applyLots oldL newL) : t = { s with
      trk := { s.trk with records := t.trk.records }
      img := t.img
      mark := t.mark
      lots := t.lots
      rep := { s.rep with finals := t.rep.finals, order := t.rep.order }
      ring := { s.ring with responses := t.ring.responses, deferred := t.ring.deferred } } := by
  subst ht
  have heads := (applyHeads_step oldH newH s).frame
  have queue : QueueKept s (s.applyHeads oldH newH) := .foldl (fun t h => takeHeadEntry_queue h _ _ t) _ s
  have lots := (applyLots_step oldL newL (s.applyHeads oldH newH)).frame
  have waits := applyLots_waits oldL newL (s.applyHeads oldH newH)
  rw [waits] at lots
  rw [queue.marking, queue.markWait] at heads
  rw [lots]
  rw [heads]

/-! ## An apply's taking effect in closed form (R177) -/

/-- Steps 1 to 4 of an apply's taking effect, written out (R177). -/
theorem applyTables_eq (force : Bool) (s : State) : s.applyTables force = { s with
    cmd := { s.cmd with active := s.cmd.appliedBank }
    area := { s.area with cumw := deriveCumw s.cmd.appliedBank.cellw }
    pos := { s.pos with x := if s.cmd.appliedBank.pitch = s.cmd.active.pitch then s.pos.x else 0 }
    trk := { s.trk with records := s.trk.records.map fun r => if force = true ∧ r.state = .isOpen then
      { r with flags := r.flags ||| BitVec.ofNat 16 (2 ^ 9) } else r } } := by
  have pos : (if s.cmd.appliedBank.pitch = s.cmd.active.pitch then s.pos else { s.pos with x := 0 })
      = { s.pos with x := if s.cmd.appliedBank.pitch = s.cmd.active.pitch then s.pos.x else 0 } := by
    split <;> rfl
  unfold State.applyTables
  simp only [pos]
  cases force
  · simp
  · simp [State.mapRecs, onOpen_setFlag_eq, Flag.bit]

/-- The last two steps: the tables CLEAN, CONFIG_APPLIED raised, the wait state judged (R177, R18). -/
theorem takeApply_eq (force : Bool) (s t : State)
    (ht : t = ((s.keepWaiting.applyTables force).applyHeads s.cmd.active.heads s.cmd.appliedBank.heads).applyLots
      s.cmd.active.lots s.cmd.appliedBank.lots) :
    s.takeApply force = { t with
      cmd := { s.cmd with active := s.cmd.appliedBank, states := .clean, pendingApply := none, configured := true }
      strobe := { s.strobe with wait := s.strobe.wait || (s.strobe.enable && decide (s.strobe.next ≤ s.pos.hwm)
        && decide (s.strobe.period < s.cmd.appliedBank.scan.minStrobe)) }
      rep := { t.rep with order := raiseIn .configApplied t.rep.order } } := by
  have e : s.takeApply force = t.applyDone.enterWait := by
    rw [ht]
    rfl
  have frame := applyEntries_frame _ _ _ _ _ t ht
  rw [applyTables_eq] at frame
  rw [e, enterWait_eq, State.applyDone, State.raise]
  rw [frame]
  rfl

end Sys2Proof.Machine
end

section
/-! PROOFS. What the taking up of a HEAD entry and of a LOT entry does, in closed form, and the statement of an apply's taking effect (O52). -/

namespace Sys2Proof.Machine

/-! ## The taking up of a HEAD entry in closed form (R107, R120, R121) -/

/-- A change of a head that leaves the head it finds is none. -/
theorem onHead_self {h : Nat} {f : MarkHead → MarkHead} {s : State} (same : f (s.head h) = s.head h) : s.onHead h f = s := by
  have heads : s.mark.heads.modify h f = s.mark.heads := by
    refine List.ext_getElem (by simp) fun n hn _ => ?_
    rw [List.getElem_modify]
    split
    · subst h
      rw [List.length_modify] at hn
      rwa [State.head, List.getD_eq_getElem _ _ hn] at same
    · rfl
  rw [State.onHead, heads]

/-- A change of a head depends on what the change does to that head only. -/
theorem onHead_congr {h : Nat} {f g : MarkHead → MarkHead} {s : State} (same : f (s.head h) = g (s.head h)) :
    s.onHead h f = s.onHead h g := by
  have heads : s.mark.heads.modify h f = s.mark.heads.modify h g := by
    refine List.ext_getElem (by simp) fun n hn _ => ?_
    rw [List.getElem_modify, List.getElem_modify]
    split
    · subst h
      rw [List.length_modify] at hn
      rwa [State.head, List.getD_eq_getElem _ _ hn] at same
    · rfl
  rw [State.onHead, heads, State.onHead]

/-- A head made UNKNOWN, with its HEAD note where its state changed and none is pending (R107). -/
theorem setHeadState_unknown_eq (h : Nat) (s : State) : s.setHeadState h .unknown = { s with
    mark := { s.mark with heads := s.mark.heads.modify h fun m => { m with state := .unknown } }
    rep := { s.rep with order :=
      if (s.head h).state = .unknown ∨ NoteItem.head h ∈ s.rep.order then s.rep.order else s.rep.order ++ [.head h] } } := by
  unfold State.setHeadState
  split
  · rename_i unknown
    have same : s.onHead h (fun m => { m with state := .unknown }) = s := onHead_self (by rw [← unknown])
    rw [if_pos (.inl unknown)]
    exact same.symm
  · rename_i known
    unfold State.headNote
    rw [State.onHead_rep]
    by_cases pending : NoteItem.head h ∈ s.rep.order
    · rw [if_pos pending, if_pos (.inr pending)]
      rfl
    · rw [if_neg pending, if_neg (not_or.mpr ⟨known, pending⟩)]
      rfl

/-- A head's reservations tried anew, but the one its engine serves (R121). -/
theorem retryHead_eq (h : Nat) (s : State) :
    let kept := if (s.head h).engine = none then 0 else 1
    s.retryHead h = ((s.head h).schedule.drop kept).foldl
      (fun t r => t.replan false (fun l => h :: (l.other h).toList) r)
      (s.onHead h fun m => { m with schedule := m.schedule.take kept }) := by
  intro kept
  have served : (if (s.head h).engine.isSome then (s.head h).schedule.take 1 else []) = (s.head h).schedule.take kept := by
    cases e : (s.head h).engine <;> simp [kept, e]
  have others : (if (s.head h).engine.isSome then (s.head h).schedule.drop 1 else (s.head h).schedule)
      = (s.head h).schedule.drop kept := by
    cases e : (s.head h).engine <;> simp [kept, e]
  have cut : s.onHead h (fun m => { m with schedule := (s.head h).schedule.take kept })
      = s.onHead h fun m => { m with schedule := m.schedule.take kept } := onHead_congr rfl
  unfold State.retryHead
  simp only
  rw [served, others, cut]

/-- A change of the record that holds a sequence number, written out (R36). -/
theorem onSeq_eq (seq : Nat) (f : HideRec → HideRec) :
    onSeq seq f = fun x => if x.state ≠ .free ∧ x.seq = seq then f x else x := by
  funext x
  simp [onSeq]

/-- A hide given up, written out (R114, R120). -/
theorem giveUp_eq (q : StampRequest) (outcome : MarkOutcome) (s : State) : s.giveUp q outcome = { s with
    img := s.img.set q.slot none
    trk := { s.trk with records := s.trk.records.map fun x => if x.state ≠ .free ∧ x.seq = q.seq then
      { x with state := .reporting, outcome := some outcome } else x }
    rep := { s.rep with finals := s.rep.finals ++ [q.seq] } } := by
  rw [State.giveUp, State.toReporting, State.mapRecs, onSeq_eq]
  rfl

/-- A removed reservation taken at a new start, written out: it keeps its holder, its slot and its anchor (R113, R120). -/
theorem accept_request_eq {r : Reservation} {seq : Nat} {l : LaneHeads} (holder : r.holder = .hide seq) (lane : r.lane = some l)
    (o : Nat) (p : Int) {s : State} {base : NozzleBase}
    (hb : base = nozzleBase (s.headEntry o) (cellCentre s.area.cumw s.cmd.active.cellw r.anchorC)) :
    s.accept o (r.request seq l) p = { s with
        mark := { s.mark with heads := s.mark.heads.modify o fun m => { m with schedule := insertReservation { r with
          start := p, stop := p + ((r.columns * r.pitch : Nat) : Int), base := base.base } m.schedule } }
        trk := { s.trk with records := s.trk.records.map fun x => if x.state ≠ .free ∧ x.seq = seq then
          { x with
            state := .waiting, plan := some { head := o, columns := r.columns, slot := r.slot }
            flags := if base.clamped then x.flags ||| BitVec.ofNat 16 (2 ^ 15) else x.flags } else x } } := by
  have flagged : ∀ x : HideRec, x.setFlagIf base.clamped .markEdge =
      { x with flags := if base.clamped then x.flags ||| BitVec.ofNat 16 (2 ^ 15) else x.flags } := by
    intro x
    unfold HideRec.setFlagIf
    split <;> rfl
  rw [State.accept, State.mapRecs, onSeq_eq]
  simp only [show s.baseOn o (r.request seq l).anchorC = base from hb.symm, flagged]
  rw [holder, lane]
  rfl

/-! The trials on heads in turn (R113). -/

theorem tryHeads_accepted {s : State} {q : StampRequest} {h : Nat} {p : Int} (a : s.trial h q = .accepted p) (hs : List Nat) :
    s.tryHeads q (h :: hs) = .ok (s.accept h q p) := by
  rw [State.tryHeads, a]

theorem tryHeads_failed_ok {s t : State} {q : StampRequest} {h : Nat} {hs : List Nat} {f : TrialFailure}
    (a : s.trial h q = .failed f) (b : s.tryHeads q hs = .ok t) : s.tryHeads q (h :: hs) = .ok t := by
  rw [State.tryHeads, a]
  simp only [b]

theorem tryHeads_failed_error {s : State} {q : StampRequest} {h : Nat} {hs : List Nat} {f : TrialFailure}
    {fs : List TrialFailure} (a : s.trial h q = .failed f) (b : s.tryHeads q hs = .error fs) :
    s.tryHeads q (h :: hs) = .error (f :: fs) := by
  rw [State.tryHeads, a]
  simp only [b]

section replan
variable {s : State} {r : Reservation} {seq : Nat} {l : LaneHeads} {heads : LaneHeads → List Nat}

theorem replan_ok (holder : r.holder = .hide seq) (lane : r.lane = some l) {t : State}
    (e : s.tryHeads (r.request seq l) (heads l) = .ok t) : s.replan false heads r = t := by
  simp only [State.replan, holder, lane, e]

theorem replan_error (holder : r.holder = .hide seq) (lane : r.lane = some l) {fs : List TrialFailure}
    (e : s.tryHeads (r.request seq l) (heads l) = .error fs) :
    s.replan false heads r = s.giveUp (r.request seq l) (outcomeOf fs) := by
  simp only [State.replan, holder, lane, e]
  rfl

end replan

/-- The outcome of two failed trials (R114). -/
theorem outcomeOf_two (f f' : TrialFailure) : outcomeOf [f, f'] =
    if f = .down ∧ f' = .down then .missedHeadDown else if f = .late ∨ f' = .late then .missedLate else .missedBusy := by
  cases f <;> cases f' <;> rfl

/-! ## The taking up of a LOT entry in closed form (R131, R133) -/

/-- What a new FIRST_LOT_NO does to a slot (R133). -/
def LotSlot.renumbered (old new : LotRec) (l : LotSlot) : LotSlot :=
  if old.firstNo = new.firstNo then l
  else if l.count = 0 ∧ l.closePending = false then { l with lotNo := new.firstNo }
  else { l with nextNo := some new.firstNo }

theorem takeFirstNo_eq (n : Nat) (old new : LotRec) (s : State) :
    s.takeFirstNo n old new = { s with lots := s.lots.modify n (LotSlot.renumbered old new) } := by
  unfold State.takeFirstNo
  split
  · rename_i same
    have : LotSlot.renumbered old new = id := by
      funext l
      exact if_pos same
    rw [this, List.modify_id]
  · rename_i differs
    have : (fun l : LotSlot => if l.count = 0 && !l.closePending then { l with lotNo := new.firstNo }
        else { l with nextNo := some new.firstNo }) = LotSlot.renumbered old new := by
      funext l
      simp [LotSlot.renumbered, differs]
    rw [this]

/-- A change at the place just set is a change of what was set. -/
theorem set_modify {α : Type} (l : List α) (n : Nat) (a : α) (f : α → α) : (l.set n a).modify n f = l.set n (f a) := by
  refine List.ext_getElem (by simp) fun m _ _ => ?_
  simp only [List.getElem_modify, List.getElem_set]
  split <;> rfl

/-- The lot number after a lot's, as it wraps (R131). -/
theorem following_eq (l : LotSlot) : l.following = l.nextNo.getD (if l.lotNo < 65535 then l.lotNo + 1 else 1) := by
  unfold LotSlot.following
  split
  · simp [*]
  · rename_i unset
    rw [unset, Option.getD_none]
    split <;> split <;> omega

section lot
variable {s : State} {n : Nat} {l : LotSlot} {old new : LotRec} (slot : s.lots[n]? = some l) (changed : old ≠ new)
include slot

theorem lotSlot_of_getElem? : s.lotSlot n = l := by
  rw [State.lotSlot, List.getD_eq_getElem?_getD, slot, Option.getD_some]

theorem lots_modify (f : LotSlot → LotSlot) : s.lots.modify n f = s.lots.set n (f l) := by
  obtain ⟨hn, rfl⟩ := List.getElem?_eq_some_iff.mp slot
  rw [List.modify_eq_set_getElem?]
  simp [hn]

include changed

/-- A LOT_SIZE above the count leaves the slot's lot open (R133). -/
theorem takeLotEntry_open (above : l.count < new.size) :
    s.takeLotEntry n old new = { s with lots := s.lots.set n (l.renumbered old new) } := by
  rw [State.takeLotEntry, if_neg changed, State.takeLotSize, lotSlot_of_getElem? slot, if_neg (not_le.mpr above),
    takeFirstNo_eq, lots_modify slot]

/-- A LOT_SIZE at or below the count closes the lot where the note queue has room (R131, R133). -/
theorem takeLotEntry_closes (reached : new.size ≤ l.count) (room : s.rep.used < 24) :
    s.takeLotEntry n old new = { s with
      lots := s.lots.set n ((LotSlot.fresh l.following).renumbered old new)
      rep := { s.rep with order := s.rep.order ++ [.lot { slot := n, lotNo := l.lotNo, count := l.count
                                                          quarters := l.quarters, decimetres := l.decimetres
                                                          gross := l.gross, cause := .apply }] } } := by
  have free : s.noteRoom 1 = true := decide_eq_true room
  rw [State.takeLotEntry, if_neg changed, State.takeLotSize, lotSlot_of_getElem? slot, if_pos reached, if_pos free,
    takeFirstNo_eq, State.closeLot, lotSlot_of_getElem? slot]
  simp only [set_modify]

/-- Where the note queue has none, the close is left pending (R133). -/
theorem takeLotEntry_pends (reached : new.size ≤ l.count) (full : 24 ≤ s.rep.used) :
    s.takeLotEntry n old new = { s with
      lots := s.lots.set n (LotSlot.renumbered old new { l with closePending := true }) } := by
  have noRoom : ¬ s.noteRoom 1 = true := fun free => by
    have : s.rep.used + 1 ≤ 24 := of_decide_eq_true free
    omega
  rw [State.takeLotEntry, if_neg changed, State.takeLotSize, lotSlot_of_getElem? slot, if_pos reached, if_neg noRoom,
    takeFirstNo_eq, lots_modify slot]
  simp only [set_modify]

end lot

/-! ## The statement -/

/-- Settles O52: the whole effect with its frame, and then what a HEAD entry, a head tried anew, one of its reservations and a
LOT entry do. -/
theorem applyTakesEffect : Obligations.ApplyTakesEffect := by
  refine ⟨?effect, ?headEntry, fun s h => retryHead_eq h s, ?reservation, ?lotEntry⟩
  case effect =>
    intro s p hp pending allowed st old new active s₁ s₂ s₃ u
    have bank : s.cmd.appliedBank = active := appliedBank_eq s.cmd
    have due : s.applyDue = true := by
      simpa [State.applyDue, pending, State.atBoundary, State.hasOpen] using allowed
    have tables : s.keepWaiting.applyTables p.force = s₁ := by
      rw [applyTables_eq, State.keepWaiting_cmd, bank]
      rfl
    have entries : s₃ = ((s.keepWaiting.applyTables p.force).applyHeads old.heads s.cmd.appliedBank.heads).applyLots old.lots
        s.cmd.appliedBank.lots := by
      rw [tables, bank]
      rfl
    have taken : s.takePendingApply = u := by
      rw [State.takePendingApply, pending]
      simp only
      rw [takeApply_eq p.force s s₃ entries, bank]
    refine ⟨(stepWhen_due hp due).trans (by rw [taken]), ?_⟩
    rw [tables] at entries
    have frame := applyEntries_frame _ _ _ _ _ s₃ entries
    clear_value s₃
    simp only [u]
    rw [frame]
  case headEntry =>
    intro s h old new unknown lost enabled
    have toUnknown : s.setHeadState h .unknown = unknown := setHeadState_unknown_eq h s
    have lost_iff : ((old.enabled && !new.enabled) || old.ringAddr != new.ringAddr) = true ↔ lost := by simp [lost]
    have enabled_iff : (!old.enabled && new.enabled) = true ↔ enabled := by simp [enabled]
    have changed : lost ∨ enabled → old ≠ new := by
      rintro h rfl
      simp [lost, enabled] at h
    refine ⟨fun same => if_pos same, fun hl => ?_, fun hl he => ?_, fun hc hl he => ?_⟩
    · rw [State.takeHeadEntry, if_neg (changed (.inl hl)), if_pos (lost_iff.mpr hl), toUnknown]
    · rw [State.takeHeadEntry, if_neg (changed (.inr he)), if_neg (mt lost_iff.mp hl), if_pos (enabled_iff.mpr he), toUnknown]
    · rw [State.takeHeadEntry, if_neg hc, if_neg (mt lost_iff.mp hl), if_neg (mt enabled_iff.mp he)]
  case reservation =>
    intro s h r seq l holder lane other missed q trial moved tried
    have missed_eq : ∀ outcome, s.giveUp q outcome = missed outcome := fun outcome => giveUp_eq q outcome s
    have moved_eq : ∀ o p, s.accept o q p = moved o p := fun o p => accept_request_eq holder lane o p rfl
    have other_eq : l.other h = other := rfl
    refine ⟨fun p first => ?_, fun why first => ⟨fun alone => ?_, fun o listed => ⟨fun p second => ?_, fun why' second => ?_⟩⟩⟩
    · exact (replan_ok holder lane (tryHeads_accepted first _)).trans (moved_eq h p)
    · have failed : s.tryHeads q (h :: (l.other h).toList) = .error [why] := by
        rw [other_eq, alone]
        exact tryHeads_failed_error first rfl
      have result : tried = missed (outcomeOf [why]) := (replan_error holder lane failed).trans (missed_eq _)
      rw [result]
      cases why <;> rfl
    · have found : s.tryHeads q (h :: (l.other h).toList) = .ok (s.accept o q p) := by
        rw [other_eq, listed]
        exact tryHeads_failed_ok first (tryHeads_accepted second _)
      exact (replan_ok holder lane found).trans (moved_eq o p)
    · have failed : s.tryHeads q (h :: (l.other h).toList) = .error [why, why'] := by
        rw [other_eq, listed]
        exact tryHeads_failed_error first (tryHeads_failed_error second rfl)
      rw [← outcomeOf_two, ← missed_eq]
      exact replan_error holder lane failed
  case lotEntry =>
    intro s n l old new slot following fresh numbered
    have fresh_eq : LotSlot.fresh l.following = fresh := by
      rw [following_eq]
      cases next : l.nextNo <;> simp [fresh, following, LotSlot.fresh, next]
    refine ⟨fun same => if_pos same, fun changed => takeLotEntry_open slot changed, fun changed reached room => ?_,
      fun changed => takeLotEntry_pends slot changed⟩
    rw [takeLotEntry_closes slot changed reached room, fresh_eq]
    rfl

end Sys2Proof.Machine
end

section
/-! PROOFS. Joining runs, and the fleck filter (O19). -/

namespace Sys2Proof.Machine

/-! ## Joining runs (R31) -/

/-- Runs in order of first cell, each with its first cell at or below its last: what joining is given (R29, R30). -/
def RunsOrdered (runs : List FormRun) : Prop :=
  (∀ r ∈ runs, r.first ≤ r.last) ∧ runs.Pairwise fun a b => a.first ≤ b.first

/-- Two runs made one (R31). -/
def FormRun.merge (a b : FormRun) : FormRun :=
  { first := min a.first b.first, last := max a.last b.last, edge := a.edge || b.edge }

theorem joinInto_touching {cur r : FormRun} (h : r.first ≤ cur.last + 1) (rest : List FormRun) :
    joinInto cur (r :: rest) = joinInto (cur.merge r) rest := by
  rw [joinInto, if_pos h, FormRun.merge]

theorem joinInto_apart {cur r : FormRun} (h : ¬ r.first ≤ cur.last + 1) (rest : List FormRun) :
    joinInto cur (r :: rest) = cur :: joinInto r rest := by
  rw [joinInto, if_neg h]

theorem RunsOrdered.tail {r : FormRun} {runs : List FormRun} (h : RunsOrdered (r :: runs)) : RunsOrdered runs :=
  ⟨fun x hx => h.1 x (List.mem_cons_of_mem _ hx), (List.pairwise_cons.mp h.2).2⟩

theorem RunsOrdered.first_le {r x : FormRun} {runs : List FormRun} (h : RunsOrdered (r :: runs)) (hx : x ∈ runs) :
    r.first ≤ x.first := (List.pairwise_cons.mp h.2).1 x hx

theorem RunsOrdered.merge {cur r : FormRun} {rest : List FormRun} (h : RunsOrdered (cur :: r :: rest)) :
    RunsOrdered (cur.merge r :: rest) := by
  have cur_le := h.1 cur (by simp)
  refine ⟨?_, List.pairwise_cons.mpr ⟨fun x hx => ?_, h.tail.tail.2⟩⟩
  · rintro x (_ | ⟨_, hx⟩)
    · simp only [FormRun.merge]
      omega
    · exact h.tail.tail.1 x hx
  · exact (Nat.min_le_left _ _).trans (h.first_le (List.mem_cons_of_mem _ hx))

/-- A joined run is the one that the first run has grown to, or stands apart from the first run. -/
theorem joinInto_mem {j cur : FormRun} {rest : List FormRun} (h : RunsOrdered (cur :: rest)) (hj : j ∈ joinInto cur rest) :
    (j.first = cur.first ∧ cur.last ≤ j.last) ∨ cur.last + 1 < j.first := by
  induction rest generalizing cur with
  | nil =>
    obtain rfl : j = cur := by simpa [joinInto] using hj
    exact .inl ⟨rfl, le_rfl⟩
  | cons r rest ih =>
    have order : cur.first ≤ r.first := h.first_le (by simp)
    by_cases touch : r.first ≤ cur.last + 1
    · rw [joinInto_touching touch] at hj
      have grown := ih h.merge hj
      simp only [FormRun.merge] at grown
      omega
    · rw [joinInto_apart touch, List.mem_cons] at hj
      obtain rfl | hj := hj
      · exact .inl ⟨rfl, le_rfl⟩
      · have r_le := h.1 r (by simp)
        have apart := ih h.tail hj
        omega

theorem joinInto_covered {cur : FormRun} {rest : List FormRun} (h : RunsOrdered (cur :: rest)) (c : Nat) :
    CoveredIn c (joinInto cur rest) ↔ CoveredIn c (cur :: rest) := by
  induction rest generalizing cur with
  | nil => rw [joinInto]
  | cons r rest ih =>
    have order : cur.first ≤ r.first := h.first_le (by simp)
    have cur_le := h.1 cur (by simp)
    have r_le := h.1 r (by simp)
    by_cases touch : r.first ≤ cur.last + 1
    · have merged : ((cur.merge r).first ≤ c ∧ c ≤ (cur.merge r).last) ↔
          (cur.first ≤ c ∧ c ≤ cur.last) ∨ (r.first ≤ c ∧ c ≤ r.last) := by
        simp only [FormRun.merge]
        omega
      rw [joinInto_touching touch, ih h.merge]
      simp only [CoveredIn, List.exists_mem_cons_iff, merged, or_assoc]
    · have rest_covered := ih h.tail
      rw [joinInto_apart touch]
      simp only [CoveredIn, List.exists_mem_cons_iff] at rest_covered ⊢
      rw [rest_covered]

theorem joinInto_separated {cur : FormRun} {rest : List FormRun} (h : RunsOrdered (cur :: rest)) :
    Separated (joinInto cur rest) := by
  induction rest generalizing cur with
  | nil => exact ⟨h.1, List.pairwise_singleton _ _⟩
  | cons r rest ih =>
    by_cases touch : r.first ≤ cur.last + 1
    · rw [joinInto_touching touch]
      exact ih h.merge
    · obtain ⟨le, apart⟩ := ih h.tail
      rw [joinInto_apart touch]
      refine ⟨?_, List.pairwise_cons.mpr ⟨fun j hj => ?_, apart⟩⟩
      · rintro x (_ | ⟨_, hx⟩)
        · exact h.1 cur (by simp)
        · exact le x hx
      · have r_le := h.1 r (by simp)
        have grown := joinInto_mem h.tail hj
        omega

/-- A run lies within a joined run. -/
def FormRun.Within (r j : FormRun) : Prop := j.first ≤ r.first ∧ r.last ≤ j.last

theorem joinInto_edge {j cur : FormRun} {rest : List FormRun} (h : RunsOrdered (cur :: rest)) (hj : j ∈ joinInto cur rest) :
    j.edge = true ↔ ∃ r ∈ cur :: rest, r.edge = true ∧ r.Within j := by
  induction rest generalizing cur with
  | nil =>
    obtain rfl : j = cur := by simpa [joinInto] using hj
    simp [FormRun.Within]
  | cons r rest ih =>
    have order : cur.first ≤ r.first := h.first_le (by simp)
    have cur_le := h.1 cur (by simp)
    have r_le := h.1 r (by simp)
    by_cases touch : r.first ≤ cur.last + 1
    · rw [joinInto_touching touch] at hj
      have grown := joinInto_mem h.merge hj
      have cur_within : cur.Within j ↔ (cur.merge r).Within j := by
        simp only [FormRun.merge, FormRun.Within] at grown ⊢
        omega
      have r_within : r.Within j ↔ (cur.merge r).Within j := by
        simp only [FormRun.merge, FormRun.Within] at grown ⊢
        omega
      have merged_edge : (cur.merge r).edge = true ↔ cur.edge = true ∨ r.edge = true := Bool.or_eq_true_iff
      rw [ih h.merge hj]
      simp only [List.exists_mem_cons_iff, merged_edge, cur_within, r_within, or_and_right, or_assoc]
    · rw [joinInto_apart touch, List.mem_cons] at hj
      obtain rfl | hj := hj
      · have outside : ∀ x ∈ r :: rest, ¬ x.Within j := fun x hx within => by
          have x_le := h.tail.1 x hx
          have later : r.first ≤ x.first := by
            rcases List.mem_cons.mp hx with rfl | hx
            exacts [le_rfl, h.tail.first_le hx]
          have := within.2
          omega
        rw [List.exists_mem_cons_iff]
        constructor
        · exact fun edge => .inl ⟨edge, le_rfl, le_rfl⟩
        · rintro (⟨edge, -⟩ | ⟨x, hx, -, within⟩)
          exacts [edge, absurd within (outside x hx)]
      · have later := joinInto_mem h.tail hj
        have outside : ¬ cur.Within j := fun within => by
          have := within.1
          omega
        rw [ih h.tail hj, List.exists_mem_cons_iff _ cur, or_iff_right fun x => outside x.2]

/-- What joining does to runs in order: the same cells, by separated runs, edge-touching where a part was (R31). -/
theorem joinRuns_spec {runs : List FormRun} (h : RunsOrdered runs) :
    (∀ c, CoveredIn c (joinRuns runs) ↔ CoveredIn c runs) ∧ Separated (joinRuns runs)
      ∧ ∀ j ∈ joinRuns runs, j.edge = true ↔ ∃ r ∈ runs, r.edge = true ∧ r.Within j := by
  cases runs with
  | nil => simp [joinRuns, CoveredIn, Separated]
  | cons r rest => exact ⟨joinInto_covered h, joinInto_separated h, fun j hj => joinInto_edge h hj⟩

/-- Settles O19: joining by `joinRuns_spec`; the fleck filter is a filter of what joining leaves. -/
theorem runsJoinedAndFiltered : Obligations.RunsJoinedAndFiltered := by
  unfold Obligations.RunsJoinedAndFiltered
  refine ⟨fun runs le order => joinRuns_spec ⟨le, order⟩, fun slot => ?_⟩
  exact ⟨List.filter_sublist, fun r => by rw [LineSlot.unclampedRuns, fleckFilter, List.mem_filter, decide_eq_true_iff]⟩

end Sys2Proof.Machine
end

section
/-! PROOFS. The forming of a line's run list (O18): the heads' spans mapped, clipped and clamped, and the missing spans. -/

namespace Sys2Proof.Machine

/-! ## Spans of the heads in global cells (R24, R29) -/

/-- Local spans as R24 has them: ascending, apart, within the 256 cells of a head. -/
def SpansInForm (spans : List Span) : Prop :=
  (∀ r ∈ spans, r.first ≤ r.last ∧ r.last ≤ 255) ∧ spans.Pairwise fun a b => a.last < b.first

theorem runsInForm_ascending {runs : List Span} (h : runsInForm runs = true) :
    (∀ r ∈ runs, r.first ≤ r.last) ∧ runs.Pairwise fun a b => a.last < b.first := by
  induction runs with
  | nil => simp
  | cons r rest ih =>
    cases rest with
    | nil => simpa [runsInForm] using h
    | cons r' rest =>
      simp only [runsInForm, Bool.and_eq_true, decide_eq_true_iff] at h
      obtain ⟨⟨r_le, r_lt⟩, rest_form⟩ := h
      obtain ⟨le, lt⟩ := ih rest_form
      refine ⟨List.forall_mem_cons.mpr ⟨r_le, le⟩, List.pairwise_cons.mpr ⟨fun x hx => ?_, lt⟩⟩
      have r'_le := le r' (by simp)
      rcases List.mem_cons.mp hx with rfl | hx
      · exact r_lt
      · have := (List.pairwise_cons.mp lt).1 x hx
        omega

theorem mem_mapHeads {reverse : Bool} {spans : Nat → List Span} {x : Span} :
    x ∈ mapHeads reverse spans ↔ ∃ h < 8, ∃ r ∈ spans h, toGlobal reverse h r = x := by
  unfold mapHeads
  cases reverse <;> simp

/-- The mapping of R29 by what stands on either side: under BAR_REVERSE a cell and its image add up to 2047. -/
theorem toGlobal_eq_iff {reverse : Bool} {h : Nat} {r x : Span} (head : h < 8) (le : r.first ≤ r.last) (top : r.last ≤ 255) :
    toGlobal reverse h r = x ↔
      if reverse then x.first + (256 * h + r.last) = 2047 ∧ x.last + (256 * h + r.first) = 2047
      else x = { first := 256 * h + r.first, last := 256 * h + r.last } := by
  obtain ⟨first, last⟩ := x
  cases reverse
  · exact eq_comm
  · simp only [toGlobal, if_true, Span.mk.injEq]
    omega

theorem toGlobal_le {reverse : Bool} {h : Nat} {r : Span} (le : r.first ≤ r.last) :
    (toGlobal reverse h r).first ≤ (toGlobal reverse h r).last := by
  cases reverse <;> simp only [toGlobal, if_true, if_false, Bool.false_eq_true] <;> omega

/-- A mapped span lies before another: BAR_REVERSE turns the order round (R29). -/
def Span.Before (reverse : Bool) (a b : Span) : Prop := if reverse then b.last < a.first else a.last < b.first

theorem toGlobal_before {reverse : Bool} {h h' : Nat} {r r' : Span} (head' : h' < 8)
    (form' : r'.first ≤ r'.last ∧ r'.last ≤ 255) (lt : 256 * h + r.last < 256 * h' + r'.first) :
    Span.Before reverse (toGlobal reverse h r) (toGlobal reverse h' r') := by
  cases reverse <;> simp only [Span.Before, toGlobal, if_true, if_false, Bool.false_eq_true] <;> omega

/-- The heads' spans as mapped stand ascending and apart (R29). -/
theorem mapHeads_ascending {reverse : Bool} {spans : Nat → List Span} (form : ∀ h < 8, SpansInForm (spans h)) :
    (∀ x ∈ mapHeads reverse spans, x.first ≤ x.last) ∧ (mapHeads reverse spans).Pairwise fun a b => a.last < b.first := by
  have before : ((List.range 8).flatMap fun h => (spans h).map (toGlobal reverse h)).Pairwise (Span.Before reverse) := by
    refine List.pairwise_flatMap.mpr ⟨fun h hh => ?_, List.pairwise_lt_range.imp_of_mem fun {h h'} hh hh' lt x hx y hy => ?_⟩
    · have head := List.mem_range.mp hh
      obtain ⟨within, apart⟩ := form h head
      exact List.pairwise_map.mpr (apart.imp_of_mem fun {r r'} hr hr' lt =>
        toGlobal_before head (within r' hr') (by omega))
    · obtain ⟨r, hr, rfl⟩ := List.mem_map.mp hx
      obtain ⟨r', hr', rfl⟩ := List.mem_map.mp hy
      have head' := List.mem_range.mp hh'
      have within := (form h (List.mem_range.mp hh)).1 r hr
      exact toGlobal_before head' ((form h' head').1 r' hr') (by omega)
  constructor
  · intro x hx
    obtain ⟨h, head, r, hr, rfl⟩ := mem_mapHeads.mp hx
    exact toGlobal_le ((form h head).1 r hr).1
  · cases reverse
    · exact before
    · exact List.pairwise_reverse.mpr before

theorem mem_usableRuns {slot : LineSlot} {h : Nat} {r : Span} :
    r ∈ slot.usableRuns h ↔
      slot.expected.getLsbD h = true ∧ ∃ runs clamped, slot.entry h = .usable runs clamped ∧ r ∈ runs := by
  unfold LineSlot.usableRuns LineSlot.expects
  cases slot.entry h <;> simp

theorem mem_missingOf {slot : LineSlot} {h : Nat} {r : Span} :
    r ∈ slot.missingOf h ↔
      (slot.expected.getLsbD h = true ∧ slot.entry h = .unusable) ∧ r = { first := 0, last := 255 } := by
  unfold LineSlot.missingOf LineSlot.expects
  split <;> simp_all

theorem missingOf_length (slot : LineSlot) (h : Nat) : (slot.missingOf h).length ≤ 1 := by
  unfold LineSlot.missingOf
  split <;> simp

theorem missingOf_inForm (slot : LineSlot) (h : Nat) : SpansInForm (slot.missingOf h) := by
  unfold LineSlot.missingOf
  split <;> simp [SpansInForm]

/-- An entry whose runs are in form, as the judgement of R24 leaves it. -/
def LineSlot.EntriesInForm (slot : LineSlot) : Prop :=
  ∀ h runs clamped, slot.entry h = .usable runs clamped → runsInForm runs = true ∧ ∀ r ∈ runs, r.last ≤ 255

theorem usableRuns_inForm {slot : LineSlot} (form : slot.EntriesInForm) (h : Nat) : SpansInForm (slot.usableRuns h) := by
  unfold LineSlot.usableRuns
  split
  · split
    · rename_i runs clamped entry
      obtain ⟨runs_form, top⟩ := form h runs clamped entry
      obtain ⟨le, lt⟩ := runsInForm_ascending runs_form
      exact ⟨fun r hr => ⟨le r hr, top r hr⟩, lt⟩
    · simp [SpansInForm]
  · simp [SpansInForm]

/-! ## Clipping (R30) -/

theorem clipSpan_eq_some {lo hi : Nat} {r x : Span} : clipSpan lo hi r = some x ↔
    (lo ≤ r.last ∧ r.first ≤ hi) ∧ x = { first := max lo r.first, last := min hi r.last } := by
  unfold clipSpan
  split <;> rename_i out
  · simp only [reduceCtorEq, false_iff, not_and]
    omega
  · rw [Option.some.injEq, eq_comm, and_iff_right (by omega)]

theorem clipRun_eq_some {lo hi : Nat} {r : Span} {x : FormRun} : clipRun lo hi r = some x ↔ (lo ≤ r.last ∧ r.first ≤ hi)
    ∧ x.first = max r.first lo ∧ x.last = min r.last hi ∧ (x.edge = true ↔ r.first ≤ lo ∨ hi ≤ r.last) := by
  obtain ⟨first, last, edge⟩ := x
  have edge_iff : (max lo r.first == lo || min hi r.last == hi) = true ↔ r.first ≤ lo ∨ hi ≤ r.last := by
    simp
  rw [clipRun, Option.map_eq_some_iff, ← edge_iff, ← Bool.eq_iff_iff]
  simp only [clipSpan_eq_some, FormRun.mk.injEq]
  constructor
  · rintro ⟨c, ⟨within, rfl⟩, rfl, rfl, rfl⟩
    exact ⟨within, max_comm _ _, min_comm _ _, rfl⟩
  · rintro ⟨within, rfl, rfl, rfl⟩
    exact ⟨_, ⟨within, rfl⟩, max_comm _ _, min_comm _ _, rfl⟩

/-- Clipped spans stand in order, as whatever runs of their cells (R30). -/
theorem clipSpan_ordered {lo hi : Nat} {spans : List Span} (asRun : Span → FormRun)
    (cells : ∀ m, (asRun m).first = m.first ∧ (asRun m).last = m.last) (window : lo ≤ hi)
    (le : ∀ x ∈ spans, x.first ≤ x.last) (lt : spans.Pairwise fun a b => a.last < b.first) :
    RunsOrdered ((spans.filterMap (clipSpan lo hi)).map asRun) := by
  constructor
  · intro x hx
    obtain ⟨m, hm, rfl⟩ := List.mem_map.mp hx
    obtain ⟨r, hr, clip⟩ := List.mem_filterMap.mp hm
    obtain ⟨within, rfl⟩ := clipSpan_eq_some.mp clip
    rw [(cells _).1, (cells _).2]
    have := le r hr
    dsimp only
    omega
  · refine List.pairwise_map.mpr (List.pairwise_filterMap.mpr (lt.imp_of_mem fun {a b} ha hb lt x hx y hy => ?_))
    obtain ⟨-, rfl⟩ := clipSpan_eq_some.mp hx
    obtain ⟨-, rfl⟩ := clipSpan_eq_some.mp hy
    rw [(cells _).1, (cells _).1]
    have := le a ha
    dsimp only
    omega

theorem clipRun_ordered {lo hi : Nat} {spans : List Span} (window : lo ≤ hi)
    (le : ∀ x ∈ spans, x.first ≤ x.last) (lt : spans.Pairwise fun a b => a.last < b.first) :
    RunsOrdered (spans.filterMap (clipRun lo hi)) := by
  have ordered := clipSpan_ordered (lo := lo) (hi := hi)
    (fun c => { first := c.first, last := c.last, edge := c.first == lo || c.last == hi }) (fun _ => ⟨rfl, rfl⟩) window le lt
  rwa [List.map_filterMap] at ordered

/-! ## The run list (R28, R33) -/

theorem unclampedRuns_separated {slot : LineSlot} (window : slot.winStart ≤ slot.winEnd) (form : slot.EntriesInForm) :
    Separated slot.unclampedRuns ∧ ∀ r ∈ slot.unclampedRuns, slot.winStart ≤ r.first ∧ r.last ≤ slot.winEnd := by
  obtain ⟨le, lt⟩ := mapHeads_ascending (reverse := slot.barReverse) fun h _ => usableRuns_inForm form h
  obtain ⟨covered, ⟨joined_le, apart⟩, -⟩ := joinRuns_spec (clipRun_ordered window le lt)
  have in_window : ∀ c, CoveredIn c (joinRuns ((mapHeads slot.barReverse slot.usableRuns).filterMap
      (clipRun slot.winStart slot.winEnd))) → slot.winStart ≤ c ∧ c ≤ slot.winEnd := by
    intro c hc
    obtain ⟨x, hx, cell⟩ := (covered c).mp hc
    obtain ⟨r, -, clip⟩ := List.mem_filterMap.mp hx
    obtain ⟨-, first, last, -⟩ := clipRun_eq_some.mp clip
    omega
  have kept : ∀ {r}, r ∈ slot.unclampedRuns → r ∈ joinRuns _ := fun hr => (List.mem_filter.mp hr).1
  refine ⟨⟨fun r hr => joined_le r (kept hr), apart.sublist List.filter_sublist⟩, fun r hr => ?_⟩
  have le := joined_le r (kept hr)
  exact ⟨(in_window r.first ⟨r, kept hr, le_rfl, le⟩).1, (in_window r.last ⟨r, kept hr, le, le_rfl⟩).2⟩

theorem foldl_last (runs : List FormRun) (r : FormRun) :
    runs.foldl (fun _ x => x.last) r.last = ((r :: runs).getLast (by simp)).last := by
  induction runs generalizing r with
  | nil => rfl
  | cons x rest ih => simpa using ih x

/-- With a 64th run, it and all after it are one in the clamped list; alone, it is that one (R33). -/
theorem clampRuns_eq {runs : List FormRun} {r l : FormRun} (hr : runs[63]? = some r) (hl : runs.getLast? = some l) :
    clampRuns runs = runs.take 63 ++ [{ first := r.first, last := l.last, edge := (runs.drop 63).any FormRun.edge }] := by
  obtain ⟨long, rfl⟩ := List.getElem?_eq_some_iff.mp hr
  have tail : runs.drop 63 = runs[63] :: runs.drop 64 := List.drop_eq_getElem_cons long
  have last : (runs.drop 63).getLast? = some l := by rw [List.getLast?_drop, if_neg (by omega), hl]
  unfold clampRuns
  split
  · have single : runs.drop 64 = [] := List.drop_eq_nil_of_le ‹_›
    obtain rfl : runs[63] = l := by simpa [tail, single] using last
    calc runs = runs.take 63 ++ runs.drop 63 := (List.take_append_drop 63 runs).symm
      _ = _ := by rw [tail, single, List.any_cons, List.any_nil, Bool.or_false]
  · rw [tail, List.getLast?_eq_some_getLast (List.cons_ne_nil _ _), Option.some.injEq] at last
    simp only [tail, foldl_last, last, List.any_cons]

/-- Clamping leaves at most 64 runs, apart from each other and within the same window (R33). -/
theorem clampRuns_separated {runs : List FormRun} {lo hi : Nat} (h : Separated runs)
    (window : ∀ r ∈ runs, lo ≤ r.first ∧ r.last ≤ hi) :
    Separated (clampRuns runs) ∧ (clampRuns runs).length ≤ 64 ∧ ∀ r ∈ clampRuns runs, lo ≤ r.first ∧ r.last ≤ hi := by
  by_cases short : runs.length ≤ 64
  · rw [clampRuns, if_pos short]
    exact ⟨h, short, window⟩
  · obtain ⟨le, apart⟩ := h
    have first : runs[63]? = some runs[63] := List.getElem?_eq_getElem (by omega)
    have tail : runs.drop 63 = runs[63] :: runs.drop 64 := List.drop_eq_getElem_cons (by omega)
    obtain ⟨l, last⟩ : ∃ l, runs.getLast? = some l :=
      ⟨_, List.getLast?_eq_some_getLast (List.ne_nil_of_length_pos (by omega))⟩
    have l_mem : l ∈ runs.drop 64 := List.mem_of_getLast? (by rw [List.getLast?_drop, if_neg (by omega), last])
    have r_le := le runs[63] (List.getElem_mem _)
    have l_le := le l (List.mem_of_getLast? last)
    have r_window := window runs[63] (List.getElem_mem _)
    have l_window := window l (List.mem_of_getLast? last)
    have taken : ∀ {x}, x ∈ runs.take 63 → x ∈ runs := List.mem_of_mem_take
    rw [← List.take_append_drop 63 runs, tail] at apart
    obtain ⟨apart_take, apart_drop, before⟩ := List.pairwise_append.mp apart
    have r_l := (List.pairwise_cons.mp apart_drop).1 l l_mem
    rw [clampRuns_eq first last]
    refine ⟨⟨?_, List.pairwise_append.mpr ⟨apart_take, List.pairwise_singleton _ _, ?_⟩⟩, by simp, ?_⟩
    · rintro x hx
      rcases List.mem_append.mp hx with hx | hx
      · exact le x (taken hx)
      · obtain rfl := List.mem_singleton.mp hx
        change runs[63].first ≤ l.last
        omega
    · rintro x hx y hy
      obtain rfl := List.mem_singleton.mp hy
      exact before x hx runs[63] List.mem_cons_self
    · rintro x hx
      rcases List.mem_append.mp hx with hx | hx
      · exact window x (taken hx)
      · obtain rfl := List.mem_singleton.mp hx
        exact ⟨r_window.1, l_window.2⟩

/-! ## The missing spans (R28) -/

/-- A span as a run of the forming, not edge-touching. -/
def Span.asRun (m : Span) : FormRun := { first := m.first, last := m.last, edge := false }

theorem joinInto_length (cur : FormRun) (rest : List FormRun) : (joinInto cur rest).length ≤ rest.length + 1 := by
  induction rest generalizing cur with
  | nil => simp [joinInto]
  | cons r rest ih =>
    rw [joinInto]
    split
    · exact (ih _).trans (by simp)
    · simpa using ih r

theorem joinRuns_length (runs : List FormRun) : (joinRuns runs).length ≤ runs.length := by
  cases runs with
  | nil => exact le_rfl
  | cons r rest => exact joinInto_length r rest

/-- The clipped missing spans of a line, as runs before they are joined (R28). -/
def LineSlot.missingRuns (slot : LineSlot) : List FormRun :=
  ((mapHeads slot.barReverse slot.missingOf).filterMap (clipSpan slot.winStart slot.winEnd)).map Span.asRun

theorem missing_eq (slot : LineSlot) :
    slot.missing = (joinRuns slot.missingRuns).map fun m => { first := m.first, last := m.last } := rfl

theorem missingRuns_ordered {slot : LineSlot} (window : slot.winStart ≤ slot.winEnd) : RunsOrdered slot.missingRuns := by
  obtain ⟨le, lt⟩ := mapHeads_ascending (reverse := slot.barReverse) fun h _ => missingOf_inForm slot h
  exact clipSpan_ordered Span.asRun (fun _ => ⟨rfl, rfl⟩) window le lt

theorem missing_length (slot : LineSlot) : slot.missing.length ≤ 8 := by
  have one_each : ((List.range 8).map fun h => (slot.missingOf h).length).sum ≤ 8 := by
    refine (List.sum_le_card_nsmul _ 1 fun n hn => ?_).trans (by simp)
    obtain ⟨h, -, rfl⟩ := List.mem_map.mp hn
    exact missingOf_length slot h
  have mapped : (mapHeads slot.barReverse slot.missingOf).length ≤ 8 := by
    unfold mapHeads
    cases slot.barReverse <;> simpa [List.length_flatMap] using one_each
  rw [missing_eq, List.length_map]
  refine (joinRuns_length _).trans ?_
  rw [LineSlot.missingRuns, List.length_map]
  exact (List.length_filterMap_le _ _).trans mapped

/-- The head that owns a cell, its 256 cells being turned round by BAR_REVERSE (R29). -/
def ownerOf (reverse : Bool) (c : Nat) : Nat := if reverse then 7 - c / 256 else c / 256

theorem toGlobal_head_covers {reverse : Bool} {h c : Nat} (head : h < 8) (top : c ≤ 2047) :
    ((toGlobal reverse h { first := 0, last := 255 }).first ≤ c ∧ c ≤ (toGlobal reverse h { first := 0, last := 255 }).last)
      ↔ h = ownerOf reverse c := by
  cases reverse <;> simp only [toGlobal, ownerOf, if_true, if_false, Bool.false_eq_true] <;> omega

theorem ownerOf_lt {c : Nat} (reverse : Bool) (top : c ≤ 2047) : ownerOf reverse c < 8 := by
  cases reverse <;> simp only [ownerOf, if_true, if_false, Bool.false_eq_true] <;> omega

theorem clipSpan_covers {lo hi c : Nat} {r : Span} :
    (∃ m, clipSpan lo hi r = some m ∧ m.first ≤ c ∧ c ≤ m.last) ↔ (lo ≤ c ∧ c ≤ hi) ∧ r.first ≤ c ∧ c ≤ r.last := by
  constructor
  · rintro ⟨m, clip, cell⟩
    obtain ⟨-, rfl⟩ := clipSpan_eq_some.mp clip
    dsimp only at cell
    omega
  · rintro ⟨window, cell⟩
    exact ⟨_, clipSpan_eq_some.mpr ⟨by omega, rfl⟩, by dsimp only; omega⟩

theorem missingRuns_covered (slot : LineSlot) (c : Nat) : CoveredIn c slot.missingRuns ↔
    (slot.winStart ≤ c ∧ c ≤ slot.winEnd) ∧ ∃ r ∈ mapHeads slot.barReverse slot.missingOf, r.first ≤ c ∧ c ≤ r.last := by
  constructor
  · rintro ⟨_, hx, cell⟩
    obtain ⟨m, hm, rfl⟩ := List.mem_map.mp hx
    obtain ⟨r, hr, clip⟩ := List.mem_filterMap.mp hm
    obtain ⟨window, cell⟩ := clipSpan_covers.mp ⟨m, clip, cell⟩
    exact ⟨window, r, hr, cell⟩
  · rintro ⟨window, r, hr, cell⟩
    obtain ⟨m, clip, cell⟩ := clipSpan_covers.mpr ⟨window, cell⟩
    exact ⟨m.asRun, List.mem_map_of_mem (List.mem_filterMap.mpr ⟨r, hr, clip⟩), cell⟩

theorem mapHeads_missing_covered {slot : LineSlot} {c : Nat} (top : c ≤ 2047) :
    (∃ r ∈ mapHeads slot.barReverse slot.missingOf, r.first ≤ c ∧ c ≤ r.last) ↔
      slot.expected.getLsbD (ownerOf slot.barReverse c) = true ∧ slot.entry (ownerOf slot.barReverse c) = .unusable := by
  constructor
  · rintro ⟨_, hr, cell⟩
    obtain ⟨h, head, m, hm, rfl⟩ := mem_mapHeads.mp hr
    obtain ⟨unusable, rfl⟩ := mem_missingOf.mp hm
    rwa [← (toGlobal_head_covers head top).mp cell]
  · intro unusable
    have head := ownerOf_lt slot.barReverse top
    exact ⟨_, mem_mapHeads.mpr ⟨_, head, _, mem_missingOf.mpr ⟨unusable, rfl⟩, rfl⟩, (toGlobal_head_covers head top).mpr rfl⟩

/-- The missing spans cover the cells in the window of the heads that are expected and UNUSABLE (R28). -/
theorem missing_covered {slot : LineSlot} (window : slot.winStart ≤ slot.winEnd) (top : slot.winEnd ≤ 2047) (c : Nat) :
    (∃ m ∈ slot.missing, m.first ≤ c ∧ c ≤ m.last) ↔ slot.winStart ≤ c ∧ c ≤ slot.winEnd
      ∧ slot.expected.getLsbD (ownerOf slot.barReverse c) = true ∧ slot.entry (ownerOf slot.barReverse c) = .unusable := by
  have joined : (∃ m ∈ slot.missing, m.first ≤ c ∧ c ≤ m.last) ↔ CoveredIn c (joinRuns slot.missingRuns) := by
    simp [missing_eq, CoveredIn]
  rw [joined, (joinRuns_spec (missingRuns_ordered window)).1 c, missingRuns_covered, and_assoc]
  refine and_congr_right fun _ => and_congr_right fun last => mapHeads_missing_covered (last.trans top)

theorem missing_separated {slot : LineSlot} (window : slot.winStart ≤ slot.winEnd) :
    (∀ m ∈ slot.missing, m.first ≤ m.last) ∧ slot.missing.Pairwise fun a b => a.last + 1 < b.first := by
  obtain ⟨-, ⟨le, apart⟩, -⟩ := joinRuns_spec (missingRuns_ordered window)
  rw [missing_eq]
  exact ⟨List.forall_mem_map.mpr le, List.pairwise_map.mpr apart⟩

/-! ## The statement -/

/-- A span is dropped, or cut with its mark, by where it lies against the window (R30). -/
theorem clipRun_cases (lo hi : Nat) (r : Span) : (r.last < lo ∨ hi < r.first → clipRun lo hi r = none)
    ∧ (lo ≤ r.last → r.first ≤ hi → ∃ x, clipRun lo hi r = some x ∧ x.first = max r.first lo ∧ x.last = min r.last hi
      ∧ (x.edge = true ↔ r.first ≤ lo ∨ hi ≤ r.last)) := by
  constructor
  · intro out
    rw [clipRun, clipSpan, if_pos out, Option.map_none]
  · intro low high
    obtain ⟨x, clip⟩ : ∃ x, clipRun lo hi r = some x := ⟨_, by rw [clipRun, clipSpan, if_neg (by omega), Option.map_some]⟩
    exact ⟨x, clip, (clipRun_eq_some.mp clip).2⟩

theorem anyClamped_iff (slot : LineSlot) : slot.anyClamped = true ↔
    ∃ h runs, h < 8 ∧ slot.expected.getLsbD h = true ∧ slot.entry h = .usable runs true := by
  unfold LineSlot.anyClamped LineSlot.expects
  simp only [List.any_eq_true, List.mem_range, Bool.and_eq_true]
  refine exists_congr fun h => ?_
  cases slot.entry h <;> simp

theorem mem_mapped_iff {slot : LineSlot} (form : slot.EntriesInForm) (x : Span) :
    x ∈ mapHeads slot.barReverse slot.usableRuns ↔ ∃ h runs clamped, h < 8 ∧ slot.expected.getLsbD h = true
      ∧ slot.entry h = .usable runs clamped ∧ ∃ r ∈ runs,
        if slot.barReverse then x.first + (256 * h + r.last) = 2047 ∧ x.last + (256 * h + r.first) = 2047
        else x = { first := 256 * h + r.first, last := 256 * h + r.last } := by
  have placed : ∀ {h r}, h < 8 → r ∈ slot.usableRuns h → (toGlobal slot.barReverse h r = x ↔ _) := fun {h r} head hr =>
    have within := (usableRuns_inForm form h).1 r hr
    toGlobal_eq_iff head within.1 within.2
  rw [mem_mapHeads]
  constructor
  · rintro ⟨h, head, r, hr, mapped⟩
    obtain ⟨expected, runs, clamped, entry, mem⟩ := mem_usableRuns.mp hr
    exact ⟨h, runs, clamped, head, expected, entry, r, mem, (placed head hr).mp mapped⟩
  · rintro ⟨h, runs, clamped, head, expected, entry, r, mem, mapped⟩
    have hr := mem_usableRuns.mpr ⟨expected, runs, clamped, entry, mem⟩
    exact ⟨h, head, r, hr, (placed head hr).mpr mapped⟩

/-- Settles O18: the runs as mapped, clipped, joined and clamped, and the missing spans, each by the lemmas above. -/
theorem formedRunsSeparated : Obligations.FormedRunsSeparated := by
  intro slot window top form
  obtain ⟨separated, in_window⟩ := unclampedRuns_separated window form
  obtain ⟨clamped, length, clamped_window⟩ := clampRuns_separated separated in_window
  obtain ⟨missing_le, missing_apart⟩ := missing_separated window
  have run_clamp : (formLine slot).runClamp = true ↔ 64 < slot.unclampedRuns.length
      ∨ ∃ h runs, h < 8 ∧ slot.expected.getLsbD h = true ∧ slot.entry h = .usable runs true := by
    rw [formLine, Bool.or_eq_true, decide_eq_true_iff, anyClamped_iff]
  exact ⟨clamped, length, clamped_window, mem_mapped_iff form, (mapHeads_ascending fun h _ => usableRuns_inForm form h).2,
    clipRun_cases _ _, missing_covered window top, missing_length slot, missing_le, missing_apart, fun short => if_pos short,
    fun r l => clampRuns_eq, run_clamp, rfl, rfl, rfl, rfl, rfl⟩

end Sys2Proof.Machine
end

section
/-! PROOFS. LINE_HANDOVER (O17): a line taken through its stages, and a closed hide handed on, in closed form. -/

namespace Sys2Proof.Machine

/-! ## The stages of a line in closed form (R26, R51, R52) -/

theorem raiseTimes_eq (n : Nat) (k : EventKind) (s : State) :
    s.raiseTimes n k = { s with rep := { s.rep with order := n.repeat (raiseIn k) s.rep.order } } := by
  induction n with
  | zero => rfl
  | succ n ih =>
    change (s.raiseTimes n k).raise k = _
    rw [ih]
    rfl

theorem releaseLine_eq (line : FormedLine) (s : State) : s.releaseLine line = { s with
    asm := { s.asm with slots := s.asm.slots.drop 1, lastLine := line.number, lastTime := line.time }
    rep := { s.rep with order := (if line.missing = [] then 0 else 1).repeat (raiseIn .lineGapped) s.rep.order } } := by
  unfold State.releaseLine FormedLine.gapped
  cases line.missing <;> rfl

/-- The line segmented, in the state it is taken in (R41 to R54). -/
def State.segmentation (s : State) (line : FormedLine) : Segmented :=
  segmentLine (decide (s.run = .run)) s.pos.excursion s.ver.lockOpen line s.trk

/-- The line examined for gaps, in the state it is taken in, for its advance (R61 to R71). -/
def State.examination (s : State) (line : FormedLine) (advance : Nat) : GapResult :=
  let g := s.segmentation line
  examineLine s.area.cumw advance s.cmd.active.calib.holeLimit line.missing g.merges g.trk.prev.real g.trk.cur.real
    g.trk.records s.gap

/-- A record measured and sampled on the line (R77, R88 to R90). -/
def State.measure (s : State) (line : FormedLine) (advance n : Nat) (r : HideRec) : HideRec :=
  let cur := (s.segmentation line).trk.cur
  (r.addStrip s.area.cumw advance cur n).sampled s.area.cumw s.cmd.active.markp line.s cur n

/-- A hide that closes on the line has left OPEN (R52; log 36). -/
def HideRec.asClosed (r : HideRec) : HideRec := { r with state := .closed }

/-- The records once the line is measured and its closing hides have left OPEN (R52; log 36). -/
def State.measured (s : State) (line : FormedLine) (advance : Nat) : List HideRec :=
  (s.segmentation line).closing.foldl (fun l n => l.modify n HideRec.asClosed)
    (mapFrom (s.measure line advance) 0 (s.examination line advance).records)

theorem mapFrom_mapFrom {α β γ : Type} (g : Nat → β → γ) (f : Nat → α → β) (i : Nat) (l : List α) :
    mapFrom g i (mapFrom f i l) = mapFrom (fun n a => g n (f n a)) i l := by
  induction l generalizing i with
  | nil => rfl
  | cons a l ih => simp only [mapFrom, ih]

/-- The oldest line taken up to the passing on of its labelled line, in closed form. -/
theorem takeOldest_eq {s : State} {slot : LineSlot} {rest : List LineSlot} (h : s.asm.slots = slot :: rest) :
    s.takeOldest =
      let line := formLine slot
      let advance := s.area.base.advance slot.s
      let g := s.segmentation line
      let e := s.examination line advance.toNat
      { s with
        asm := { s.asm with slots := rest, lastLine := slot.number, lastTime := slot.time }
        area := { s.area with base := .previous slot.s, lastAdvance := advance }
        trk := { g.trk with records := s.measured line advance.toNat, handing := some g.closing }
        gap := e.gap
        rep := { s.rep with order := e.refused.repeat (raiseIn .gapTableFull) (g.refused.repeat (raiseIn .hideTableFull)
          ((if line.missing = [] then 0 else 1).repeat (raiseIn .lineGapped) s.rep.order)) } } := by
  unfold State.takeOldest
  rw [h]
  simp only [State.passLine, releaseLine_eq, State.segment, raiseTimes_eq, State.examine, State.addStrips, State.sampleLine,
    State.closeHides, mapFrom_mapFrom, h, List.drop_succ_cons, List.drop_zero]
  rfl

theorem mapFrom_getElem? {α β : Type} (f : Nat → α → β) (i : Nat) (l : List α) (n : Nat) :
    (mapFrom f i l)[n]? = l[n]?.map (f (i + n)) := by
  induction l generalizing i n with
  | nil => rfl
  | cons a l ih =>
    cases n with
    | zero => rfl
    | succ n => simp only [mapFrom, List.getElem?_cons_succ, ih, Nat.add_right_comm i 1 n, Nat.add_assoc]

theorem mapFrom_length {α β : Type} (f : Nat → α → β) (i : Nat) (l : List α) : (mapFrom f i l).length = l.length := by
  induction l generalizing i with
  | nil => rfl
  | cons a l ih => simp only [mapFrom, List.length_cons, ih]

theorem foldl_modify_length {α : Type} (f : α → α) (ns : List Nat) (l : List α) :
    (ns.foldl (fun l n => l.modify n f) l).length = l.length := by
  induction ns generalizing l with
  | nil => rfl
  | cons n ns ih => simp only [List.foldl_cons, ih, List.length_modify]

/-- A change that is the same once and twice, made at places of a list. -/
theorem foldl_modify_getElem? {α : Type} {f : α → α} (once : ∀ a, f (f a) = f a) (ns : List Nat) (l : List α) (m : Nat) :
    (ns.foldl (fun l n => l.modify n f) l)[m]? = if m ∈ ns then l[m]?.map f else l[m]? := by
  induction ns generalizing l with
  | nil => rfl
  | cons n ns ih =>
    rw [List.foldl_cons, ih, List.getElem?_modify]
    by_cases at_n : n = m
    · subst at_n
      cases l[n]? <;> simp [once]
    · simp [at_n, Ne.symm at_n]

theorem measured_length (s : State) (line : FormedLine) (advance : Nat) :
    (s.measured line advance).length = (s.examination line advance).records.length := by
  rw [State.measured, foldl_modify_length, mapFrom_length]

theorem measured_getElem? {s : State} {line : FormedLine} {advance n : Nat} {r : HideRec}
    (h : (s.examination line advance).records[n]? = some r) :
    (s.measured line advance)[n]? = some (if n ∈ (s.segmentation line).closing
      then (s.measure line advance n r).asClosed else s.measure line advance n r) := by
  rw [State.measured, foldl_modify_getElem? (f := HideRec.asClosed) fun _ => rfl, mapFrom_getElem?, h, Nat.zero_add]
  split <;> rfl

/-! ## The closing hides handed on in turn (R53; log 14) -/

theorem atBoundary_of_none {s : State} (h : s.trk.handing = none) : s.atBoundary = true := by
  rw [State.atBoundary, h, Option.isNone_none]

theorem not_atBoundary {s : State} {left : List Nat} (h : s.trk.handing = some left) : s.atBoundary = false := by
  rw [State.atBoundary, h, Option.isNone_some]

theorem handOn_cur (s : State) (n : Nat) : (s.handOn n).trk.cur = s.trk.cur := by
  rw [(handOn_step s n).frame]

/-- A state after the first of the closing hides left is handed on; with the last, or with none, at the line boundary (R53). -/
def State.handedOn (left : List Nat) (v : State) : State :=
  let boundary := fun t : State => { t with trk := { t.trk with prev := v.trk.cur, cur := .empty, handing := none } }
  match left with
  | [] => boundary v
  | [n] => boundary (v.handOn n)
  | n :: m :: more => { v.handOn n with trk := { (v.handOn n).trk with handing := some (m :: more) } }

theorem handOnNext_eq {v : State} {left : List Nat} (h : v.trk.handing = some left) : v.handOnNext = v.handedOn left := by
  unfold State.handOnNext
  rw [h]
  rcases left with _ | ⟨n, _ | ⟨m, more⟩⟩
  · rfl
  · simp only [State.reachBoundary, handOn_cur]
    rfl
  · rfl

theorem lineStep_within {s : State} {left : List Nat} (h : s.trk.handing = some left) : s.lineStep = s.handOnNext := by
  rw [State.lineStep, not_atBoundary h, if_neg Bool.false_ne_true]

theorem lineStep_atBoundary {s : State} (h : s.trk.handing = none) : s.lineStep = s.takeOldest.handOnNext := by
  rw [State.lineStep, if_pos (atBoundary_of_none h)]

theorem exec_lineHandover {s : State} (hp : s.powered = true) (due : s.lineStepDue = true) :
    exec .lineHandover s = .next s.handLine := stepWhen_due hp due

theorem lineStepDue_within {s : State} {left : List Nat} (h : s.trk.handing = some left) : s.lineStepDue = true := by
  rw [State.lineStepDue, not_atBoundary h, Bool.not_false, Bool.true_or]

theorem lineStepDue_atBoundary {s : State} (h : s.trk.handing = none) (ready : s.handoverReady = true)
    (apply : s.applyDue = false) (drain : s.drainFirstDue = false) : s.lineStepDue = true := by
  rw [State.lineStepDue, State.lineDue, atBoundary_of_none h, ready, apply, drain]
  rfl

theorem handLine_within {s : State} {left : List Nat} (h : s.trk.handing = some left) :
    s.handLine = (s.handedOn left).arbitrate := by
  rw [State.handLine, lineStep_within h, handOnNext_eq h]

theorem handLine_atBoundary {s : State} {slot : LineSlot} {rest : List LineSlot} (h : s.trk.handing = none)
    (slots : s.asm.slots = slot :: rest) :
    s.handLine = (s.takeOldest.handedOn (s.segmentation (formLine slot)).closing).arbitrate := by
  have handing : s.takeOldest.trk.handing = some (s.segmentation (formLine slot)).closing := by rw [takeOldest_eq slots]
  rw [State.handLine, lineStep_atBoundary h, handOnNext_eq handing]

/-! ## The composer's work on a closed hide (R91 to R93, R101) -/

theorem valued_seq (calib : CalibRec) (r : HideRec) : (r.valued calib).seq = r.seq := by
  unfold HideRec.valued HideRec.setFlagIf
  simp only
  split
  · rfl
  · split <;> rfl

theorem valued_state (calib : CalibRec) (r : HideRec) : (r.valued calib).state = r.state := by
  unfold HideRec.valued HideRec.setFlagIf
  simp only
  split
  · rfl
  · split <;> rfl

/-- The anchor that a hide's ring is reduced to (R92). -/
def HideRec.anchorSample (r : HideRec) : Sample := r.ring.headD { p := 0, c := 0, w := 0 }

theorem anchorSample_c (r : HideRec) : r.anchorSample.c = (r.ring.map Sample.c).headD 0 := by
  unfold HideRec.anchorSample
  cases r.ring <;> rfl

/-- A hide that gets no mark by its kind (R91). -/
def HideRec.Unmarked (markp : MarkpRec) (v : HideRec) : Prop :=
  v.has .fragment = true ∨ (v.has .joined = true ∧ markp.joinPolicy = .noMark)

/-- A lane that is ENABLED and holds a cell (R93). -/
def LaneRec.Holds (c : Nat) (l : LaneRec) : Prop := l.enabled = true ∧ l.cellFirst ≤ c ∧ c ≤ l.cellLast

theorem laneOf_none {lanes : List LaneRec} {c : Nat} (h : ∀ l ∈ lanes, ¬ l.Holds c) : laneOf lanes c = none := by
  refine List.findIdx?_eq_none_iff.mpr fun l hl => ?_
  simpa [LaneRec.Holds, and_assoc] using h l hl

theorem laneOf_some {lanes : List LaneRec} {c i : Nat} {l : LaneRec} (at_i : lanes[i]? = some l) (holds : l.Holds c)
    (first : ∀ j l', j < i → lanes[j]? = some l' → ¬ l'.Holds c) : laneOf lanes c = some i := by
  obtain ⟨hi, rfl⟩ := List.getElem?_eq_some_iff.mp at_i
  refine List.findIdx?_eq_some_iff_getElem.mpr ⟨hi, ?_, fun j hj => ?_⟩
  · simpa [LaneRec.Holds, and_assoc] using holds
  · simpa [LaneRec.Holds, and_assoc] using first j _ hj (List.getElem?_eq_getElem (hj.trans hi))

theorem freeSlot_none {s : State} (h : ∀ x ∈ s.img, x ≠ none) : s.freeSlot = none :=
  List.findIdx?_eq_none_iff.mpr fun x hx => by simpa [Option.isSome_iff_ne_none] using h x hx

theorem freeSlot_some {s : State} {slot : Nat} (free : s.img[slot]? = some none)
    (first : ∀ j, j < slot → s.img[j]? ≠ some none) : s.freeSlot = some slot := by
  obtain ⟨hs, at_slot⟩ := List.getElem?_eq_some_iff.mp free
  refine List.findIdx?_eq_some_iff_getElem.mpr ⟨hs, by rw [at_slot]; rfl, fun j hj => ?_⟩
  have held := first j hj
  rw [List.getElem?_eq_getElem (hj.trans hs)] at held
  simpa using held

/-- A hide with its lane and that lane's lot slot (R93, R127). -/
def HideRec.onLane (i lotSlot : Nat) (a : HideRec) : HideRec := { a with lane := some i, lotSlot := some lotSlot }

/-- The image of a hide on its lane (R94 to R100). -/
def State.imageOf (s : State) (b : HideRec) (lotSlot : Nat) : Rendered :=
  render s.cmd.active.glyphs s.cmd.active.markp.glyphGap (hideText s.cmd.active.markp.joinPolicy
    (s.cmd.active.lots.getD lotSlot .default).prefixGlyph s.ver.lockOpen b)

section compose
variable {s : State} {v : HideRec}

theorem compose_unmarked (h : v.Unmarked s.cmd.active.markp) :
    s.compose v = (v.anchored s.cmd.active.markp, s.img, .notMarked) := by
  unfold State.compose
  simp only
  by_cases fragment : (v.anchored s.cmd.active.markp).has .fragment = true
  · rw [if_pos fragment]
  · have joined : ((v.anchored s.cmd.active.markp).has .joined && s.cmd.active.markp.joinPolicy == .noMark) = true := by
      rw [Bool.and_eq_true, beq_iff_eq]
      exact h.resolve_left fragment
    rw [if_neg fragment, if_pos joined]

variable (marked : ¬ v.Unmarked s.cmd.active.markp)
include marked

/-- A marked hide passes the composer's first two tests (R91). -/
theorem compose_tests : ¬ (v.anchored s.cmd.active.markp).has .fragment = true
    ∧ ¬ ((v.anchored s.cmd.active.markp).has .joined && s.cmd.active.markp.joinPolicy == .noMark) = true := by
  obtain ⟨fragment, joined⟩ := not_or.mp marked
  refine ⟨fragment, ?_⟩
  rw [Bool.and_eq_true, beq_iff_eq]
  exact joined

theorem compose_noLane (lane : laneOf s.cmd.active.lanes (v.anchored s.cmd.active.markp).anchorSample.c = none) :
    s.compose v = (v.anchored s.cmd.active.markp, s.img, .noLane) := by
  obtain ⟨fragment, joined⟩ := compose_tests marked
  simp only [State.compose, if_neg fragment, if_neg joined, ← anchorSample_c, lane]

variable {i : Nat} {l : LaneRec} (at_i : s.cmd.active.lanes[i]? = some l)
  (lane : laneOf s.cmd.active.lanes (v.anchored s.cmd.active.markp).anchorSample.c = some i)
include at_i lane

theorem compose_noImage (full : s.freeSlot = none) :
    s.compose v = ((v.anchored s.cmd.active.markp).onLane i l.lotSlot, s.img, .noImage) := by
  obtain ⟨fragment, joined⟩ := compose_tests marked
  simp only [State.compose, if_neg fragment, if_neg joined, ← anchorSample_c, lane, full, List.getD_eq_getElem?_getD, at_i,
    Option.getD_some]
  rfl

theorem compose_image {slot : Nat} (free : s.freeSlot = some slot) :
    let b := (v.anchored s.cmd.active.markp).onLane i l.lotSlot
    let d := s.imageOf b l.lotSlot
    s.compose v = (b.setFlagIf d.cut .markTrunc, s.img.set slot (some { holder := .hide v.seq, columns := d.columns }),
      .image i slot d.columns.length) := by
  obtain ⟨fragment, joined⟩ := compose_tests marked
  simp only [State.compose, if_neg fragment, if_neg joined, ← anchorSample_c, lane, free]
  simp only [List.getD_eq_getElem?_getD, at_i, Option.getD_some]
  rfl

end compose

/-! ## A composed hide disposed of (R108, R113, R114) -/

theorem setFlagIf_eq (c : Bool) (k : Flag) (r : HideRec) :
    r.setFlagIf c k = { r with flags := if c then r.flags ||| k.mask else r.flags } := by
  unfold HideRec.setFlagIf HideRec.setFlag
  split <;> rfl

theorem planOn_ok {s t : State} {heads : List Nat} {q : StampRequest} (e : s.tryHeads q heads = .ok t) : s.planOn heads q = t := by
  rw [State.planOn, e]

theorem planOn_error {s : State} {heads : List Nat} {q : StampRequest} {fs : List TrialFailure}
    (e : s.tryHeads q heads = .error fs) : s.planOn heads q = s.giveUp q (outcomeOf fs) := by
  rw [State.planOn, e]

/-- A state with a hide's record and the image slots as the composer leaves them. -/
def State.withRecord (s : State) (n : Nat) (x : HideRec) (img : List (Option HeldImage)) : State :=
  { s with trk := { s.trk with records := s.trk.records.set n x }, img := img }

/-- A state after a hide that needs no mark, or misses it, went to REPORTING (R108, R114, R128). -/
def State.ended (s : State) (n seq : Nat) (x : HideRec) (o : Option MarkOutcome) : State :=
  { s with
    trk := { s.trk with records := s.trk.records.set n { x with state := .reporting, outcome := o } }
    rep := { s.rep with finals := s.rep.finals ++ [seq] } }

/-- A state after a hide's image took a reservation: the slot holds the image, the record its plan, the head's schedule the
reservation (R101, R109, R111, R113). -/
def State.reserved (s : State) (n : Nat) (x : HideRec) (columns : List Dots) (q : StampRequest) (h : Nat) (p : Int) : State :=
  let base := nozzleBase (s.headEntry h) (cellCentre s.area.cumw s.cmd.active.cellw q.anchorC)
  { s with
    trk := { s.trk with records := s.trk.records.set n { x with
      state := .waiting, plan := some { head := h, columns := q.columns, slot := q.slot }
      flags := if base.clamped then x.flags ||| BitVec.ofNat 16 (2 ^ 15) else x.flags } }
    img := s.img.set q.slot (some { holder := .hide q.seq, columns := columns })
    mark := { s.mark with heads := s.mark.heads.modify h fun m => { m with
      schedule := insertReservation
        { holder := .hide q.seq, start := p, stop := p + ((q.columns * q.pitch : Nat) : Int), columns := q.columns
          pitch := q.pitch, slot := q.slot, base := base.base, anchorP := q.anchorP, anchorC := q.anchorC
          lane := some q.lane } m.schedule } } }

section dispose
variable {s : State} {n seq : Nat} {x : HideRec}
  (only : ∀ m y, s.trk.records[m]? = some y → y.state ≠ .free → y.seq = seq → m = n)
  (used : x.state ≠ .free) (seq_x : x.seq = seq)
include only used seq_x

/-- A change by sequence number reaches only the record just set (R36). -/
theorem set_map_onSeq (f : HideRec → HideRec) :
    (s.trk.records.set n x).map (onSeq seq f) = s.trk.records.set n (f x) := by
  rw [onSeq_eq, List.map_set, if_pos ⟨used, seq_x⟩]
  refine List.ext_getElem? fun m => ?_
  rw [List.getElem?_set, List.getElem?_set, List.length_map, List.getElem?_map]
  by_cases at_n : n = m
  · rw [if_pos at_n, if_pos at_n]
  · rw [if_neg at_n, if_neg at_n]
    cases at_m : s.trk.records[m]? with
    | none => rfl
    | some y => exact congrArg some (if_neg fun h => at_n (only m y at_m h.1 h.2).symm)

theorem withRecord_toReporting (img : List (Option HeldImage)) (o : Option MarkOutcome) :
    (s.withRecord n x img).toReporting seq o = { s.ended n seq x o with img := img } := by
  unfold State.toReporting State.mapRecs State.withRecord
  simp only [set_map_onSeq only used seq_x]
  rfl

variable {q : StampRequest} (seq_q : q.seq = seq)
include seq_q

theorem withRecord_accept (columns : List Dots) (h : Nat) (p : Int) :
    (s.withRecord n x (s.img.set q.slot (some { holder := .hide seq, columns := columns }))).accept h q p
      = s.reserved n x columns q h p := by
  subst seq_q
  unfold State.accept State.onHead State.mapRecs State.withRecord
  simp only [set_map_onSeq only used seq_x, setFlagIf_eq]
  rfl

theorem withRecord_giveUp (free : s.img[q.slot]? = some none) (image : HeldImage) (o : MarkOutcome) :
    (s.withRecord n x (s.img.set q.slot (some image))).giveUp q o = s.ended n seq x (some o) := by
  have released : (s.withRecord n x (s.img.set q.slot (some image))).releaseSlot q.slot = s.withRecord n x s.img := by
    have restored : s.img.set q.slot none = s.img := by
      obtain ⟨_, at_slot⟩ := List.getElem?_eq_some_iff.mp free
      rw [← at_slot, List.set_getElem_self]
    simp only [State.releaseSlot, State.withRecord, List.set_set, restored]
  rw [State.giveUp, released, seq_q, withRecord_toReporting only used seq_x]
  rfl

end dispose

/-! ## A closed hide handed on (R53, R108) -/

/-- The stamp that a hide with its image brings to a trial (R109, R110). -/
def State.stampOf (s : State) (seq columns slot : Nat) (anchor : Sample) (l : LaneRec) : StampRequest :=
  { seq := seq, columns := columns, pitch := s.cmd.active.markp.columnPitch, slot := slot, anchorP := anchor.p
    anchorC := anchor.c, lane := { pri := l.headPri, alt := l.headAlt } }

/-- A closed hide as the composer marks it up: valued, its ring reduced to its anchor (R79, R92). -/
def State.anchoredHide (s : State) (r : HideRec) : HideRec := (r.valued s.cmd.active.calib).anchored s.cmd.active.markp

theorem handOn_composed {s : State} {n : Nat} {r x : HideRec} {img : List (Option HeldImage)} {c : Composed}
    (at_n : s.trk.records[n]? = some r) (composed : s.compose (r.valued s.cmd.active.calib) = (x, img, c)) :
    s.handOn n = (s.withRecord n x img).disposeHide x c := by
  simp only [State.handOn, List.getD_eq_getElem?_getD, at_n, Option.getD_some, composed]
  rfl

theorem requestFor_eq {s : State} {i : Nat} {l : LaneRec} (at_i : s.cmd.active.lanes[i]? = some l) (x : HideRec)
    (slot columns : Nat) :
    s.requestFor x i slot columns = (l.headPri :: l.headAlt.toList, s.stampOf x.seq columns slot x.anchorSample l) := by
  simp only [State.requestFor, List.getD_eq_getElem?_getD, at_i, Option.getD_some]
  rfl

section handOn
variable {s : State} {n : Nat} {r : HideRec} (at_n : s.trk.records[n]? = some r) (used : r.state ≠ .free)
  (only : ∀ m x, s.trk.records[m]? = some x → x.state ≠ .free → x.seq = r.seq → m = n)
include at_n used only

/-- A hide that the composer hands on without an image ends with its outcome (R108). -/
theorem handOn_ended {x : HideRec} {c : Composed} {o : Option MarkOutcome}
    (composed : s.compose (r.valued s.cmd.active.calib) = (x, s.img, c))
    (kept : x.state = r.state ∧ x.seq = r.seq)
    (ends : ∀ t : State, t.disposeHide x c = t.toReporting x.seq o) : s.handOn n = s.ended n r.seq x o := by
  obtain ⟨state_x, seq_x⟩ := kept
  rw [handOn_composed at_n composed, ends, seq_x, withRecord_toReporting only (state_x ▸ used) seq_x]
  rfl

theorem handOn_unmarked (unmarked : (r.valued s.cmd.active.calib).Unmarked s.cmd.active.markp) :
    s.handOn n = s.ended n r.seq (s.anchoredHide r) none :=
  handOn_ended at_n used only (compose_unmarked unmarked) ⟨valued_state _ r, valued_seq _ r⟩ fun _ => rfl

variable (marked : ¬ (r.valued s.cmd.active.calib).Unmarked s.cmd.active.markp)
include marked

theorem handOn_noLane (none_holds : ∀ l ∈ s.cmd.active.lanes, ¬ l.Holds (s.anchoredHide r).anchorSample.c) :
    s.handOn n = s.ended n r.seq (s.anchoredHide r) (some .missedNoLane) :=
  handOn_ended at_n used only (compose_noLane marked (laneOf_none none_holds)) ⟨valued_state _ r, valued_seq _ r⟩ fun _ => rfl

variable {i : Nat} {l : LaneRec} (at_i : s.cmd.active.lanes[i]? = some l)
  (lane : laneOf s.cmd.active.lanes (s.anchoredHide r).anchorSample.c = some i)
include at_i lane

theorem handOn_noImage (held : ∀ x ∈ s.img, x ≠ none) :
    s.handOn n = s.ended n r.seq ((s.anchoredHide r).onLane i l.lotSlot) (some .missedNoImage) :=
  handOn_ended at_n used only (compose_noImage marked at_i lane (freeSlot_none held)) ⟨valued_state _ r, valued_seq _ r⟩
    fun _ => rfl

variable {slot : Nat} (free : s.img[slot]? = some none) (first : ∀ j, j < slot → s.img[j]? ≠ some none)
include free first

/-- A hide with its image is tried on HEAD_PRI, then on HEAD_ALT; with each failed it has missed (R108, R113, R114). -/
theorem handOn_planned :
    let b := (s.anchoredHide r).onLane i l.lotSlot
    let d := s.imageOf b l.lotSlot
    let x := b.setFlagIf d.cut .markTrunc
    let q := s.stampOf r.seq d.columns.length slot (s.anchoredHide r).anchorSample l
    let trial := fun h => trialOn (s.headEntry h) (s.head h) s.pos.hwm s.cmd.active.markp.shiftWindow q
    (∀ p, trial l.headPri = .accepted p → s.handOn n = s.reserved n x d.columns q l.headPri p)
      ∧ ∀ f, trial l.headPri = .failed f →
        (l.headAlt = none → s.handOn n = s.ended n r.seq x (some (outcomeOf [f])))
          ∧ ∀ alt, l.headAlt = some alt →
            (∀ p, trial alt = .accepted p → s.handOn n = s.reserved n x d.columns q alt p)
              ∧ ∀ f', trial alt = .failed f' → s.handOn n = s.ended n r.seq x (some (outcomeOf [f, f'])) := by
  intro b d x q trial
  have state_x : x.state ≠ .free := by
    simp only [x, setFlagIf_eq]
    exact valued_state _ r ▸ used
  have seq_x : x.seq = r.seq := by
    simp only [x, setFlagIf_eq]
    exact valued_seq _ r
  let img := s.img.set slot (some { holder := .hide r.seq, columns := d.columns })
  let t := s.withRecord n x img
  have composed : s.compose (r.valued s.cmd.active.calib) = (x, img, .image i slot d.columns.length) :=
    (compose_image marked at_i lane (freeSlot_some free first)).trans (by rw [valued_seq]; rfl)
  have anchor_x : x.anchorSample = (s.anchoredHide r).anchorSample := by
    simp only [x, setFlagIf_eq]
    rfl
  have request : t.requestFor x i slot d.columns.length = (l.headPri :: l.headAlt.toList, q) := by
    rw [requestFor_eq (s := t) at_i, seq_x, anchor_x]
    rfl
  have planned : s.handOn n = t.planOn (l.headPri :: l.headAlt.toList) q := by
    rw [handOn_composed at_n composed, State.disposeHide, request]
  have taken : ∀ h p, t.accept h q p = s.reserved n x d.columns q h p :=
    withRecord_accept only state_x seq_x (q := q) rfl d.columns
  have missed : ∀ o, t.giveUp q o = s.ended n r.seq x (some o) :=
    withRecord_giveUp only state_x seq_x (q := q) rfl free _
  rw [planned]
  refine ⟨fun p accepted => ?_, fun f failed => ⟨fun alone => ?_, fun alt listed => ⟨fun p accepted => ?_, fun f' failed' => ?_⟩⟩⟩
  · exact (planOn_ok (tryHeads_accepted (s := t) accepted _)).trans (taken _ p)
  · rw [alone]
    exact (planOn_error (tryHeads_failed_error (s := t) failed rfl)).trans (missed _)
  · rw [listed]
    exact (planOn_ok (tryHeads_failed_ok (s := t) failed (tryHeads_accepted (s := t) accepted _))).trans (taken alt p)
  · rw [listed]
    exact (planOn_error (tryHeads_failed_error (s := t) failed (tryHeads_failed_error (s := t) failed' rfl))).trans (missed _)

end handOn

/-! ## The statement -/

/-- Settles O17: a line taken through its stages by `takeOldest_eq`, the closing hides in turn by `handLine_within`, and a hide
handed on by the composer's and the scheduler's cases. -/
theorem lineHandedOver : Obligations.LineHandedOver := by
  refine ⟨fun s slot rest hp enabled slots ready boundary apply drain => ?line, fun s left hp within => ?next,
    fun s n r at_n used only => ?hide⟩
  case line =>
    have due : s.lineStepDue = true :=
      lineStepDue_atBoundary boundary (by simp [State.handoverReady, enabled, Assembler.frontReady, slots, ready]) apply drain
    have taken := takeOldest_eq slots
    have records : s.takeOldest.trk.records = s.measured (formLine slot) (s.area.base.advance slot.s).toNat := by rw [taken]
    refine ⟨?_, ?_, ?_, fun n r at_n => ?_⟩
    · exact (exec_lineHandover hp due).trans (congrArg _ (handLine_atBoundary boundary slots))
    · rw [records]
      exact taken
    · rw [records]
      exact measured_length _ _ _
    · rw [records]
      exact measured_getElem? at_n
  case next =>
    exact (exec_lineHandover hp (lineStepDue_within within)).trans (congrArg _ (handLine_within within))
  case hide =>
    refine ⟨handOn_unmarked at_n used only, handOn_noLane at_n used only, fun i l marked at_i holds first => ?_⟩
    have lane := laneOf_some at_i holds first
    refine ⟨handOn_noImage at_n used only marked at_i lane, fun slot free lowest => ?_⟩
    obtain ⟨primary, failing⟩ := handOn_planned at_n used only marked at_i lane free lowest
    simp only [setFlagIf_eq] at primary failing
    refine ⟨primary, fun f failed => ⟨fun alone => ((failing f failed).1 alone).trans (by cases f <;> rfl), fun alt listed => ?_⟩⟩
    obtain ⟨alternate, both⟩ := (failing f failed).2 alt listed
    exact ⟨alternate, fun f' failed' => outcomeOf_two f f' ▸ both f' failed'⟩

end Sys2Proof.Machine
end

section
/-! PROOFS. The line assembler: the timeout (O16), and a segment judged against the window that the strobes before it leave (O15). -/

namespace Sys2Proof.Machine

/-! ## The timeout (R27) -/

/-- The overdue lines closed, written out (R27). -/
theorem closeOverdue_eq (s : State) : s.closeOverdue = { s with asm := { s.asm with slots := s.asm.slots.map fun slot =>
    if slot.ready = false ∧ s.asm.depth ≤ (s.strobe.nextLine - 1 - slot.number).toNat then
      { slot with ready := true, gapped := true
                  entries := slot.entries.map fun a => if a = .notArrived then .unusable else a }
    else slot } } := by
  simp only [State.closeOverdue, LineSlot.overdue, Bool.and_eq_true, Bool.not_eq_true', decide_eq_true_iff]
  rfl

/-- Settles O16: the step is due, and its effect is `closeOverdue_eq`. -/
theorem lineTimedOut : Obligations.LineTimedOut := by
  intro s hp due
  exact (stepWhen_due hp due).trans (congrArg _ (closeOverdue_eq s))

/-- No line is overdue once the overdue ones are closed (R27). -/
theorem closeOverdue_timeoutDue (s : State) : s.closeOverdue.timeoutDue = false := by
  refine List.any_eq_false.mpr fun slot h => ?_
  obtain ⟨slot, -, rfl⟩ := List.mem_map.mp h
  split
  · simp [LineSlot.overdue, LineSlot.close]
  · assumption

/-! ## What a hand-over leaves as it is (R26, R53) -/

section fields
variable (s : State)

@[simp] theorem handLine_powered : s.handLine.powered = s.powered := by
  rw [State.handLine, State.arbitrate_powered, (lineStep_step s).frame]

@[simp] theorem handLine_addr : s.handLine.ring.addr = s.ring.addr := by
  rw [State.handLine, State.arbitrate_ring_addr, (lineStep_step s).frame]

@[simp] theorem handLine_strobe : s.handLine.strobe = s.strobe := by
  rw [State.handLine, State.arbitrate_strobe, (lineStep_step s).frame]

@[simp] theorem handLine_cmd : s.handLine.cmd = s.cmd := by
  rw [State.handLine, State.arbitrate_cmd, (lineStep_step s).frame]

end fields

/-! ## The steps of a hand-over (R53; log 14) -/

/-- The closing hides left after the first of them is handed on; none at the line boundary. -/
def leftAfter : List Nat → Option (List Nat)
  | _ :: m :: more => some (m :: more)
  | _ => none

theorem handedOn_left (left : List Nat) (v : State) :
    (v.handedOn left).trk.handing = leftAfter left ∧ (v.handedOn left).asm = v.asm := by
  rcases left with _ | ⟨n, _ | ⟨m, more⟩⟩
  · exact ⟨rfl, rfl⟩
  · exact ⟨rfl, (handOn_step v n).asm⟩
  · exact ⟨rfl, (handOn_step v n).asm⟩

theorem handLine_left {s : State} {left : List Nat} (h : s.trk.handing = some left) :
    s.handLine.trk.handing = leftAfter left ∧ s.handLine.asm = s.asm := by
  rw [handLine_within h, State.arbitrate_trk, State.arbitrate_asm]
  exact handedOn_left left s

/-- A line taken at the boundary is gone from its slot, and what closes on it but the first is left to be handed on (R26, R53). -/
theorem handLine_takes {s : State} {slot : LineSlot} {rest : List LineSlot} (h : s.trk.handing = none)
    (slots : s.asm.slots = slot :: rest) :
    s.handLine.trk.handing = leftAfter (s.segmentation (formLine slot)).closing ∧ s.handLine.asm.slots = rest
      ∧ s.handLine.asm.depth = s.asm.depth := by
  obtain ⟨handing, asm⟩ := handedOn_left (s.segmentation (formLine slot)).closing s.takeOldest
  rw [handLine_atBoundary h slots, State.arbitrate_trk, State.arbitrate_asm, handing, asm, takeOldest_eq slots]
  exact ⟨rfl, rfl, rfl⟩

/-- The hides left to be handed on are used up one by one, and the line assembler stays as it is (R53). -/
theorem repeat_handLine {t : State} {m : Nat} {more : List Nat} (h : t.trk.handing = some (m :: more)) {j : Nat}
    (hj : j ≤ more.length) :
    (j.repeat State.handLine t).trk.handing = some ((m :: more).drop j) ∧ (j.repeat State.handLine t).asm = t.asm := by
  induction j with
  | zero => exact ⟨h, rfl⟩
  | succ j ih =>
    obtain ⟨handing, asm⟩ := ih (by omega)
    obtain ⟨handing', asm'⟩ := handLine_left handing
    refine ⟨handing'.trans ?_, asm'.trans asm⟩
    have two : 2 ≤ ((m :: more).drop j).length := by
      rw [List.length_drop, List.length_cons]
      omega
    rw [← List.drop_drop (i := 1) (j := j)]
    match hd : (m :: more).drop j, two with
    | _ :: _ :: _, _ => rfl

/-- With the last of the hides left the line boundary is reached (R53). -/
theorem repeat_handLine_last {t : State} {m : Nat} {more : List Nat} (h : t.trk.handing = some (m :: more)) :
    (Nat.repeat State.handLine (more.length + 1) t).trk.handing = none
      ∧ (Nat.repeat State.handLine (more.length + 1) t).asm = t.asm := by
  obtain ⟨left, asm⟩ := repeat_handLine h le_rfl
  obtain ⟨handing, asm'⟩ := handLine_left left
  refine ⟨handing.trans ?_, asm'.trans asm⟩
  obtain ⟨x, last⟩ : ∃ x, (m :: more).drop more.length = [x] := List.length_eq_one_iff.mp (by simp)
  rw [last]
  rfl

theorem leftAfter_cases (left : List Nat) : leftAfter left = none ∨ ∃ m more, leftAfter left = some (m :: more) := by
  rcases left with _ | ⟨n, _ | ⟨m, more⟩⟩
  exacts [.inl rfl, .inl rfl, .inr ⟨m, more, rfl⟩]

theorem handOver_one {s : State} (h : s.handLine.trk.handing = none) : s.handOver = s.handLine := by
  rw [State.handOver]
  simp only [h]

theorem handOver_more {s : State} {left : List Nat} (h : s.handLine.trk.handing = some left) :
    s.handOver = left.length.repeat State.handLine s.handLine := by
  rw [State.handOver]
  simp only [h]

/-- What each step of a hand-over leaves as it is, the whole hand-over does. -/
theorem handOver_keeps {α : Type} (part : State → α) (kept : ∀ s : State, part s.handLine = part s) (s : State) :
    part s.handOver = part s := by
  have repeated : ∀ n : Nat, part (n.repeat State.handLine s.handLine) = part s := fun n => by
    induction n with
    | zero => exact kept s
    | succ n ih => exact (kept _).trans ih
  cases h : s.handLine.trk.handing with
  | none => rw [handOver_one h, kept]
  | some left => rw [handOver_more h, repeated]

/-- A whole hand-over frees the oldest line's slot (R26). -/
theorem handOver_slots {s : State} {slot : LineSlot} {rest : List LineSlot} (h : s.trk.handing = none)
    (slots : s.asm.slots = slot :: rest) : s.handOver.asm.slots = rest ∧ s.handOver.asm.depth = s.asm.depth := by
  obtain ⟨handing, taken⟩ := handLine_takes h slots
  rcases leftAfter_cases (s.segmentation (formLine slot)).closing with one | ⟨m, more, several⟩
  · rwa [handOver_one (handing.trans one)]
  · rw [handOver_more (handing.trans several), List.length_cons, (repeat_handLine_last (handing.trans several)).2]
    exact taken

/-! ## What is still due before a segment comes to an end (R22, R27; log 42) -/

/-- A bound on the things that are still to be taken before a segment: each line's hand-over, and a timeout, an apply and the end
of the drain's first stage once each. -/
def State.settleBound (s : State) : Nat :=
  s.asm.slots.length + s.timeoutDue.toNat + s.cmd.pendingApply.isSome.toNat + s.strobe.enable.toNat

theorem settleBound_le (s : State) : s.settleBound ≤ s.asm.slots.length + 3 := by
  have timeout := s.timeoutDue.toNat_le
  have apply := s.cmd.pendingApply.isSome.toNat_le
  have enable := s.strobe.enable.toNat_le
  unfold State.settleBound
  omega

theorem pendingApply_of_applyDue {s : State} (h : s.applyDue = true) : ∃ p, s.cmd.pendingApply = some p := by
  unfold State.applyDue at h
  split at h
  · cases h
  · exact ⟨_, ‹_›⟩

theorem slots_of_handoverReady {s : State} (h : s.handoverReady = true) : ∃ slot rest, s.asm.slots = slot :: rest := by
  unfold State.handoverReady Assembler.frontReady at h
  split at h
  · simp at h
  · exact ⟨_, _, ‹_›⟩

theorem atBoundary_iff {s : State} : s.atBoundary = true ↔ s.trk.handing = none := Option.isNone_iff_eq_none

/-- What an apply that is due leaves of what a segment meets (R177). -/
theorem takePendingApply_frame {s : State} (h : s.applyDue = true) :
    s.takePendingApply.powered = s.powered ∧ s.takePendingApply.ring.addr = s.ring.addr
      ∧ s.takePendingApply.asm = s.asm ∧ s.takePendingApply.strobe.nextLine = s.strobe.nextLine
      ∧ s.takePendingApply.strobe.enable = s.strobe.enable ∧ s.takePendingApply.cmd.pendingApply = none := by
  obtain ⟨p, pending⟩ := pendingApply_of_applyDue h
  rw [State.takePendingApply, pending]
  simp only
  rw [takeApply_frame]
  exact ⟨rfl, rfl, rfl, rfl, rfl, rfl⟩

theorem timeoutDue_congr {s t : State} (slots : t.asm.slots ⊆ s.asm.slots) (depth : t.asm.depth = s.asm.depth)
    (line : t.strobe.nextLine = s.strobe.nextLine) (h : s.timeoutDue = false) : t.timeoutDue = false := by
  unfold State.timeoutDue at h ⊢
  rw [depth, line]
  exact List.any_eq_false.mpr fun slot hs => List.any_eq_false.mp h slot (slots hs)

theorem settleNext_lowers {s t : State} (h : s.settleNext = some t) : t.settleBound < s.settleBound := by
  obtain ⟨enabled, ⟨late, rfl⟩ | ⟨inTime, boundary, ⟨apply, rfl⟩ | ⟨-, -, rfl⟩ | ⟨-, -, ready, rfl⟩⟩⟩ :=
    settleNext_cases h
  · have slots : s.closeOverdue.asm.slots.length = s.asm.slots.length := List.length_map _
    simp only [State.settleBound, slots, closeOverdue_timeoutDue, late, State.closeOverdue_strobe, State.closeOverdue_cmd,
      Bool.toNat_true, Bool.toNat_false]
    omega
  · obtain ⟨-, -, asm, line, enable, applied⟩ := takePendingApply_frame apply
    obtain ⟨p, pending⟩ := pendingApply_of_applyDue apply
    have inTime' : s.takePendingApply.arbitrate.timeoutDue = false :=
      timeoutDue_congr (s := s) (by simp [asm]) (by simp [asm]) (by simp [line]) inTime
    simp [State.settleBound, inTime, inTime', asm, enable, applied, pending]
  · have inTime' : s.endFirstStage.timeoutDue = false := rfl
    have slots : s.endFirstStage.asm.slots.length = 0 := rfl
    have disabled : s.endFirstStage.strobe.enable = false := rfl
    have pending : s.endFirstStage.cmd = s.cmd := rfl
    simp only [State.settleBound, inTime', slots, disabled, pending, enabled, Bool.toNat_true, Bool.toNat_false]
    omega
  · obtain ⟨slot, rest, slots⟩ := slots_of_handoverReady ready
    obtain ⟨slots', depth⟩ := handOver_slots (atBoundary_iff.mp boundary) slots
    have strobe : s.handOver.strobe = s.strobe := handOver_keeps State.strobe handLine_strobe s
    have cmd : s.handOver.cmd = s.cmd := handOver_keeps State.cmd handLine_cmd s
    have inTime' : s.handOver.timeoutDue = false :=
      timeoutDue_congr (by simp [slots, slots']) depth (by rw [strobe]) inTime
    simp [State.settleBound, inTime, inTime', slots, slots', strobe, cmd]

theorem settleWithin_none {s : State} (h : s.settleNext = none) (n : Nat) : s.settleWithin n = s := by
  cases n with
  | zero => rfl
  | succ n => rw [State.settleWithin, h]

theorem settleWithin_some {s t : State} (h : s.settleNext = some t) (n : Nat) : s.settleWithin (n + 1) = t.settleWithin n := by
  rw [State.settleWithin, h]

/-- Steps enough are as good as any more (log 42). -/
theorem settleWithin_enough {s : State} {n m : Nat} (hn : s.settleBound ≤ n) (hm : s.settleBound ≤ m) :
    s.settleWithin n = s.settleWithin m := by
  induction hb : s.settleBound using Nat.strong_induction_on generalizing s n m with
  | h b ih =>
    cases h : s.settleNext with
    | none => rw [settleWithin_none h, settleWithin_none h]
    | some t =>
      have lower := settleNext_lowers h
      obtain ⟨n, rfl⟩ : ∃ k, n = k + 1 := ⟨n - 1, by omega⟩
      obtain ⟨m, rfl⟩ : ∃ k, m = k + 1 := ⟨m - 1, by omega⟩
      rw [settleWithin_some h, settleWithin_some h]
      exact ih _ (hb ▸ lower) (by omega) (by omega) rfl

/-- A segment finds what it would find after the next thing that is due before it (log 42). -/
theorem settle_next {s t : State} (h : s.settleNext = some t) : s.settle = t.settle := by
  have lower := settleNext_lowers h
  have enough := settleBound_le s
  rw [State.settle, State.settle, settleWithin_some h]
  exact settleWithin_enough (by omega) (settleBound_le t)

theorem settleNext_receiver {s t : State} (h : s.settleNext = some t) : t.powered = s.powered ∧ t.ring.addr = s.ring.addr := by
  obtain ⟨-, ⟨-, rfl⟩ | ⟨-, -, ⟨apply, rfl⟩ | ⟨-, -, rfl⟩ | ⟨-, -, -, rfl⟩⟩⟩ := settleNext_cases h
  · exact ⟨rfl, rfl⟩
  · obtain ⟨powered, addr, -⟩ := takePendingApply_frame apply
    simp [powered, addr]
  · exact ⟨rfl, rfl⟩
  · exact ⟨handOver_keeps State.powered handLine_powered s, handOver_keeps (fun s => s.ring.addr) handLine_addr s⟩

/-! ## A segment judged against the window (R23 to R25) -/

/-- A segment of an expected head passes the first test (R23). -/
theorem judge_expected {g : Segment} {slot : LineSlot} (head : g.head ≤ 7) (expected : slot.expected.getLsbD g.head = true) :
    ¬ (decide (7 < g.head) || !slot.expects g.head) = true := by
  simp [LineSlot.expects, head, expected]

section judge
variable {a : Assembler} {n : LineNo} {g : Segment} {d : Nat} (hd : (g.line - a.l0 n).toNat = d)
include hd

theorem judge_notYet (above : a.slots.length ≤ d) (ahead : d < 32768) :
    a.judge n g = { a with stray := min 65535 (a.stray + 1) } := by
  have placed : placeLine g.line (a.l0 n) a.slots.length = .notYet := by
    simp only [placeLine, hd, if_neg (not_lt.mpr above), if_pos ahead]
  rw [Assembler.judge, placed]
  rfl

theorem judge_late (above : a.slots.length ≤ d) (behind : 32768 ≤ d) :
    a.judge n g = { a with lateSeg := min 65535 (a.lateSeg + 1) } := by
  have placed : placeLine g.line (a.l0 n) a.slots.length = .late := by
    simp only [placeLine, hd, if_neg (not_lt.mpr above), if_neg (not_lt.mpr behind)]
  rw [Assembler.judge, placed]
  rfl

variable {slot : LineSlot} (at_d : a.slots[d]? = some slot)
include at_d

theorem placeLine_inWindow : placeLine g.line (a.l0 n) a.slots.length = .inWindow d := by
  obtain ⟨within, -⟩ := List.getElem?_eq_some_iff.mp at_d
  simp only [placeLine, hd, if_pos within]

theorem judge_unexpected (stray : 7 < g.head ∨ slot.expected.getLsbD g.head = false) :
    a.judge n g = { a with stray := min 65535 (a.stray + 1) } := by
  have test : (decide (7 < g.head) || !slot.expects g.head) = true := by simpa [LineSlot.expects] using stray
  simp only [Assembler.judge, placeLine_inWindow hd at_d, at_d, if_pos test]
  rfl

variable (head : g.head ≤ 7) (expected : slot.expected.getLsbD g.head = true)
include head expected

theorem judge_repeated (there : slot.entry g.head ≠ .notArrived) :
    a.judge n g = { a with dupSeg := min 65535 (a.dupSeg + 1) } := by
  simp only [Assembler.judge, placeLine_inWindow hd at_d, at_d, if_neg (judge_expected head expected), if_pos there]
  rfl

theorem judge_awaited (missing : slot.entry g.head = .notArrived) : a.judge n g = { a with
    slots := a.slots.set d (slot.arrive g.head g.arrival)
    malformed := if g.wellFormed then a.malformed else min 65535 (a.malformed + 1) } := by
  simp only [Assembler.judge, placeLine_inWindow hd at_d, at_d, if_neg (judge_expected head expected),
    if_neg (not_not.mpr missing)]
  rfl

end judge

/-- What a segment leaves in its head's entry (R24, R25). -/
theorem arrival_eq (g : Segment) :
    g.arrival = if g.wellFormed = false ∨ g.fault = true then .unusable else .usable g.runs g.clamped := by
  simp [Segment.arrival]

theorem judgeSegment_disabled {s : State} (h : s.strobe.enable = false) (f : Frame) : s.judgeSegment f = s := by
  rw [State.judgeSegment, h]
  rfl

theorem judgeSegment_short {s : State} {f : Frame} (h : s.strobe.enable = true) (short : readSegment f.payload = none) :
    s.judgeSegment f = { s with asm := { s.asm with malformed := min 65535 (s.asm.malformed + 1) } } := by
  simp only [State.judgeSegment, h, short]
  rfl

theorem judgeSegment_read {s : State} {f : Frame} {g : Segment} (h : s.strobe.enable = true)
    (read : readSegment f.payload = some g) : s.judgeSegment f = { s with asm := s.asm.judge s.strobe.nextLine g } := by
  simp only [State.judgeSegment, h, read]
  rfl

/-! ## A segment addressed to the part (R22, R23; log 42) -/

theorem takenFrame_congr {s t : State} (h : t.ring.addr = s.ring.addr) (kind : Nat) (bytes : List Byte) :
    t.takenFrame kind bytes = s.takenFrame kind bytes := by
  rw [State.takenFrame, State.takenFrame, State.arrived, State.arrived, h]

section segment
variable {s t : State} {bytes : List Byte} {f : Frame} (hp : s.powered = true)
  (taken : s.takenFrame kindSeg bytes = some f) (own : f.dst ≠ Config.broadcast)
include hp taken own

theorem exec_seg : exec (.seg bytes) s = .next (s.settle.judgeSegment f) := by
  change execSeg bytes s = _
  rw [execSeg, taken, onFrame_some hp, receive_own own, State.takeSegment]

/-- A segment is taken as if what is due next before it had been taken before it (log 42). -/
theorem exec_seg_next (h : s.settleNext = some t) : exec (.seg bytes) s = exec (.seg bytes) t := by
  obtain ⟨powered, addr⟩ := settleNext_receiver h
  rw [exec_seg hp taken own, exec_seg (powered.trans hp) ((takenFrame_congr addr _ _).trans taken) own, settle_next h]

theorem exec_seg_settled (h : s.settleNext = none) : exec (.seg bytes) s = .next (s.judgeSegment f) := by
  rw [exec_seg hp taken own, settle_none h]

end segment

/-! ## What is due before a segment (R22, R27, R143, R176; log 42) -/

/-- With the strobe enable clear, a settled assembler, or a line being handed over and none overdue, nothing is (log 42). -/
theorem settleNext_settled {s : State}
    (h : s.strobe.enable = false ∨ s.assemblerSettled = true ∨ (s.trk.handing ≠ none ∧ s.timeoutDue = false)) :
    s.settleNext = none := by
  refine Option.eq_none_iff_forall_ne_some.mpr fun t next => ?_
  obtain ⟨enabled, due⟩ := settleNext_cases next
  rcases h with disabled | settled | ⟨within, inTime⟩
  · exact Bool.false_ne_true (disabled.symm.trans enabled)
  · simp only [State.assemblerSettled, Bool.and_eq_true, Bool.not_eq_true'] at settled
    obtain ⟨⟨⟨⟨-, inTime⟩, waits⟩, apply⟩, drain⟩ := settled
    simp [inTime, waits, apply, drain] at due
  · obtain ⟨late, -⟩ | ⟨-, boundary, -⟩ := due
    · exact Bool.false_ne_true (inTime.symm.trans late)
    · exact within (atBoundary_iff.mp boundary)

theorem settleNext_timeout {s : State} (enabled : s.strobe.enable = true) (late : s.timeoutDue = true) :
    s.settleNext = some s.closeOverdue := by
  simp [State.settleNext, enabled, late]

section boundary
variable {s : State} (enabled : s.strobe.enable = true) (inTime : s.timeoutDue = false) (boundary : s.trk.handing = none)
include enabled inTime boundary

theorem settleNext_apply (apply : s.applyDue = true) : s.settleNext = some s.takePendingApply.arbitrate := by
  simp [State.settleNext, enabled, inTime, atBoundary_of_none boundary, apply]

theorem settleNext_drain (apply : s.applyDue = false) (drain : s.drainFirstDue = true) :
    s.settleNext = some s.endFirstStage := by
  simp [State.settleNext, enabled, inTime, atBoundary_of_none boundary, apply, drain]

theorem settleNext_handOver (apply : s.applyDue = false) (drain : s.drainFirstDue = false) (ready : s.handoverReady = true) :
    s.settleNext = some s.handOver := by
  simp [State.settleNext, enabled, inTime, atBoundary_of_none boundary, apply, drain, ready]

end boundary

/-- The state that a step which is due answers is its effect. -/
theorem stepWhen_effect {s t effect : State} {due : Bool} (hp : s.powered = true) (hd : due = true)
    (h : stepWhen s due effect = .next t) : t = effect :=
  (Host.Outcome.next.inj ((stepWhen_due hp hd).symm.trans h)).symm

/-- The hand-over steps up to the line boundary, taken one by one, are the whole hand-over (R26, R53; log 14). -/
theorem run_eq_handOver {s : State} {n : Nat} {run : Nat → State} (hp : s.powered = true) (boundary : s.trk.handing = none)
    (ready : s.handoverReady = true) (apply : s.applyDue = false) (drain : s.drainFirstDue = false)
    (start : run 0 = s) (steps : ∀ k, k ≤ n → exec .lineHandover (run k) = .next (run (k + 1)))
    (within : ∀ k, 0 < k → k ≤ n → (run k).trk.handing ≠ none) (stop : (run (n + 1)).trk.handing = none) :
    run (n + 1) = s.handOver := by
  have chain : ∀ k, k ≤ n → run (k + 1) = Nat.repeat State.handLine k s.handLine ∧ (run (k + 1)).powered = true := by
    intro k hk
    induction k with
    | zero =>
      have first : run 1 = s.handLine := stepWhen_effect hp (lineStepDue_atBoundary boundary ready apply drain) (start ▸ steps 0 hk)
      exact ⟨first, by rw [first, handLine_powered, hp]⟩
    | succ k ih =>
      obtain ⟨reached, powered⟩ := ih (by omega)
      obtain ⟨left, handing⟩ := Option.ne_none_iff_exists'.mp (within (k + 1) (by omega) hk)
      have next := stepWhen_effect powered (lineStepDue_within handing) (steps (k + 1) hk)
      exact ⟨next.trans (congrArg State.handLine reached), by rw [next, handLine_powered, powered]⟩
  have first := (chain 0 (Nat.zero_le n)).1
  obtain ⟨slot, rest, slots⟩ := slots_of_handoverReady ready
  have left := (handLine_takes boundary slots).1
  rcases leftAfter_cases (s.segmentation (formLine slot)).closing with one | ⟨m, more, several⟩
  · have one_step : n = 0 := by
      by_contra more_steps
      exact within 1 one_pos (by omega) (first ▸ left.trans one)
    rw [one_step, handOver_one (left.trans one)]
    exact first
  · have handing := left.trans several
    have all_steps : n = more.length + 1 := by
      rcases lt_trichotomy n (more.length + 1) with early | exact_steps | beyond
      · have open_left := (repeat_handLine handing (Nat.le_of_lt_succ early)).1
        rw [← (chain n le_rfl).1, stop] at open_left
        cases open_left
      · exact exact_steps
      · have closed := (repeat_handLine_last handing).1
        rw [← (chain (more.length + 1) beyond.le).1] at closed
        exact absurd closed (within _ (by omega) (by omega))
    rw [handOver_more handing, List.length_cons, ← all_steps]
    exact (chain n le_rfl).1

/-! ## The statement -/

/-- Settles O15: a segment that nothing is due before is judged by the cases of `Assembler.judge`; what is due next is taken before
it, by `exec_seg_next`. -/
theorem segmentPlaced : Obligations.SegmentPlaced := by
  refine ⟨fun s bytes f hp taken own quiet => ?settled, fun s t bytes f hp taken own => ?due⟩
  case settled =>
    have exec_eq := exec_seg_settled hp taken own (settleNext_settled quiet)
    refine ⟨fun disabled => ?_, fun enabled short => ?_, fun g enabled read => ?_⟩
    · rw [exec_eq, judgeSegment_disabled disabled]
    · rw [exec_eq, judgeSegment_short enabled short]
    · rw [judgeSegment_read enabled read] at exec_eq
      refine ⟨fun above ahead => ?_, fun above behind => ?_, fun slot at_d => ⟨fun stray => ?_, fun head expected there => ?_,
        fun head expected missing => ?_⟩⟩
      · exact exec_eq.trans (by rw [judge_notYet rfl above ahead])
      · exact exec_eq.trans (by rw [judge_late rfl above behind])
      · exact exec_eq.trans (by rw [judge_unexpected rfl at_d stray])
      · exact exec_eq.trans (by rw [judge_repeated rfl at_d head expected there])
      · exact exec_eq.trans (by rw [judge_awaited rfl at_d head expected missing, arrival_eq]; rfl)
  case due =>
    refine ⟨fun enabled late timeout => ?_, fun enabled inTime boundary => ⟨fun apply applied => ?_, fun apply drain ended => ?_,
      fun apply drain ready n run start steps within stop => ?_⟩⟩
    · obtain rfl := stepWhen_effect hp late timeout
      exact exec_seg_next hp taken own (settleNext_timeout enabled late)
    · obtain rfl := stepWhen_effect hp apply applied
      exact exec_seg_next hp taken own (settleNext_apply enabled inTime boundary apply)
    · obtain rfl := stepWhen_effect hp drain ended
      have disabled : s.endFirstStage.strobe.enable = false := rfl
      rw [exec_seg hp taken own, settle_next (settleNext_drain enabled inTime boundary apply drain), settle_disabled disabled,
        judgeSegment_disabled disabled]
    · rw [run_eq_handOver hp boundary ready apply drain start steps within stop]
      exact exec_seg_next hp taken own (settleNext_handOver enabled inTime boundary apply drain ready)

end Sys2Proof.Machine
end

section
/-! PROOFS. The gathering into groups (O20), as the segmentation of a line and the gap tracker use it. -/

namespace Sys2Proof.Machine

/-! ## Members that share a key (R43, R63) -/

section gathering

variable {κ : Type} {kss : List (List κ)} {ks : List κ} {i j : Nat} {k : κ}

theorem shareKey_comm (h : ShareKey kss i j) : ShareKey kss j i := by
  obtain ⟨ki, kj, k, at_i, at_j, in_i, in_j⟩ := h
  exact ⟨kj, ki, k, at_j, at_i, in_j, in_i⟩

theorem linked_comm (h : Relation.ReflTransGen (ShareKey kss) i j) : Relation.ReflTransGen (ShareKey kss) j i := by
  induction h with
  | refl => exact .refl
  | tail _ share ih => exact .head (shareKey_comm share) ih

theorem ShareKey.append (h : ShareKey kss i j) : ShareKey (kss ++ [ks]) i j := by
  obtain ⟨ki, kj, k, at_i, at_j, in_i, in_j⟩ := h
  exact ⟨ki, kj, k, List.getElem?_append_left (List.getElem?_eq_some_iff.mp at_i).1 ▸ at_i,
    List.getElem?_append_left (List.getElem?_eq_some_iff.mp at_j).1 ▸ at_j, in_i, in_j⟩

theorem linked_append (h : Relation.ReflTransGen (ShareKey kss) i j) : Relation.ReflTransGen (ShareKey (kss ++ [ks])) i j :=
  Relation.ReflTransGen.mono (fun _ _ => ShareKey.append) _ _ h

/-- A key that member `i` of a list has. -/
def HasKey (kss : List (List κ)) (i : Nat) (k : κ) : Prop := ∃ ks, kss[i]? = some ks ∧ k ∈ ks

theorem shareKey_iff : ShareKey kss i j ↔ ∃ k, HasKey kss i k ∧ HasKey kss j k :=
  ⟨fun ⟨_, _, k, at_i, at_j, in_i, in_j⟩ => ⟨k, ⟨_, at_i, in_i⟩, ⟨_, at_j, in_j⟩⟩,
    fun ⟨k, ⟨_, at_i, in_i⟩, ⟨_, at_j, in_j⟩⟩ => ⟨_, _, k, at_i, at_j, in_i, in_j⟩⟩

theorem hasKey_append_left (h : i < kss.length) : HasKey (kss ++ [ks]) i k ↔ HasKey kss i k := by
  rw [HasKey, HasKey, List.getElem?_append_left h]

theorem hasKey_append_right : HasKey (kss ++ [ks]) kss.length k ↔ k ∈ ks := by
  simp [HasKey]

/-- The members without a key, in their order. -/
def keylessMembers (kss : List (List κ)) : List Nat :=
  (List.range kss.length).filter fun i => (kss[i]?.map List.isEmpty) == some true

theorem keylessMembers_append (kss : List (List κ)) (ks : List κ) :
    keylessMembers (kss ++ [ks]) = keylessMembers kss ++ if ks.isEmpty then [kss.length] else [] := by
  have before : ∀ i ∈ List.range kss.length,
      (((kss ++ [ks])[i]?.map List.isEmpty) == some true) = ((kss[i]?.map List.isEmpty) == some true) := fun i hi => by
    rw [List.getElem?_append_left (List.mem_range.mp hi)]
  rw [keylessMembers, List.length_append, List.length_singleton, List.range_succ, List.filter_append,
    List.filter_congr before]
  cases h : ks.isEmpty <;> simp [keylessMembers, h]

/-! ## The invariant of the gathering -/

/-- The groups after the members `kss`: they hold each member once, their keys are those of their members, no two have a key
in common, and their members are linked. -/
structure Gathered (kss : List (List κ)) (gs : List (Gathering κ)) : Prop where
  members : (gs.flatMap Gathering.members).Perm (List.range kss.length)
  keys : ∀ g ∈ gs, ∀ k, k ∈ g.keys ↔ ∃ i ∈ g.members, HasKey kss i k
  apart : gs.Pairwise fun g h => g.keys.Disjoint h.keys
  linked : ∀ g ∈ gs, ∀ i ∈ g.members, ∀ j ∈ g.members, Relation.ReflTransGen (ShareKey kss) i j

variable {gs : List (Gathering κ)}

theorem Gathered.nil : Gathered ([] : List (List κ)) [] :=
  ⟨.refl _, nofun, .nil, nofun⟩

theorem Gathered.mem_iff (h : Gathered kss gs) : (∃ g ∈ gs, i ∈ g.members) ↔ i < kss.length := by
  rw [← List.mem_flatMap, h.members.mem_iff, List.mem_range]

theorem Gathered.lt_length (h : Gathered kss gs) {g : Gathering κ} (hg : g ∈ gs) (hi : i ∈ g.members) : i < kss.length :=
  h.mem_iff.mp ⟨g, hg, hi⟩

theorem Gathered.members_disjoint (h : Gathered kss gs) : gs.Pairwise fun a b => a.members.Disjoint b.members :=
  (List.nodup_flatMap.mp (h.members.nodup_iff.mpr List.nodup_range)).2

/-- Two groups with a common key are one. -/
theorem Gathered.eq_of_key (h : Gathered kss gs) {a b : Gathering κ} (ha : a ∈ gs) (hb : b ∈ gs) (in_a : k ∈ a.keys)
    (in_b : k ∈ b.keys) : a = b := by
  by_contra different
  have symm : Std.Symm fun g h : Gathering κ => g.keys.Disjoint h.keys := ⟨fun _ _ d => d.symm⟩
  exact h.apart.forall ha hb different in_a in_b

/-- A group holds, with a member, all that are linked to it. -/
theorem Gathered.mem_of_linked (h : Gathered kss gs) {g : Gathering κ} (hg : g ∈ gs) (hi : i ∈ g.members)
    (link : Relation.ReflTransGen (ShareKey kss) i j) : j ∈ g.members := by
  induction link with
  | refl => exact hi
  | @tail b c _ share ih =>
    obtain ⟨k, at_b, at_c⟩ := shareKey_iff.mp share
    have c_lt : c < kss.length := (List.getElem?_eq_some_iff.mp at_c.choose_spec.1).1
    obtain ⟨g', hg', in_g'⟩ := h.mem_iff.mpr c_lt
    rwa [h.eq_of_key hg hg' ((h.keys g hg k).mpr ⟨b, ih, at_b⟩) ((h.keys g' hg' k).mpr ⟨c, in_g', at_c⟩)]

variable [DecidableEq κ]

theorem meets_iff {g : Gathering κ} : g.meets ks = true ↔ ∃ k ∈ g.keys, k ∈ ks := by
  simp [Gathering.meets]

theorem addMember_eq (gs : List (Gathering κ)) (i : Nat) (ks : List κ) :
    addMember gs i ks = gs.filter (fun g => !g.meets ks)
      ++ [{ members := (gs.filter fun g => g.meets ks).flatMap Gathering.members ++ [i]
            keys := (gs.filter fun g => g.meets ks).flatMap Gathering.keys ++ ks }] := rfl

/-- A further member joins exactly the groups that it shares a key with. -/
theorem mem_addMember {g : Gathering κ} : g ∈ addMember gs i ks ↔ (g ∈ gs ∧ g.meets ks = false)
    ∨ g = { members := (gs.filter fun g => g.meets ks).flatMap Gathering.members ++ [i]
            keys := (gs.filter fun g => g.meets ks).flatMap Gathering.keys ++ ks } := by
  simp [addMember_eq]

theorem addMember_members_perm :
    ((addMember gs i ks).flatMap Gathering.members).Perm (gs.flatMap Gathering.members ++ [i]) := by
  have split := (List.filter_append_perm (fun g => g.meets ks) gs).flatMap_right Gathering.members
  rw [List.flatMap_append] at split
  rw [addMember_eq, List.flatMap_append, List.flatMap_singleton, ← List.append_assoc]
  exact (List.perm_append_comm.trans split).append_right [i]

/-- Every member of the joined group is linked to the new member. -/
theorem Gathered.linked_to_new (h : Gathered kss gs)
    (hi : i ∈ (gs.filter fun g => g.meets ks).flatMap Gathering.members ++ [kss.length]) :
    Relation.ReflTransGen (ShareKey (kss ++ [ks])) i kss.length := by
  simp only [List.mem_append, List.mem_flatMap, List.mem_filter, List.mem_singleton] at hi
  obtain ⟨g, ⟨hg, meets⟩, in_g⟩ | rfl := hi
  · obtain ⟨k, in_keys, in_ks⟩ := meets_iff.mp meets
    obtain ⟨j, j_in, at_j⟩ := (h.keys g hg k).mp in_keys
    have share : ShareKey (kss ++ [ks]) j kss.length :=
      shareKey_iff.mpr ⟨k, (hasKey_append_left (h.lt_length hg j_in)).mpr at_j, hasKey_append_right.mpr in_ks⟩
    exact (linked_append (h.linked g hg i in_g j j_in)).tail share
  · exact .refl

theorem Gathered.addMember_keys (h : Gathered kss gs) {g : Gathering κ} (hg : g ∈ addMember gs kss.length ks) (k : κ) :
    k ∈ g.keys ↔ ∃ i ∈ g.members, HasKey (kss ++ [ks]) i k := by
  have old : ∀ g ∈ gs, (k ∈ g.keys ↔ ∃ i ∈ g.members, HasKey (kss ++ [ks]) i k) := fun g hg =>
    (h.keys g hg k).trans (exists_congr fun i => and_congr_right fun hi => (hasKey_append_left (h.lt_length hg hi)).symm)
  obtain ⟨hg, -⟩ | rfl := mem_addMember.mp hg
  · exact old g hg
  · simp only [List.mem_append, List.mem_flatMap, List.mem_filter, List.mem_singleton]
    constructor
    · rintro (⟨g, hit, in_g⟩ | in_ks)
      · obtain ⟨i, hi, at_i⟩ := (old g hit.1).mp in_g
        exact ⟨i, .inl ⟨g, hit, hi⟩, at_i⟩
      · exact ⟨kss.length, .inr rfl, hasKey_append_right.mpr in_ks⟩
    · rintro ⟨i, ⟨g, hit, hi⟩ | rfl, at_i⟩
      · exact .inl ⟨g, hit, (old g hit.1).mpr ⟨i, hi, at_i⟩⟩
      · exact .inr (hasKey_append_right.mp at_i)

theorem Gathered.addMember_apart (h : Gathered kss gs) :
    (addMember gs i ks).Pairwise fun g h => g.keys.Disjoint h.keys := by
  rw [addMember_eq, List.pairwise_append]
  refine ⟨h.apart.filter _, List.pairwise_singleton _ _, fun g hg joined hj k in_g in_joined => ?_⟩
  obtain ⟨hg, apart⟩ := List.mem_filter.mp hg
  rw [List.mem_singleton.mp hj] at in_joined
  simp only [List.mem_append, List.mem_flatMap, List.mem_filter] at in_joined
  obtain ⟨b, ⟨hb, meets⟩, in_b⟩ | in_ks := in_joined
  · rw [h.eq_of_key hg hb in_g in_b, meets] at apart
    cases apart
  · rw [meets_iff.mpr ⟨k, in_g, in_ks⟩] at apart
    cases apart

theorem Gathered.addMember (h : Gathered kss gs) (ks : List κ) : Gathered (kss ++ [ks]) (addMember gs kss.length ks) where
  members := by
    rw [List.length_append, List.length_singleton, List.range_succ]
    exact addMember_members_perm.trans (h.members.append_right _)
  keys _ hg := h.addMember_keys hg
  apart := h.addMember_apart
  linked g hg i hi j hj := by
    obtain ⟨hg, -⟩ | rfl := mem_addMember.mp hg
    · exact linked_append (h.linked g hg i hi j hj)
    · exact (h.linked_to_new hi).trans (linked_comm (h.linked_to_new hj))

/-- What the first member starts and every further one keeps holds of the gathering. -/
theorem gather_induction {P : List (List κ) → List (Gathering κ) → Prop} (nil : P [] [])
    (add : ∀ kss gs ks, P kss gs → P (kss ++ [ks]) (Machine.addMember gs kss.length ks)) (kss : List (List κ)) :
    P kss (gather kss) := by
  have further : ∀ rest done gs, P done gs → P (done ++ rest) (gatherFrom done.length rest gs) := by
    intro rest
    induction rest with
    | nil => exact fun done gs h => by rwa [List.append_nil, gatherFrom]
    | cons ks rest ih =>
      intro done gs h
      have next := ih _ _ (add done gs ks h)
      rwa [List.append_assoc, List.singleton_append, List.length_append, List.length_singleton] at next
  exact further kss [] [] nil

theorem gathered_gather (kss : List (List κ)) : Gathered kss (gather kss) :=
  gather_induction .nil (fun _ _ ks h => h.addMember ks) kss

/-! ## Groups without a key -/

theorem meets_of_keyless {g : Gathering κ} (h : g.keys.isEmpty = true) (ks : List κ) : g.meets ks = false := by
  rw [Gathering.meets, List.isEmpty_iff.mp h, List.any_nil]

theorem meets_nil (g : Gathering κ) : g.meets [] = false := by
  simp [Gathering.meets]

/-- A further member leaves the groups without a key as they are, and makes one of its own if it has none (R43). -/
theorem addMember_keyless (gs : List (Gathering κ)) (i : Nat) (ks : List κ) :
    (addMember gs i ks).filter (fun g => g.keys.isEmpty)
      = gs.filter (fun g => g.keys.isEmpty) ++ if ks.isEmpty then [{ members := [i], keys := [] }] else [] := by
  have kept : (gs.filter fun g => !g.meets ks).filter (fun g => g.keys.isEmpty) = gs.filter fun g => g.keys.isEmpty := by
    rw [List.filter_filter]
    refine List.filter_congr fun g _ => ?_
    cases h : g.keys.isEmpty with
    | true => rw [meets_of_keyless h]; rfl
    | false => rfl
  rw [addMember_eq, List.filter_append, kept]
  cases ks with
  | nil => simp [meets_nil]
  | cons k ks => simp

/-- The groups without a key hold one member each and stand in the members' order. -/
theorem gather_keyless (kss : List (List κ)) :
    (gather kss).filter (fun g => g.keys.isEmpty) = (keylessMembers kss).map fun i => { members := [i], keys := [] } := by
  refine gather_induction (P := fun kss gs => gs.filter (fun g => g.keys.isEmpty)
    = (keylessMembers kss).map fun i => { members := [i], keys := [] }) rfl (fun kss gs ks h => ?_) kss
  rw [addMember_keyless, h, keylessMembers_append, List.map_append]
  cases ks.isEmpty <;> rfl

end gathering

/-! ## The statement -/

/-- Settles O20: the invariant `Gathered`, kept by every further member. -/
theorem groupsAreConnected : Obligations.GroupsAreConnected := by
  intro κ _ kss
  have h := gathered_gather kss
  refine ⟨h.members, fun i j hi _ => ⟨?_, fun link => ?_⟩⟩
  · rintro ⟨g, hg, in_i, in_j⟩
    exact h.linked g hg i in_i j in_j
  · obtain ⟨g, hg, in_i⟩ := h.mem_iff.mpr hi
    exact ⟨g, hg, in_i, h.mem_of_linked hg in_i link⟩

end Sys2Proof.Machine
end

section
/-! PROOFS. The held runs of a line (O23). -/

namespace Sys2Proof.Machine

/-! ## Held runs put at their places (R40, R41) -/

/-- Held runs in ascending order of first cell (R40). -/
abbrev HeldInOrder (l : List HeldRun) : Prop := l.Pairwise fun a b => a.first ≤ b.first

theorem insertHeld_perm (h : HeldRun) (l : List HeldRun) : (insertHeld h l).Perm (h :: l) := by
  induction l with
  | nil => exact .refl _
  | cons x xs ih =>
    rw [insertHeld]
    split
    · exact .refl _
    · exact (ih.cons x).trans (.swap h x xs)

theorem insertHeld_inOrder (h : HeldRun) {l : List HeldRun} (order : HeldInOrder l) : HeldInOrder (insertHeld h l) := by
  induction l with
  | nil => exact List.pairwise_singleton _ _
  | cons x xs ih =>
    obtain ⟨least, tail⟩ := List.pairwise_cons.mp order
    rw [insertHeld]
    split
    next before => exact order.cons (List.forall_mem_cons.mpr ⟨before.le, fun y hy => before.le.trans (least y hy)⟩)
    next behind =>
      refine List.pairwise_cons.mpr ⟨fun y hy => ?_, ih tail⟩
      obtain rfl | hy := List.mem_cons.mp ((insertHeld_perm h xs).mem_iff.mp hy)
      · exact not_lt.mp behind
      · exact least y hy

/-- Held runs put one by one at their places in a list (R41). -/
def insertAllHeld (hs l : List HeldRun) : List HeldRun := hs.foldl (fun acc h => insertHeld h acc) l

theorem insertAllHeld_perm (hs l : List HeldRun) : (insertAllHeld hs l).Perm (l ++ hs) := by
  induction hs generalizing l with
  | nil => rw [List.append_nil]; exact .refl l
  | cons h hs ih => exact ((ih _).trans ((insertHeld_perm h l).append_right hs)).trans List.perm_middle.symm

theorem insertAllHeld_inOrder (hs : List HeldRun) {l : List HeldRun} (order : HeldInOrder l) : HeldInOrder (insertAllHeld hs l) := by
  induction hs generalizing l with
  | nil => exact order
  | cons h hs ih => exact ih (insertHeld_inOrder h order)

/-! ## The statement -/

/-- Settles O23: the held runs are the first 64 of an ordered list of all candidates. -/
theorem heldRunsBounded : Obligations.HeldRunsBounded := by
  intro missing prev order fromReal fromHeld
  have held_eq : holdRuns missing prev = (insertAllHeld fromHeld fromReal).take 64 := rfl
  have real_order : HeldInOrder fromReal := List.pairwise_map.mpr (order.filter _)
  have all_order : HeldInOrder (insertAllHeld fromHeld fromReal) := insertAllHeld_inOrder fromHeld real_order
  have parts := List.take_append_drop 64 (insertAllHeld fromHeld fromReal)
  rw [held_eq]
  refine ⟨List.length_take_le _ _, all_order.sublist (List.take_sublist _ _), _,
    parts ▸ insertAllHeld_perm fromHeld fromReal, fun more => ?_, ?_⟩
  · rw [List.length_take, min_eq_left]
    by_contra few
    exact more (List.drop_eq_nil_of_le (not_le.mp few).le)
  · rw [← parts] at all_order
    exact (List.pairwise_append.mp all_order).2.2

end Sys2Proof.Machine
end

section
/-! PROOFS. What a survivor takes from the hides merged into it (O24). -/

namespace Sys2Proof.Machine

/-! ## The element of greatest key (R46) -/

/-- Of two elements the one of greater key, the first of equals. -/
def keepGreatest {α β : Type} [LinearOrder β] (key : α → β) (a b : α) : α := if key a < key b then b else a

section greatest

variable {α β : Type} [LinearOrder β] {key key' : α → β} {a : α} {l : List α}

theorem keepGreatest_cases (key : α → β) (a b : α) : keepGreatest key a b = a ∨ keepGreatest key a b = b := by
  unfold keepGreatest
  split
  · exact .inr rfl
  · exact .inl rfl

theorem keepGreatest_ge (key : α → β) (a b : α) : key a ≤ key (keepGreatest key a b) ∧ key b ≤ key (keepGreatest key a b) := by
  unfold keepGreatest
  split
  next less => exact ⟨less.le, le_rfl⟩
  next least => exact ⟨le_rfl, not_lt.mp least⟩

theorem foldl_keepGreatest_mem : l.foldl (keepGreatest key) a ∈ a :: l := by
  induction l generalizing a with
  | nil => exact List.mem_singleton_self a
  | cons b l ih =>
    rw [List.foldl_cons]
    rcases keepGreatest_cases key a b with e | e
    · rw [e]
      exact List.cons_subset_cons _ (List.subset_cons_self b l) ih
    · rw [e]
      exact List.mem_cons_of_mem _ ih

theorem foldl_keepGreatest_ge : ∀ x ∈ a :: l, key x ≤ key (l.foldl (keepGreatest key) a) := by
  induction l generalizing a with
  | nil => exact fun x hx => by rw [List.mem_singleton.mp hx, List.foldl_nil]
  | cons b l ih =>
    obtain ⟨a_le, b_le⟩ := keepGreatest_ge key a b
    obtain ⟨first_le, rest_le⟩ := List.forall_mem_cons.mp (ih (a := keepGreatest key a b))
    exact List.forall_mem_cons.mpr ⟨a_le.trans first_le, List.forall_mem_cons.mpr ⟨b_le.trans first_le, rest_le⟩⟩

end greatest

theorem earlierLine_eq (line : LineNo) : earlierLine line = keepGreatest fun x => (line - x).toNat := rfl

/-- The least distance back is the greatest in the reverse order. -/
theorem laterLine_eq (line : LineNo) : laterLine line = keepGreatest fun x => OrderDual.toDual (line - x).toNat := rfl

/-! ## Sums that saturate at each addend -/

theorem satAdd_satAdd (top a b c : Nat) : satAdd top (satAdd top a b) c = satAdd top a (b + c) := by
  simp only [satAdd]
  omega

theorem foldl_satAdd {l : List Nat} (nonempty : l ≠ []) (top a : Nat) : l.foldl (satAdd top) a = min top (a + l.sum) := by
  induction l generalizing a with
  | nil => exact absurd rfl nonempty
  | cons b l ih =>
    rw [List.foldl_cons, List.sum_cons]
    cases l with
    | nil => rfl
    | cons c l =>
      rw [ih (List.cons_ne_nil c l)]
      simp only [satAdd]
      omega

/-! ## Hides absorbed in turn (R46) -/

/-- A field that an absorption combines, after absorptions in turn. -/
theorem foldl_absorb_field {β : Type} (field : HideRec → β) (op : β → β → β) (line : LineNo)
    (absorb : ∀ s a : HideRec, field (s.absorb line a) = op (field s) (field a)) (s : HideRec) (l : List HideRec) :
    field (l.foldl (HideRec.absorb line) s) = (l.map field).foldl op (field s) := by
  rw [List.foldl_map]
  exact (List.foldl_hom field fun s a => (absorb s a).symm).symm

/-- An absorption leaves all fields but thirteen as they are. -/
theorem foldl_absorb_frame (line : LineNo) (s : HideRec) (l : List HideRec) :
    let m := l.foldl (HideRec.absorb line) s
    m = { s with
      firstLine := m.firstLine, lastLine := m.lastLine, leading := m.leading, trailing := m.trailing, cellMin := m.cellMin
      cellMax := m.cellMax, lineCount := m.lineCount, covered := m.covered, addBack := m.addBack
      smallHoles := m.smallHoles, largeHoles := m.largeHoles, joinCount := m.joinCount, flags := m.flags } := by
  induction l generalizing s with
  | nil => rfl
  | cons a l ih => exact ih (s.absorb line a)

theorem getLsbD_mask (j k : Flag) : j.mask.getLsbD k.bit = decide (k = j) := by
  cases j <;> cases k <;> rfl

theorem has_absorb (line : LineNo) (s a : HideRec) (k : Flag) :
    (s.absorb line a).has k = (s.has k || a.has k || decide (k = .joined)) := by
  rw [HideRec.has, HideRec.absorb, BitVec.getLsbD_or, BitVec.getLsbD_or, getLsbD_mask, HideRec.has, HideRec.has]

theorem has_foldl_absorb (line : LineNo) (s : HideRec) {l : List HideRec} (nonempty : l ≠ []) (k : Flag) :
    (l.foldl (HideRec.absorb line) s).has k = (s.has k || l.any (fun a => a.has k) || decide (k = .joined)) := by
  induction l generalizing s with
  | nil => exact absurd rfl nonempty
  | cons a l ih =>
    rw [List.foldl_cons, List.any_cons]
    cases l with
    | nil => rw [List.foldl_nil, has_absorb, List.any_nil, Bool.or_false]
    | cons b l =>
      rw [ih _ (List.cons_ne_nil b l), has_absorb]
      grind

theorem foldl_absorb_joinCount (line : LineNo) (s : HideRec) {l : List HideRec} (nonempty : l ≠ []) :
    (l.foldl (HideRec.absorb line) s).joinCount = min 255 (s.joinCount + (l.map HideRec.joinCount).sum + l.length) := by
  have joins (s a : HideRec) : (s.absorb line a).joinCount = satAdd 255 s.joinCount (a.joinCount + 1) :=
    satAdd_satAdd 255 s.joinCount a.joinCount 1
  have sum_eq : ((l.map HideRec.joinCount).map (· + 1)).sum = (l.map HideRec.joinCount).sum + l.length := by
    have sums := List.sum_map_add (l := l) (f := HideRec.joinCount) (g := fun _ => 1)
    rw [List.map_const', List.sum_replicate, smul_eq_mul, mul_one] at sums
    rw [List.map_map]
    exact sums
  have fold := foldl_absorb_field HideRec.joinCount (fun x y => satAdd 255 x (y + 1)) line joins s l
  rw [← List.foldl_map (f := (· + 1)) (g := satAdd 255), foldl_satAdd (by simpa using nonempty), sum_eq, ← Nat.add_assoc] at fold
  exact fold

/-! ## The statement -/

/-- Settles O24, field by field. -/
theorem mergeCombines : Obligations.MergeCombines := by
  intro line s absorbed nonempty m back
  have fold {β : Type} (field : HideRec → β) (op : β → β → β)
      (absorb : ∀ s a : HideRec, field (s.absorb line a) = op (field s) (field a)) :
      field m = (absorbed.map field).foldl op (field s) := foldl_absorb_field field op line absorb s absorbed
  have sum (field : HideRec → Nat) (top : Nat)
      (absorb : ∀ s a : HideRec, field (s.absorb line a) = satAdd top (field s) (field a)) :
      field m = min top (field s + (absorbed.map field).sum) :=
    (fold field _ absorb).trans (foldl_satAdd (by simpa using nonempty) top _)
  have first := fold HideRec.firstLine _ fun _ _ => congrFun₂ (earlierLine_eq line) _ _
  have last := fold HideRec.lastLine _ fun _ _ => congrFun₂ (laterLine_eq line) _ _
  refine ⟨⟨?first_of, ?first_back⟩, ⟨?last_of, ?last_back⟩, fold _ _ fun _ _ => rfl, fold _ _ fun _ _ => rfl,
    fold _ _ fun _ _ => rfl, fold _ _ fun _ _ => rfl, sum _ _ fun _ _ => rfl, sum _ _ fun _ _ => rfl, sum _ _ fun _ _ => rfl,
    sum _ _ fun _ _ => rfl, sum _ _ fun _ _ => rfl, foldl_absorb_joinCount line s nonempty, has_foldl_absorb line s nonempty,
    foldl_absorb_frame line s absorbed⟩
  case first_of =>
    rw [first, List.map_cons]
    exact foldl_keepGreatest_mem
  case first_back =>
    rw [first]
    exact fun a ha => foldl_keepGreatest_ge (key := back) _ (List.mem_map_of_mem (f := HideRec.firstLine) ha)
  case last_of =>
    rw [last, List.map_cons]
    exact foldl_keepGreatest_mem
  case last_back =>
    rw [last]
    exact fun a ha => OrderDual.toDual_le_toDual.mp
      (foldl_keepGreatest_ge (key := fun x => OrderDual.toDual (back x)) _ (List.mem_map_of_mem (f := HideRec.lastLine) ha))

end Sys2Proof.Machine
end

section
/-! PROOFS. What the parts of a line's segmentation do (chapter 3): groups, labels, FREE records, the flags and the closing. -/

namespace Sys2Proof.Machine

/-! ## One value set at several places of a list -/

/-- One value set at several places of a list. -/
def setAll {α : Type} (places : List Nat) (a : α) (l : List α) : List α := places.foldl (fun l i => l.set i a) l

@[simp] theorem setAll_length {α : Type} (places : List Nat) (a : α) (l : List α) : (setAll places a l).length = l.length := by
  induction places generalizing l with
  | nil => rfl
  | cons i places ih => exact (ih _).trans List.length_set

theorem setAll_getElem? {α : Type} (places : List Nat) (a : α) (l : List α) (j : Nat) :
    (setAll places a l)[j]? = if j ∈ places then l[j]?.map fun _ => a else l[j]? := by
  induction places generalizing l with
  | nil => rfl
  | cons i places ih =>
    refine (ih _).trans ?_
    by_cases here : i = j
    · subst here
      rw [List.getElem?_set_self', Option.map_eq_map]
      by_cases later : i ∈ places <;> simp [later, Function.comp_def, Function.const_def]
    · rw [List.getElem?_set_ne here]
      simp [Ne.symm here]

section labels

variable {members : List Nat} {l : Label} {labels : List (Option Label)} {i : Nat}

theorem setLabels_of_mem (hi : i ∈ members) : (setLabels members l labels)[i]? = labels[i]?.map fun _ => some l :=
  (setAll_getElem? members (some l) labels i).trans (if_pos hi)

theorem setLabels_of_not_mem (hi : i ∉ members) : (setLabels members l labels)[i]? = labels[i]? :=
  (setAll_getElem? members (some l) labels i).trans (if_neg hi)

end labels

/-! ## The labels of a group (R43, R44) -/

theorem mem_hides {g : Gathering RunKey} {n : Nat} : n ∈ g.hides ↔ RunKey.hide n ∈ g.keys := by
  rw [Gathering.hides, List.mem_eraseDups, List.mem_filterMap]
  constructor
  · rintro ⟨_ | _, in_keys, same⟩
    · cases same
      exact in_keys
    · cases same
  · exact fun in_keys => ⟨_, in_keys, rfl⟩

/-- A group has a hide or UNTRACKED among its labels exactly if it has a key (R44). -/
theorem keys_isEmpty_iff {g : Gathering RunKey} : g.keys.isEmpty = true ↔ g.hides = [] ∧ g.untracked = false := by
  rw [List.isEmpty_iff]
  constructor
  · exact fun none => by rw [Gathering.hides, Gathering.untracked, none]; exact ⟨rfl, rfl⟩
  · rintro ⟨no_hide, tracked⟩
    refine List.eq_nil_iff_forall_not_mem.mpr fun key in_keys => ?_
    cases key with
    | hide n => exact List.not_mem_nil (no_hide ▸ mem_hides.mpr in_keys)
    | untrackedRun i => exact absurd (List.any_eq_false.mp tracked _ in_keys) (by simp)

/-- Groups of a line of `count` runs, no two with a member or a hide in common. -/
structure GroupsApart (count : Nat) (gs : List (Gathering RunKey)) : Prop where
  inRange : ∀ g ∈ gs, ∀ i ∈ g.members, i < count
  members : gs.Pairwise fun a b => a.members.Disjoint b.members
  hides : gs.Pairwise fun a b => a.hides.Disjoint b.hides

theorem runGroups_apart (prev : RunList) (runs : List FormRun) : GroupsApart runs.length (runGroups prev runs) := by
  have h := gathered_gather (runs.map fun r => runKeys r 0 prev.spans)
  exact ⟨fun g hg i hi => by simpa using h.lt_length hg hi, h.members_disjoint,
    h.apart.imp fun apart n in_a in_b => apart (mem_hides.mp in_a) (mem_hides.mp in_b)⟩

section apart

variable {count : Nat} {gs : List (Gathering RunKey)} {g a b : Gathering RunKey}

theorem GroupsApart.tail (h : GroupsApart count (g :: gs)) : GroupsApart count gs :=
  ⟨fun a ha => h.inRange a (List.mem_cons_of_mem _ ha), h.members.tail, h.hides.tail⟩

theorem GroupsApart.eq_of_member (h : GroupsApart count gs) {i : Nat} (ha : a ∈ gs) (hb : b ∈ gs) (in_a : i ∈ a.members)
    (in_b : i ∈ b.members) : a = b := by
  by_contra different
  have symm : Std.Symm fun a b : Gathering RunKey => a.members.Disjoint b.members := ⟨fun _ _ d => d.symm⟩
  exact h.members.forall ha hb different in_a in_b

theorem GroupsApart.eq_of_hide (h : GroupsApart count gs) {n : Nat} (ha : a ∈ gs) (hb : b ∈ gs) (in_a : n ∈ a.hides)
    (in_b : n ∈ b.hides) : a = b := by
  by_contra different
  have symm : Std.Symm fun a b : Gathering RunKey => a.hides.Disjoint b.hides := ⟨fun _ _ d => d.symm⟩
  exact h.hides.forall ha hb different in_a in_b

end apart

/-- The cell extent of a group (R45, R48). -/
theorem groupExtent_eq {runs : List FormRun} {members : List Nat} {lo hi : Nat}
    (least : ((members.filterMap (runs[·]?)).map FormRun.first).min? = some lo)
    (greatest : ((members.filterMap (runs[·]?)).map FormRun.last).max? = some hi) :
    groupExtent runs members = (lo, hi) := by
  unfold groupExtent
  generalize members.filterMap (runs[·]?) = rs at least greatest
  cases rs with
  | nil => cases least
  | cons r rest =>
    rw [List.map_cons, List.min?_cons', List.foldl_map, Option.some_inj] at least
    rw [List.map_cons, List.max?_cons', List.foldl_map, Option.some_inj] at greatest
    exact Prod.ext least greatest

theorem groupExtent_single {runs : List FormRun} {i : Nat} {run : FormRun} (at_i : runs[i]? = some run) :
    groupExtent runs [i] = (run.first, run.last) := by
  simp [groupExtent, at_i]

/-! ## Labels of run lists (R40, R47) -/

/-- Held runs with their labels changed. -/
def mapHeldLabels (f : Label → Label) (l : List HeldRun) : List HeldRun := l.map fun x => { x with label := f x.label }

/-- A run list with its labels changed. -/
def RunList.mapLabels (f : Label → Label) (l : RunList) : RunList :=
  { real := l.real.map fun x => { x with label := f x.label }, held := mapHeldLabels f l.held }

theorem mapHeldLabels_mapHeldLabels (f g : Label → Label) (l : List HeldRun) :
    mapHeldLabels g (mapHeldLabels f l) = mapHeldLabels (g ∘ f) l := List.map_map

theorem RunList.mapLabels_mapLabels (f g : Label → Label) (l : RunList) :
    (l.mapLabels f).mapLabels g = l.mapLabels (g ∘ f) := by
  rw [mapLabels, mapLabels, mapLabels, List.map_map, mapHeldLabels_mapHeldLabels]
  rfl

theorem mapHeldLabels_id (l : List HeldRun) : mapHeldLabels id l = l := List.map_id l

theorem RunList.mapLabels_id (l : RunList) : l.mapLabels id = l := by
  rw [mapLabels, mapHeldLabels_id]
  exact congrArg (RunList.mk · l.held) (List.map_id l.real)

/-- A label followed through the merge list: an absorbed hide's is its survivor's (R47). -/
def followMerges (merges : List (Nat × Nat)) : Label → Label
  | .hide n => match merges.find? fun m => m.1 == n with
    | some m => .hide m.2
    | none => .hide n
  | .untracked => .untracked

theorem followMerges_nil : followMerges [] = id := by
  funext l
  cases l <;> rfl

/-- A merge list whose survivors are absorbed by no later pair is followed part by part (R47). -/
theorem followMerges_append {merges later : List (Nat × Nat)} (apart : ∀ m ∈ merges, ∀ m' ∈ later, m'.1 ≠ m.2) :
    followMerges (merges ++ later) = followMerges later ∘ followMerges merges := by
  funext l
  cases l with
  | untracked => rfl
  | hide n =>
    rw [Function.comp_apply, followMerges, List.find?_append]
    cases found : merges.find? fun m => m.1 == n with
    | none => simp only [followMerges, found, Option.none_or]
    | some m =>
      have stays : (later.find? fun m' => m'.1 == m.2) = none :=
        List.find?_eq_none.mpr fun m' hm' => by simpa using apart m (List.mem_of_find?_eq_some found) m' hm'
      simp only [followMerges, found, stays, Option.some_or]

theorem relabel_eq_followMerges (absorbed : List Nat) (survivor : Nat) :
    relabel absorbed survivor = followMerges (absorbed.map (·, survivor)) := by
  funext l
  cases l with
  | untracked => rfl
  | hide n =>
    rw [relabel, followMerges, List.find?_map]
    cases found : absorbed.find? ((fun m : Nat × Nat => m.1 == n) ∘ (·, survivor)) with
    | none =>
      rw [if_neg fun hn => by simpa using List.find?_eq_none.mp found n hn]
      rfl
    | some a =>
      obtain rfl : a = n := by simpa using List.find?_some found
      rw [if_pos (List.mem_of_find?_eq_some found)]
      rfl

theorem labelRuns_getElem? {runs : List FormRun} {labels : List (Option Label)} {i : Nat} {l : Label} (hi : i < runs.length)
    (at_i : labels[i]? = some (some l)) : ((labelRuns runs labels)[i]?).map RealRun.label = some l := by
  induction runs generalizing labels i with
  | nil => cases hi
  | cons r runs ih =>
    cases labels with
    | nil => cases at_i
    | cons x labels =>
      cases i with
      | zero =>
        rw [List.getElem?_cons_zero, Option.some_inj] at at_i
        rw [labelRuns, at_i]
        rfl
      | succ i => exact ih (Nat.lt_of_succ_lt_succ hi) at_i

/-! ## FREE records (R36, R48) -/

/-- The FREE records in ascending order. -/
def freeRecords (records : List HideRec) : List Nat :=
  (List.range records.length).filter fun n => decide ((records.getD n .free).state = .free)

theorem freeRecords_nodup (records : List HideRec) : (freeRecords records).Nodup := List.nodup_range.filter _

theorem mem_freeRecords {records : List HideRec} {n : Nat} :
    n ∈ freeRecords records ↔ n < records.length ∧ (records.getD n .free).state = .free := by
  simp [freeRecords]

theorem freeRecord_eq_head? (records : List HideRec) : freeRecord records = (freeRecords records).head? := by
  rw [freeRecords, List.head?_filter]
  refine Option.ext fun n => ?_
  rw [freeRecord, List.findIdx?_eq_some_iff_getElem, List.find?_range_eq_some]
  constructor
  · rintro ⟨hn, free, first⟩
    refine ⟨by simpa [hn] using free, by simpa using hn, fun j hj => ?_⟩
    simpa [hj.trans hn] using first j hj
  · rintro ⟨free, hn, first⟩
    rw [List.mem_range] at hn
    refine ⟨hn, by simpa [hn] using free, fun j hj => ?_⟩
    simpa [hj.trans hn] using first j hj

/-- A record taken for opening is FREE no longer. -/
theorem freeRecords_set {records : List HideRec} {n : Nat} {rest : List Nat} {r : HideRec}
    (free : freeRecords records = n :: rest) (taken : r.state ≠ .free) : freeRecords (records.set n r) = rest := by
  have nodup := freeRecords_nodup records
  have others : freeRecords (records.set n r) = (freeRecords records).filter fun m => decide (m ≠ n) := by
    rw [freeRecords, freeRecords, List.filter_filter, List.length_set]
    refine List.filter_congr fun m hm => ?_
    by_cases here : m = n
    · subst here
      simp [List.getD_eq_getElem?_getD, List.getElem?_set_self (List.mem_range.mp hm), taken]
    · simp [List.getD_eq_getElem?_getD, List.getElem?_set_ne (Ne.symm here), here]
  rw [free] at others nodup
  rw [others, List.filter_cons_of_neg (by simp)]
  exact List.filter_eq_self.mpr fun m hm => by simpa using fun same : m = n => (List.nodup_cons.mp nodup).1 (same ▸ hm)

/-! ## The flags of a line (R54) -/

theorem has_setFlagIf (c : Bool) (j k : Flag) (r : HideRec) :
    (r.setFlagIf c j).has k = (r.has k || (c && decide (k = j))) := by
  rw [setFlagIf_eq, HideRec.has, HideRec.has]
  cases c
  · simp
  · simp only [if_true, BitVec.getLsbD_or, getLsbD_mask, Bool.true_and]

theorem present_iff {cur : RunList} {n : Nat} : cur.present n = true ↔ PresentIn cur n := by
  simp [RunList.present, RunList.realOf, RunList.holds, PresentIn]

theorem touchesMissing_iff {missing : List Span} {first last : Nat} :
    touchesMissing missing first last = true ↔ ∃ m ∈ missing, m.first ≤ last + 1 ∧ first ≤ m.last + 1 := by
  simp [touchesMissing, touchesSpan]

/-- A hide record before and after the per-line flags: only the flags change, and those gained are the ones the line gives
(R54). -/
def Flagged (line : FormedLine) (cur : RunList) (lockOpen : Bool) (n : Nat) (before after : HideRec) : Prop :=
  after = { before with flags := after.flags }
    ∧ ∀ k : Flag, after.has k = true ↔
      before.has k = true ∨ (before.state = .isOpen ∧ PresentIn cur n ∧ line.givesFlag cur lockOpen n k)

section lineFlags

variable {line : FormedLine} {cur : RunList} {lockOpen : Bool} {n : Nat} {r : HideRec}

theorem lineFlags_absent (h : ¬ (r.state = .isOpen ∧ PresentIn cur n)) : r.lineFlags line cur lockOpen n = r := by
  rw [HideRec.lineFlags, if_neg]
  rwa [Bool.and_eq_true, beq_iff_eq, present_iff]

theorem lineFlags_frame : r.lineFlags line cur lockOpen n = { r with flags := (r.lineFlags line cur lockOpen n).flags } := by
  unfold HideRec.lineFlags
  split
  · simp only [setFlagIf_eq]
  · rfl

@[simp] theorem lineFlags_state : (r.lineFlags line cur lockOpen n).state = r.state := by rw [lineFlags_frame]

@[simp] theorem lineFlags_seq : (r.lineFlags line cur lockOpen n).seq = r.seq := by rw [lineFlags_frame]

theorem lineFlags_flagged : Flagged line cur lockOpen n r (r.lineFlags line cur lockOpen n) := by
  refine ⟨lineFlags_frame, fun k => ?_⟩
  by_cases h : r.state = .isOpen ∧ PresentIn cur n
  · obtain ⟨isOpen, present⟩ := h
    have flags : r.lineFlags line cur lockOpen n = _ :=
      if_pos (by rw [Bool.and_eq_true, beq_iff_eq, present_iff]; exact ⟨isOpen, present⟩)
    simp only [flags, has_setFlagIf]
    cases k <;> simp [isOpen, present, FormedLine.givesFlag, FormedLine.gapped, RunList.holds, RunList.realOf,
      touchesMissing_iff]
  · rw [lineFlags_absent h]
    exact ⟨.inl, fun gained => gained.resolve_right fun ⟨isOpen, present, _⟩ => h ⟨isOpen, present⟩⟩

end lineFlags

/-! ## The closing hides (R52, R53) -/

theorem mem_indicesFrom {α : Type} {p : Nat → α → Bool} {l : List α} {i n : Nat} :
    n ∈ indicesFrom p i l ↔ ∃ j a, n = i + j ∧ l[j]? = some a ∧ p n a = true := by
  induction l generalizing i with
  | nil => simp [indicesFrom]
  | cons a l ih =>
    have later : n ∈ indicesFrom p (i + 1) l ↔ ∃ j b, n = i + (j + 1) ∧ l[j]? = some b ∧ p n b = true := by
      simp only [ih, Nat.add_assoc, Nat.add_comm 1]
    have cases_at : (∃ j b, n = i + j ∧ (a :: l)[j]? = some b ∧ p n b = true)
        ↔ (n = i ∧ p n a = true) ∨ ∃ j b, n = i + (j + 1) ∧ l[j]? = some b ∧ p n b = true := by
      constructor
      · rintro ⟨_ | j, b, rfl, at_j, hp⟩
        · cases at_j
          exact .inl ⟨rfl, hp⟩
        · exact .inr ⟨j, b, rfl, at_j, hp⟩
      · rintro (⟨rfl, hp⟩ | ⟨j, b, rfl, at_j, hp⟩)
        · exact ⟨0, a, rfl, rfl, hp⟩
        · exact ⟨j + 1, b, rfl, at_j, hp⟩
    rw [cases_at, ← later, indicesFrom]
    split
    next here =>
      rw [List.mem_cons]
      exact or_congr_left ⟨fun same => ⟨same, same ▸ here⟩, And.left⟩
    next not_here => exact ⟨.inr, fun found => found.resolve_left fun ⟨same, hp⟩ => not_here (same ▸ hp)⟩

theorem insertByAge_perm (age : Nat → Nat) (r : Nat) (l : List Nat) : (insertByAge age r l).Perm (r :: l) := by
  induction l with
  | nil => exact .refl _
  | cons x xs ih =>
    rw [insertByAge]
    split
    · exact .refl _
    · exact (ih.cons x).trans (.swap r x xs)

theorem insertByAge_sorted (age : Nat → Nat) (r : Nat) {l : List Nat} (order : l.Pairwise fun a b => age b ≤ age a) :
    (insertByAge age r l).Pairwise fun a b => age b ≤ age a := by
  induction l with
  | nil => exact List.pairwise_singleton _ _
  | cons x xs ih =>
    obtain ⟨greatest, tail⟩ := List.pairwise_cons.mp order
    rw [insertByAge]
    split
    next earlier =>
      exact order.cons (List.forall_mem_cons.mpr ⟨earlier.le, fun y hy => (greatest y hy).trans earlier.le⟩)
    next later =>
      refine List.pairwise_cons.mpr ⟨fun y hy => ?_, ih tail⟩
      obtain rfl | hy := List.mem_cons.mp ((insertByAge_perm age r xs).mem_iff.mp hy)
      · exact not_lt.mp later
      · exact greatest y hy

/-- Records put in ascending sequence number are the same ones, the earliest issued first (R53). -/
theorem sortByAge_spec (age : Nat → Nat) (rs : List Nat) :
    (sortByAge age rs).Perm rs ∧ (sortByAge age rs).Pairwise fun a b => age b ≤ age a := by
  have insert_all : ∀ rs acc : List Nat, acc.Pairwise (fun a b => age b ≤ age a) →
      (rs.foldl (fun acc r => insertByAge age r acc) acc).Perm (acc ++ rs)
        ∧ (rs.foldl (fun acc r => insertByAge age r acc) acc).Pairwise fun a b => age b ≤ age a := by
    intro rs
    induction rs with
    | nil => exact fun acc order => ⟨by rw [List.append_nil]; exact .refl acc, order⟩
    | cons r rs ih =>
      intro acc order
      obtain ⟨perm, sorted⟩ := ih _ (insertByAge_sorted age r order)
      exact ⟨(perm.trans ((insertByAge_perm age r acc).append_right rs)).trans List.perm_middle.symm, sorted⟩
  exact insert_all rs [] .nil

end Sys2Proof.Machine
end

section
/-! PROOFS. The groups of a line that carry hides resolved in turn: continuing and merging (R44 to R47). -/

namespace Sys2Proof.Machine

/-! ## A group's survivor (R46) -/

/-- A hide record by its number. -/
def SegWork.hide (w : SegWork) (n : Nat) : HideRec := w.records.getD n .free

/-- How long ago a hide was opened, in numbers issued since (R39). -/
def SegWork.age (w : SegWork) (n : Nat) : Nat := issueAge w.counter (w.hide n).seq

/-- The hide that a group goes to: of its hides the one opened first (R46). -/
def Gathering.survivor (g : Gathering RunKey) (w : SegWork) : Nat :=
  match g.hides with
  | [] => 0
  | n :: rest => oldest w.age n rest

/-- The hides merged into a group's survivor (R46). -/
def Gathering.absorbed (g : Gathering RunKey) (w : SegWork) : List Nat := g.hides.filter (· != g.survivor w)

/-- What a group adds to the merge list (R47). -/
def Gathering.merges (g : Gathering RunKey) (w : SegWork) : List (Nat × Nat) := (g.absorbed w).map (·, g.survivor w)

/-- A hide continued over a group, INCOMPLETE with UNTRACKED among the group's labels (R45, R50). -/
def Gathering.extend (g : Gathering RunKey) (line : FormedLine) (r : HideRec) : HideRec :=
  (r.continued line.number line.s (groupExtent line.runs g.members).1 (groupExtent line.runs g.members).2).setFlagIf
    g.untracked .incomplete

/-- A group's survivor with the others absorbed (R46). -/
def Gathering.joined (g : Gathering RunKey) (line : FormedLine) (w : SegWork) : HideRec :=
  ((g.absorbed w).map w.hide).foldl (HideRec.absorb line.number) (w.hide (g.survivor w))

section group

variable {g : Gathering RunKey} {line : FormedLine} {w v : SegWork} {n : Nat}

theorem oldest_eq (age : Nat → Nat) : oldest age = fun n rest => rest.foldl (keepGreatest age) n := rfl

theorem survivor_mem (carries : g.hides ≠ []) : g.survivor w ∈ g.hides := by
  obtain ⟨n, rest, e⟩ := List.exists_cons_of_ne_nil carries
  rw [Gathering.survivor, e, oldest_eq]
  exact foldl_keepGreatest_mem

/-- The survivor is opened no later than any of the group's hides. -/
theorem age_le_survivor (hn : n ∈ g.hides) : w.age n ≤ w.age (g.survivor w) := by
  obtain ⟨m, rest, e⟩ := List.exists_cons_of_ne_nil (List.ne_nil_of_mem hn)
  rw [e] at hn
  rw [Gathering.survivor, e, oldest_eq]
  exact foldl_keepGreatest_ge n hn

theorem mem_absorbed : n ∈ g.absorbed w ↔ n ∈ g.hides ∧ n ≠ g.survivor w := by
  simp [Gathering.absorbed]

theorem mem_merges {m : Nat × Nat} : m ∈ g.merges w ↔ m.1 ∈ g.absorbed w ∧ m.2 = g.survivor w := by
  rw [Gathering.merges, List.mem_map]
  constructor
  · rintro ⟨a, ha, rfl⟩
    exact ⟨ha, rfl⟩
  · exact fun ⟨ha, same⟩ => ⟨m.1, ha, Prod.ext rfl same.symm⟩

theorem hides_of_mem_merges {m : Nat × Nat} (hm : m ∈ g.merges w) : m.1 ∈ g.hides ∧ m.2 ∈ g.hides ∧ m.1 ≠ m.2 := by
  obtain ⟨absorbed, survivor⟩ := mem_merges.mp hm
  obtain ⟨in_hides, other⟩ := mem_absorbed.mp absorbed
  exact ⟨in_hides, survivor ▸ survivor_mem (List.ne_nil_of_mem in_hides), survivor ▸ other⟩

theorem merges_of_no_hide (no_hide : g.hides = []) : g.merges w = [] := by
  rw [Gathering.merges, Gathering.absorbed, no_hide, List.filter_nil, List.map_nil]

theorem hide_eq {r : HideRec} (at_n : w.records[n]? = some r) : w.hide n = r := by
  rw [SegWork.hide, List.getD_eq_getElem?_getD, at_n, Option.getD_some]

theorem extend_state (r : HideRec) : (g.extend line r).state = r.state := by rw [Gathering.extend, setFlagIf_eq]; rfl

theorem extend_seq (r : HideRec) : (g.extend line r).seq = r.seq := by rw [Gathering.extend, setFlagIf_eq]; rfl

theorem joined_state : (g.joined line w).state = (w.hide (g.survivor w)).state := by
  rw [Gathering.joined, foldl_absorb_frame]

theorem joined_seq : (g.joined line w).seq = (w.hide (g.survivor w)).seq := by
  rw [Gathering.joined, foldl_absorb_frame]

theorem joined_of_single (single : g.hides = [n]) : g.joined line w = w.hide n := by
  have survivor : g.survivor w = n := by rw [Gathering.survivor, single]; rfl
  rw [Gathering.joined, Gathering.absorbed, survivor, single]
  simp

/-! A group is resolved by the counter and the records of its own hides. -/

/-- Two works in which a group is resolved alike. -/
def Gathering.AgreeOn (g : Gathering RunKey) (w v : SegWork) : Prop :=
  v.counter = w.counter ∧ ∀ n ∈ g.hides, v.hide n = w.hide n

theorem foldl_keepGreatest_congr {key key' : Nat → Nat} {a : Nat} {l : List Nat} (same : ∀ x ∈ a :: l, key x = key' x) :
    l.foldl (keepGreatest key) a = l.foldl (keepGreatest key') a := by
  induction l generalizing a with
  | nil => rfl
  | cons b l ih =>
    obtain ⟨same_a, same_b, same_l⟩ : key a = key' a ∧ key b = key' b ∧ ∀ x ∈ l, key x = key' x := by simpa using same
    have next : keepGreatest key a b = keepGreatest key' a b := by rw [keepGreatest, keepGreatest, same_a, same_b]
    rw [List.foldl_cons, List.foldl_cons, ← next]
    refine ih (List.forall_mem_cons.mpr ⟨?_, same_l⟩)
    rcases keepGreatest_cases key a b with e | e <;> rw [e] <;> assumption

theorem Gathering.AgreeOn.survivor (h : g.AgreeOn w v) : g.survivor v = g.survivor w := by
  obtain ⟨counter, hides⟩ := h
  have ages : ∀ n ∈ g.hides, v.age n = w.age n := fun n hn => by rw [SegWork.age, SegWork.age, counter, hides n hn]
  unfold Gathering.survivor
  split
  next => rfl
  next n rest e => exact foldl_keepGreatest_congr (e ▸ ages)

theorem Gathering.AgreeOn.absorbed (h : g.AgreeOn w v) : g.absorbed v = g.absorbed w := by
  rw [Gathering.absorbed, Gathering.absorbed, h.survivor]

theorem Gathering.AgreeOn.merges (h : g.AgreeOn w v) : g.merges v = g.merges w := by
  rw [Gathering.merges, Gathering.merges, h.survivor, h.absorbed]

theorem Gathering.AgreeOn.joined (h : g.AgreeOn w v) (carries : g.hides ≠ []) : g.joined line v = g.joined line w := by
  rw [Gathering.joined, Gathering.joined, h.survivor, h.absorbed, h.2 _ (survivor_mem carries),
    List.map_congr_left fun n hn => h.2 n (mem_absorbed.mp hn).1]

end group

/-! ## One group resolved -/

theorem resolveHides_of_no_hide {g : Gathering RunKey} (no_hide : g.hides = []) (line : FormedLine) (w : SegWork) :
    resolveHides line w g = w := by
  rw [resolveHides, no_hide]

theorem resolveHides_of_hide {g : Gathering RunKey} (carries : g.hides ≠ []) (line : FormedLine) (w : SegWork) :
    resolveHides line w g = { w with
      records := (setAll (g.absorbed w) .free w.records).set (g.survivor w) (g.extend line (g.joined line w))
      prev := w.prev.mapLabels (relabel (g.absorbed w) (g.survivor w))
      held := mapHeldLabels (relabel (g.absorbed w) (g.survivor w)) w.held
      labels := setLabels g.members (.hide (g.survivor w)) w.labels
      merges := w.merges ++ g.merges w } := by
  obtain ⟨n, rest, e⟩ := List.exists_cons_of_ne_nil carries
  simp only [resolveHides, Gathering.extend, Gathering.joined, Gathering.merges, Gathering.absorbed, Gathering.survivor, e,
    List.foldl_map]
  rfl

/-! ## The groups resolved in turn -/

/-- The work `v` after the groups `gs` of the work `w` have been resolved in turn, each by the records of `w`. -/
structure Continued (line : FormedLine) (w : SegWork) (gs : List (Gathering RunKey)) (v : SegWork) : Prop where
  counter : v.counter = w.counter
  refused : v.refused = w.refused
  length : v.records.length = w.records.length
  merges : v.merges = w.merges ++ gs.flatMap (Gathering.merges · w)
  prev : v.prev = w.prev.mapLabels (followMerges (gs.flatMap (Gathering.merges · w)))
  held : v.held = mapHeldLabels (followMerges (gs.flatMap (Gathering.merges · w))) w.held
  /-- A group's survivor continues and the hides it absorbs are FREE. -/
  hides : ∀ g ∈ gs, ∀ n ∈ g.hides, v.records[n]? =
    w.records[n]?.map fun _ => if n = g.survivor w then g.extend line (g.joined line w) else .free
  others : ∀ n, (∀ g ∈ gs, n ∉ g.hides) → v.records[n]? = w.records[n]?
  labelled : ∀ g ∈ gs, g.hides ≠ [] → ∀ i ∈ g.members, v.labels[i]? = w.labels[i]?.map fun _ => some (.hide (g.survivor w))
  unlabelled : ∀ i, (∀ g ∈ gs, g.hides ≠ [] → i ∉ g.members) → v.labels[i]? = w.labels[i]?

section continued

variable {line : FormedLine} {w v u : SegWork} {g : Gathering RunKey} {gs : List (Gathering RunKey)} {count : Nat}

theorem Continued.none (line : FormedLine) (w : SegWork) : Continued line w [] w where
  counter := rfl
  refused := rfl
  length := rfl
  merges := (List.append_nil _).symm
  prev := by rw [List.flatMap_nil, followMerges_nil, RunList.mapLabels_id]
  held := by rw [List.flatMap_nil, followMerges_nil, mapHeldLabels_id]
  hides := nofun
  others _ _ := rfl
  labelled := nofun
  unlabelled _ _ := rfl

theorem Continued.one_of_no_hide (no_hide : g.hides = []) : Continued line w [g] w where
  counter := rfl
  refused := rfl
  length := rfl
  merges := by rw [List.flatMap_singleton, merges_of_no_hide no_hide, List.append_nil]
  prev := by rw [List.flatMap_singleton, merges_of_no_hide no_hide, followMerges_nil, RunList.mapLabels_id]
  held := by rw [List.flatMap_singleton, merges_of_no_hide no_hide, followMerges_nil, mapHeldLabels_id]
  hides := List.forall_mem_singleton.mpr fun n hn => absurd (no_hide ▸ hn) List.not_mem_nil
  others _ _ := rfl
  labelled := List.forall_mem_singleton.mpr fun carries => absurd no_hide carries
  unlabelled _ _ := rfl

theorem records_of_hide {n : Nat} (hn : n ∈ g.hides) :
    ((setAll (g.absorbed w) .free w.records).set (g.survivor w) (g.extend line (g.joined line w)))[n]? =
      w.records[n]?.map fun _ => if n = g.survivor w then g.extend line (g.joined line w) else .free := by
  by_cases survives : n = g.survivor w
  · have kept : n ∉ g.absorbed w := fun absorbed => (mem_absorbed.mp absorbed).2 survives
    rw [← survives, List.getElem?_set_self', setAll_getElem?, if_neg kept, if_pos rfl]
    rfl
  · rw [List.getElem?_set_ne (Ne.symm survives), setAll_getElem?, if_pos (mem_absorbed.mpr ⟨hn, survives⟩), if_neg survives]

theorem Continued.one_of_hide (carries : g.hides ≠ []) : Continued line w [g] (resolveHides line w g) := by
  rw [resolveHides_of_hide carries]
  refine ⟨rfl, rfl, ?_, ?_, ?_, ?_, List.forall_mem_singleton.mpr fun n hn => records_of_hide hn, fun n outside => ?_,
    List.forall_mem_singleton.mpr fun _ i hi => setLabels_of_mem hi, fun i outside => ?_⟩
  · exact List.length_set.trans (setAll_length _ _ _)
  · rw [List.flatMap_singleton]
  · rw [List.flatMap_singleton, relabel_eq_followMerges]; rfl
  · rw [List.flatMap_singleton, relabel_eq_followMerges]; rfl
  · have out := outside g (List.mem_singleton_self g)
    have not_survivor : g.survivor w ≠ n := fun same => out (same ▸ survivor_mem carries)
    rw [List.getElem?_set_ne not_survivor, setAll_getElem?, if_neg fun absorbed => out (mem_absorbed.mp absorbed).1]
  · exact setLabels_of_not_mem (outside g (List.mem_singleton_self g) carries)

theorem resolveHides_continued (line : FormedLine) (w : SegWork) (g : Gathering RunKey) :
    Continued line w [g] (resolveHides line w g) := by
  by_cases no_hide : g.hides = []
  case pos =>
    rw [resolveHides_of_no_hide no_hide]
    exact .one_of_no_hide no_hide
  case neg => exact .one_of_hide no_hide

/-- The resolving of one group leaves the hides of a group apart from it as they are. -/
theorem Continued.agreeOn (h : Continued line w [g] v) {a : Gathering RunKey} (apart : g.hides.Disjoint a.hides) :
    a.AgreeOn w v := by
  refine ⟨h.counter, fun n hn => ?_⟩
  have outside : ∀ b ∈ [g], n ∉ b.hides := List.forall_mem_singleton.mpr fun in_g => apart in_g hn
  rw [SegWork.hide, SegWork.hide, List.getD_eq_getElem?_getD, List.getD_eq_getElem?_getD, h.others n outside]

theorem Continued.cons (apart : GroupsApart count (g :: gs)) (first : Continued line w [g] v) (rest : Continued line v gs u) :
    Continued line w (g :: gs) u := by
  have hides_apart : ∀ a ∈ gs, g.hides.Disjoint a.hides := (List.pairwise_cons.mp apart.hides).1
  have members_apart : ∀ a ∈ gs, g.members.Disjoint a.members := (List.pairwise_cons.mp apart.members).1
  have agree : ∀ a ∈ gs, a.AgreeOn w v := fun a ha => first.agreeOn (hides_apart a ha)
  have merges_eq : gs.flatMap (Gathering.merges · v) = gs.flatMap (Gathering.merges · w) :=
    List.flatMap_congr fun a ha => (agree a ha).merges
  have follow : followMerges ((g :: gs).flatMap (Gathering.merges · w))
      = followMerges (gs.flatMap (Gathering.merges · w)) ∘ followMerges (g.merges w) := by
    rw [List.flatMap_cons, followMerges_append]
    intro m hm m' hm' same
    obtain ⟨a, ha, hm'⟩ := List.mem_flatMap.mp hm'
    exact hides_apart a ha (hides_of_mem_merges hm).2.1 (same ▸ (hides_of_mem_merges hm').1)
  have first_merges : [g].flatMap (Gathering.merges · w) = g.merges w := List.flatMap_singleton ..
  refine ⟨rest.counter.trans first.counter, rest.refused.trans first.refused, rest.length.trans first.length, ?merges, ?prev,
    ?held, ?hides, fun n outside => ?others, ?labelled, fun i outside => ?unlabelled⟩
  case merges =>
    rw [rest.merges, first.merges, merges_eq, first_merges, List.flatMap_cons, List.append_assoc]
  case prev =>
    rw [rest.prev, first.prev, merges_eq, first_merges, RunList.mapLabels_mapLabels, follow]
  case held =>
    rw [rest.held, first.held, merges_eq, first_merges, mapHeldLabels_mapHeldLabels, follow]
  case hides =>
    refine List.forall_mem_cons.mpr ⟨fun n hn => ?_, fun a ha n hn => ?_⟩
    · rw [rest.others n fun a ha in_a => hides_apart a ha hn in_a, first.hides g (List.mem_singleton_self g) n hn]
    · have outside : ∀ b ∈ [g], n ∉ b.hides := List.forall_mem_singleton.mpr fun in_g => hides_apart a ha in_g hn
      rw [rest.hides a ha n hn, first.others n outside, (agree a ha).survivor, (agree a ha).joined (List.ne_nil_of_mem hn)]
  case others =>
    obtain ⟨out, outs⟩ := List.forall_mem_cons.mp outside
    rw [rest.others n outs, first.others n (List.forall_mem_singleton.mpr out)]
  case labelled =>
    refine List.forall_mem_cons.mpr ⟨fun carries i hi => ?_, fun a ha carries i hi => ?_⟩
    · rw [rest.unlabelled i fun a ha _ in_a => members_apart a ha hi in_a,
        first.labelled g (List.mem_singleton_self g) carries i hi]
    · have outside : ∀ b ∈ [g], b.hides ≠ [] → i ∉ b.members :=
        List.forall_mem_singleton.mpr fun _ in_g => members_apart a ha in_g hi
      rw [rest.labelled a ha carries i hi, first.unlabelled i outside, (agree a ha).survivor]
  case unlabelled =>
    obtain ⟨out, outs⟩ := List.forall_mem_cons.mp outside
    rw [rest.unlabelled i outs, first.unlabelled i (List.forall_mem_singleton.mpr out)]

/-- Groups that are apart, resolved in turn (R44 to R47). -/
theorem foldl_resolveHides (apart : GroupsApart count gs) (line : FormedLine) (w : SegWork) :
    Continued line w gs (gs.foldl (resolveHides line) w) := by
  induction gs generalizing w with
  | nil => exact .none line w
  | cons g gs ih => exact .cons apart (resolveHides_continued line w g) (ih apart.tail _)

end continued

end Sys2Proof.Machine
end

section
/-! PROOFS. The groups of a line that carry no hide resolved in turn: opening, and UNTRACKED (R44, R48 to R50). -/

namespace Sys2Proof.Machine

/-! ## One group resolved -/

/-- The groups that open a hide if they find a FREE record (R48). -/
def seekers (opens : Bool) (gs : List (Gathering RunKey)) : List (Gathering RunKey) :=
  gs.filter fun g => opens && g.keys.isEmpty

/-- The label of a group that asked for a record (R48, R49). -/
def grantedLabel (record : Option Nat) : Label := record.elim .untracked .hide

/-- A hide opened over a group (R48). -/
def Gathering.opened (g : Gathering RunKey) (excursion : Bool) (line : FormedLine) (seq : Nat) : HideRec :=
  HideRec.opened seq line.number line.s (groupExtent line.runs g.members).1 (groupExtent line.runs g.members).2 excursion

theorem opened_state (g : Gathering RunKey) (excursion : Bool) (line : FormedLine) (seq : Nat) :
    (g.opened excursion line seq).state = .isOpen := by
  rw [Gathering.opened, HideRec.opened, setFlagIf_eq]

section group

variable {opens excursion : Bool} {line : FormedLine} {w : SegWork} {g : Gathering RunKey}

theorem resolveOthers_of_hide (carries : g.hides ≠ []) : resolveOthers opens excursion line w g = w := by
  rw [resolveOthers, if_pos (by simpa using carries)]

theorem resolveOthers_of_untracked (no_hide : g.hides = []) (untracked : g.untracked = true ∨ opens = false) :
    resolveOthers opens excursion line w g = { w with labels := setLabels g.members .untracked w.labels } := by
  rw [resolveOthers, if_neg (by simp [no_hide]), if_pos (by simpa using untracked)]

theorem resolveOthers_of_seeker (keyless : g.keys.isEmpty = true) {record : Option Nat}
    (head : (freeRecords w.records).head? = record) :
    resolveOthers true excursion line w g = { w with
      records := record.elim w.records fun n => w.records.set n (g.opened excursion line w.counter)
      counter := record.elim w.counter fun _ => nextSeq w.counter
      labels := setLabels g.members (grantedLabel record) w.labels
      refused := record.elim (w.refused + 1) fun _ => w.refused } := by
  obtain ⟨no_hide, tracked⟩ := keys_isEmpty_iff.mp keyless
  rw [resolveOthers, if_neg (by simp [no_hide]), if_neg (by simp [tracked]), freeRecord_eq_head?, head]
  cases record <;> rfl

end group

/-! ## The groups resolved in turn -/

/-- The work `v` after the groups `gs` of the work `w` have been resolved in turn: those that seek a record open a hide each in the
FREE records in turn, and are UNTRACKED when these are used up. -/
structure Opened (opens excursion : Bool) (line : FormedLine) (w : SegWork) (gs : List (Gathering RunKey)) (v : SegWork) :
    Prop where
  prev : v.prev = w.prev
  held : v.held = w.held
  merges : v.merges = w.merges
  length : v.records.length = w.records.length
  counter : v.counter = nextSeq^[min (seekers opens gs).length (freeRecords w.records).length] w.counter
  refused : v.refused = w.refused + ((seekers opens gs).length - (freeRecords w.records).length)
  free : freeRecords v.records = (freeRecords w.records).drop (seekers opens gs).length
  records : ∀ n, n ∉ (freeRecords w.records).take (seekers opens gs).length → v.records[n]? = w.records[n]?
  opened : ∀ (k : Nat) (g : Gathering RunKey) (n : Nat), (seekers opens gs)[k]? = some g → (freeRecords w.records)[k]? = some n →
    v.records[n]? = some (g.opened excursion line (nextSeq^[k] w.counter))
  granted : ∀ (k : Nat) (g : Gathering RunKey), (seekers opens gs)[k]? = some g → ∀ i ∈ g.members,
    v.labels[i]? = w.labels[i]?.map fun _ => some (grantedLabel (freeRecords w.records)[k]?)
  untracked : ∀ g ∈ gs, g.hides = [] → (g.untracked = true ∨ opens = false) → ∀ i ∈ g.members,
    v.labels[i]? = w.labels[i]?.map fun _ => some .untracked
  labels : ∀ i, (∀ g ∈ gs, g.hides = [] → i ∉ g.members) → v.labels[i]? = w.labels[i]?

section opened

variable {opens excursion : Bool} {line : FormedLine} {w v u : SegWork} {g : Gathering RunKey} {gs : List (Gathering RunKey)}
  {count : Nat}

/-- Groups none of which seeks a record leave all but labels as it is. -/
theorem Opened.of_labels (labels : List (Option Label)) (no_seeker : seekers opens gs = [])
    (untracked : ∀ g ∈ gs, g.hides = [] → (g.untracked = true ∨ opens = false) → ∀ i ∈ g.members,
      labels[i]? = w.labels[i]?.map fun _ => some .untracked)
    (others : ∀ i, (∀ g ∈ gs, g.hides = [] → i ∉ g.members) → labels[i]? = w.labels[i]?) :
    Opened opens excursion line w gs { w with labels := labels } := by
  constructor
  case untracked => exact untracked
  case labels => exact others
  all_goals simp [no_seeker]

theorem mem_seekers : g ∈ seekers opens gs ↔ g ∈ gs ∧ opens = true ∧ g.hides = [] ∧ g.untracked = false := by
  rw [seekers, List.mem_filter, Bool.and_eq_true, keys_isEmpty_iff]

theorem seekers_single_eq_nil (h : ¬ (opens = true ∧ g.hides = [] ∧ g.untracked = false)) : seekers opens [g] = [] := by
  refine List.eq_nil_iff_forall_not_mem.mpr fun a ha => h ?_
  obtain ⟨same, seeks⟩ := mem_seekers.mp ha
  exact List.mem_singleton.mp same ▸ seeks

theorem seekers_cons (opens : Bool) (g : Gathering RunKey) (gs : List (Gathering RunKey)) :
    seekers opens (g :: gs) = seekers opens [g] ++ seekers opens gs := by
  rw [seekers, seekers, seekers, ← List.filter_append, List.singleton_append]

/-- A seeker of a list is its first group or one of the others. -/
theorem seekers_cons_cases {k : Nat} {a : Gathering RunKey} (at_k : (seekers opens (g :: gs))[k]? = some a) :
    (seekers opens [g])[k]? = some a ∧ k < (seekers opens [g]).length
      ∨ ∃ j, k = (seekers opens [g]).length + j ∧ (seekers opens gs)[j]? = some a := by
  rw [seekers_cons] at at_k
  by_cases early : k < (seekers opens [g]).length
  · rw [List.getElem?_append_left early] at at_k
    exact .inl ⟨at_k, early⟩
  · rw [List.getElem?_append_right (not_lt.mp early)] at at_k
    exact .inr ⟨_, (Nat.add_sub_cancel' (not_lt.mp early)).symm, at_k⟩

/-- A group that seeks a record takes the lowest FREE one, or is refused (R48, R49). -/
theorem Opened.one_of_seeker (keyless : g.keys.isEmpty = true) :
    Opened true excursion line w [g] (resolveOthers true excursion line w g) := by
  obtain ⟨no_hide, tracked⟩ := keys_isEmpty_iff.mp keyless
  have seeker : seekers true [g] = [g] := List.filter_cons_of_pos (by simpa using keyless)
  have only {k : Nat} {a : Gathering RunKey} (at_k : (seekers true [g])[k]? = some a) : k = 0 ∧ g = a := by
    simpa [seeker, List.getElem?_singleton] using at_k
  have never : ¬ (g.untracked = true ∨ true = false) := by simp [tracked]
  rw [resolveOthers_of_seeker keyless rfl]
  refine ⟨rfl, rfl, rfl, ?length, ?counter, ?refused, ?free, fun m kept => ?records, fun k a m at_k at_m => ?opened,
    fun k a at_k i hi => ?granted, List.forall_mem_singleton.mpr fun _ asked => absurd asked never, fun i outside => ?labels⟩
  case granted =>
    obtain ⟨rfl, rfl⟩ := only at_k
    rw [setLabels_of_mem hi, List.head?_eq_getElem?]
  case labels => exact setLabels_of_not_mem (outside g (List.mem_singleton_self g) no_hide)
  all_goals cases free : freeRecords w.records with
  | nil => ?_
  | cons n rest => ?_
  case length.nil => rfl
  case length.cons => exact List.length_set
  case counter.nil => simp
  case counter.cons => simp [seeker]
  case refused.nil => simp [seeker]
  case refused.cons => simp [seeker]
  case free.nil => simpa using free
  case free.cons => simpa [seeker] using freeRecords_set free (by rw [opened_state]; decide)
  case records.nil => rfl
  case records.cons => exact List.getElem?_set_ne fun same => kept (by simp [free, seeker, same])
  case opened.nil => simp [free] at at_m
  case opened.cons =>
    obtain ⟨rfl, rfl⟩ := only at_k
    obtain rfl : n = m := by simpa [free] using at_m
    exact List.getElem?_set_self (mem_freeRecords.mp (free ▸ List.mem_cons_self)).1

theorem resolveOthers_opened (opens excursion : Bool) (line : FormedLine) (w : SegWork) (g : Gathering RunKey) :
    Opened opens excursion line w [g] (resolveOthers opens excursion line w g) := by
  by_cases no_hide : g.hides = []
  case neg =>
    rw [resolveOthers_of_hide no_hide]
    exact .of_labels w.labels (seekers_single_eq_nil fun ⟨_, none_carried, _⟩ => no_hide none_carried)
      (List.forall_mem_singleton.mpr fun none_carried => absurd none_carried no_hide) fun _ _ => rfl
  by_cases untracked : g.untracked = true ∨ opens = false
  case neg =>
    obtain ⟨tracked, rfl⟩ : g.untracked = false ∧ opens = true := by simpa using untracked
    exact .one_of_seeker (keys_isEmpty_iff.mpr ⟨no_hide, tracked⟩)
  rw [resolveOthers_of_untracked no_hide untracked]
  refine .of_labels _ (seekers_single_eq_nil ?_) (List.forall_mem_singleton.mpr fun _ _ i hi => setLabels_of_mem hi)
    fun i outside => setLabels_of_not_mem (outside g (List.mem_singleton_self g) no_hide)
  rintro ⟨rfl, -, tracked⟩
  simp [tracked] at untracked

theorem Opened.cons (apart : GroupsApart count (g :: gs)) (first : Opened opens excursion line w [g] v)
    (rest : Opened opens excursion line v gs u) : Opened opens excursion line w (g :: gs) u := by
  have members_apart : ∀ a ∈ gs, g.members.Disjoint a.members := (List.pairwise_cons.mp apart.members).1
  have count_eq : (seekers opens (g :: gs)).length = (seekers opens [g]).length + (seekers opens gs).length := by
    rw [seekers_cons, List.length_append]
  have left : (freeRecords v.records).length = (freeRecords w.records).length - (seekers opens [g]).length := by
    rw [first.free, List.length_drop]
  /- The others leave the labels of the first group, and it theirs. -/
  have rest_keeps : ∀ i ∈ g.members, u.labels[i]? = v.labels[i]? := fun i hi =>
    rest.labels i fun a ha _ in_a => members_apart a ha hi in_a
  have first_keeps : ∀ a ∈ gs, ∀ i ∈ a.members, v.labels[i]? = w.labels[i]? := fun a ha i hi =>
    first.labels i (List.forall_mem_singleton.mpr fun _ in_g => members_apart a ha in_g hi)
  refine ⟨rest.prev.trans first.prev, rest.held.trans first.held, rest.merges.trans first.merges,
    rest.length.trans first.length, ?counter, ?refused, ?free, fun n kept => ?records, fun k a n at_k at_n => ?opened,
    fun k a at_k i hi => ?granted, fun a ha no_hide asked i hi => ?untracked, fun i outside => ?labels⟩
  case counter =>
    rw [rest.counter, first.counter, ← Function.iterate_add_apply, left, count_eq]
    congr 1
    omega
  case refused =>
    rw [rest.refused, first.refused, left, count_eq]
    omega
  case free => rw [rest.free, first.free, List.drop_drop, count_eq]
  case records =>
    rw [count_eq, List.take_add, List.mem_append, not_or] at kept
    rw [rest.records n (by rw [first.free]; exact kept.2), first.records n kept.1]
  case opened =>
    obtain ⟨at_k, early⟩ | ⟨j, rfl, at_j⟩ := seekers_cons_cases at_k
    · have apart := List.disjoint_take_drop (freeRecords_nodup w.records) le_rfl (m := (seekers opens [g]).length)
      have taken : n ∈ (freeRecords w.records).take (seekers opens [g]).length :=
        List.mem_iff_getElem?.mpr ⟨k, by rwa [List.getElem?_take_of_lt early]⟩
      have kept : n ∉ (freeRecords v.records).take (seekers opens gs).length := fun later =>
        apart taken (first.free ▸ List.mem_of_mem_take later)
      rw [rest.records n kept, first.opened k a n at_k at_n]
    · have at_j_free : (freeRecords v.records)[j]? = some n := by rwa [first.free, List.getElem?_drop]
      have enough : (seekers opens [g]).length ≤ (freeRecords w.records).length :=
        (Nat.le_add_right _ j).trans (List.getElem?_eq_some_iff.mp at_n).1.le
      rw [rest.opened j a n at_j at_j_free, first.counter, min_eq_left enough, ← Function.iterate_add_apply, Nat.add_comm]
  case granted =>
    obtain ⟨at_k, -⟩ | ⟨j, rfl, at_j⟩ := seekers_cons_cases at_k
    · have own : a = g := List.mem_singleton.mp (mem_seekers.mp (List.mem_of_getElem? at_k)).1
      rw [rest_keeps i (own ▸ hi), first.granted k a at_k i hi]
    · rw [rest.granted j a at_j i hi, first_keeps a (mem_seekers.mp (List.mem_of_getElem? at_j)).1 i hi, first.free,
        List.getElem?_drop]
  case untracked =>
    obtain rfl | ha := List.mem_cons.mp ha
    · rw [rest_keeps i hi, first.untracked a (List.mem_singleton_self a) no_hide asked i hi]
    · rw [rest.untracked a ha no_hide asked i hi, first_keeps a ha i hi]
  case labels =>
    obtain ⟨out, outs⟩ := List.forall_mem_cons.mp outside
    rw [rest.labels i outs, first.labels i (List.forall_mem_singleton.mpr out)]

/-- Groups that are apart, resolved in turn (R44, R48 to R50). -/
theorem foldl_resolveOthers (apart : GroupsApart count gs) (opens excursion : Bool) (line : FormedLine) (w : SegWork) :
    Opened opens excursion line w gs (gs.foldl (resolveOthers opens excursion line) w) := by
  induction gs generalizing w with
  | nil => exact .of_labels w.labels rfl nofun fun _ _ => rfl
  | cons g gs ih => exact .cons apart (resolveOthers_opened opens excursion line w g) (ih apart.tail _)

end opened

end Sys2Proof.Machine
end

section
/-! PROOFS. The segmentation of a line (O22), and outside RUN (O21), from the two rounds over its groups. -/

namespace Sys2Proof.Machine

/-! ## The two rounds (R44) -/

/-- The work that a line's segmentation begins with (R41). -/
def Tracker.work (t : Tracker) (line : FormedLine) : SegWork :=
  { records := t.records, counter := t.counter, prev := t.prev, held := holdRuns line.missing t.prev,
    labels := line.runs.map (fun _ => none), merges := [], refused := 0 }

/-- The work once the groups that carry hides are resolved (R44 to R47). -/
def Tracker.continued (t : Tracker) (line : FormedLine) : SegWork :=
  (runGroups t.prev line.runs).foldl (resolveHides line) (t.work line)

/-- The work once all groups are resolved (R44 to R50). -/
def Tracker.resolved (t : Tracker) (opens excursion : Bool) (line : FormedLine) : SegWork :=
  (runGroups t.prev line.runs).foldl (resolveOthers opens excursion line) (t.continued line)

/-- The current list of a line (R40, R44). -/
def Tracker.current (t : Tracker) (opens excursion : Bool) (line : FormedLine) : RunList :=
  { real := labelRuns line.runs (t.resolved opens excursion line).labels, held := (t.resolved opens excursion line).held }

/-- The groups of a line that seek a record are its runs without a key, in their order (R48). -/
def FormedLine.fresh (line : FormedLine) (opens : Bool) (prev : RunList) : List Nat :=
  (List.range line.runs.length).filter fun i =>
    opens && ((line.runs[i]?).map fun r => (runKeys r 0 prev.spans).isEmpty) == some true

section segmentation

variable {opens excursion lockOpen : Bool} {line : FormedLine} {t : Tracker} {g : Gathering RunKey} {n : Nat} {r : HideRec}

theorem continued_round (t : Tracker) (line : FormedLine) :
    Continued line (t.work line) (runGroups t.prev line.runs) (t.continued line) :=
  foldl_resolveHides (runGroups_apart t.prev line.runs) line (t.work line)

theorem opened_round (opens excursion : Bool) (t : Tracker) (line : FormedLine) :
    Opened opens excursion line (t.continued line) (runGroups t.prev line.runs) (t.resolved opens excursion line) :=
  foldl_resolveOthers (runGroups_apart t.prev line.runs) opens excursion line (t.continued line)

theorem seekers_eq (opens : Bool) (line : FormedLine) (prev : RunList) :
    seekers opens (runGroups prev line.runs) = (line.fresh opens prev).map fun i => { members := [i], keys := [] } := by
  cases opens with
  | false => simp [seekers, FormedLine.fresh]
  | true =>
    refine (gather_keyless (line.runs.map fun r => runKeys r 0 prev.spans)).trans ?_
    simp [keylessMembers, FormedLine.fresh, Function.comp_def]

theorem work_label {i : Nat} (hg : g ∈ runGroups t.prev line.runs) (hi : i ∈ g.members) : (t.work line).labels[i]? = some none := by
  rw [Tracker.work, List.getElem?_map, List.getElem?_eq_getElem ((runGroups_apart t.prev line.runs).inRange g hg i hi)]
  rfl

theorem work_hide (at_n : t.records[n]? = some r) : (t.work line).hide n = r := hide_eq at_n

/-! ## Groups that carry hides -/

/-- The second round leaves the labels of groups that carry hides (R44). -/
theorem resolved_label (hg : g ∈ runGroups t.prev line.runs) (carries : g.hides ≠ []) {i : Nat} (hi : i ∈ g.members) :
    (t.resolved opens excursion line).labels[i]? = some (some (.hide (g.survivor (t.work line)))) := by
  have elsewhere : ∀ a ∈ runGroups t.prev line.runs, a.hides = [] → i ∉ a.members := fun a ha no_hide in_a =>
    carries ((runGroups_apart t.prev line.runs).eq_of_member hg ha hi in_a ▸ no_hide)
  rw [(opened_round opens excursion t line).labels i elsewhere, (continued_round t line).labelled g hg carries i hi,
    work_label hg hi]
  rfl

theorem current_label (hg : g ∈ runGroups t.prev line.runs) {i : Nat} (hi : i ∈ g.members) {l : Label}
    (label : (t.resolved opens excursion line).labels[i]? = some (some l)) :
    ((t.current opens excursion line).real[i]?).map RealRun.label = some l :=
  labelRuns_getElem? ((runGroups_apart t.prev line.runs).inRange g hg i hi) label

theorem group_labelled (hg : g ∈ runGroups t.prev line.runs) (carries : g.hides ≠ []) :
    ∀ i ∈ g.members, ((t.current opens excursion line).real[i]?).map RealRun.label
      = some (.hide (g.survivor (t.work line))) :=
  fun _ hi => current_label hg hi (resolved_label hg carries hi)

/-- The second round leaves the records that are not FREE. -/
theorem resolved_of_not_free (at_n : (t.continued line).records[n]? = some r) (taken : r.state ≠ .free) :
    (t.resolved opens excursion line).records[n]? = some r := by
  rw [(opened_round opens excursion t line).records n, at_n]
  intro granted
  obtain ⟨-, free⟩ := mem_freeRecords.mp (List.mem_of_mem_take granted)
  rw [List.getD_eq_getElem?_getD, at_n] at free
  exact taken free

/-- A record after the segmentation: as the groups leave it, with the flags the line gives (R54). -/
theorem segmented_record (opens excursion lockOpen : Bool) (line : FormedLine) (t : Tracker) (n : Nat) :
    (segmentLine opens excursion lockOpen line t).trk.records[n]? = ((t.resolved opens excursion line).records[n]?).map
      (HideRec.lineFlags line (t.current opens excursion line) lockOpen n) := by
  refine (mapFrom_getElem? _ 0 _ n).trans ?_
  rw [Nat.zero_add]
  rfl

theorem segmented_flagged (at_n : (t.resolved opens excursion line).records[n]? = some r) :
    ∃ r', (segmentLine opens excursion lockOpen line t).trk.records[n]? = some r'
      ∧ Flagged line (t.current opens excursion line) lockOpen n r r' :=
  ⟨_, by rw [segmented_record, at_n, Option.map_some], lineFlags_flagged⟩

/-- The survivor of a group continues on the line, with the hides it absorbs and the flags the line gives (R45, R46, R54). -/
theorem survivor_continued (hg : g ∈ runGroups t.prev line.runs) (carries : g.hides ≠ [])
    (at_s : t.records[g.survivor (t.work line)]? = some r) (isOpen : r.state = .isOpen) :
    ∃ r', (segmentLine opens excursion lockOpen line t).trk.records[g.survivor (t.work line)]? = some r'
      ∧ Flagged line (t.current opens excursion line) lockOpen (g.survivor (t.work line))
          (g.extend line (g.joined line (t.work line))) r' := by
  have record : (t.continued line).records[g.survivor (t.work line)]? = some (g.extend line (g.joined line (t.work line))) := by
    rw [(continued_round t line).hides g hg _ (survivor_mem carries), if_pos rfl]
    exact congrArg (Option.map _) at_s
  refine segmented_flagged (resolved_of_not_free record ?_)
  rw [extend_state, joined_state, work_hide at_s, isOpen]
  decide

/-- A hide continued over a group, field by field (R45, R50). -/
theorem extend_eq {lo hi : Nat} (least : ((g.members.filterMap (line.runs[·]?)).map FormRun.first).min? = some lo)
    (greatest : ((g.members.filterMap (line.runs[·]?)).map FormRun.last).max? = some hi) (r : HideRec) :
    g.extend line r = { r with
      lastLine := line.number, trailing := line.s, cellMin := min r.cellMin lo, cellMax := max r.cellMax hi
      lineCount := min 65535 (r.lineCount + 1)
      flags := if g.untracked then r.flags ||| BitVec.ofNat 16 2 else r.flags } := by
  rw [Gathering.extend, groupExtent_eq least greatest, setFlagIf_eq]
  rfl

theorem joined_eq (at_s : t.records[g.survivor (t.work line)]? = some r) : g.joined line (t.work line) =
    ((g.hides.filter fun n => decide (n ≠ g.survivor (t.work line))).map fun n => t.records.getD n .free).foldl
      (HideRec.absorb line.number) r := by
  have absorbed : g.absorbed (t.work line) = g.hides.filter fun n => decide (n ≠ g.survivor (t.work line)) :=
    List.filter_congr fun n _ => Bool.eq_iff_iff.mpr (by simp)
  rw [Gathering.joined, work_hide at_s, absorbed]
  rfl

/-! ## The merge list -/

theorem roundMerges_eq : (t.resolved opens excursion line).merges
    = (runGroups t.prev line.runs).flatMap (Gathering.merges · (t.work line)) := by
  rw [(opened_round opens excursion t line).merges, (continued_round t line).merges, Tracker.work, List.nil_append]

theorem mem_roundMerges {m : Nat × Nat} :
    m ∈ (t.resolved opens excursion line).merges ↔ ∃ g ∈ runGroups t.prev line.runs, m ∈ g.merges (t.work line) := by
  rw [roundMerges_eq, List.mem_flatMap]

theorem absorbed_iff :
    ((t.resolved opens excursion line).merges.any fun m => m.1 == n) = true
      ↔ ∃ g ∈ runGroups t.prev line.runs, n ∈ g.absorbed (t.work line) := by
  rw [List.any_eq_true]
  constructor
  · rintro ⟨m, hm, same⟩
    obtain ⟨g, hg, hm⟩ := mem_roundMerges.mp hm
    exact ⟨g, hg, beq_iff_eq.mp same ▸ (mem_merges.mp hm).1⟩
  · rintro ⟨g, hg, hn⟩
    exact ⟨(n, g.survivor (t.work line)), mem_roundMerges.mpr ⟨g, hg, mem_merges.mpr ⟨hn, rfl⟩⟩, beq_self_eq_true n⟩

/-! ## The FREE records before the second round -/

/-- The first round frees exactly the absorbed hides. -/
theorem continued_free (hn : n < t.records.length) : ((t.continued line).records.getD n .free).state = .free
    ↔ (t.records.getD n .free).state = .free ∨ ∃ g ∈ runGroups t.prev line.runs, n ∈ g.absorbed (t.work line) := by
  obtain ⟨r, at_n⟩ : ∃ r, t.records[n]? = some r := ⟨_, List.getElem?_eq_getElem hn⟩
  simp only [List.getD_eq_getElem?_getD, at_n, Option.getD_some]
  by_cases carried : ∃ g ∈ runGroups t.prev line.runs, n ∈ g.hides
  · obtain ⟨g, hg, hn⟩ := carried
    have record := (continued_round t line).hides g hg n hn
    rw [show (t.work line).records[n]? = some r from at_n, Option.map_some] at record
    rw [record, Option.getD_some]
    by_cases survives : n = g.survivor (t.work line)
    · rw [if_pos survives, extend_state, joined_state, ← survives, work_hide at_n]
      refine ⟨.inl, fun free => free.resolve_right ?_⟩
      rintro ⟨a, ha, absorbed⟩
      obtain ⟨in_a, other⟩ := mem_absorbed.mp absorbed
      exact other ((runGroups_apart t.prev line.runs).eq_of_hide hg ha hn in_a ▸ survives)
    · rw [if_neg survives]
      exact ⟨fun _ => .inr ⟨g, hg, mem_absorbed.mpr ⟨hn, survives⟩⟩, fun _ => rfl⟩
  · rw [(continued_round t line).others n fun g hg in_g => carried ⟨g, hg, in_g⟩,
      show (t.work line).records[n]? = some r from at_n, Option.getD_some]
    exact ⟨.inl, fun free => free.resolve_right fun ⟨g, hg, absorbed⟩ => carried ⟨g, hg, (mem_absorbed.mp absorbed).1⟩⟩

theorem freeRecords_continued : freeRecords (t.continued line).records
    = (List.range t.records.length).filter fun n => decide ((t.records.getD n .free).state = .free)
        || (t.resolved opens excursion line).merges.any fun m => m.1 == n := by
  rw [freeRecords, (continued_round t line).length]
  refine List.filter_congr fun n hn => Bool.eq_iff_iff.mpr ?_
  rw [Bool.or_eq_true, decide_eq_true_eq, decide_eq_true_eq, absorbed_iff]
  exact continued_free (List.mem_range.mp hn)

/-! ## Records that no group continues -/

theorem lineFlags_of_free {cur : RunList} (free : r.state = .free) : r.lineFlags line cur lockOpen n = r :=
  lineFlags_absent fun ⟨isOpen, _⟩ => by
    rw [free] at isOpen
    cases isOpen

/-- A hide that no group carries stands after the first round as it stood. -/
theorem continued_of_not_carried (apart : ∀ g ∈ runGroups t.prev line.runs, n ∉ g.hides) :
    (t.continued line).records[n]? = t.records[n]? := (continued_round t line).others n apart

/-- The first round opens no hide. -/
theorem open_of_continued (at_n : (t.continued line).records[n]? = some r) (isOpen : r.state = .isOpen) :
    ∃ r₀, t.records[n]? = some r₀ ∧ r₀.state = .isOpen ∧ r.seq = r₀.seq := by
  by_cases carried : ∃ g ∈ runGroups t.prev line.runs, n ∈ g.hides
  · obtain ⟨g, hg, hn⟩ := carried
    rw [(continued_round t line).hides g hg n hn, Option.map_eq_some_iff] at at_n
    obtain ⟨r₀, before, rfl⟩ := at_n
    by_cases survives : n = g.survivor (t.work line)
    · rw [if_pos survives] at isOpen ⊢
      rw [extend_state, joined_state, ← survives, hide_eq before] at isOpen
      rw [extend_seq, joined_seq, ← survives, hide_eq before]
      exact ⟨r₀, before, isOpen, rfl⟩
    · rw [if_neg survives] at isOpen
      cases isOpen
  · rw [continued_of_not_carried fun g hg in_g => carried ⟨g, hg, in_g⟩] at at_n
    exact ⟨r, at_n, isOpen, rfl⟩

theorem continued_of_absorbed (hg : g ∈ runGroups t.prev line.runs) (absorbed : n ∈ g.absorbed (t.work line))
    (hn : n < t.records.length) : (t.continued line).records[n]? = some .free := by
  obtain ⟨in_g, other⟩ := mem_absorbed.mp absorbed
  rw [(continued_round t line).hides g hg n in_g, if_neg other, Tracker.work, List.getElem?_eq_getElem hn]
  rfl

/-- A FREE record that is left over when all groups have been resolved (R48). -/
theorem spare_record {k : Nat} (spare : (line.fresh opens t.prev).length ≤ k)
    (at_k : (freeRecords (t.continued line).records)[k]? = some n) :
    (t.resolved opens excursion line).records[n]? = (t.continued line).records[n]? := by
  refine (opened_round opens excursion t line).records n fun granted => ?_
  rw [seekers_eq, List.length_map] at granted
  have apart := List.disjoint_take_drop (freeRecords_nodup (t.continued line).records) spare
  refine apart granted (List.mem_iff_getElem?.mpr ⟨0, ?_⟩)
  rwa [List.getElem?_drop, Nat.add_zero]

/-! ## Groups without a hide -/

theorem label_of_untracked (hg : g ∈ runGroups t.prev line.runs) (no_hide : g.hides = [])
    (asked : g.untracked = true ∨ opens = false) :
    ∀ i ∈ g.members, ((t.current opens excursion line).real[i]?).map RealRun.label = some .untracked := fun i hi => by
  refine current_label hg hi ?_
  have elsewhere : ∀ a ∈ runGroups t.prev line.runs, a.hides ≠ [] → i ∉ a.members := fun a ha carries in_a =>
    carries ((runGroups_apart t.prev line.runs).eq_of_member hg ha hi in_a ▸ no_hide)
  rw [(opened_round opens excursion t line).untracked g hg no_hide asked i hi,
    (continued_round t line).unlabelled i elsewhere, work_label hg hi]
  rfl

/-- A hide opened over a single run, field by field (R48). -/
theorem opened_eq {i : Nat} {run : FormRun} (at_i : line.runs[i]? = some run) (excursion : Bool) (seq : Nat) :
    ({ members := [i], keys := [] } : Gathering RunKey).opened excursion line seq = { HideRec.free with
      state := .isOpen, seq := seq, firstLine := line.number, lastLine := line.number
      leading := line.s, trailing := line.s, cellMin := run.first, cellMax := run.last, lineCount := 1
      flags := if excursion then BitVec.ofNat 16 (2 ^ 8) else 0 } := by
  have reversed : HideRec.free.flags ||| Flag.reversed.mask = BitVec.ofNat 16 (2 ^ 8) := rfl
  rw [Gathering.opened, groupExtent_single at_i, HideRec.opened, setFlagIf_eq, ← reversed]
  rfl

section fresh

variable {k i : Nat} (at_k : (line.fresh opens t.prev)[k]? = some i)
include at_k

theorem seeker_of_fresh : (seekers opens (runGroups t.prev line.runs))[k]? = some { members := [i], keys := [] } := by
  rw [seekers_eq, List.getElem?_map, at_k, Option.map_some]

/-- A run without a key gets the label of the FREE record whose turn it is, or is UNTRACKED (R48, R49). -/
theorem label_of_fresh : ((t.current opens excursion line).real[i]?).map RealRun.label
    = some (grantedLabel (freeRecords (t.continued line).records)[k]?) := by
  have seeker := seeker_of_fresh at_k
  obtain ⟨in_groups, -, no_hide, -⟩ := mem_seekers.mp (List.mem_of_getElem? seeker)
  have member : i ∈ [i] := List.mem_singleton_self i
  refine current_label in_groups member ?_
  have elsewhere : ∀ a ∈ runGroups t.prev line.runs, a.hides ≠ [] → i ∉ a.members := fun a ha carries in_a =>
    carries ((runGroups_apart t.prev line.runs).eq_of_member in_groups ha member in_a ▸ no_hide)
  rw [(opened_round opens excursion t line).granted k _ seeker i member, (continued_round t line).unlabelled i elsewhere,
    work_label in_groups member]
  rfl

/-- The hide that a run without a key opens in a FREE record (R48, R54). -/
theorem record_of_fresh {run : FormRun} (at_i : line.runs[i]? = some run)
    (at_n : (freeRecords (t.continued line).records)[k]? = some n) :
    ∃ r', (segmentLine opens excursion lockOpen line t).trk.records[n]? = some r'
      ∧ Flagged line (t.current opens excursion line) lockOpen n { HideRec.free with
          state := .isOpen, seq := nextSeq^[k] t.counter, firstLine := line.number, lastLine := line.number
          leading := line.s, trailing := line.s, cellMin := run.first, cellMax := run.last, lineCount := 1
          flags := if excursion then BitVec.ofNat 16 (2 ^ 8) else 0 } r' := by
  have record := (opened_round opens excursion t line).opened k _ n (seeker_of_fresh at_k) at_n
  rw [opened_eq at_i, (continued_round t line).counter] at record
  exact segmented_flagged record

end fresh

/-! ## The closing hides (R52, R53) -/

theorem mem_closing : n ∈ (segmentLine opens excursion lockOpen line t).closing
    ↔ ∃ r, (segmentLine opens excursion lockOpen line t).trk.records[n]? = some r ∧ r.state = .isOpen
      ∧ ¬ PresentIn (t.current opens excursion line) n := by
  refine (sortByAge_spec _ _).1.mem_iff.trans (mem_indicesFrom.trans ?_)
  constructor
  · rintro ⟨j, r, rfl, at_j, closes⟩
    rw [Nat.zero_add] at closes ⊢
    rw [Bool.and_eq_true, beq_iff_eq, Bool.not_eq_true', ← Bool.not_eq_true, present_iff] at closes
    exact ⟨r, at_j, closes⟩
  · rintro ⟨r, at_n, closes⟩
    refine ⟨n, r, (Nat.zero_add n).symm, at_n, ?_⟩
    rw [Bool.and_eq_true, beq_iff_eq, Bool.not_eq_true', ← Bool.not_eq_true, present_iff]
    exact closes

end segmentation

/-! ## The statements -/

/-- Settles O22: the first round continues and merges, the second opens, and the flags and the closing follow from the current
list. -/
theorem lineSegmented : Obligations.LineSegmented := by
  intro opens excursion lockOpen line t groups g cur labelled flagged free fresh continued survivor
  have first := continued_round t line
  have second := opened_round opens excursion t line
  have free_eq : freeRecords (t.continued line).records = free := freeRecords_continued
  have fresh_count : (seekers opens groups).length = fresh.length := by rw [seekers_eq, List.length_map]; rfl
  have goes_on : ∀ gr ∈ groups, gr.hides ≠ [] → ∀ r, t.records[gr.survivor (t.work line)]? = some r → r.state = .isOpen →
      continued gr (gr.survivor (t.work line)) (gr.joined line (t.work line)) := by
    intro gr hgr carries r at_s isOpen lo hi least greatest
    rw [← extend_eq least greatest]
    exact survivor_continued hgr carries at_s isOpen
  refine ⟨fun gr hgr n r single at_n isOpen => ?one, fun gr hgr several => ?several, fun m hm => ?merges,
    fun k n spare at_k => ?spare, ?count, ?previous, ?held, fun gr hgr no_hide asked => label_of_untracked hgr no_hide asked,
    fun k i run at_k at_i => ?fresh, ?counter, ?refused, rfl, fun n r at_n not_free apart => ?others, fun n => mem_closing,
    (sortByAge_spec _ _).2⟩
  case one =>
    have carries : gr.hides ≠ [] := by rw [single]; exact List.cons_ne_nil n []
    have survives : gr.survivor (t.work line) = n := List.mem_singleton.mp (single ▸ survivor_mem carries)
    have joined : gr.joined line (t.work line) = r := (joined_of_single single).trans (work_hide at_n)
    subst survives
    exact ⟨group_labelled hgr carries, joined ▸ goes_on gr hgr carries r at_n isOpen⟩
  case several =>
    have carries : gr.hides ≠ [] := List.ne_nil_of_length_pos (by omega)
    refine ⟨gr.survivor (t.work line), survivor_mem carries, group_labelled hgr carries,
      fun n hn => ⟨age_le_survivor (w := t.work line) hn, fun other => ?_⟩, fun r at_s isOpen => ?_⟩
    · exact mem_roundMerges.mpr ⟨gr, hgr, mem_merges.mpr ⟨mem_absorbed.mpr ⟨hn, other⟩, rfl⟩⟩
    · rw [← joined_eq at_s]
      exact goes_on gr hgr carries r at_s isOpen
  case merges =>
    obtain ⟨gr, hgr, hm⟩ := mem_roundMerges.mp hm
    obtain ⟨absorbed, survives, differ⟩ := hides_of_mem_merges hm
    refine ⟨gr, hgr, absorbed, survives, differ, ?_⟩
    rw [(mem_merges.mp hm).2]
    exact group_labelled hgr (List.ne_nil_of_mem absorbed)
  case spare =>
    rw [← free_eq] at at_k
    have record := (segmented_record opens excursion lockOpen line t n).trans (congrArg _ (spare_record spare at_k))
    obtain ⟨in_range, is_free⟩ := mem_freeRecords.mp (List.mem_of_getElem? at_k)
    have hn : n < t.records.length := in_range.trans_eq first.length
    refine ⟨fun freed => ?_, fun apart => ?_⟩
    · obtain ⟨gr, hgr, absorbed⟩ := absorbed_iff.mp freed
      rw [record, continued_of_absorbed hgr absorbed hn, Option.map_some, lineFlags_of_free rfl]
    · have same := continued_of_not_carried apart
      rw [List.getD_eq_getElem?_getD, same, List.getElem?_eq_getElem hn, Option.getD_some] at is_free
      rw [record, same, List.getElem?_eq_getElem hn, Option.map_some, lineFlags_of_free is_free]
  case count => exact (mapFrom_length _ _ _).trans (second.length.trans first.length)
  case previous =>
    refine second.prev.trans (first.prev.trans ?_)
    rw [← roundMerges_eq (opens := opens) (excursion := excursion)]
    rfl
  case held =>
    refine second.held.trans (first.held.trans ?_)
    rw [← roundMerges_eq (opens := opens) (excursion := excursion)]
    rfl
  case fresh =>
    have label := label_of_fresh (excursion := excursion) at_k
    rw [free_eq] at label
    refine ⟨fun few => ?_, fun n at_n => ⟨?_, record_of_fresh at_k at_i (free_eq ▸ at_n)⟩⟩
    · rwa [List.getElem?_eq_none few] at label
    · rwa [at_n] at label
  case counter => exact second.counter.trans (by rw [fresh_count, free_eq, first.counter]; rfl)
  case refused => exact second.refused.trans (by rw [fresh_count, free_eq, first.refused]; exact Nat.zero_add _)
  case others =>
    have same := (continued_of_not_carried (line := line) apart).trans at_n
    refine segmented_flagged (resolved_of_not_free same fun is_free => not_free ?_)
    rw [← free_eq]
    exact mem_freeRecords.mpr ⟨(List.getElem?_eq_some_iff.mp same).1, by
      rw [List.getD_eq_getElem?_getD, same, Option.getD_some, is_free]⟩

/-- Settles O21: without openings a record that is OPEN after the line is a survivor or stands as it stood. -/
theorem noOpeningInDrain : Obligations.NoOpeningInDrain := by
  intro excursion lockOpen line t g
  have first := continued_round t line
  have second := opened_round false excursion t line
  have no_seeker : seekers false (runGroups t.prev line.runs) = [] := by simp [seekers]
  have refused : g.refused = 0 := second.refused.trans (by rw [no_seeker, first.refused, List.length_nil, Nat.zero_sub]; rfl)
  refine ⟨second.counter.trans (by rw [no_seeker, first.counter, List.length_nil, Nat.zero_min]; rfl), refused, ?_,
    fun n r at_n isOpen => ?_⟩
  · exact congrArg (satAdd 65535 t.overflow) refused
  · rw [segmented_record, second.records n (by simp [no_seeker]), Option.map_eq_some_iff] at at_n
    obtain ⟨r₁, at_n, rfl⟩ := at_n
    rw [lineFlags_state] at isOpen
    rw [lineFlags_seq]
    exact open_of_continued at_n isOpen

end Sys2Proof.Machine
end

section
/-! PROOFS. The interior gap spans of a line (O25), the cells that a closure asks for, and the areas of merged gaps (chapter 4). -/

namespace Sys2Proof.Machine

/-! ## Interior gap spans (R61) -/

theorem blind_eq_false_iff {missing : List Span} {first last : Nat} :
    blind missing first last = false ↔ ∀ m ∈ missing, m.last < first ∨ last < m.first := by
  rw [blind, List.any_eq_false]
  refine forall₂_congr fun m _ => ?_
  rw [Bool.and_eq_true, decide_eq_true_iff, decide_eq_true_iff]
  omega

/-- The interior gap span between two real runs of one hide, where it is not blind. -/
def SpanBetween (missing : List Span) (r r' : RealRun) (p : GapSpan) : Prop :=
  ∃ n, r.label = .hide n ∧ r'.label = .hide n ∧ p = { first := r.last + 1, last := r'.first - 1, hide := n, gap := none }
    ∧ ∀ m ∈ missing, m.last < p.first ∨ p.last < m.first

theorem mem_interiorSpans_cons {missing : List Span} {r r' : RealRun} {rest : List RealRun} {p : GapSpan} :
    p ∈ interiorSpans missing (r :: r' :: rest) ↔ SpanBetween missing r r' p ∨ p ∈ interiorSpans missing (r' :: rest) := by
  rw [interiorSpans, List.mem_append]
  refine or_congr_left ?_
  constructor
  · intro formed
    split at formed
    next a b label label' =>
      split at formed
      next seen =>
        obtain ⟨rfl, clear⟩ := seen
        obtain rfl := List.mem_singleton.mp formed
        exact ⟨a, label, label', rfl, blind_eq_false_iff.mp clear⟩
      next => exact absurd formed List.not_mem_nil
    next => exact absurd formed List.not_mem_nil
  · rintro ⟨n, label, label', rfl, clear⟩
    simp only [label, label']
    rw [if_pos ⟨trivial, blind_eq_false_iff.mpr clear⟩]
    exact List.mem_singleton_self _

/-- Settles O25, by induction on the real runs. -/
theorem interiorSpansFormed : Obligations.InteriorSpansFormed := by
  intro missing real p
  suffices between : p ∈ interiorSpans missing real ↔
      ∃ k r r', real[k]? = some r ∧ real[k + 1]? = some r' ∧ SpanBetween missing r r' p by
    refine between.trans (exists_congr fun k => exists₂_congr fun r r' => ?_)
    exact ⟨fun ⟨at_k, next, n, span⟩ => ⟨n, at_k, next, span⟩, fun ⟨n, at_k, next, span⟩ => ⟨at_k, next, n, span⟩⟩
  induction real with
  | nil => simp [interiorSpans]
  | cons r rest ih =>
    cases rest with
    | nil => simp [interiorSpans]
    | cons r' rest =>
      rw [mem_interiorSpans_cons, ih]
      constructor
      · rintro (here | ⟨k, later⟩)
        · exact ⟨0, r, r', rfl, rfl, here⟩
        · exact ⟨k + 1, later⟩
      · rintro ⟨_ | k, a, b, at_k, next, span⟩
        · cases at_k
          cases next
          exact .inl span
        · exact .inr ⟨k, a, b, at_k, next, span⟩

/-! ## Cells covered (R65, R69) -/

/-- A cell under a real run of a hide and in no missing span (R65, R71). -/
def CellCovered (missing : List Span) (runs : List RealRun) (hide c : Nat) : Prop :=
  (∃ x ∈ runs, x.label = .hide hide ∧ x.first ≤ c ∧ c ≤ x.last) ∧ ∀ m ∈ missing, c < m.first ∨ m.last < c

/-- A cell inside one of some spans. -/
def CellInside (spans : List GapSpan) (c : Nat) : Prop := ∃ p ∈ spans, p.first ≤ c ∧ c ≤ p.last

theorem underRun_iff {runs : List RealRun} {hide c : Nat} : underRun runs hide c = true ↔ CellCovered [] runs hide c := by
  simp [underRun, CellCovered, and_assoc]

theorem coveredBy_iff {missing : List Span} {runs : List RealRun} {hide c : Nat} :
    coveredBy missing runs hide c = true ↔ CellCovered missing runs hide c := by
  rw [coveredBy, Bool.and_eq_true, underRun_iff, Bool.not_eq_true', List.any_eq_false]
  refine and_congr (and_iff_left nofun) (forall₂_congr fun m _ => ?_)
  rw [Bool.and_eq_true, decide_eq_true_iff, decide_eq_true_iff]
  omega

theorem insideSpans_iff {spans : List GapSpan} {c : Nat} : insideSpans spans c = true ↔ CellInside spans c := by
  simp [insideSpans, CellInside]

theorem everyCell_iff {spans : List GapSpan} {test : Nat → Bool} :
    everyCell spans test = true ↔ ∀ p ∈ spans, ∀ c, p.first ≤ c → c ≤ p.last → test c = true := by
  rw [everyCell, List.all_eq_true]
  refine forall₂_congr fun p _ => ?_
  rw [List.all_eq_true]
  constructor
  · intro every c from_first to_last
    have at_c := every (c - p.first) (List.mem_range.mpr (by omega))
    rwa [Nat.add_sub_cancel' from_first] at at_c
  · intro every k hk
    exact every _ (Nat.le_add_right _ _) (by have := List.mem_range.mp hk; omega)

theorem closedAgainst_iff {spans others : List GapSpan} {missing : List Span} {runs : List RealRun} {hide : Nat} :
    closedAgainst spans others missing runs hide = true ↔
      ∀ p ∈ spans, ∀ c, p.first ≤ c → c ≤ p.last → CellInside others c ∨ CellCovered missing runs hide c := by
  simp only [closedAgainst, everyCell_iff, Bool.or_eq_true, insideSpans_iff, coveredBy_iff]

/-! ## The records of a group and their areas (R63, R66) -/

theorem nodup_eraseDups {α : Type} [DecidableEq α] : ∀ l : List α, l.eraseDups.Nodup
  | [] => by simp
  | a :: l => by
    have shorter : (l.filter fun b => !b == a).length < (a :: l).length := Nat.lt_succ_of_le (List.length_filter_le _ l)
    rw [List.eraseDups_cons]
    refine List.nodup_cons.mpr ⟨fun again => ?_, nodup_eraseDups _⟩
    simpa using (List.mem_filter.mp (List.mem_eraseDups.mp again)).2
  termination_by l => l.length
  decreasing_by exact shorter

theorem gapRecords_nodup (g : Gathering SpanKey) : g.gapRecords.Nodup := nodup_eraseDups _

/-- The records of a group without the one that continues (R64). -/
def Gathering.otherRecords (g : Gathering SpanKey) (n : Nat) : List Nat := g.gapRecords.filter (· != n)

theorem mem_otherRecords {g : Gathering SpanKey} {n x : Nat} : x ∈ g.otherRecords n ↔ x ∈ g.gapRecords ∧ x ≠ n := by
  simp [Gathering.otherRecords]

/-- The areas of a group's records and a strip, added to the one that continues, are their sum cut at the top (R66). -/
theorem mergedArea_eq {g : Gathering SpanKey} {n : Nat} (hn : n ∈ g.gapRecords) (area : Nat → Nat) (strip : Nat) :
    addArea ((g.otherRecords n).foldl (fun a x => addArea a (area x)) (area n)) strip
      = min areaTop ((g.gapRecords.map area).sum + strip) := by
  have sum_eq : area n + ((g.otherRecords n).map area).sum = (g.gapRecords.map area).sum := by
    have others : g.otherRecords n = g.gapRecords.erase n := ((gapRecords_nodup g).erase_eq_filter n).symm
    rw [others]
    exact List.sum_map_erase area hn
  have fold := foldl_satAdd (l := (g.otherRecords n).map area ++ [strip]) (by simp) areaTop (area n)
  rw [List.foldl_append, List.foldl_map, List.sum_append, List.sum_singleton, ← Nat.add_assoc, sum_eq] at fold
  exact fold

end Sys2Proof.Machine
end

section
/-! PROOFS. What continues, ends and opens a gap, and the gap tracker's way through a line (O26). -/

namespace Sys2Proof.Machine

section work

variable {v : GapView} {w : GapWork} {g : Gathering SpanKey} {n x : Nat} {r : GapRec}

/-! ## The work's records -/

theorem record_eq (at_n : w.table[n]? = some (some r)) : w.record n = r := by
  rw [GapWork.record, List.getD_eq_getElem?_getD, at_n]
  rfl

theorem free_table_length (w : GapWork) (ns : List Nat) : (w.free ns).table.length = w.table.length :=
  setAll_length ns none w.table

theorem free_table_getElem? (hx : x < w.table.length) (ns : List Nat) :
    (w.free ns).table[x]? = if x ∈ ns then some none else w.table[x]? := by
  refine (setAll_getElem? ns none w.table x).trans ?_
  rw [List.getElem?_eq_getElem hx]
  rfl

/-! ## A gap's end (R67, R68, R71) -/

theorem isHole_iff : isHole v r (v.lastSpans n) = true ↔ r.topClosed = true ∧ r.bottomOpen = false
    ∧ ∀ p ∈ v.prevSpans, p.gap = some n → ∀ c, p.first ≤ c → c ≤ p.last → CellCovered v.curMissing v.curReal r.hide c := by
  simp only [isHole, Bool.and_eq_true, Bool.not_eq_true', everyCell_iff, coveredBy_iff, and_assoc, GapView.lastSpans,
    List.mem_filter, beq_iff_eq, and_imp]

theorem endGap_frame (v : GapView) (w : GapWork) (n : Nat) :
    (endGap v w n).table = w.table.set n none ∧ (endGap v w n).order = w.order.filter (· ≠ n)
      ∧ (endGap v w n).spans = w.spans := by
  have order : (w.free [n]).order = w.order.filter (· ≠ n) := by simp only [GapWork.free, List.mem_singleton]
  unfold endGap
  dsimp only
  split <;> exact ⟨rfl, order, rfl⟩

theorem endGap_records (at_n : w.table[n]? = some (some r)) : (endGap v w n).records =
    if isHole v r (v.lastSpans n) then w.records.modify r.hide (HideRec.countHole v.limit r.area) else w.records := by
  unfold endGap
  rw [record_eq at_n]
  dsimp only
  split <;> rfl

/-! ## A gap continued (R64 to R66, R70) -/

/-- The last spans of a group's records (R65). -/
def GapView.spansBefore (v : GapView) (g : Gathering SpanKey) : List GapSpan :=
  v.prevSpans.filter fun p => p.gap.any fun x => decide (x ∈ g.gapRecords)

/-- The record of a group that continues, with the others' areas and the line's strips (R64 to R66). -/
def GapView.merged (v : GapView) (w : GapWork) (g : Gathering SpanKey) (n : Nat) : GapRec :=
  let cur := g.members.filterMap (w.spans[·]?)
  { hide := (w.record n).hide
    topClosed := g.gapRecords.all (fun x => (w.record x).topClosed)
      && closedAgainst cur (v.spansBefore g) v.prevMissing v.prevReal (w.record n).hide
    bottomOpen := g.gapRecords.any (fun x => (w.record x).bottomOpen)
      || !closedAgainst (v.spansBefore g) cur v.curMissing v.curReal (w.record n).hide
    area := addArea ((g.otherRecords n).foldl (fun a x => addArea a (w.record x).area) (w.record n).area) (v.strip cur) }

theorem continueGap_of_no_record (no_record : g.gapRecords = []) : continueGap v w g = w := by
  rw [continueGap, no_record]

theorem continueGap_of_untracked (carries : g.gapRecords ≠ []) (untracked : g.untrackedGap = true) :
    continueGap v w g = w.free g.gapRecords := by
  obtain ⟨m, rest, e⟩ := List.exists_cons_of_ne_nil carries
  simp only [continueGap, e, untracked, if_true]

theorem carried_of_oldest (oldest : w.order.find? (fun x => decide (x ∈ g.gapRecords)) = some n) : n ∈ g.gapRecords := by
  simpa using List.find?_some oldest

theorem continueGap_of_oldest (tracked : g.untrackedGap = false)
    (oldest : w.order.find? (fun x => decide (x ∈ g.gapRecords)) = some n) :
    continueGap v w g = { w.free (g.otherRecords n) with
      table := (w.free (g.otherRecords n)).table.set n (some (v.merged w g n))
      spans := g.members.foldl (fun l i => l.modify i fun p => { p with gap := some n }) w.spans } := by
  obtain ⟨m, rest, e⟩ := List.exists_cons_of_ne_nil (List.ne_nil_of_mem (carried_of_oldest oldest))
  rw [e] at oldest
  simp only [continueGap, GapView.merged, GapView.spansBefore, Gathering.otherRecords, e, tracked, oldest, Option.getD_some,
    Bool.false_eq_true, if_false]
  rfl

theorem continueGap_frame (v : GapView) (w : GapWork) (g : Gathering SpanKey) :
    (continueGap v w g).records = w.records ∧ (continueGap v w g).refused = w.refused := by
  unfold continueGap
  split
  · exact ⟨rfl, rfl⟩
  · split <;> exact ⟨rfl, rfl⟩

theorem merged_hide (at_n : w.table[n]? = some (some r)) : (v.merged w g n).hide = r.hide := by
  rw [GapView.merged, record_eq at_n]

theorem merged_topClosed (at_n : w.table[n]? = some (some r)) : (v.merged w g n).topClosed = true ↔
    (∀ x ∈ g.gapRecords, (w.record x).topClosed = true)
      ∧ ∀ p ∈ g.members.filterMap (w.spans[·]?), ∀ c, p.first ≤ c → c ≤ p.last →
        CellInside (v.spansBefore g) c ∨ CellCovered v.prevMissing v.prevReal r.hide c := by
  simp only [GapView.merged, record_eq at_n, Bool.and_eq_true, List.all_eq_true, closedAgainst_iff]

theorem merged_bottomOpen (at_n : w.table[n]? = some (some r)) : (v.merged w g n).bottomOpen = false ↔
    (∀ x ∈ g.gapRecords, (w.record x).bottomOpen = false)
      ∧ ∀ p ∈ v.spansBefore g, ∀ c, p.first ≤ c → c ≤ p.last →
        CellInside (g.members.filterMap (w.spans[·]?)) c ∨ CellCovered v.curMissing v.curReal r.hide c := by
  simp only [GapView.merged, record_eq at_n, Bool.or_eq_false_iff, List.any_eq_false, Bool.not_eq_true, Bool.not_eq_false',
    closedAgainst_iff]

/-! ## A gap opened (R69, R70) -/

/-- The record that a span without a label opens (R69). -/
def GapView.opened (v : GapView) (p : GapSpan) : GapRec :=
  { hide := p.hide, bottomOpen := false, area := addArea 0 (v.strip [p]), topClosed := everyCell [p] (underRun v.prevReal p.hide) }

theorem opened_area (v : GapView) (p : GapSpan) :
    (v.opened p).area = min areaTop (cellWidth v.cumw p.first p.last * v.advance) := by
  simp [GapView.opened, GapView.strip, addArea, satAdd]

theorem opened_topClosed {p : GapSpan} : (v.opened p).topClosed = true ↔
    ∀ c, p.first ≤ c → c ≤ p.last → CellCovered [] v.prevReal p.hide c := by
  simp only [GapView.opened, everyCell_iff, List.mem_singleton, forall_eq, underRun_iff]

theorem openGap_of_keys (carries : g.keys ≠ []) : openGap v w g = w := by
  rw [openGap, if_pos (by simpa using carries)]

section single

variable {i : Nat} {p : GapSpan}

theorem openGap_of_full (keyless : g.keys = []) (single : g.members = [i]) (at_i : w.spans[i]? = some p)
    (full : ∀ x ∈ w.table, x ≠ none) :
    openGap v w g = { w with records := w.records.modify p.hide (HideRec.setFlag .gapClamp), refused := w.refused + 1 } := by
  have no_free : w.table.findIdx? Option.isNone = none :=
    List.findIdx?_eq_none_iff.mpr fun x hx => by simpa [Option.isSome_iff_ne_none] using full x hx
  simp [openGap, keyless, single, at_i, no_free]

theorem openGap_of_free (keyless : g.keys = []) (single : g.members = [i]) (at_i : w.spans[i]? = some p)
    (free : w.table[n]? = some none) (lowest : ∀ j, j < n → w.table[j]? ≠ some none) :
    openGap v w g = { w with
      table := w.table.set n (some (v.opened p)), order := w.order ++ [n], spans := w.spans.set i { p with gap := some n } } := by
  obtain ⟨hn, at_n⟩ := List.getElem?_eq_some_iff.mp free
  have first_free : w.table.findIdx? Option.isNone = some n := by
    refine List.findIdx?_eq_some_iff_getElem.mpr ⟨hn, by rw [at_n]; rfl, fun j hj is_free => lowest j hj ?_⟩
    rw [List.getElem?_eq_getElem (hj.trans hn), Option.isNone_iff_eq_none.mp is_free]
  simp [openGap, GapView.opened, keyless, single, at_i, first_free, List.modify_eq_set_getElem?]

end single

end work

/-! ## A line examined (section 4.3) -/

/-- The records that end on a line are those that no group carries (R67). -/
theorem endedRecords_eq (order : List Nat) (groups : List (Gathering SpanKey)) :
    (order.filter fun n => !groups.any fun x => decide (n ∈ x.gapRecords))
      = order.filter fun n => decide (∀ x ∈ groups, n ∉ x.gapRecords) :=
  List.filter_congr fun n _ => Bool.eq_iff_iff.mpr (by simp)

/-! ## The statement -/

/-- Settles O26: the end, the continuation and the opening of a gap, and their order on a line. -/
theorem gapEnds : Obligations.GapEnds := by
  unfold Obligations.GapEnds
  intro under inside top
  refine ⟨?ending, ?continuing, ?opening, ?line⟩
  case ending =>
    intro v w n r at_n w' closed
    obtain ⟨table, order, spans⟩ := endGap_frame v w n
    have counted := endGap_records (v := v) at_n
    refine ⟨table, order, spans, fun notch => ?_, fun hole => ?_⟩
    · exact counted.trans (if_neg fun hole => notch (isHole_iff.mp hole))
    · exact counted.trans (if_pos (isHole_iff.mpr hole))
  case continuing =>
    intro v w g w' rs
    obtain ⟨records, refused⟩ := continueGap_frame v w g
    refine ⟨records, refused, continueGap_of_no_record, fun carries untracked => ?_, fun n r tracked oldest at_n => ?_⟩
    · rw [show w' = w.free rs from continueGap_of_untracked carries untracked]
      exact ⟨rfl, rfl, fun x hx => free_table_getElem? hx rs⟩
    · have carried : n ∈ rs := carried_of_oldest oldest
      obtain ⟨hn, -⟩ := List.getElem?_eq_some_iff.mp at_n
      intro cur before strips
      rw [show w' = _ from continueGap_of_oldest tracked oldest]
      refine ⟨List.filter_congr fun x _ => ?_, fun i => ?_, fun x hx other => ?_, v.merged w g n, ?_,
        merged_hide at_n, mergedArea_eq carried _ _, merged_topClosed at_n, merged_bottomOpen at_n⟩
      · simp only [mem_otherRecords, decide_eq_decide]
        tauto
      · refine (foldl_modify_getElem? (f := fun p : GapSpan => { p with gap := some n }) (fun _ => rfl) _ _ i).trans ?_
        by_cases member : i ∈ g.members <;> simp [member]
      · rw [List.getElem?_set_ne other.symm, free_table_getElem? hx]
        simp only [mem_otherRecords, other, ne_eq, not_false_eq_true, and_true]
        rfl
      · exact List.getElem?_set_self (by rwa [free_table_length])
  case opening =>
    intro v w g w'
    refine ⟨openGap_of_keys, fun i p keyless single at_i => ⟨openGap_of_full keyless single at_i, fun n free lowest => ?_⟩⟩
    exact ⟨v.opened p, openGap_of_free keyless single at_i free lowest, rfl, rfl, opened_area v p, opened_topClosed⟩
  case line =>
    intro cumw advance limit missing merges prevReal curReal records g g₁ v cur groups w₁ w₂ w₃
    simp only [w₃, w₂, ← endedRecords_eq]
    rfl

end Sys2Proof.Machine
end

section
/-! PROOFS. The cumulative widths and the strips of a line (O27; chapter 5). -/

namespace Sys2Proof.Machine

/-! ## The cumulative width table (R74, R75) -/

theorem sumsFrom_length (ws : List Nat) (acc : Nat) : (sumsFrom acc ws).length = ws.length + 1 := by
  induction ws generalizing acc with
  | nil => rfl
  | cons w ws ih => rw [sumsFrom, List.length_cons, ih, List.length_cons]

theorem sumsFrom_getElem? {ws : List Nat} {i : Nat} (h : i ≤ ws.length) (acc : Nat) :
    (sumsFrom acc ws)[i]? = some (acc + (ws.take i).sum) := by
  induction ws generalizing acc i with
  | nil =>
    obtain rfl : i = 0 := Nat.le_zero.mp h
    rfl
  | cons w ws ih =>
    cases i with
    | zero => rfl
    | succ i =>
      rw [sumsFrom, List.getElem?_cons_succ, ih (Nat.le_of_succ_le_succ h), List.take_succ_cons, List.sum_cons, Nat.add_assoc]

/-- CUMW[i] is the sum of the first `i` widths (R74). -/
theorem deriveCumw_getD {ws : List Nat} {i : Nat} (h : i ≤ ws.length) : (deriveCumw ws).getD i 0 = (ws.take i).sum := by
  rw [deriveCumw, List.getD_eq_getElem?_getD, sumsFrom_getElem? h, Option.getD_some, Nat.zero_add]

theorem deriveCumw_succ {ws : List Nat} {i w : Nat} (at_i : ws[i]? = some w) :
    (deriveCumw ws).getD (i + 1) 0 = (deriveCumw ws).getD i 0 + w := by
  obtain ⟨hi, rfl⟩ := List.getElem?_eq_some_iff.mp at_i
  rw [deriveCumw_getD hi, deriveCumw_getD hi.le, List.sum_take_succ]

/-- The difference of two cumulative widths is the sum of the widths between them (R75). -/
theorem cellWidth_deriveCumw {ws : List Nat} {first last : Nat} (ordered : first ≤ last) (inside : last < ws.length) :
    cellWidth (deriveCumw ws) first last = ((ws.drop first).take (last + 1 - first)).sum := by
  have split : ws.take (last + 1) = ws.take first ++ (ws.drop first).take (last + 1 - first) := by
    rw [← List.take_add, Nat.add_sub_cancel' (by omega)]
  rw [cellWidth, deriveCumw_getD inside, deriveCumw_getD (by omega), split, List.sum_append, Nat.add_sub_cancel_left]

/-! ## Strips (R77) -/

theorem stripWidth_deriveCumw {ws : List Nat} {runs : List RealRun} (inside : ∀ x ∈ runs, x.first ≤ x.last ∧ x.last < ws.length) :
    stripWidth (deriveCumw ws) runs = (runs.map fun x => ((ws.drop x.first).take (x.last + 1 - x.first)).sum).sum := by
  rw [stripWidth, List.map_congr_left fun x hx => cellWidth_deriveCumw (inside x hx).1 (inside x hx).2]

section strip

variable {cumw : List Nat} {advance n : Nat} {cur : RunList} {r : HideRec}

theorem addStrip_of_no_run (no_run : cur.realOf n = []) : r.addStrip cumw advance cur n = r := by
  rw [HideRec.addStrip, if_pos (List.isEmpty_iff.mpr no_run)]

theorem addStrip_of_runs (runs : cur.realOf n ≠ []) : r.addStrip cumw advance cur n =
    { r with covered := min areaTop (r.covered + stripWidth cumw (cur.realOf n) * advance) } := by
  rw [HideRec.addStrip, if_neg (mt List.isEmpty_iff.mp runs), addArea, satAdd]

end strip

/-- Settles O27: every entry of CUMW is the sum of the widths before it, and a strip adds the differences of its runs. -/
theorem cellWidthIsSum : Obligations.CellWidthIsSum := by
  unfold Obligations.CellWidthIsSum
  refine ⟨fun ws => ⟨sumsFrom_length ws 0, sumsFrom_getElem? (Nat.zero_le _) 0, fun i w => deriveCumw_succ,
    fun first last => cellWidth_deriveCumw⟩, ?strip⟩
  case strip =>
    intro ws advance n cur r own inside
    refine ⟨addStrip_of_no_run, fun runs => ?_⟩
    rw [← stripWidth_deriveCumw inside]
    exact addStrip_of_runs runs

end Sys2Proof.Machine
end

section
/-! PROOFS. The rounding to whole steps (O29), the trimmed area and the value of a closed hide (O28; chapter 5). -/

namespace Sys2Proof.Machine

/-! ## Rounding to whole steps (R84) -/

section rounding

variable {q t : Nat}

/-- Every mode answers the quotient or one step more, and the latter only over a remainder. -/
theorem roundedValue_cases (hq : 0 < q) (mode : Rounding) :
    roundedValue mode q t = t / q ∨ (0 < t % q ∧ roundedValue mode q t = t / q + 1) := by
  cases mode <;> simp only [roundedValue]
  case down => exact .inl trivial
  case nearest =>
    split
    · exact .inr ⟨by omega, rfl⟩
    · exact .inl rfl
  case up =>
    split
    · exact .inr ⟨‹_›, rfl⟩
    · exact .inl rfl

theorem roundedValue_down_floor (hq : 0 < q) : roundedValue .down q t * q ≤ t ∧ t < (roundedValue .down q t + 1) * q :=
  ⟨Nat.div_mul_le_self t q, Nat.lt_mul_of_div_lt (Nat.lt_succ_self _) hq⟩

/-- NEAREST lies in the half-open interval of one step around T, the upper end its own: an exact half goes up. -/
theorem roundedValue_nearest_within (hq : 0 < q) :
    2 * roundedValue .nearest q t * q ≤ 2 * t + q ∧ 2 * t + q < 2 * (roundedValue .nearest q t + 1) * q := by
  have parts := Nat.div_add_mod' t q
  have rest := Nat.mod_lt t hq
  have whole := Nat.div_mul_le_self t q
  simp only [roundedValue]
  split <;> constructor <;> linarith

theorem le_roundedValue_up (hq : 0 < q) : t ≤ roundedValue .up q t * q := by
  have parts := Nat.div_add_mod' t q
  have rest := Nat.mod_lt t hq
  simp only [roundedValue]
  split <;> linarith

theorem roundedValue_up_least {v : Nat} (reaches : t ≤ v * q) : roundedValue .up q t ≤ v := by
  simp only [roundedValue]
  split
  next rest =>
    have below : t / q * q < v * q := by
      have parts := Nat.div_add_mod' t q
      omega
    exact Nat.lt_of_mul_lt_mul_right below
  next => exact Nat.div_le_of_le_mul (Nat.mul_comm v q ▸ reaches)

end rounding

/-- Settles O29: one step at most above the quotient, and each mode by its own inequalities. -/
theorem roundedBySteps : Obligations.RoundedBySteps := by
  unfold Obligations.RoundedBySteps
  intro q t hq
  refine ⟨fun mode => ?_, roundedValue_down_floor hq, roundedValue_nearest_within hq,
    le_roundedValue_up hq, fun v => roundedValue_up_least⟩
  have steps := roundedValue_cases (t := t) hq mode
  omega

/-! ## The trimmed area (R81) -/

section trim

variable {c : CalibRec} {gross : Nat}

/-- TRIM_PPM in range leaves the factor positive, so the trimmed area is a floor of integers. -/
theorem trimmed_eq_floor (inRange : c.InRange) : (trimmed c gross : Int) = gross * (1000000 + c.trimPpm) / 1000000 := by
  obtain ⟨low, -⟩ := inRange
  rw [trimmed, Int.natCast_div, Nat.cast_mul, Int.toNat_of_nonneg (by omega)]
  rfl

theorem trimmed_floor (inRange : c.InRange) : (trimmed c gross : Int) * 1000000 ≤ gross * (1000000 + c.trimPpm)
    ∧ gross * (1000000 + c.trimPpm) < (trimmed c gross + 1 : Int) * 1000000 := by
  rw [trimmed_eq_floor inRange]
  exact ⟨Int.ediv_mul_le _ (by decide), Int.lt_ediv_add_one_mul_self _ (by decide)⟩

/-- The product of an accumulator of 64 bits and the factor fits 96 bits (R81). -/
theorem trim_product_lt (inRange : c.InRange) (fits : gross < 2 ^ 64) : (gross * (1000000 + c.trimPpm) : Int) < 2 ^ 96 := by
  obtain ⟨low, high, -⟩ := inRange
  calc (gross * (1000000 + c.trimPpm) : Int) ≤ gross * 1020000 := by gcongr; omega
    _ < 2 ^ 96 := by omega

theorem trimmed_of_no_trim (untrimmed : c.trimPpm = 0) : trimmed c gross = gross := by
  simp [trimmed, untrimmed]

theorem le_trimmed (inRange : c.InRange) (up : 0 < c.trimPpm) : gross ≤ trimmed c gross := by
  obtain ⟨-, below⟩ := trimmed_floor (gross := gross) inRange
  have : (0 : Int) ≤ gross * c.trimPpm := by positivity
  linarith

theorem trimmed_le (inRange : c.InRange) (down : c.trimPpm < 0) : trimmed c gross ≤ gross := by
  obtain ⟨above, -⟩ := trimmed_floor (gross := gross) inRange
  have : (gross * c.trimPpm : Int) ≤ 0 := mul_nonpos_of_nonneg_of_nonpos (by positivity) down.le
  linarith

/-- A gross area of 200 µm² or more is not trimmed to nothing (R81). -/
theorem trimmed_pos (inRange : c.InRange) (least : 200 ≤ gross) : 0 < trimmed c gross := by
  obtain ⟨-, below⟩ := trimmed_floor (gross := gross) inRange
  obtain ⟨low, -⟩ := inRange
  have : (200 * 980000 : Int) ≤ gross * (1000000 + c.trimPpm) := by gcongr <;> omega
  omega

end trim

/-! ## The value of a closed hide (R82 to R86) -/

section value

variable {c : CalibRec} {r : HideRec}

theorem isFragment_iff {t : Nat} : isFragment c t = true ↔ 0 < c.minHide ∧ t < c.minHide * 10 ^ 8 := by
  simp [isFragment]

theorem valued_of_fragment (fragment : isFragment c (trimmed c r.gross) = true) : r.valued c = r.setFlagIf true .fragment := by
  rw [HideRec.valued, if_pos fragment]
  rfl

theorem valued_of_value (whole : ¬ isFragment c (trimmed c r.gross) = true) : r.valued c =
    let v := roundedValue c.round c.unit.quantum (trimmed c r.gross)
    { r with value := some { value := min v c.unit.maxValue, unit := c.unit } }.setFlagIf
      (decide (c.unit.maxValue < v)) .overrange := by
  rw [HideRec.valued, if_neg whole]

theorem valued_frame (c : CalibRec) (r : HideRec) : { r.valued c with flags := r.flags, value := r.value } = r := by
  by_cases h : isFragment c (trimmed c r.gross) = true
  · rw [valued_of_fragment h, setFlagIf_eq]
  · rw [valued_of_value h, setFlagIf_eq]

end value

/-- Settles O28: the trim by its floor, the value by whether the hide is a FRAGMENT. -/
theorem areaTrimmedAndValued : Obligations.AreaTrimmedAndValued := by
  unfold Obligations.AreaTrimmedAndValued
  refine ⟨?trim, ?value⟩
  case trim =>
    intro c gross inRange least fits
    obtain ⟨above, below⟩ := trimmed_floor (gross := gross) inRange
    have ⟨low, high, _⟩ := inRange
    exact ⟨⟨by omega, by omega⟩, trim_product_lt inRange fits, above, below, trimmed_of_no_trim, le_trimmed inRange,
      trimmed_le inRange, trimmed_pos inRange least⟩
  case value =>
    intro c r t top v
    refine ⟨fun fragment => ?fragment, fun whole => ?whole, valued_frame c r⟩
    case fragment =>
      rw [valued_of_fragment (isFragment_iff.mpr fragment)]
      exact ⟨by rw [setFlagIf_eq], fun k => by rw [has_setFlagIf, Bool.true_and]⟩
    case whole =>
      rw [valued_of_value (mt isFragment_iff.mp whole)]
      have cut : (if top < v then top else v) = min v top := by rw [min_comm, min_def_lt]
      refine ⟨?_, fun k => ?_⟩
      · rw [cut, setFlagIf_eq]
        rfl
      · rw [has_setFlagIf, Bool.and_comm]
        rfl

end Sys2Proof.Machine
end

section
/-! PROOFS. Anchor samples, their ring, and the anchor chosen (O30; sections 6.2 and 6.4). -/

namespace Sys2Proof.Machine

/-! ## Choices whose ties the order of the list decides (R88, R92) -/

section choice

variable {α β : Type} [LinearOrder β] {S : α → α → Prop} {key : α → β} {pick : α → α → α} {a : α} {l : List α}

/-- A choice that agrees with the greater key on neighbours in the list's order is the choice of the greatest key. -/
theorem foldl_eq_foldl_keepGreatest (agree : ∀ a b, S a b → pick a b = keepGreatest key a b) (ordered : (a :: l).Pairwise S) :
    l.foldl pick a = l.foldl (keepGreatest key) a := by
  induction l generalizing a with
  | nil => rfl
  | cons b l ih =>
    obtain ⟨a_before, rest⟩ := List.pairwise_cons.mp ordered
    obtain ⟨a_b, a_rest⟩ := List.forall_mem_cons.mp a_before
    rw [List.foldl_cons, List.foldl_cons, agree a b a_b]
    apply ih
    rcases keepGreatest_cases key a b with e | e <;> rw [e]
    · exact List.pairwise_cons.mpr ⟨a_rest, rest.of_cons⟩
    · exact rest

theorem foldl_pick_greatest (agree : ∀ a b, S a b → pick a b = keepGreatest key a b) (ordered : (a :: l).Pairwise S) :
    l.foldl pick a ∈ a :: l ∧ ∀ y ∈ a :: l, key y ≤ key (l.foldl pick a) := by
  rw [foldl_eq_foldl_keepGreatest agree ordered]
  exact ⟨foldl_keepGreatest_mem, foldl_keepGreatest_ge⟩

end choice

/-! ## The widest run of a line (R88) -/

/-- The order of runs by width, of equally wide ones by how low they lie. -/
def runRank (cumw : List Nat) (x : RealRun) : Nat ×ₗ Natᵒᵈ := toLex (cellWidth cumw x.first x.last, OrderDual.toDual x.first)

theorem runRank_le_iff {cumw : List Nat} {x y : RealRun} : runRank cumw y ≤ runRank cumw x ↔
    cellWidth cumw y.first y.last < cellWidth cumw x.first x.last
      ∨ (cellWidth cumw y.first y.last = cellWidth cumw x.first x.last ∧ x.first ≤ y.first) :=
  Prod.Lex.toLex_le_toLex

theorem widerRun_eq_keepGreatest {cumw : List Nat} (a b : RealRun) (before : a.first < b.first) :
    widerRun cumw a b = keepGreatest (runRank cumw) a b := by
  have rank : runRank cumw a < runRank cumw b ↔ cellWidth cumw a.first a.last < cellWidth cumw b.first b.last := by
    rw [← not_le, runRank_le_iff]
    omega
  simp only [widerRun, keepGreatest, rank]

theorem widestRun_spec {cumw : List Nat} {run : RealRun} {rest : List RealRun}
    (ordered : (run :: rest).Pairwise fun a b => a.first < b.first) :
    rest.foldl (widerRun cumw) run ∈ run :: rest
      ∧ ∀ y ∈ run :: rest, runRank cumw y ≤ runRank cumw (rest.foldl (widerRun cumw) run) :=
  foldl_pick_greatest widerRun_eq_keepGreatest ordered

/-! ## Sampling a hide on a line (R88, R90) -/

theorem sampleDue_iff {stride : Nat} {ring : List Sample} {sPos : Int} :
    sampleDue stride ring sPos = true ↔ ∀ x, ring.getLast? = some x → x.p + stride ≤ sPos := by
  cases last : ring.getLast? <;> simp [sampleDue, last]

theorem latches_iff {m : MarkpRec} {leading : Int} {x : Sample} :
    latches m leading x = true ↔ leading + m.anchorOffset ≤ x.p ∧ m.stampWidth ≤ x.w := by
  simp [latches]

section sampled

variable {cumw : List Nat} {m : MarkpRec} {sPos : Int} {cur : RunList} {n : Nat} {r : HideRec} {run : RealRun} {rest : List RealRun}

theorem sampled_of_no_run (no_run : cur.realOf n = []) : r.sampled cumw m sPos cur n = r := by
  rw [HideRec.sampled, no_run]

theorem sampled_of_not_due (not_due : ¬ sampleDue m.anchorStride r.ring sPos = true) : r.sampled cumw m sPos cur n = r := by
  unfold HideRec.sampled
  split
  · rfl
  · rw [if_neg not_due]

theorem sampled_of_due (runs : cur.realOf n = run :: rest) (due : sampleDue m.anchorStride r.ring sPos = true) :
    r.sampled cumw m sPos cur n =
      let x := sampleOf cumw sPos run rest
      { r with
        ring := appendSample r.ring x
        latched := if r.latched = none ∧ latches m r.leading x = true then some x else r.latched } := by
  unfold HideRec.sampled
  rw [runs]
  simp only [if_pos due]
  cases r.latched <;> simp

end sampled

/-! ## The ring of samples (R89) -/

/-- A ring that holds the latest 8 samples of a list holds the latest 8 once the next one is appended. -/
theorem appendSample_latest (xs : List Sample) (x : Sample) :
    appendSample (xs.drop (xs.length - 8)) x = (xs ++ [x]).drop ((xs ++ [x]).length - 8) := by
  rw [appendSample, List.length_drop, List.length_append, List.length_singleton, List.drop_append_of_le_length (by omega)]
  split
  next full => rw [List.drop_drop, show xs.length - 8 + 1 = xs.length + 1 - 8 by omega]
  next room => rw [show xs.length - 8 = xs.length + 1 - 8 by omega]

theorem foldl_appendSample (xs : List Sample) : xs.foldl appendSample [] = xs.drop (xs.length - 8) := by
  induction xs using List.reverseRecOn with
  | nil => rfl
  | append_singleton xs x ih => rw [List.foldl_concat, ih, appendSample_latest]

/-! ## The anchor (R92) -/

theorem anchor_of_latched {m : MarkpRec} {r : HideRec} {l : Sample} (leading : m.anchorMode = .leading)
    (latched : r.latched = some l) : r.anchor m = some l := by
  rw [HideRec.anchor, leading, latched]

theorem anchor_of_search {m : MarkpRec} {r : HideRec} (search : m.anchorMode = .trailing ∨ r.latched = none) :
    r.anchor m = trailingSearch m r.trailing r.ring := by
  unfold HideRec.anchor
  split
  next leading latched => simp [leading, latched] at search
  next => rfl

/-- The order of samples by nearness to a target, of equally near ones by position. -/
def nearRank (target : Int) (x : Sample) : Natᵒᵈ ×ₗ Int := toLex (OrderDual.toDual (x.p - target).natAbs, x.p)

theorem nearRank_le_iff {target : Int} {x y : Sample} : nearRank target y ≤ nearRank target x ↔
    (x.p - target).natAbs < (y.p - target).natAbs ∨ ((x.p - target).natAbs = (y.p - target).natAbs ∧ y.p ≤ x.p) := by
  rw [eq_comm (a := (x.p - target).natAbs)]
  exact Prod.Lex.toLex_le_toLex

theorem nearerSample_eq_keepGreatest {target : Int} (a b : Sample) (before : a.p < b.p) :
    nearerSample target a b = keepGreatest (nearRank target) a b := by
  have rank : nearRank target a < nearRank target b ↔ (b.p - target).natAbs ≤ (a.p - target).natAbs := by
    rw [← not_le, nearRank_le_iff]
    omega
  simp only [nearerSample, keepGreatest, rank]

/-- The order of samples by width, of equally wide ones by position. -/
def wideRank (x : Sample) : Nat ×ₗ Int := toLex (x.w, x.p)

theorem wideRank_le_iff {x y : Sample} : wideRank y ≤ wideRank x ↔ y.w < x.w ∨ (y.w = x.w ∧ y.p ≤ x.p) :=
  Prod.Lex.toLex_le_toLex

theorem widerSample_eq_keepGreatest (a b : Sample) (before : a.p < b.p) : widerSample a b = keepGreatest wideRank a b := by
  have rank : wideRank a < wideRank b ↔ a.w ≤ b.w := by
    rw [← not_le, wideRank_le_iff]
    omega
  simp only [widerSample, keepGreatest, rank]

section search

variable {m : MarkpRec} {trailing : Int} {ring : List Sample}

theorem trailingSearch_of_fit (fit : ∃ y ∈ ring, m.stampWidth ≤ y.w) (rising : ring.Pairwise fun a b => a.p < b.p) :
    ∃ x ∈ ring, trailingSearch m trailing ring = some x ∧ m.stampWidth ≤ x.w
      ∧ ∀ y ∈ ring, m.stampWidth ≤ y.w →
        nearRank (trailing - m.anchorOffset) y ≤ nearRank (trailing - m.anchorOffset) x := by
  have mem_fits (y : Sample) : y ∈ ring.filter (fun x => decide (m.stampWidth ≤ x.w)) ↔ y ∈ ring ∧ m.stampWidth ≤ y.w := by
    rw [List.mem_filter, decide_eq_true_iff]
  unfold trailingSearch
  split
  next x rest fits =>
    have fits_rising := rising.filter fun x => decide (m.stampWidth ≤ x.w)
    rw [fits] at mem_fits fits_rising
    obtain ⟨mem, nearest⟩ :=
      foldl_pick_greatest (nearerSample_eq_keepGreatest (target := trailing - m.anchorOffset)) fits_rising
    obtain ⟨in_ring, wide⟩ := (mem_fits _).mp mem
    exact ⟨_, in_ring, rfl, wide, fun y hy hw => nearest y ((mem_fits y).mpr ⟨hy, hw⟩)⟩
  next none_fits =>
    obtain ⟨y, hy, hw⟩ := fit
    exact absurd ((mem_fits y).mpr ⟨hy, hw⟩) (none_fits ▸ List.not_mem_nil)

theorem trailingSearch_of_unfit (nonempty : ring ≠ []) (unfit : ∀ y ∈ ring, y.w < m.stampWidth)
    (rising : ring.Pairwise fun a b => a.p < b.p) :
    ∃ x ∈ ring, trailingSearch m trailing ring = some x ∧ ∀ y ∈ ring, wideRank y ≤ wideRank x := by
  have none_fits : ring.filter (fun x => decide (m.stampWidth ≤ x.w)) = [] := by
    simpa only [List.filter_eq_nil_iff, decide_eq_true_iff, not_le] using unfit
  obtain ⟨x, rest, rfl⟩ := List.exists_cons_of_ne_nil nonempty
  obtain ⟨mem, widest⟩ := foldl_pick_greatest widerSample_eq_keepGreatest rising
  exact ⟨_, mem, by rw [trailingSearch, none_fits], widest⟩

end search

/-- Settles O30: the tie rules as lexicographic orders, whose greatest element each choice keeps. -/
theorem trailingAnchorFound : Obligations.TrailingAnchorFound := by
  unfold Obligations.TrailingAnchorFound
  refine ⟨?sampled, foldl_appendSample, fun m r => ⟨fun l => anchor_of_latched, anchor_of_search⟩, ?search⟩
  case sampled =>
    intro cumw m sPos cur n r own due t
    refine ⟨fun not_due => ?_, fun ⟨runs, stride⟩ ordered => ?_⟩
    · by_cases no_run : own = []
      · exact sampled_of_no_run no_run
      · exact sampled_of_not_due fun stride => not_due ⟨no_run, sampleDue_iff.mp stride⟩
    · obtain ⟨run, rest, own_eq⟩ := List.exists_cons_of_ne_nil runs
      rw [own_eq] at ordered ⊢
      obtain ⟨mem, widest⟩ := widestRun_spec (cumw := cumw) ordered
      refine ⟨_, mem, fun y hy => runRank_le_iff.mp (widest y hy), ?_⟩
      simp only [t, sampled_of_due own_eq (sampleDue_iff.mpr stride), latches_iff]
      rfl
  case search =>
    intro m trailing ring nonempty rising far
    by_cases fit : ∃ y ∈ ring, m.stampWidth ≤ y.w
    · obtain ⟨x, hx, found, wide, nearest⟩ := trailingSearch_of_fit (trailing := trailing) fit rising
      obtain ⟨y, hy, hw⟩ := fit
      exact ⟨x, hx, found, fun _ => ⟨wide, fun z hz hzw => nearRank_le_iff.mp (nearest z hz hzw)⟩,
        fun unfit => absurd (unfit y hy) (not_lt.mpr hw)⟩
    · obtain ⟨x, hx, found, widest⟩ := trailingSearch_of_unfit (trailing := trailing) nonempty
        (fun y hy => not_le.mp fun hw => fit ⟨y, hy, hw⟩) rising
      exact ⟨x, hx, found, fun h => absurd h fit, fun _ y hy => wideRank_le_iff.mp (widest y hy)⟩

end Sys2Proof.Machine
end

section
/-! PROOFS. The text of a closed hide, and its layout and drawing (O31; sections 6.5 and 6.6). -/

namespace Sys2Proof.Machine

/-! ## The figure and the text (R94, R95) -/

/-- A figure of two digits or more ends in its last digit, behind the figure of its tens. -/
theorem figureDigits_of_ten_le {n : Nat} (two_digits : 10 ≤ n) (le_top : n ≤ 9999) :
    figureDigits n = figureDigits (n / 10) ++ [n % 10] := by
  have hundreds : n / 10 / 10 = n / 100 := Nat.div_div_eq_div_mul n 10 10
  have thousands : n / 10 / 100 = n / 1000 := Nat.div_div_eq_div_mul n 10 100
  have below_100 : n / 10 < 10 ↔ n < 100 := Nat.div_lt_iff_lt_mul (by decide)
  have below_1000 : n / 10 < 100 ↔ n < 1000 := Nat.div_lt_iff_lt_mul (by decide)
  have four_digits : n / 10 < 1000 := by omega
  simp only [figureDigits, if_neg (not_lt.mpr two_digits), below_100, below_1000, if_pos four_digits, hundreds, thousands]
  split_ifs <;> rfl

theorem figureDigits_eq_digits {n : Nat} (le_top : n ≤ 9999) :
    figureDigits n = if n = 0 then [0] else (Nat.digits 10 n).reverse := by
  induction n using Nat.strongRecOn with
  | ind n ih =>
    by_cases zero : n = 0
    · rw [zero]
      rfl
    rw [if_neg zero]
    by_cases one_digit : n < 10
    · rw [Nat.digits_of_lt 10 n zero one_digit, List.reverse_singleton, figureDigits, if_pos one_digit]
    · have two_digits : 10 ≤ n := not_lt.mp one_digit
      rw [figureDigits_of_ten_le two_digits le_top, ih (n / 10) (by omega) (by omega), if_neg (by omega),
        Nat.digits_def' (n := n) (by decide) (by omega), List.reverse_cons]

theorem figureText_footQuarter {v : FinalValue} (unit : v.unit = .footQuarter) :
    figureText v = figureDigits (v.value / 4) ++ if v.value % 4 = 0 then [] else [9 + v.value % 4] := by
  rw [figureText, unit]

theorem figureText_decimetre {v : FinalValue} (unit : v.unit = .decimetre) : figureText v = figureDigits v.value := by
  rw [figureText, unit]

section text

variable {policy : JoinPolicy} {prefixGlyph : Option Nat} {lockOpen : Bool} {r : HideRec}

theorem hideText_of_rejected (joined : r.has .joined = true) (reject : policy = .rejectMark) :
    hideText policy prefixGlyph lockOpen r = [14] := by
  rw [hideText, joined, reject]
  rfl

theorem hideText_of_valued {v : FinalValue} (kept : ¬ (r.has .joined = true ∧ policy = .rejectMark)) (value : r.value = some v) :
    hideText policy prefixGlyph lockOpen r = valueText prefixGlyph lockOpen v := by
  rw [hideText, value, if_neg (by simpa using kept)]

end text

/-! ## The layout (R99) -/

/-- A start is a natural number, so the bound by the one before's start makes the next one's exact. -/
theorem nextStart_eq (gap : Int) (start width : Nat) :
    (nextStart gap start width : Int) = max (start : Int) (start + width + gap) := by
  rw [nextStart]
  omega

theorem placeFrom_glyph (gap : Int) (start : Nat) (gs : List GlyphRec) : (placeFrom gap start gs).map Placed.glyph = gs := by
  induction gs generalizing start with
  | nil => rfl
  | cons g gs ih => rw [placeFrom, List.map_cons, ih]

theorem placeFrom_first {gap : Int} {start : Nat} {gs : List GlyphRec} {p : Placed}
    (first : (placeFrom gap start gs)[0]? = some p) : p.start = start := by
  cases gs with
  | nil => cases first
  | cons g gs =>
    cases first
    rfl

theorem placeFrom_next {gap : Int} {start i : Nat} {gs : List GlyphRec} {p p' : Placed}
    (here : (placeFrom gap start gs)[i]? = some p) (next : (placeFrom gap start gs)[i + 1]? = some p') :
    p'.start = nextStart gap p.start p.glyph.width := by
  induction gs generalizing start i with
  | nil => cases here
  | cons g gs ih =>
    rw [placeFrom, List.getElem?_cons_succ] at next
    cases i with
    | zero =>
      cases here
      exact placeFrom_first next
    | succ i => exact ih here next

/-! ## The full width (R99, R100) -/

theorem fullWidth_concat (ps : List Placed) (p : Placed) :
    fullWidth (ps ++ [p]) = max (fullWidth ps) (p.start + p.glyph.width) := List.foldl_concat ..

theorem le_fullWidth {ps : List Placed} {p : Placed} (mem : p ∈ ps) : p.start + p.glyph.width ≤ fullWidth ps := by
  induction ps using List.reverseRecOn with
  | nil => cases mem
  | append_singleton ps q ih =>
    rw [fullWidth_concat]
    rcases List.mem_append.mp mem with earlier | last
    · exact le_max_of_le_left (ih earlier)
    · rw [List.mem_singleton.mp last]
      exact le_max_right ..

theorem exists_eq_fullWidth {ps : List Placed} (nonempty : ps ≠ []) : ∃ p ∈ ps, p.start + p.glyph.width = fullWidth ps := by
  induction ps using List.reverseRecOn with
  | nil => exact absurd rfl nonempty
  | append_singleton ps q ih =>
    rw [fullWidth_concat]
    by_cases wider : fullWidth ps ≤ q.start + q.glyph.width
    · exact ⟨q, by simp, (max_eq_right wider).symm⟩
    · have earlier : ps ≠ [] := fun empty => wider (by rw [empty]; exact Nat.zero_le _)
      obtain ⟨p, hp, greatest⟩ := ih earlier
      exact ⟨p, List.mem_append_left _ hp, by omega⟩

/-! ## The drawing (R98, R99) -/

theorem Placed.column_getLsbD (p : Placed) (c k : Nat) : (p.column c).getLsbD k = true ↔
    p.start ≤ c ∧ c < p.start + p.glyph.width ∧ (p.glyph.columns.getD (c - p.start) 0).getLsbD k = true := by
  unfold Placed.column
  split
  next inside => simp only [inside, true_and]
  next outside =>
    exact iff_of_false (by simp) fun ⟨left, right, _⟩ => outside ⟨left, right⟩

theorem imageColumn_concat (ps : List Placed) (p : Placed) (c : Nat) :
    imageColumn (ps ++ [p]) c = imageColumn ps c ||| p.column c := List.foldl_concat ..

theorem imageColumn_getLsbD (ps : List Placed) (c k : Nat) :
    (imageColumn ps c).getLsbD k = true ↔ ∃ p ∈ ps, (p.column c).getLsbD k = true := by
  induction ps using List.reverseRecOn with
  | nil => simp [imageColumn]
  | append_singleton ps p ih =>
    rw [imageColumn_concat, BitVec.getLsbD_or, Bool.or_eq_true, ih]
    simp only [List.mem_append, List.mem_singleton, or_and_right, exists_or, exists_eq_left]

section render

variable {glyphs : List GlyphRec} {gap : Int} {text : List Nat}

theorem render_length : (render glyphs gap text).columns.length = min (fullWidth (placeText glyphs gap text)) 64 := by
  simp [render]

theorem render_cut : (render glyphs gap text).cut = true ↔ 64 < fullWidth (placeText glyphs gap text) := by
  simp [render]

theorem render_column {c : Nat} (inside : c < (render glyphs gap text).columns.length) :
    (render glyphs gap text).columns.getD c 0 = imageColumn (placeText glyphs gap text) c := by
  rw [render_length] at inside
  simp [render, List.getD_eq_getElem?_getD, List.getElem?_range inside]

end render

/-- Settles O31: the figure digit by digit, the layout glyph by glyph, the drawing dot by dot. -/
theorem textRendered : Obligations.TextRendered := by
  unfold Obligations.TextRendered
  refine ⟨?text, ?drawing⟩
  case text =>
    intro policy prefixGlyph lockOpen r v value le_top digits figure
    refine ⟨fun ⟨joined, reject⟩ => hideText_of_rejected joined reject, fun kept => ?_⟩
    have figure_eq : figureText v = figure := by
      cases unit : v.unit with
      | footQuarter =>
        rw [figureText_footQuarter unit, figureDigits_eq_digits (by omega)]
        simp only [figure, digits, unit]
      | decimetre =>
        rw [figureText_decimetre unit, figureDigits_eq_digits le_top]
        simp only [figure, digits, unit]
    rw [hideText_of_valued kept value, valueText, figure_eq]
    cases prefixGlyph <;> rfl
  case drawing =>
    intro glyphs gap text ps d
    refine ⟨placeFrom_glyph .., fun p => placeFrom_first, ?next, fun p => le_fullWidth, exists_eq_fullWidth,
      render_length, render_cut, ?dots⟩
    case next =>
      intro i p p' here next
      rw [placeFrom_next here next, nextStart_eq]
    case dots =>
      intro c k inside
      rw [render_column inside, imageColumn_getLsbD]
      simp only [Placed.column_getLsbD, ps]

end Sys2Proof.Machine
end

section
/-! PROOFS. The stamp's place and the dots of a column (O33), the trial (O34) and the schedule it fills (O35). -/

namespace Sys2Proof.Machine

/-! ## The stamp's place (R109, R117) -/

section place
variable {e : HeadRec} {x : Nat}

theorem nozzleBase_below (below : x < e.edge ∨ (x - e.edge) / e.nozzlePitch < 8) :
    nozzleBase e x = { base := 0, clamped := true } := by
  have negative : anchorRow e x - 8 < 0 := by
    unfold anchorRow
    split <;> omega
  rw [nozzleBase, if_pos negative]

theorem anchorRow_of_edge_le (inside : e.edge ≤ x) : anchorRow e x = ((x - e.edge) / e.nozzlePitch : Nat) := if_pos inside

theorem nozzleBase_within (inside : e.edge ≤ x) (low : 8 ≤ (x - e.edge) / e.nozzlePitch)
    (high : (x - e.edge) / e.nozzlePitch - 8 ≤ e.nozzles - 16) :
    nozzleBase e x = { base := (x - e.edge) / e.nozzlePitch - 8, clamped := false } := by
  simp only [nozzleBase, anchorRow_of_edge_le inside]
  rw [if_neg (by omega), if_neg (by omega), show (((x - e.edge) / e.nozzlePitch : Nat) - 8 : Int).toNat
    = (x - e.edge) / e.nozzlePitch - 8 by omega]

theorem nozzleBase_above (inside : e.edge ≤ x) (high : e.nozzles - 16 < (x - e.edge) / e.nozzlePitch - 8) :
    nozzleBase e x = { base := e.nozzles - 16, clamped := true } := by
  simp only [nozzleBase, anchorRow_of_edge_le inside]
  rw [if_neg (by omega), if_pos (by omega)]

end place

/-- ROTATE reverses the order of the nozzles (R117). -/
theorem reverse_dot (d : Dots) {k : Nat} (nozzle : k < 16) : d.reverse.getLsbD k = d.getLsbD (15 - k) := by
  rw [BitVec.getLsbD_reverse, BitVec.getMsbD_eq_getLsbD, decide_eq_true nozzle, Bool.true_and]

theorem orientedColumn_dot (rotate mirror : Bool) (columns : List Dots) (n i : Nat) {k : Nat} (nozzle : k < 16) :
    (orientedColumn rotate mirror columns n i).getLsbD k
      = (columns.getD (if rotate = mirror then i else n - 1 - i) 0).getLsbD (if rotate then 15 - k else k) := by
  have order : (if rotate != mirror then n - 1 - i else i) = if rotate = mirror then i else n - 1 - i := by
    cases rotate <;> cases mirror <;> rfl
  rw [orientedColumn, order]
  cases rotate with
  | false => rfl
  | true => exact reverse_dot _ nozzle

/-- Settles O33: the row below, within and above the head's nozzles, and the dots by `orientedColumn_dot`. -/
theorem stampPlaced : Obligations.StampPlaced := by
  refine ⟨?base, fun rotate mirror columns n i k _ nozzle => orientedColumn_dot rotate mirror columns n i nozzle⟩
  intro e x _ _ row
  exact ⟨nozzleBase_below, nozzleBase_within, nozzleBase_above⟩

/-! ## A start that clears a schedule (R112) -/

section clears
variable {guard length : Nat} {p : Int} {primed : Bool} {l : List Reservation}

theorem clearsOne_iff {r : Reservation} : clearsOne guard length p primed r = true ↔ ClearsBy guard length p primed r := by
  simp [clearsOne, ClearsBy]

theorem clearsSchedule_cons {r : Reservation} : ClearsSchedule guard length p primed (r :: l)
    ↔ ClearsBy guard length p primed r ∧ ∀ x ∈ l, ClearsBy guard length p false x := by
  constructor
  · intro clears
    refine ⟨by simpa using clears 0 r rfl, fun x hx => ?_⟩
    obtain ⟨k, at_k⟩ := List.mem_iff_getElem?.mp hx
    simpa using clears (k + 1) x at_k
  · rintro ⟨first, others⟩ (_ | k) x at_k
    · cases at_k
      simpa using first
    · simpa using others x (List.mem_of_getElem? at_k)

theorem clearsAll_iff : clearsAll guard length p primed l = true ↔ ClearsSchedule guard length p primed l := by
  cases l with
  | nil => simp [clearsAll, ClearsSchedule]
  | cons r l => simp only [clearsAll, Bool.and_eq_true, List.all_eq_true, clearsOne_iff, clearsSchedule_cons]

/-- Clearing a reservation that no engine serves is the weaker condition. -/
theorem ClearsBy.unprimed {r : Reservation} (h : ClearsBy guard length p primed r) : ClearsBy guard length p false r :=
  h.imp_right fun ⟨_, before⟩ => ⟨rfl, before⟩

theorem ClearsSchedule.each (h : ClearsSchedule guard length p primed l) {r : Reservation} (hr : r ∈ l) :
    ClearsBy guard length p false r := by
  obtain ⟨k, at_k⟩ := List.mem_iff_getElem?.mp hr
  exact (h k r at_k).unprimed

end clears

/-! ## The starts tried (R112 step 4) -/

section candidates
variable {guard length : Nat} {wanted p c : Int} {primed : Bool} {l : List Reservation}

theorem mem_candidateStarts : c ∈ candidateStarts guard wanted l ↔
    c = wanted ∨ (wanted ≤ c ∧ ∃ r ∈ l, r.stop + (guard : Int) = c) := by
  simp [candidateStarts, and_comm]

theorem le_of_mem_candidateStarts (h : c ∈ candidateStarts guard wanted l) : wanted ≤ c := by
  rcases mem_candidateStarts.mp h with rfl | ⟨le, -⟩
  · exact le_rfl
  · exact le

/-- The schedule's ends rise, and so do the starts tried. -/
theorem candidateStarts_sorted (ok : ScheduleOk l) (forward : ∀ r ∈ l, r.start ≤ r.stop) :
    (candidateStarts guard wanted l).Pairwise (· ≤ ·) := by
  refine List.pairwise_cons.mpr ⟨fun c hc => by simpa using List.of_mem_filter hc, .filter _ ?_⟩
  refine List.pairwise_map.mpr (ok.imp_of_mem fun {a b} _ hb apart => ?_)
  have := forward b hb
  omega

/-- The starts tried suffice: at or before any start that clears the schedule one of them does. -/
theorem exists_candidate_clears (from_wanted : wanted ≤ p) (clears : ClearsSchedule guard length p primed l) :
    ∃ c ∈ candidateStarts guard wanted l, c ≤ p ∧ ClearsSchedule guard length c primed l := by
  have some_below : ((candidateStarts guard wanted l).filter (· ≤ p)) ≠ [] := by
    simp [candidateStarts, from_wanted]
  obtain ⟨c, top⟩ := Option.ne_none_iff_exists'.mp (mt List.max?_eq_none_iff.mp some_below)
  obtain ⟨found, greatest⟩ := List.max?_eq_some_iff.mp top
  obtain ⟨candidate, below⟩ := List.mem_filter.mp found
  have below : c ≤ p := of_decide_eq_true below
  have from_c := le_of_mem_candidateStarts candidate
  refine ⟨c, candidate, below, fun k r at_k => ?_⟩
  rcases clears k r at_k with after | ⟨unprimed, before⟩
  · refine .inl ?_
    by_cases tried : wanted ≤ r.stop + guard
    · refine greatest _ (List.mem_filter.mpr ⟨mem_candidateStarts.mpr (.inr ⟨tried, r, ?_, rfl⟩), by simpa using after⟩)
      exact List.mem_of_getElem? at_k
    · omega
  · exact .inr ⟨unprimed, by omega⟩

/-- The first of the starts tried that clears the schedule is the earliest such start from the wanted one on (R112 step 4). -/
theorem find?_candidateStarts (ok : ScheduleOk l) (forward : ∀ r ∈ l, r.start ≤ r.stop) :
    (candidateStarts guard wanted l).find? (fun c => clearsAll guard length c primed l) = some p ↔
      wanted ≤ p ∧ ClearsSchedule guard length p primed l
        ∧ ∀ p', wanted ≤ p' → p' < p → ¬ ClearsSchedule guard length p' primed l := by
  have earliest : ∀ q, (candidateStarts guard wanted l).find? (fun c => clearsAll guard length c primed l) = some q →
      wanted ≤ q ∧ ClearsSchedule guard length q primed l
        ∧ ∀ p', wanted ≤ p' → p' < q → ¬ ClearsSchedule guard length p' primed l := by
    intro q found
    obtain ⟨clears, before, after, split, failed⟩ := List.find?_eq_some_iff_append.mp found
    have tried : q ∈ candidateStarts guard wanted l := List.mem_of_find?_eq_some found
    refine ⟨le_of_mem_candidateStarts tried, clearsAll_iff.mp clears, fun p' from_wanted earlier clears' => ?_⟩
    obtain ⟨c, candidate, le, clears_c⟩ := exists_candidate_clears from_wanted clears'
    have sorted := candidateStarts_sorted (guard := guard) (wanted := wanted) ok forward
    rw [split] at candidate sorted
    rcases List.mem_append.mp candidate with passed | rest
    · simpa [clearsAll_iff.mpr clears_c] using failed c passed
    · have := (List.pairwise_cons.mp (List.pairwise_append.mp sorted).2.1).1
      rcases List.mem_cons.mp rest with rfl | later
      · omega
      · have := this c later
        omega
  refine ⟨earliest p, fun ⟨from_wanted, clears, first⟩ => ?_⟩
  obtain ⟨c, candidate, _, clears_c⟩ := exists_candidate_clears from_wanted clears
  cases found : (candidateStarts guard wanted l).find? (fun c => clearsAll guard length c primed l) with
  | none => exact absurd (clearsAll_iff.mpr clears_c) (List.find?_eq_none.mp found c candidate)
  | some q =>
    obtain ⟨from_wanted', clears', first'⟩ := earliest q found
    have not_later : ¬ p < q := fun lt => first' p from_wanted lt clears
    have not_earlier : ¬ q < p := fun lt => first q from_wanted' lt clears'
    exact congrArg some (by omega)

end candidates

/-! ## The trial (R112) -/

section trial
variable {e : HeadRec} {m : MarkHead} {hwm : Int} {window : Nat} {q : StampRequest}

theorem trialOn_down (h : m.state ≠ .online) : trialOn e m hwm window q = .failed .down := if_pos h

variable (online : m.state = .online)
include online

theorem trialOn_late (h : wantedStart e q - e.primeLead ≤ hwm) : trialOn e m hwm window q = .failed .late := by
  rw [trialOn, if_neg (not_not.mpr online)]
  exact if_pos h

/-- A trial on an ONLINE head that need not have been primed already: the schedule's place, then the first start found. -/
theorem trialOn_inTime (h : hwm < wantedStart e q - e.primeLead) : trialOn e m hwm window q =
    if 6 ≤ m.schedule.length then .failed .busy
    else match (candidateStarts e.guard (wantedStart e q) m.schedule).find?
        (fun c => clearsAll e.guard q.length c m.engine.isSome m.schedule) with
      | some p => if p - wantedStart e q ≤ window then .accepted p else .failed .busy
      | none => .failed .busy := by
  rw [trialOn, if_neg (not_not.mpr online)]
  exact if_neg (not_le.mpr h)

theorem trialOn_inTime_failed (h : hwm < wantedStart e q - e.primeLead) {why : TrialFailure}
    (failed : trialOn e m hwm window q = .failed why) : why = .busy := by
  rw [trialOn_inTime online h] at failed
  split at failed
  · cases failed
    rfl
  · split at failed
    · split at failed <;> cases failed
      rfl
    · cases failed
      rfl

theorem trialOn_inTime_accepted (h : hwm < wantedStart e q - e.primeLead) (p : Int) :
    trialOn e m hwm window q = .accepted p ↔ m.schedule.length < 6
      ∧ (candidateStarts e.guard (wantedStart e q) m.schedule).find?
          (fun c => clearsAll e.guard q.length c m.engine.isSome m.schedule) = some p
      ∧ p ≤ wantedStart e q + window := by
  rw [trialOn_inTime online h]
  by_cases full : 6 ≤ m.schedule.length
  · simp [full]
  · rw [if_neg full]
    cases (candidateStarts e.guard (wantedStart e q) m.schedule).find?
        (fun c => clearsAll e.guard q.length c m.engine.isSome m.schedule) with
    | none => simp
    | some c =>
      by_cases inside : c - wantedStart e q ≤ window
      · simp only [if_pos inside, TrialResult.accepted.injEq, Option.some.injEq]
        exact ⟨fun same => ⟨not_le.mp full, same, by omega⟩, fun ⟨_, same, _⟩ => same⟩
      · simp only [if_neg inside, Option.some.injEq, reduceCtorEq, false_iff]
        rintro ⟨-, rfl, le⟩
        omega

end trial

/-- Settles O34: a head not ONLINE, one that would have to be primed too late, and the first start found by
`find?_candidateStarts`. -/
theorem trialTakesEarliest : Obligations.TrialTakesEarliest := by
  intro e m hwm window q p ok forward length wanted clears
  have wanted_eq : wantedStart e q = wanted := rfl
  by_cases online : m.state = .online
  · by_cases late : wanted - e.primeLead ≤ hwm
    · rw [trialOn_late online late]
      simp [online, late]
    · have inTime : hwm < wanted - e.primeLead := not_le.mp late
      have failed : ∀ why, trialOn e m hwm window q = .failed why → why = .busy :=
        fun why => trialOn_inTime_failed online inTime
      refine ⟨iff_of_false (fun h => nomatch failed _ h) (not_not.mpr online),
        iff_of_false (fun h => nomatch failed _ h) fun h => late h.2, ?_⟩
      rw [trialOn_inTime_accepted online inTime, find?_candidateStarts ok forward, wanted_eq]
      simp only [clears, length, StampRequest.length]
      tauto
  · rw [trialOn_down online]
    simp [online]

/-! ## The schedule that an accepted reservation enters (R111, R113) -/

theorem insertReservation_perm (r : Reservation) (l : List Reservation) : (insertReservation r l).Perm (r :: l) := by
  induction l with
  | nil => exact .refl _
  | cons x xs ih =>
    rw [insertReservation]
    split
    · exact .refl _
    · exact (ih.cons x).trans (.swap r x xs)

/-- A reservation that begins after a schedule's first one has ended leaves it the first (R112). -/
theorem insertReservation_head? {r x : Reservation} (xs : List Reservation) (after : x.start ≤ r.start) :
    (insertReservation r (x :: xs)).head? = some x := by
  rw [insertReservation, if_neg (not_lt.mpr after)]
  rfl

/-- A reservation that lies apart from each of a schedule's keeps it in order (R111). -/
theorem insertReservation_ok {r : Reservation} {l : List Reservation} (ok : ScheduleOk l)
    (forward : ∀ x ∈ l, x.start < x.stop) (forward_r : r.start < r.stop)
    (apart : ∀ x ∈ l, x.stop ≤ r.start ∨ r.stop ≤ x.start) : ScheduleOk (insertReservation r l) := by
  induction l with
  | nil => exact List.pairwise_singleton _ _
  | cons x xs ih =>
    obtain ⟨after_x, ok_xs⟩ := List.pairwise_cons.mp ok
    have forward_x := forward x List.mem_cons_self
    have apart_x := apart x List.mem_cons_self
    rw [insertReservation]
    split
    next earlier =>
      refine List.pairwise_cons.mpr ⟨fun y hy => ?_, ok⟩
      rcases List.mem_cons.mp hy with rfl | later
      · omega
      · have := after_x y later
        omega
    next not_earlier =>
      refine List.pairwise_cons.mpr ⟨fun y hy => ?_, ih ok_xs (fun y hy => forward y (List.mem_cons_of_mem x hy))
        fun y hy => apart y (List.mem_cons_of_mem x hy)⟩
      rcases List.mem_cons.mp ((insertReservation_perm r xs).mem_iff.mp hy) with rfl | later
      · omega
      · exact after_x y later

/-- Settles O35: the start accepted clears every reservation by `trialTakesEarliest`, so each one lies apart from it. -/
theorem scheduleStaysDisjoint : Obligations.ScheduleStaysDisjoint := by
  intro e m hwm window q r ok forward columns pitch accepted stop
  have length_pos : 0 < q.columns * q.pitch := Nat.mul_pos columns pitch
  obtain ⟨-, -, room, -, -, clears, -⟩ := (trialTakesEarliest e m hwm window q r.start ok
    fun x hx => (forward x hx).le).2.2.mp accepted
  have forward_r : r.start < r.stop := by omega
  have apart : ∀ x ∈ m.schedule, x.stop ≤ r.start ∨ r.stop ≤ x.start := by
    intro x hx
    rcases clears.each hx with after | ⟨-, before⟩ <;> omega
  have perm := insertReservation_perm r m.schedule
  refine ⟨insertReservation_ok ok forward forward_r apart, perm, by rw [perm.length_eq, List.length_cons]; omega,
    fun working nonempty => ?_⟩
  obtain ⟨x, xs, schedule⟩ := List.exists_cons_of_ne_nil nonempty
  rw [schedule] at clears forward ⊢
  have forward_x := forward x List.mem_cons_self
  rcases (clearsSchedule_cons.mp clears).1 with after | ⟨unprimed, -⟩
  · exact insertReservation_head? xs (by omega)
  · rw [working] at unprimed
    cases unprimed

end Sys2Proof.Machine
end

section
/-! PROOFS. The states of the marking heads, the loss of a head, and HSTAT (O32). -/

namespace Sys2Proof.Machine

/-! ## A change made to one head -/

section onHead
variable {s : State} {h k : Nat} {f g : MarkHead → MarkHead}

theorem onHead_onHead : (s.onHead h f).onHead h g = s.onHead h (g ∘ f) := by
  simp only [State.onHead, List.modify_modify_eq]

theorem head_onHead_self (listed : h < s.mark.heads.length) : (s.onHead h f).head h = f (s.head h) := by
  simp [State.onHead, State.head, List.getD_eq_getElem?_getD, listed]

theorem head_onHead_ne (other : h ≠ k) : (s.onHead h f).head k = s.head k := by
  simp [State.onHead, State.head, List.getD_eq_getElem?_getD, other]

/-- A head that is not as after power-on is one of the heads there are. -/
theorem listed_of_ne_powerOn (h_ne : s.head h ≠ .powerOn) : h < s.mark.heads.length := by
  by_contra beyond
  exact h_ne (List.getD_eq_default _ _ (not_lt.mp beyond))

theorem listed_of_schedule {r : Reservation} {rest : List Reservation} (schedule : (s.head h).schedule = r :: rest) :
    h < s.mark.heads.length := by
  refine listed_of_ne_powerOn fun powerOn => ?_
  rw [powerOn] at schedule
  cases schedule

end onHead

/-- A head's state set, with its HEAD note where the state changed and none is pending, written out (R107). -/
theorem setHeadState_eq (h : Nat) (st : HeadState) (s : State) : s.setHeadState h st = { s with
    mark := { s.mark with heads := s.mark.heads.modify h fun m => { m with state := st } }
    rep := { s.rep with order :=
      if (s.head h).state = st ∨ NoteItem.head h ∈ s.rep.order then s.rep.order else s.rep.order ++ [.head h] } } := by
  unfold State.setHeadState
  split
  next same =>
    rw [if_pos (.inl same)]
    exact (onHead_self (f := fun m => { m with state := st }) (by rw [← same])).symm
  next differs =>
    unfold State.headNote
    rw [State.onHead_rep]
    by_cases pending : NoteItem.head h ∈ s.rep.order
    · rw [if_pos pending, if_pos (.inr pending)]
      rfl
    · rw [if_neg pending, if_neg (not_or.mpr ⟨differs, pending⟩)]
      rfl

/-! ## READY (R106, R107) -/

/-- Heads made ONLINE: a HEAD note is pending for each whose state changed, those not pending already at the end of the arrival
order in the order given (R106, R107). -/
def State.madeOnline (s : State) (hs : List Nat) : State :=
  { s with
    mark := { s.mark with heads := s.mark.heads.mapIdx fun h m => if h ∈ hs then { m with state := .online } else m }
    rep := { s.rep with order := s.rep.order
      ++ (hs.filter fun h => decide ((s.head h).state ≠ .online ∧ NoteItem.head h ∉ s.rep.order)).map .head } }

theorem madeOnline_nil (s : State) : s.madeOnline [] = s := by
  have heads : s.mark.heads.mapIdx (fun h m => if h ∈ [] then { m with state := .online } else m) = s.mark.heads :=
    List.ext_getElem? fun k => by simp
  rw [State.madeOnline, heads, List.filter_nil, List.map_nil, List.append_nil]

/-- A change made at one place, and then at others, is made at each of them. -/
theorem mapIdx_modify {α : Type} {h : Nat} {hs : List Nat} (others : h ∉ hs) (f : α → α) (l : List α) :
    (l.modify h f).mapIdx (fun k a => if k ∈ hs then f a else a) = l.mapIdx fun k a => if k ∈ h :: hs then f a else a := by
  refine List.ext_getElem? fun k => ?_
  rw [List.getElem?_mapIdx, List.getElem?_mapIdx, List.getElem?_modify]
  by_cases at_h : h = k
  · subst at_h
    cases l[h]? <;> simp [others]
  · cases l[k]? <;> simp [at_h, Ne.symm at_h]

/-- Whether a head's HEAD note falls due does not turn on another head's state. -/
theorem noteDue_setHeadState {h k : Nat} (other : h ≠ k) (st : HeadState) (s : State) :
    ((s.setHeadState h st).head k).state = (s.head k).state
      ∧ (NoteItem.head k ∈ (s.setHeadState h st).rep.order ↔ NoteItem.head k ∈ s.rep.order) := by
  have mark : (s.setHeadState h st).mark = (s.onHead h fun m => { m with state := st }).mark := by
    rw [setHeadState_eq]
    rfl
  refine ⟨by rw [State.head, mark, ← State.head, head_onHead_ne other], ?_⟩
  rw [setHeadState_eq]
  simp only
  split
  · rfl
  · simp [Ne.symm other]

/-- The first head made ONLINE, and then the others, make up the whole. -/
theorem madeOnline_cons {h : Nat} {hs : List Nat} (others : h ∉ hs) (s : State) :
    (s.setHeadState h .online).madeOnline hs = s.madeOnline (h :: hs) := by
  have notes : hs.filter (fun k => decide (((s.setHeadState h .online).head k).state ≠ .online
        ∧ NoteItem.head k ∉ (s.setHeadState h .online).rep.order))
      = hs.filter fun k => decide ((s.head k).state ≠ .online ∧ NoteItem.head k ∉ s.rep.order) := by
    refine List.filter_congr fun k hk => decide_eq_decide.mpr ?_
    obtain ⟨state, pending⟩ := noteDue_setHeadState (fun same => others (same ▸ hk) : h ≠ k) .online s
    rw [state, pending]
  unfold State.madeOnline
  rw [notes, setHeadState_eq, ← mapIdx_modify others]
  simp only [List.filter_cons]
  by_cases quiet : (s.head h).state = .online ∨ NoteItem.head h ∈ s.rep.order
  · have not_due : ¬ ((s.head h).state ≠ .online ∧ NoteItem.head h ∉ s.rep.order) := fun due => quiet.elim due.1 due.2
    rw [if_pos quiet, if_neg (by simpa only [decide_eq_true_iff] using not_due)]
  · rw [if_neg quiet, if_pos (decide_eq_true (not_or.mp quiet)), List.map_cons, List.append_assoc, List.singleton_append]

/-- READY makes the heads ONLINE in turn (R106). -/
theorem foldl_takeStatus_ready {hs : List Nat} (distinct : hs.Nodup) (code : Byte) (s : State) :
    hs.foldl (State.takeStatus false code) s = s.madeOnline hs := by
  induction hs generalizing s with
  | nil => exact (madeOnline_nil s).symm
  | cons h hs ih =>
    obtain ⟨others, distinct⟩ := List.nodup_cons.mp distinct
    have first : State.takeStatus false code s h = s.setHeadState h .online := rfl
    rw [List.foldl_cons, ih distinct, first, madeOnline_cons others]

/-! ## The heads at a ring address (R106) -/

/-- The numbers that a test takes, from number `i` on, written as a filter. -/
theorem indicesFrom_eq_filter {α : Type} (p : α → Bool) (i : Nat) (l : List α) :
    indicesFrom (fun _ => p) i l = ((List.range l.length).filter fun n => l[n]?.any p).map (i + ·) := by
  induction l generalizing i with
  | nil => rfl
  | cons a l ih =>
    rw [indicesFrom, ih, List.length_cons, List.range_succ_eq_map, List.filter_cons, List.filter_map]
    have shift : (fun n => (a :: l)[n]?.any p) ∘ Nat.succ = fun n => l[n]?.any p := rfl
    have later : List.map (i + ·) (((List.range l.length).filter fun n => l[n]?.any p).map Nat.succ)
        = ((List.range l.length).filter fun n => l[n]?.any p).map (i + 1 + ·) := by
      rw [List.map_map]
      exact List.map_congr_left fun n _ => by simp only [Function.comp_apply]; omega
    rw [shift]
    by_cases taken : p a = true <;> simp [taken, later]

theorem headsAt_eq_filter (heads : List HeadRec) (addr : Nat) : headsAt heads addr
    = (List.range heads.length).filter fun h => (heads[h]?).any fun e => e.enabled && e.ringAddr == addr := by
  simp only [headsAt, indicesFrom_eq_filter, zero_add, List.map_id']

theorem headsAt_nodup (heads : List HeadRec) (addr : Nat) : (headsAt heads addr).Nodup := by
  rw [headsAt_eq_filter]
  exact List.nodup_range.filter _

/-! ## A test mark's end (R124, R163) -/

/-- The response of an ended test mark (R124, section 13.3; log 21). -/
def State.testRsp (s : State) (tm : TestMark) (outcome : Byte) (sent : Nat) : Frame :=
  mkFrame tm.src s.ring.addr kindRsp ([17, 0, outcome] ++ beBytes 1 tm.columns ++ beBytes 1 sent ++ beBool tm.cut)

/-- A later answer has its place beside the one kept for a command in progress, and none waits before it (R163; log 29). -/
theorem answerLater_placed {s : State} (alone : s.ring.deferred = []) (room : s.ring.responses.length + s.ring.kept < 4)
    (d : Deferred) : s.answerLater d = (s.placeResponse d.frame, true) := by
  refine if_pos ?_
  rw [alone, decide_eq_true (show _ < Config.responsePlaces from room)]
  rfl

/-- A later answer waits (R163; log 29). -/
theorem answerLater_waits {s : State} (full : s.ring.deferred ≠ [] ∨ 4 ≤ s.ring.responses.length + s.ring.kept)
    (d : Deferred) : s.answerLater d = ({ s with ring := { s.ring with deferred := s.ring.deferred ++ [d] } }, false) := by
  refine if_neg ?_
  rw [Bool.not_eq_true, Bool.and_eq_false_iff, decide_eq_false_iff_not, not_lt, List.isEmpty_eq_false_iff]
  exact full.symm

section endTest
variable {s : State} {tm : TestMark} (test : s.mark.test = some tm) (o : TestOutcome) (sent slot : Nat)

theorem rspFrame_testAnswer :
    s.rspFrame tm.src codeTestMark (testAnswer tm o sent) = s.testRsp tm (BitVec.ofNat 8 o.code) sent := by
  cases o <;> rfl

include test

theorem endTest_placed (alone : s.ring.deferred = []) (room : s.ring.responses.length + s.ring.kept < 4) :
    s.endTest o sent slot = { s with
      img := s.img.set slot none
      mark := { s.mark with test := none }
      ring := { s.ring with responses := s.ring.responses ++ [s.testRsp tm (BitVec.ofNat 8 o.code) sent] } } := by
  rw [← rspFrame_testAnswer]
  simp only [State.endTest, test, answerLater_placed (s := s.releaseSlot slot) alone room]
  rfl

theorem endTest_waits (full : s.ring.deferred ≠ [] ∨ 4 ≤ s.ring.responses.length + s.ring.kept) :
    s.endTest o sent slot = { s with
      img := s.img.set slot none
      mark := { s.mark with test := some { tm with ended := true } }
      ring := { s.ring with deferred := s.ring.deferred ++ [.test (s.testRsp tm (BitVec.ofNat 8 o.code) sent)] } } := by
  rw [← rspFrame_testAnswer]
  simp only [State.endTest, test, answerLater_waits (s := s.releaseSlot slot) full]
  rfl

end endTest

theorem endTest_heads (o : TestOutcome) (sent slot : Nat) (s : State) : (s.endTest o sent slot).mark.heads = s.mark.heads := by
  cases test : s.mark.test with
  | none =>
    simp only [State.endTest, test]
    rfl
  | some tm =>
    by_cases free : s.ring.deferred = [] ∧ s.ring.responses.length + s.ring.kept < 4
    · rw [endTest_placed test o sent slot free.1 free.2]
    · rw [endTest_waits test o sent slot (by rw [← not_lt]; exact not_and_or.mp free)]

/-! ## A head that is not ONLINE takes no reservation (R112, R120) -/

section offline
variable {s t : State} {h : Nat} (offline : (s.head h).state ≠ .online)

theorem online_of_accepted {q : StampRequest} {p : Int} (accepted : s.trial h q = .accepted p) :
    (s.head h).state = .online := by
  by_contra offline
  rw [State.trial, trialOn_down offline] at accepted
  cases accepted

include offline

theorem tryHeads_head {q : StampRequest} {hs : List Nat} (e : s.tryHeads q hs = .ok t) : t.head h = s.head h := by
  induction hs with
  | nil => cases e
  | cons k hs ih =>
    cases tried : s.trial k q with
    | accepted p =>
      have other : k ≠ h := fun same => offline (same ▸ online_of_accepted tried)
      rw [tryHeads_accepted tried] at e
      cases e
      exact head_onHead_ne other
    | failed why =>
      rw [State.tryHeads, tried] at e
      simp only at e
      split at e
      next later =>
        cases e
        exact ih later
      next => cases e

theorem replan_head (lost : Bool) (heads : LaneHeads → List Nat) (r : Reservation) :
    (s.replan lost heads r).head h = s.head h := by
  unfold State.replan
  split
  · rw [State.head, endTest_heads, ← State.head]
  · rfl
  · split
    next taken => exact tryHeads_head offline taken
    next => rfl

theorem foldl_replanLost_head (k : Nat) (left : List Reservation) :
    (left.foldl (fun t r => t.replanLost k r) s).head h = s.head h := by
  induction left generalizing s with
  | nil => rfl
  | cons r left ih =>
    have first := replan_head offline true (fun l => (l.other k).toList) r
    exact (ih (s := s.replanLost k r) (by rw [State.replanLost, first]; exact offline)).trans first

end offline

/-! ## A lost head (R119, R120) -/

/-- A lost head's reservations but the one its engine served, removed and tried anew in the schedule's order (R119 step 4). -/
def State.replanOthers (h : Nat) (left : List Reservation) (s : State) : State :=
  left.foldl (fun t r => t.replanLost h r) (s.onHead h fun m => { m with engine := none, schedule := [] })

/-- A lost head's engine IDLE, without the reservation it served and the frames that waited at it (R119, R165). -/
def State.stopped (h : Nat) (rest : List Reservation) (s : State) : State :=
  (s.onHead h fun m => { m with engine := none, schedule := rest }).dropWaiting h

theorem stopped_eq (h : Nat) (rest : List Reservation) (s : State) : s.stopped h rest = { s with mark := { s.mark with
    waiting := s.mark.waiting.filter fun w => decide (w.head ≠ h)
    heads := s.mark.heads.modify h fun m => { m with engine := none, schedule := rest } } } := by
  have kept : (fun w : WaitingFrame => w.head != h) = fun w => decide (w.head ≠ h) := by
    funext w
    rw [decide_not]
    rfl
  rw [State.stopped, State.dropWaiting, kept]
  rfl

section lose
variable {s : State} {h : Nat}

/-- The two stages of a loss: the engine's end, and the other reservations. -/
theorem loseHead_of_abort {u : State} {left : List Reservation} (aborted : s.abortEngine h = u)
    (idle : (u.head h).engine = none) (others : (u.head h).schedule = left) : s.loseHead h = u.replanOthers h left := by
  have cleared : u.onHead h (fun m => { m with schedule := [] })
      = u.onHead h fun m => { m with engine := none, schedule := [] } := onHead_congr (by simp only [← idle])
  unfold State.loseHead State.replanOthers
  simp only [aborted, others, cleared]

theorem loseHead_idle (idle : (s.head h).engine = none) : s.loseHead h = s.replanOthers h (s.head h).schedule := by
  have aborted : s.abortEngine h = s := by
    rw [State.abortEngine, idle]
    exact onHead_self (by simp only [← idle])
  exact loseHead_of_abort aborted idle rfl

variable (listed : h < s.mark.heads.length)
include listed

theorem stopped_head (rest : List Reservation) :
    (s.stopped h rest).head h = { s.head h with engine := none, schedule := rest } := head_onHead_self listed

section serving
variable {sv : Service} {r : Reservation} {rest : List Reservation} (serving : (s.head h).engine = some sv)
  (schedule : (s.head h).schedule = r :: rest)
include serving schedule

/-- An engine in LEAD: its hide is tried on the other recorded head first (R119 step 3). -/
theorem loseHead_lead (offline : (s.head h).state ≠ .online) (lead : sv.printing = false) :
    s.loseHead h = ((s.stopped h rest).replanLost h r).replanOthers h rest := by
  have aborted : s.abortEngine h = (s.stopped h rest).replanLost h r := by
    simp only [State.abortEngine, serving, schedule, lead]
    rfl
  have same : ((s.stopped h rest).replanLost h r).head h = { s.head h with engine := none, schedule := rest } :=
    (replan_head (by rw [stopped_head listed]; exact offline) _ _ r).trans (stopped_head listed rest)
  exact loseHead_of_abort aborted (by rw [same]) (by rw [same])

/-- An engine PRINTING a hide's image: the hide ends PARTIAL with the columns sent (R119 step 2). -/
theorem loseHead_printing_hide {seq : Nat} (printing : sv.printing = true) (holder : r.holder = .hide seq) :
    s.loseHead h = (((s.stopped h rest).releaseSlot r.slot).toReporting seq
      (some (.partSent (s.head h).sent))).replanOthers h rest := by
  have aborted : s.abortEngine h
      = ((s.stopped h rest).releaseSlot r.slot).toReporting seq (some (.partSent (s.head h).sent)) := by
    simp only [State.abortEngine, serving, schedule, printing, holder]
    rfl
  have same : (((s.stopped h rest).releaseSlot r.slot).toReporting seq (some (.partSent (s.head h).sent))).head h
      = { s.head h with engine := none, schedule := rest } := stopped_head listed rest
  exact loseHead_of_abort aborted (by rw [same]) (by rw [same])

/-- An engine PRINTING a test mark: it ends PARTIAL with the columns sent (R119 step 2, R124). -/
theorem loseHead_printing_test (printing : sv.printing = true) (holder : r.holder = .testMark) :
    s.loseHead h = ((s.stopped h rest).endTest .partSent (s.head h).sent r.slot).replanOthers h rest := by
  have aborted : s.abortEngine h = (s.stopped h rest).endTest .partSent (s.head h).sent r.slot := by
    simp only [State.abortEngine, serving, schedule, printing, holder]
    rfl
  have same : ((s.stopped h rest).endTest .partSent (s.head h).sent r.slot).head h
      = { s.head h with engine := none, schedule := rest } := by
    rw [State.head, endTest_heads]
    exact stopped_head listed rest
  exact loseHead_of_abort aborted (by rw [same]) (by rw [same])

end serving

/-- An aborted engine is IDLE, and nothing of its head has changed but engine and schedule (R119). -/
theorem abortEngine_head (offline : (s.head h).state ≠ .online) :
    ∃ left, (s.abortEngine h).head h = { s.head h with engine := none, schedule := left } := by
  unfold State.abortEngine
  split
  next sv r rest serving schedule =>
    have stopped := stopped_head listed rest
    refine ⟨rest, ?_⟩
    simp only
    split
    · split
      · exact stopped
      · rw [State.head, endTest_heads]
        exact stopped
    · exact (replan_head (by rw [← State.stopped, stopped]; exact offline) _ _ r).trans stopped
  next => exact ⟨(s.head h).schedule, head_onHead_self listed⟩

/-- A lost head is left with an empty schedule and an IDLE engine (R119; log 45). -/
theorem loseHead_head (offline : (s.head h).state ≠ .online) :
    (s.loseHead h).head h = { s.head h with engine := none, schedule := [] } := by
  obtain ⟨left, aborted⟩ := abortEngine_head listed offline
  have listed' : h < (s.abortEngine h).mark.heads.length := (abortEngine_step h s).heads ▸ listed
  have cleared : ((s.abortEngine h).onHead h fun m => { m with schedule := [] }).head h
      = { s.head h with engine := none, schedule := [] } := by
    rw [head_onHead_self listed', aborted]
  unfold State.loseHead
  exact (foldl_replanLost_head (by rw [cleared]; exact offline) h _).trans cleared

end lose

/-! ## FAULT (R106, R107, R119) -/

/-- A head with a FAULT status taken: OFFLINE with the fault code, its HEAD note pending if its state changed, and lost if it was
ONLINE (R106, R107). -/
def State.faulted (code : Byte) (s : State) (h : Nat) : State :=
  let t : State := { s with
    mark := { s.mark with heads := s.mark.heads.modify h fun m => { m with state := .offline, fault := code } }
    rep := { s.rep with order :=
      if (s.head h).state = .offline ∨ NoteItem.head h ∈ s.rep.order then s.rep.order else s.rep.order ++ [.head h] } }
  if (s.head h).state = .online then t.loseHead h else t

/-- A new fault code leaves a head's state, whether or not there is such a head. -/
theorem head_onHead_fault (code : Byte) (h : Nat) (s : State) :
    ((s.onHead h fun m => { m with fault := code }).head h).state = (s.head h).state := by
  by_cases listed : h < s.mark.heads.length
  · rw [head_onHead_self listed]
  · have beyond : s.mark.heads.length ≤ h := not_lt.mp listed
    rw [State.head, State.head, List.getD_eq_default _ _ beyond,
      List.getD_eq_default _ _ (by simpa [State.onHead] using beyond)]

/-- A fault code set, and then the state OFFLINE (R106, R107). -/
theorem setHeadState_offline_fault (code : Byte) (h : Nat) (s : State) :
    (s.onHead h fun m => { m with fault := code }).setHeadState h .offline = { s with
      mark := { s.mark with heads := s.mark.heads.modify h fun m => { m with state := .offline, fault := code } }
      rep := { s.rep with order :=
        if (s.head h).state = .offline ∨ NoteItem.head h ∈ s.rep.order then s.rep.order
        else s.rep.order ++ [.head h] } } := by
  rw [setHeadState_eq, head_onHead_fault]
  simp only [State.onHead, List.modify_modify_eq]
  rfl

theorem takeStatus_fault (code : Byte) (s : State) (h : Nat) : State.takeStatus true code s h = s.faulted code h := by
  unfold State.faulted State.takeStatus
  simp only [← setHeadState_offline_fault, if_true]
  cases state : (s.head h).state with
  | unknown => rfl
  | online => rfl
  | offline => exact (if_pos ((head_onHead_fault code h s).trans state)).symm

theorem faulted_step (code : Byte) (s : State) (h : Nat) : MarkStep s (s.faulted code h) :=
  takeStatus_fault code s h ▸ takeStatus_step true code s h

theorem faulted_head {s : State} {h : Nat} (listed : h < s.mark.heads.length) (code : Byte) :
    (s.faulted code h).head h = if (s.head h).state = .online
      then { state := .offline, fault := code, schedule := [], engine := none, sent := (s.head h).sent }
      else { s.head h with state := .offline, fault := code } := by
  let t := (s.onHead h fun m => { m with fault := code }).setHeadState h .offline
  have t_eq : t = _ := setHeadState_offline_fault code h s
  have head_t : t.head h = { s.head h with state := .offline, fault := code } := by
    rw [t_eq]
    exact head_onHead_self listed
  unfold State.faulted
  simp only [← t_eq]
  split
  · have listed_t : h < t.mark.heads.length := by
      rw [t_eq]
      simpa using listed
    rw [loseHead_head listed_t (by simp [head_t]), head_t]
  · exact head_t

/-! ## A removed reservation of a lost head (R120, R124) -/

section replanLost
variable {s : State} {h : Nat} {r : Reservation}

theorem replan_testMark (holder : r.holder = .testMark) (lost : Bool) (heads : LaneHeads → List Nat) :
    s.replan lost heads r = s.endTest .missedHeadDown 0 r.slot := by
  rw [State.replan, holder]

variable {seq : Nat} {l : LaneHeads} (holder : r.holder = .hide seq) (lane : r.lane = some l)
include holder lane

theorem replanLost_ok {t : State} (e : s.tryHeads (r.request seq l) (l.other h).toList = .ok t) : s.replanLost h r = t := by
  simp only [State.replanLost, State.replan, holder, lane, e]

theorem replanLost_error {fs : List TrialFailure} (e : s.tryHeads (r.request seq l) (l.other h).toList = .error fs) :
    s.replanLost h r = s.giveUp (r.request seq l) .missedHeadDown := by
  simp only [State.replanLost, State.replan, holder, lane, e]
  rfl

end replanLost

/-! ## HSTAT at the mark scheduler (R106, R183) -/

theorem takeHstat_stray {s : State} {f : Frame}
    (stray : ∀ status code rest, f.payload = status :: code :: rest →
      1 < status.toNat ∨ headsAt s.cmd.active.heads f.src = []) :
    s.takeHstat f = { s with mark := { s.mark with hstatStray := bump s.mark.hstatStray } } := by
  unfold State.takeHstat
  simp only
  split
  next status code rest payload =>
    split
    · rfl
    next known =>
      rw [(stray status code rest payload).resolve_left known]
  next => rfl

theorem takeHstat_taken {s : State} {f : Frame} {status code : Byte} {rest : List Byte}
    (payload : f.payload = status :: code :: rest) (known : status.toNat ≤ 1)
    (heads : headsAt s.cmd.active.heads f.src ≠ []) : s.takeHstat f
      = ((headsAt s.cmd.active.heads f.src).foldl (State.takeStatus (status == 1) code) s).arbitrate := by
  cases there : headsAt s.cmd.active.heads f.src with
  | nil => exact absurd there heads
  | cons h hs => simp only [State.takeHstat, payload, if_neg (not_lt.mpr known), there]

theorem exec_hstat {s : State} {bytes : List Byte} {f : Frame} (hp : s.powered = true)
    (taken : s.takenFrame kindHstat bytes = some f) (own : f.dst ≠ Config.broadcast) :
    exec (.hstat bytes) s = .next (s.takeHstat f) := by
  change execHstat bytes s = _
  rw [execHstat, taken, onFrame_some hp, receive_own own]

/-! ## The statement -/

/-- A state after the end of a test mark with an outcome code and the columns sent: its slot released, its answer placed or
left waiting (R124, R163; log 29). -/
def State.testEnded (s : State) (tm : TestMark) (slot : Nat) (outcome : Byte) (sent : Nat) : State :=
  if s.ring.deferred = [] ∧ s.ring.responses.length + s.ring.kept < 4 then
    { s with
      img := s.img.set slot none, mark := { s.mark with test := none }
      ring := { s.ring with responses := s.ring.responses ++ [s.testRsp tm outcome sent] } }
  else { s with
    img := s.img.set slot none, mark := { s.mark with test := some { tm with ended := true } }
    ring := { s.ring with deferred := s.ring.deferred ++ [.test (s.testRsp tm outcome sent)] } }

theorem endTest_eq {s : State} {tm : TestMark} (test : s.mark.test = some tm) (o : TestOutcome) (sent slot : Nat) :
    s.endTest o sent slot = s.testEnded tm slot (BitVec.ofNat 8 o.code) sent := by
  unfold State.testEnded
  split
  next free => exact endTest_placed test o sent slot free.1 free.2
  next taken => exact endTest_waits test o sent slot (by rw [← not_lt]; exact not_and_or.mp taken)

/-- Settles O32: READY by `foldl_takeStatus_ready`, FAULT by `takeStatus_fault`, a lost head by the state of its engine, a
removed reservation by its holder and the trial on the other head. -/
theorem hstatTaken : Obligations.HstatTaken := by
  unfold Obligations.HstatTaken
  intro testEnded
  refine ⟨?frame, headsAt_eq_filter, ?lost, ?testMark, ?hide⟩
  case frame =>
    intro s bytes f hp taken own hs
    refine ⟨fun stray => ?_, fun code rest payload some_there => ?_, fun code rest payload some_there => ?_⟩
    · rw [exec_hstat hp taken own, takeHstat_stray stray]
      rfl
    · intro notes heads
      rw [exec_hstat hp taken own, takeHstat_taken payload (by decide) some_there]
      exact congrArg (fun t => Host.Outcome.next (State.arbitrate t)) (foldl_takeStatus_ready (headsAt_nodup _ _) code s)
    · intro faulted
      have faulted_eq : State.takeStatus true code = faulted := by
        funext t h
        exact takeStatus_fault code t h
      refine ⟨?_, (MarkStep.foldl (faulted_step code) hs s).frame, fun h one listed => ?_⟩
      · rw [exec_hstat hp taken own, takeHstat_taken payload (by decide) some_there, ← faulted_eq]
        rfl
      · rw [one]
        exact faulted_head listed code
  case lost =>
    intro s h listed others offline
    refine ⟨loseHead_idle, ?_⟩
    intro sv r rest serving schedule dropped
    have stopped : s.stopped h rest = dropped := stopped_eq h rest s
    refine ⟨fun lead => ?_, fun seq printing holder => ?_, fun tm printing holder test => ?_⟩
    · rw [loseHead_lead listed serving schedule offline lead, stopped]
      rfl
    · rw [loseHead_printing_hide listed serving schedule printing holder, stopped, State.toReporting, State.mapRecs, onSeq_eq]
      rfl
    · rw [loseHead_printing_test listed serving schedule printing holder, stopped, endTest_eq (s := dropped) test]
      rfl
  case testMark =>
    intro s h r tm holder test
    have ended : ∀ lost heads, s.replan lost heads r = testEnded s tm r.slot 2 0 := fun lost heads =>
      (replan_testMark holder lost heads).trans (endTest_eq test .missedHeadDown 0 r.slot)
    exact ⟨ended true _, ended⟩
  case hide =>
    intro s h r seq l holder lane other missed q
    have other_eq : l.other h = other := rfl
    have missed_eq : s.giveUp q .missedHeadDown = missed := giveUp_eq q _ s
    refine ⟨fun alone => ?_, fun o listed => ⟨fun why failed => ?_, fun p accepted => ?_⟩⟩
    · have untried : s.tryHeads q (l.other h).toList = .error [] := by
        rw [other_eq, alone]
        rfl
      exact (replanLost_error holder lane untried).trans missed_eq
    · have failed : s.tryHeads q (l.other h).toList = .error [why] := by
        rw [other_eq, listed]
        exact tryHeads_failed_error failed rfl
      exact (replanLost_error holder lane failed).trans missed_eq
    · have found : s.tryHeads q (l.other h).toList = .ok (s.accept o q p) := by
        rw [other_eq, listed]
        exact tryHeads_accepted accepted _
      exact (replanLost_ok holder lane found).trans (accept_request_eq holder lane o p rfl)

end Sys2Proof.Machine
end

section
/-! PROOFS. The marking engines: PRIME frames (O36), columns and the completion of a reservation (O37). -/

namespace Sys2Proof.Machine

/-! ## The turn of an engine (R165; log 23) -/

theorem stepWhen_not_due {s effect : State} {due : Bool} (h : due = false) : stepWhen s due effect = .next s := by
  rw [stepWhen, h, Bool.and_false]
  rfl

section turn
variable {s : State} {h : Nat}

theorem waitingHandDue_none (none_waits : s.mark.waiting = []) : s.waitingHandDue = false := by
  rw [State.waitingHandDue, none_waits]
  rfl

theorem waitingHandDue_full (full : 32 ≤ s.ring.marking.length) : s.waitingHandDue = false := by
  rw [State.waitingHandDue, decide_eq_false (not_lt.mpr (show Config.markingPlaces ≤ _ from full)), Bool.and_false]

theorem waitingHandDue_room {w : WaitingFrame} {more : List WaitingFrame} (waiting : s.mark.waiting = w :: more)
    (room : s.ring.marking.length < 32) : s.waitingHandDue = true := by
  rw [State.waitingHandDue, waiting, decide_eq_true (show _ < Config.markingPlaces from room)]
  rfl

theorem headsTurn_of_quiet (held : s.waitingHandDue = false) (lower : ∀ k, k < h → s.engineDue k = false) :
    s.headsTurn h = true := by
  have quiet : (List.range h).any s.engineDue = false :=
    List.any_eq_false.mpr fun k hk => by simp [lower k (List.mem_range.mp hk)]
  rw [State.headsTurn, held, quiet]
  rfl

theorem headsTurn_of_lower {k : Nat} (lower : k < h) (due : s.engineDue k = true) : s.headsTurn h = false := by
  have busy : (List.range h).any s.engineDue = true := List.any_eq_true.mpr ⟨k, List.mem_range.mpr lower, due⟩
  rw [State.headsTurn, busy, Bool.not_true, Bool.and_false]

end turn

/-! ## Handing a frame, or leaving it waiting (R165) -/

/-- A frame at the end of the marking queue. -/
def State.handed (frame : Frame) (s : State) : State :=
  { s with ring := { s.ring with marking := s.ring.marking ++ [frame] } }

section handing
variable {s : State} {w : WaitingFrame}

theorem offer_room (room : s.ring.marking.length < 32) (none_waits : s.mark.waiting = []) : s.offer w = s.hand w :=
  if_pos ⟨room, none_waits⟩

theorem offer_full (full : 32 ≤ s.ring.marking.length) : s.offer w = s.leaveWaiting w :=
  if_neg fun h => absurd h.1 (not_lt.mpr full)

theorem hand_prime (column : w.column = none) : s.hand w = s.handed w.frame := by
  rw [State.hand, column]
  rfl

theorem hand_column {i : Nat} (column : w.column = some i) : s.hand w = (s.handed w.frame).columnHanded w.head := by
  rw [State.hand, column]
  rfl

theorem handWaiting_eq {more : List WaitingFrame} (waiting : s.mark.waiting = w :: more) :
    s.handWaiting = ({ s with mark := { s.mark with waiting := more } } : State).hand w := by
  rw [State.handWaiting, waiting]

/-- A PRIME left waiting leaves its engine as it is. -/
theorem leaveWaiting_prime (column : w.column = none) : s.leaveWaiting w = { s with
    mark := { s.mark with waiting := s.mark.waiting ++ [w] }
    ring := { s.ring with markWait := bump s.ring.markWait } } := by
  have not_last : s.isLastColumn w = false := by
    unfold State.isLastColumn
    rw [column]
  rw [State.leaveWaiting, not_last, column]
  rfl

variable {sv : Service} {r : Reservation} {rest : List Reservation} (serving : (s.head w.head).engine = some sv)
  (schedule : (s.head w.head).schedule = r :: rest)
include serving schedule

/-- A column left waiting leaves a PRINTING engine so, and makes an engine whose last column it is PRINTING (R165; log 19). -/
theorem leaveWaiting_column {i : Nat} (column : w.column = some i) : s.leaveWaiting w = { s with
    mark := { s.mark with
      heads := s.mark.heads.modify w.head fun m => { m with
        engine := some { sv with printing := (i + 1 == r.columns || Config.waitingColumnPrints) || sv.printing } }
      waiting := s.mark.waiting ++ [w] }
    ring := { s.ring with markWait := bump s.ring.markWait } } := by
  have last : s.isLastColumn w = (i + 1 == r.columns) := by
    simp only [State.isLastColumn, column, schedule]
  let t : State := { s with
    mark := { s.mark with waiting := s.mark.waiting ++ [w] }
    ring := { s.ring with markWait := bump s.ring.markWait } }
  have serving_t : (t.head w.head).engine = some sv := serving
  have effect : s.leaveWaiting w = t.onHead w.head fun m => { m with
      engine := some { sv with printing := (i + 1 == r.columns || Config.waitingColumnPrints) || sv.printing } } := by
    unfold State.leaveWaiting
    rw [last, column, Option.isSome_some, Bool.true_and]
    split
    next prints =>
      rw [prints]
      exact onHead_congr (s := t) (by simp [serving_t])
    next unchanged =>
      rw [Bool.not_eq_true] at unchanged
      rw [unchanged]
      exact (onHead_self (s := t) (by simp [← serving_t])).symm
  exact effect

end handing

/-! ## Priming (R115) -/

section prime
variable {s : State} {h : Nat} {r : Reservation} {rest : List Reservation}

/-- An engine in LEAD, in the orientation and at the ring address of the active entry, no column sent (R115). -/
def State.inLead (h : Nat) (s : State) : State :=
  s.onHead h fun m => { m with
    engine := some { printing := false, rotate := (s.headEntry h).rotate, mirror := (s.headEntry h).mirror,
                     addr := (s.headEntry h).ringAddr }
    sent := 0 }

/-- The hide records after a priming: the hide that the engine serves is MARKING (R115). -/
def Holder.marking (records : List HideRec) : Holder → List HideRec
  | .hide seq => records.map fun x => if x.state ≠ .free ∧ x.seq = seq then { x with state := .marking } else x
  | .testMark => records

/-- A state with its engine primed for a reservation, the PRIME frame not yet offered (R115). -/
def State.primedFor (h : Nat) (r : Reservation) (s : State) : State :=
  { s.inLead h with trk := { s.trk with records := r.holder.marking s.trk.records } }

theorem prime_eq (schedule : (s.head h).schedule = r :: rest) : s.prime h
    = (s.primedFor h r).offer { head := h, column := none, frame := s.primeFrame (s.headEntry h).ringAddr r } := by
  unfold State.prime State.primedFor
  cases holder : r.holder with
  | hide seq =>
    simp only [schedule, holder, State.mapRecs, onSeq_eq]
    rfl
  | testMark =>
    simp only [schedule, holder]
    rfl

theorem primeReady_iff (idle : (s.head h).engine = none) (schedule : (s.head h).schedule = r :: rest) :
    s.primeReady h = true ↔ r.start - (s.headEntry h).primeLead ≤ s.pos.hwm := by
  simp only [State.primeReady, idle, schedule, decide_eq_true_iff]

end prime

/-! ## A column handed (R116, R118) -/

/-- An engine that has completed its reservation: IDLE, with one more column sent (R118; log 45). -/
def State.served (h : Nat) (rest : List Reservation) (s : State) : State :=
  s.onHead h fun m => { m with engine := none, schedule := rest, sent := m.sent + 1 }

/-- The column counted, and then the reservation completed (R116, R118). -/
theorem served_eq {s : State} {h : Nat} {r : Reservation} {rest : List Reservation}
    (schedule : (s.head h).schedule = r :: rest) (sv : Service) :
    (s.onHead h fun m => { m with engine := some sv, sent := m.sent + 1 }).onHead h
      (fun m => { m with engine := none, schedule := m.schedule.drop 1 }) = s.served h rest := by
  rw [onHead_onHead]
  exact onHead_congr (by simp [schedule])

section column
variable {s : State} {h : Nat} {sv : Service} {r : Reservation} {rest : List Reservation}
  (serving : (s.head h).engine = some sv) (schedule : (s.head h).schedule = r :: rest)
include serving schedule

theorem columnHanded_next (more : (s.head h).sent + 1 ≠ r.columns) : s.columnHanded h
    = s.onHead h fun m => { m with engine := some { sv with printing := true }, sent := m.sent + 1 } := by
  simp only [State.columnHanded, serving, schedule, if_neg more]

variable (last : (s.head h).sent + 1 = r.columns)
include last

/-- The last column of a hide: the reservation leaves the schedule, the hide goes to REPORTING with MARKED (R118). -/
theorem columnHanded_last_hide {seq : Nat} (holder : r.holder = .hide seq) : s.columnHanded h
    = ((s.served h rest).releaseSlot r.slot).toReporting seq (some .marked) := by
  simp only [State.columnHanded, serving, schedule, if_pos last, State.complete, holder, served_eq schedule]

/-- The last column of the test mark: the reservation leaves the schedule, the test mark ends MARKED (R118, R124). -/
theorem columnHanded_last_test (holder : r.holder = .testMark) : s.columnHanded h
    = (s.served h rest).endTest .marked r.columns r.slot := by
  simp only [State.columnHanded, serving, schedule, if_pos last, State.complete, holder, served_eq schedule]

end column

section lastColumn
variable {s : State} {w : WaitingFrame} {i : Nat} {sv : Service} {r : Reservation} {rest : List Reservation}
  (column : w.column = some i) (serving : (s.head w.head).engine = some sv)
  (schedule : (s.head w.head).schedule = r :: rest) (last : (s.head w.head).sent + 1 = r.columns)
include column serving schedule last

theorem hand_last_hide {seq : Nat} (holder : r.holder = .hide seq) : s.hand w
    = (((s.handed w.frame).served w.head rest).releaseSlot r.slot).toReporting seq (some .marked) :=
  (hand_column column).trans (columnHanded_last_hide (s := s.handed w.frame) serving schedule last holder)

theorem hand_last_test (holder : r.holder = .testMark) : s.hand w
    = ((s.handed w.frame).served w.head rest).endTest .marked r.columns r.slot :=
  (hand_column column).trans (columnHanded_last_test (s := s.handed w.frame) serving schedule last holder)

end lastColumn

/-! ## The statement of priming -/

section engineStep
variable {s : State} {h : Fin 8}

theorem exec_enginePrime (hp : s.powered = true) (ready : s.primeReady h = true) (turn : s.headsTurn h = true) :
    exec (.enginePrime h) s = .next (s.prime h).arbitrate := by
  change execEnginePrime h s = _
  exact stepWhen_due hp (by rw [ready, turn]; rfl)

theorem exec_columnSend (hp : s.powered = true) (ready : s.columnReady h = true) (turn : s.headsTurn h = true) :
    exec (.columnSend h) s = .next (s.sendColumn h).arbitrate := by
  change execColumnSend h s = _
  exact stepWhen_due hp (by rw [ready, turn]; rfl)

theorem exec_waitingFrameHanded {w : WaitingFrame} {more : List WaitingFrame} (hp : s.powered = true)
    (waiting : s.mark.waiting = w :: more) (room : s.ring.marking.length < 32) :
    exec .waitingFrameHanded s
      = .next (({ s with mark := { s.mark with waiting := more } } : State).hand w).arbitrate := by
  change execWaitingFrameHanded s = _
  rw [← handWaiting_eq waiting]
  exact stepWhen_due hp (waitingHandDue_room waiting room)

end engineStep

/-- Settles O36: an engine's turn and its priming by `prime_eq`, a waiting frame by its sort. -/
theorem enginePrimed : Obligations.EnginePrimed := by
  refine ⟨?prime, ?waiting, ?turns⟩
  case prime =>
    intro h s r rest hp idle schedule within lower e tag frame heads records
    have ready : s.primeReady h = true := (primeReady_iff idle schedule).mpr within
    have tag_eq : r.holder.tag = tag := by cases holder : r.holder <;> simp only [tag, holder] <;> rfl
    have frame_eq : s.primeFrame e.ringAddr r = frame := by
      rw [State.primeFrame, tag_eq]
      rfl
    have records_eq : r.holder.marking s.trk.records = records := by
      cases holder : r.holder <;> simp only [records, holder] <;> rfl
    let t : State := { s with trk := { s.trk with records := records }, mark := { s.mark with heads := heads } }
    have primed : s.prime h = t.offer { head := h, column := none, frame := frame } := by
      rw [prime_eq schedule, ← frame_eq, State.primedFor, records_eq]
      rfl
    refine ⟨fun room none_waits => ?_, fun full => ?_⟩
    · rw [exec_enginePrime hp ready (headsTurn_of_quiet (waitingHandDue_none none_waits) lower), primed,
        offer_room (s := t) room none_waits, hand_prime rfl]
      rfl
    · rw [exec_enginePrime hp ready (headsTurn_of_quiet (waitingHandDue_full full) lower), primed,
        offer_full (s := t) full, leaveWaiting_prime rfl]
      rfl
  case waiting =>
    intro s w more hp waiting room
    refine ⟨fun column => ?_, fun i sv r rest column serving schedule not_last => ?_⟩
    · rw [exec_waitingFrameHanded hp waiting room, hand_prime column]
      rfl
    · rw [exec_waitingFrameHanded hp waiting room, hand_column column]
      exact congrArg (fun t => Host.Outcome.next (State.arbitrate t)) (columnHanded_next serving schedule not_last)
  case turns =>
    intro h s k lower due
    have turn := headsTurn_of_lower lower due
    constructor
    · change execEnginePrime h s = _
      exact stepWhen_not_due (by rw [turn, Bool.and_false])
    · change execColumnSend h s = _
      exact stepWhen_not_due (by rw [turn, Bool.and_false])

/-! ## The statement of the columns -/

section send
variable {s : State} {h : Nat} {sv : Service} {r : Reservation} {rest : List Reservation}
  (serving : (s.head h).engine = some sv) (schedule : (s.head h).schedule = r :: rest)
include serving schedule

theorem columnReady_of_due (inside : s.nextColumn h < r.columns)
    (due : r.start + ((s.nextColumn h * r.pitch : Nat) : Int) ≤ s.pos.hwm) : s.columnReady h = true := by
  simp only [State.columnReady, serving, schedule, decide_eq_true inside, decide_eq_true due, Bool.and_self]

theorem sendColumn_eq : s.sendColumn h
    = s.offer { head := h, column := some (s.nextColumn h), frame := s.columnFrame sv r (s.nextColumn h) } := by
  simp only [State.sendColumn, serving, schedule]

end send

theorem nextColumn_eq (s : State) (h : Nat) : s.nextColumn h
    = (s.head h).sent + s.mark.waiting.countP fun w => decide (w.head = h ∧ w.column ≠ none) := by
  have counted : (fun w : WaitingFrame => w.head == h && w.column.isSome)
      = fun w => decide (w.head = h ∧ w.column ≠ none) := by
    funext w
    rw [Bool.decide_and, decide_not]
    cases w.column <;> rfl
  rw [State.nextColumn, counted]

theorem nextColumn_none_waits {s : State} (none_waits : s.mark.waiting = []) (h : Nat) :
    s.nextColumn h = (s.head h).sent := by
  rw [State.nextColumn, none_waits, List.countP_nil, Nat.add_zero]

/-- Settles O37: a column handed, the last one by `hand_last_hide` and `hand_last_test`, and one left waiting by
`leaveWaiting_column`. -/
theorem columnSent : Obligations.ColumnSent := by
  unfold Obligations.ColumnSent
  intro tagOf columnOf finished
  have column_eq : ∀ s sv r i, State.columnFrame s sv r i = columnOf s sv r i := by
    intro s sv r i
    have tag_eq : r.holder.tag = tagOf r := by cases holder : r.holder <;> simp only [tagOf, holder] <;> rfl
    rw [State.columnFrame, tag_eq]
    rfl
  have completes : ∀ (s : State) (w : WaitingFrame) (i : Nat) (sv : Service) (r : Reservation) (rest : List Reservation)
      (answers : State → Prop), w.column = some i → (s.head w.head).engine = some sv →
      (s.head w.head).schedule = r :: rest → (s.head w.head).sent + 1 = r.columns → answers (s.hand w).arbitrate →
      finished w.head s r rest w.frame answers := by
    intro s w i sv r rest answers column serving schedule last answered
    refine ⟨fun seq holder => ?_, fun tm holder test idle => ⟨fun alone room => ?_, fun full => ?_⟩⟩
    · rw [hand_last_hide column serving schedule last holder, State.toReporting, State.mapRecs, onSeq_eq] at answered
      exact answered
    · have kept : s.ring.kept = 0 := by rw [RingInterface.kept, idle]; rfl
      rw [hand_last_test column serving schedule last holder,
        endTest_placed (s := (s.handed w.frame).served w.head rest) test .marked r.columns r.slot alone
          (show s.ring.responses.length + s.ring.kept < 4 by omega)] at answered
      exact answered
    · rw [hand_last_test column serving schedule last holder,
        endTest_waits (s := (s.handed w.frame).served w.head rest) test .marked r.columns r.slot
          (full.imp_right Nat.le_add_right_of_le)] at answered
      exact answered
  refine ⟨?sent, ?waiting⟩
  case sent =>
    intro h s sv r rest hp serving schedule lower sent
    refine ⟨fun none_waits room inside due => ?room, fun full => ?full⟩
    case room =>
      have next : s.nextColumn h = sent := nextColumn_none_waits none_waits h
      have stepped : exec (.columnSend h) s = .next (s.hand
          { head := h, column := some sent, frame := columnOf s sv r sent }).arbitrate := by
        rw [exec_columnSend hp (columnReady_of_due serving schedule (next ▸ inside) (next ▸ due))
          (headsTurn_of_quiet (waitingHandDue_none none_waits) lower), sendColumn_eq serving schedule, next, column_eq,
          offer_room room none_waits]
      refine ⟨fun more => ?_, fun last => ?_⟩
      · rw [stepped, hand_column rfl]
        exact congrArg (fun t => Host.Outcome.next (State.arbitrate t)) (columnHanded_next serving schedule more.ne)
      · exact completes s { head := h, column := some sent, frame := columnOf s sv r sent } sent sv r rest
          (fun t => exec (.columnSend h) s = .next t) rfl serving schedule last stepped
    case full =>
      intro i inside due
      have next : s.nextColumn h = i := nextColumn_eq s h
      refine ⟨(i + 1 == r.columns || Config.waitingColumnPrints) || sv.printing, ?_, ?_⟩
      · rintro (printing | last) <;> simp [*]
      · rw [exec_columnSend hp (columnReady_of_due serving schedule (next ▸ inside) (next ▸ due))
          (headsTurn_of_quiet (waitingHandDue_full full) lower), sendColumn_eq serving schedule, next, column_eq,
          offer_full full, leaveWaiting_column serving schedule rfl]
        rfl
  case waiting =>
    intro s w more i sv r rest hp waiting room column serving schedule last
    exact completes { s with mark := { s.mark with waiting := more } } w i sv r rest
      (fun t => exec .waitingFrameHanded s = .next t) column serving schedule last (exec_waitingFrameHanded hp waiting room)

end Sys2Proof.Machine
end

section
/-! PROOFS. A command addressed to the part, and TEST_MARK (O53). -/

namespace Sys2Proof.Machine

/-! ## A command that the part takes (R163, R164, R168) -/

/-- The state in which a command is executed: the report address is its source, a place is kept for its answer (R163, R164). -/
def State.executing (f : Frame) (s : State) : State := (s.reportTo f.src).keepPlace true

section takes
variable {s : State} {bytes : List Byte} {f : Frame} {code : Nat} {args : List Byte} {body : CommandBody}
  (takes : s.Takes bytes f code args)
include takes

theorem onCommand_taken : onCommand (· == code) bytes body s = .next
    (((body f.src args (s.executing f)).1.keepPlace false).reply f (body f.src args (s.executing f)).2).arbitrate := by
  have command : s.command (· == code) bytes = some f := command_some takes.taken (beq_iff_eq.mpr takes.code)
  have room : s.responseRoom = true := decide_eq_true takes.room
  rw [onCommand, command, onFrame_some takes.powered, receive_own takes.own, State.intake, if_pos room, State.execute,
    takes.args]
  rfl

/-- A command answered at once that changes nothing else (R163). -/
theorem onCommand_answered {st : Status} {data : List Byte}
    (answers : body f.src args (s.executing f) = (s.executing f, some { status := st, data := data })) :
    onCommand (· == code) bytes body s = .next (s.answered f st data) := by
  rw [onCommand_taken takes, answers]
  rfl

/-- A command whose answer comes later (R163). -/
theorem onCommand_later {t : State} (later : body f.src args (s.executing f) = (t.executing f, none)) :
    onCommand (· == code) bytes body s = .next (t.commanded f) := by
  rw [onCommand_taken takes, later]
  rfl

end takes

/-! ## The test mark begun (R123) -/

/-- The reservation of a test mark: at PRIME_LEAD ahead of the HWM, at the middle nozzles (R123; log 39). -/
def State.testReservation (s : State) (h slot n : Nat) : Reservation :=
  { holder := .testMark, start := s.pos.hwm + (s.headEntry h).primeLead
    stop := s.pos.hwm + (s.headEntry h).primeLead + ((n * s.cmd.active.markp.columnPitch : Nat) : Int), columns := n
    pitch := s.cmd.active.markp.columnPitch, slot := slot, base := ((s.headEntry h).nozzles - 16) / 2, anchorP := 0
    anchorC := 0, lane := none }

/-- A state with a test mark's image in its slot, and its reservation the one of its head (R103, R123). -/
def State.testBooked (src h slot : Nat) (d : Rendered) (s : State) : State :=
  ({ s with
    img := s.img.set slot (some { holder := .testMark, columns := d.columns })
    mark := { s.mark with test := some { src := src, columns := d.columns.length, cut := d.cut, ended := false } } } : State).onHead
      h fun m => { m with schedule := insertReservation (s.testReservation h slot d.columns.length) m.schedule }

section booked
variable {s : State} {src h slot : Nat} {d : Rendered} (listed : h < s.mark.heads.length)
  (schedule : (s.head h).schedule = [])
include listed schedule

theorem testBooked_head : ((s.testBooked src h slot d).head h)
    = { s.head h with schedule := [s.testReservation h slot d.columns.length] } := by
  refine (head_onHead_self listed).trans ?_
  have alone : insertReservation (s.testReservation h slot d.columns.length) (s.head h).schedule
      = [s.testReservation h slot d.columns.length] := by
    rw [schedule]
    rfl
  exact congrArg (fun l => { s.head h with schedule := l }) alone

/-- The reservation booked is due for priming at once, and with room its PRIME frame is handed (R115, R123). -/
theorem beginTest_eq (idle : (s.head h).engine = none) (room : s.ring.marking.length < 32) (none_waits : s.mark.waiting = []) :
    s.beginTest src h slot d = ((s.testBooked src h slot d).inLead h).handed
        (s.primeFrame (s.headEntry h).ringAddr (s.testReservation h slot d.columns.length)) := by
  let t := s.testBooked src h slot d
  have head_t : t.head h = _ := testBooked_head listed schedule
  have idle_t : (t.head h).engine = none := by rw [head_t]; exact idle
  have schedule_t : (t.head h).schedule = [s.testReservation h slot d.columns.length] := by rw [head_t]
  have ready : t.primeReady h = true := (primeReady_iff idle_t schedule_t).mpr (add_sub_cancel_right _ _).le
  have begun : s.beginTest src h slot d = if t.primeReady h then t.prime h else t := rfl
  rw [begun, if_pos ready, prime_eq schedule_t, offer_room (s := t.primedFor h _) room none_waits, hand_prime rfl]
  rfl

end booked

/-- The PRIME frame of a test mark carries the mark tag 0 (R115, R123). -/
theorem primeFrame_testReservation (s : State) (addr h slot n : Nat) : s.primeFrame addr (s.testReservation h slot n)
    = mkFrame addr s.ring.addr 5
      ([0, 0, 0, 0] ++ beBytes 2 (((s.headEntry h).nozzles - 16) / 2) ++ beBytes 1 n) := by
  have tag : beBytes 4 Holder.testMark.tag = [0, 0, 0, 0] := by decide
  rw [← tag]
  rfl

/-- A test mark's reservation booked on an empty schedule and its engine primed, written out (R115, R123). -/
theorem testBooked_inLead {s : State} {src h slot : Nat} {d : Rendered} (schedule : (s.head h).schedule = []) :
    (s.testBooked src h slot d).inLead h = { s with
      img := s.img.set slot (some { holder := .testMark, columns := d.columns })
      mark := { s.mark with
        heads := s.mark.heads.modify h fun m => { m with
          schedule := [s.testReservation h slot d.columns.length]
          engine := some { printing := false, rotate := (s.headEntry h).rotate, mirror := (s.headEntry h).mirror
                           addr := (s.headEntry h).ringAddr }
          sent := 0 }
        test := some { src := src, columns := d.columns.length, cut := d.cut, ended := false } } } := by
  unfold State.inLead State.testBooked
  rw [onHead_onHead]
  refine (onHead_congr (g := fun m => { m with
    schedule := [s.testReservation h slot d.columns.length]
    engine := some { printing := false, rotate := (s.headEntry h).rotate, mirror := (s.headEntry h).mirror
                     addr := (s.headEntry h).ringAddr }
    sent := 0 }) ?_).trans rfl
  have empty : ((({ s with
      img := s.img.set slot (some { holder := .testMark, columns := d.columns })
      mark := { s.mark with test := some { src := src, columns := d.columns.length, cut := d.cut, ended := false } } }
      : State)).head h).schedule = [] := schedule
  simp only [Function.comp_apply, empty]
  rfl

/-! ## TEST_MARK in its cases (R103, R123) -/

section testMark
variable {s : State} {src h value : Nat}

theorem testMark_state (run : s.run ≠ .standby) : s.testMark src h value = (s, some (refusedAnswer .state)) := if_pos run

variable (run : s.run = .standby)
include run

theorem testMark_busy (test : s.mark.test ≠ none) : s.testMark src h value = (s, some (refusedAnswer .busy)) := by
  rw [State.testMark, if_neg (not_not.mpr run), if_pos (Option.isSome_iff_ne_none.mpr test)]

variable (test : s.mark.test = none)
include test

theorem testMark_format (outside : 7 < h ∨ s.cmd.active.calib.unit.maxValue < value) :
    s.testMark src h value = (s, some (refusedAnswer .format)) := by
  rw [State.testMark, if_neg (not_not.mpr run),
    if_neg (Option.not_isSome_iff_eq_none.mpr test), if_pos outside]

variable (head : h ≤ 7) (inRange : value ≤ s.cmd.active.calib.unit.maxValue)
include head inRange

theorem testMark_headDown (down : (s.head h).state ≠ .online) :
    s.testMark src h value = (s, some { status := .ok, data := [2] }) := by
  have inside : ¬ (7 < h ∨ s.cmd.active.calib.unit.maxValue < value) := by omega
  rw [State.testMark, if_neg (not_not.mpr run),
    if_neg (Option.not_isSome_iff_eq_none.mpr test), if_neg inside, if_pos down]
  rfl

theorem testMark_begins {slot : Nat} (online : (s.head h).state = .online) (free : s.freeSlot = some slot)
    (schedule : (s.head h).schedule = []) : s.testMark src h value = (s.beginTest src h slot
      (render s.cmd.active.glyphs s.cmd.active.markp.glyphGap
        (figureText { value := value, unit := s.cmd.active.calib.unit })), none) := by
  have inside : ¬ (7 < h ∨ s.cmd.active.calib.unit.maxValue < value) := by omega
  rw [State.testMark, if_neg (not_not.mpr run),
    if_neg (Option.not_isSome_iff_eq_none.mpr test), if_neg inside, if_neg (not_not.mpr online)]
  simp only [free, schedule]
  rfl

end testMark

/-! ## The statement -/

/-- Settles O53: the command taken by `onCommand_answered` and `onCommand_later`, its effect by the cases of TEST_MARK and
`beginTest_eq`. -/
theorem testMarkBegun : Obligations.TestMarkBegun := by
  intro s bytes f h v₁ v₀ takes value unit top m
  have value_eq : ofBytes [v₁, v₀] = value := by simp [ofBytes, value]
  have top_eq : unit.maxValue = top := by cases unit_eq : unit <;> simp only [top, unit_eq] <;> rfl
  have body_eq : ∀ u, bodyTestMark f.src [h, v₁, v₀] u = u.testMark f.src h.toNat value := by
    intro u
    rw [← value_eq]
    rfl
  have exec_eq : exec (.testMark bytes) s = onCommand (· == codeTestMark) bytes bodyTestMark s := rfl
  rw [exec_eq]
  refine ⟨fun run => ?_, fun run test => ?_, fun run test outside => ?_, fun run test head inRange down => ?_, ?begins⟩
  · exact onCommand_answered takes ((body_eq _).trans (testMark_state run))
  · exact onCommand_answered takes ((body_eq _).trans (testMark_busy run test))
  · exact onCommand_answered takes ((body_eq _).trans (testMark_format run test (top_eq ▸ outside)))
  · exact onCommand_answered takes ((body_eq _).trans (testMark_headDown run test head (top_eq ▸ inRange) down))
  case begins =>
    intro slot run test head inRange online free idle schedule room none_waits e d pitch n base r
    have listed : h.toNat < s.mark.heads.length := by
      refine listed_of_ne_powerOn fun powerOn => ?_
      have unknown : m.state = .unknown := by rw [show m = .powerOn from powerOn]; rfl
      rw [unknown] at online
      cases online
    have begun := testMark_begins (s := s.executing f) (src := f.src) run test head (top_eq ▸ inRange) online free schedule
    refine onCommand_later takes ((body_eq _).trans (begun.trans (congrArg (·, none) ?_)))
    rw [beginTest_eq (s := s.executing f) listed schedule idle room none_waits,
      testBooked_inLead (s := s.executing f) schedule, primeFrame_testReservation]
    rfl

end Sys2Proof.Machine
end

section
/-! PROOFS. The bounds of the ring's buffers, of the note queue and of the lots: what the shared operations, the lot tally and an
apply do for them. -/

namespace Sys2Proof.Machine

/-! ## Which parts the report path's invariants are about -/

/-- The parts that the bounds of the buffers and of the lots are about. -/
structure ReportView where
  forward : List Frame
  responses : List Frame
  marking : List Frame
  answering : Bool
  order : List NoteItem
  lots : List LotSlot
  stagedLots : List LotRec
  activeLots : List LotRec

/-- Those parts of a state. -/
def State.reportView (s : State) : ReportView :=
  { forward := s.ring.forward, responses := s.ring.responses, marking := s.ring.marking, answering := s.ring.answering
    order := s.rep.order, lots := s.lots, stagedLots := s.cmd.staged.lots, activeLots := s.cmd.active.lots }

/-- Every buffer is within its places, a place of the response buffer being kept or not (R135, R162, R163, R165; log 29). -/
structure State.Room (kept : Bool) (s : State) : Prop where
  forward : s.ring.forward.length ≤ Config.forwardPlaces
  responses : s.ring.responses.length + s.ring.kept ≤ Config.responsePlaces
  marking : s.ring.marking.length ≤ Config.markingPlaces
  used : s.rep.used ≤ Config.noteEntries
  answering : s.ring.answering = kept

theorem State.buffersOk_iff (s : State) : s.BuffersOk ↔ s.Room false := by
  constructor
  · rintro ⟨forward, responses, marking, used, answering⟩
    exact ⟨forward, by rw [RingInterface.kept, answering]; exact responses, marking, used, answering⟩
  · intro h
    have responses := h.responses
    rw [RingInterface.kept, h.answering] at responses
    exact ⟨h.forward, responses, h.marking, h.used, h.answering⟩

/-- A slot's lot is below a size, or closing (R130). -/
def LotSlot.Below (size : Nat) (l : LotSlot) : Prop := l.closePending = true ∨ l.count < size

/-- No LOT entry of a bank has size 0 (section 12.8). -/
def LotsSized (lots : List LotRec) : Prop := ∀ l ∈ lots, 1 ≤ l.size

/-- Both banks' LOT entries have a size, and every lot is below its active one or closing (R130). -/
structure State.LotsSound (s : State) : Prop where
  staged : LotsSized s.cmd.staged.lots
  active : LotsSized s.cmd.active.lots
  slots : s.LotsOk

/-- What a step or a part of one does for these invariants: it keeps each of them. -/
structure Keeps (kept : Bool) (s t : State) : Prop where
  room : s.Room kept → t.Room kept
  lots : s.LotsSound → t.LotsSound

variable {kept : Bool} {s t u : State}

theorem Keeps.refl (s : State) : Keeps kept s s := ⟨id, id⟩

theorem Keeps.trans (h₁ : Keeps kept s t) (h₂ : Keeps kept t u) : Keeps kept s u :=
  ⟨h₂.room ∘ h₁.room, h₂.lots ∘ h₁.lots⟩

/-- The lots' soundness depends on the lots and the LOT entries only. -/
theorem State.LotsSound.congr (h : s.LotsSound) (lots : t.lots = s.lots) (staged : t.cmd.staged.lots = s.cmd.staged.lots)
    (active : t.cmd.active.lots = s.cmd.active.lots) : t.LotsSound := by
  obtain ⟨hs, ha, hl⟩ := h
  refine ⟨by rwa [staged], by rwa [active], ?_⟩
  simpa only [State.LotsOk, State.lotSlot, State.lotEntry, lots, active] using hl

theorem Keeps.of_view (e : t.reportView = s.reportView) : Keeps kept s t := by
  simp only [State.reportView, ReportView.mk.injEq] at e
  obtain ⟨forward, responses, marking, answering, order, lots, staged, active⟩ := e
  refine ⟨fun h => ⟨?_, ?_, ?_, ?_, ?_⟩, fun h => h.congr lots staged active⟩
  · exact forward ▸ h.forward
  · rw [RingInterface.kept, answering, responses]
    exact h.responses
  · exact marking ▸ h.marking
  · rw [ReportQueue.used, order]
    exact h.used
  · exact answering ▸ h.answering

/-! ## The shared operations -/

theorem arbitrate_keeps (s : State) : Keeps kept s s.arbitrate where
  room h :=
    { forward := (arbitrate_forward s).trans h.forward
      responses := by
        rw [RingInterface.kept, State.arbitrate_ring_answering]
        exact (Nat.add_le_add_right (arbitrate_responses s) _).trans h.responses
      marking := (arbitrate_marking s).trans h.marking
      used := (arbitrate_used s).trans h.used
      answering := by rw [State.arbitrate_ring_answering, h.answering] }
  lots h := h.congr (by simp) (by simp) (by simp)

theorem Keeps.arbitrate (h : Keeps kept s t) : Keeps kept s t.arbitrate := h.trans (arbitrate_keeps t)

theorem LineStep.keeps (h : LineStep s t) : Keeps kept s t where
  room r :=
    { forward := (congrArg (fun v : State => v.ring.forward.length) h.frame).trans_le r.forward
      responses := h.responses r.responses
      marking := h.marking r.marking
      used := h.used.trans_le r.used
      answering := (congrArg (fun v : State => v.ring.answering) h.frame).trans r.answering }
  lots r := r.congr (by rw [h.frame]) (by rw [h.frame]) (by rw [h.frame])

theorem MarkStep.keeps (h : MarkStep s t) : Keeps kept s t := h.line.keeps

/-- The lot tally leaves the ring as it is, and its notes find room (R131). -/
theorem LotStep.room (h : LotStep s t) (r : s.Room kept) : t.Room kept := by
  have ring : t.ring = s.ring := by rw [h.frame]
  exact ⟨ring ▸ r.forward, ring ▸ r.responses, ring ▸ r.marking, h.used r.used, ring ▸ r.answering⟩

theorem raise_keeps (k : EventKind) (s : State) : Keeps kept s (s.raise k) := (raise_step k s).keeps

theorem Keeps.raise {k : EventKind} (h : Keeps kept s t) : Keeps kept s (t.raise k) := h.trans (raise_keeps k t)

theorem passTime_keeps (dt : Nat) (s : State) : Keeps kept s (s.passTime dt) := .of_view (by simp [State.reportView])

/-- A frame is forwarded where a place is free, else counted (R162). -/
theorem forwardFrame_keeps (f : Frame) (s : State) : Keeps kept s (s.forwardFrame f) := by
  unfold State.forwardFrame
  split
  · rename_i free
    refine ⟨fun h => ⟨?_, h.responses, h.marking, h.used, h.answering⟩, fun h => h.congr rfl rfl rfl⟩
    simpa using free
  · exact .of_view rfl

theorem closeLock_keeps (s : State) : Keeps kept s s.closeLock := by
  unfold State.closeLock
  split
  · have banks := onLockClose_banks s.cmd
    exact .trans (t := { s with ver := { s.ver with lockOpen := false }, cmd := s.cmd.onLockClose })
      (.of_view (by simp [State.reportView, banks.1, banks.2.1])) (raise_keeps _ _)
  · exact .refl s

/-! ## The lots, slot by slot (R130, R131, R133) -/

theorem LotsSized.getD {lots : List LotRec} (h : LotsSized lots) (n : Nat) : 1 ≤ (lots.getD n .default).size := by
  rw [List.getD_eq_getElem?_getD]
  cases e : lots[n]? with
  | none => decide
  | some l => exact h l (List.mem_of_getElem? e)

/-- A lot slot that begins a lot is below every size. -/
theorem fresh_below {size : Nat} (pos : 1 ≤ size) (n : Nat) : (LotSlot.fresh n).Below size := .inr pos

theorem lotSlot_of_set {n : Nat} {l : LotSlot} (lots : t.lots = s.lots.set n l) (m : Nat) :
    t.lotSlot m = if n = m ∧ m < s.lots.length then l else s.lotSlot m := by
  simp only [State.lotSlot, lots, List.getD_eq_getElem?_getD, List.getElem?_set]
  by_cases same : n = m
  · subst same
    by_cases inside : n < s.lots.length <;> simp [inside]
  · simp [same]

/-- A slot set to one that is below its size, or closing, leaves the lots sound. -/
theorem State.LotsSound.set_slot (h : s.LotsSound) {n : Nat} {l : LotSlot} (lots : t.lots = s.lots.set n l)
    (cmd : t.cmd = s.cmd) (below : l.Below (s.lotEntry n).size) : t.LotsSound := by
  obtain ⟨hs, ha, len, slots⟩ := h
  refine ⟨by rwa [cmd], by rwa [cmd], by rw [lots, List.length_set, len], fun m hm => ?_⟩
  have entry : t.lotEntry m = s.lotEntry m := by rw [State.lotEntry, cmd, State.lotEntry]
  rw [lotSlot_of_set lots, entry]
  split
  · rename_i same
    exact same.1 ▸ below
  · exact slots m hm

theorem closeLot_keeps (n : Nat) (c : CloseCause) (s : State) (room : s.noteRoom 1 = true) :
    Keeps kept s (s.closeLot n c) :=
  ⟨(closeLot_step n c s room).room, fun h => h.set_slot rfl rfl (fresh_below (h.active.getD n) _)⟩

theorem donePendingClose_keeps (s : State) (room : s.noteRoom 1 = true) : Keeps kept s s.donePendingClose := by
  unfold State.donePendingClose
  split
  · exact (closeLot_keeps _ _ s room).trans (.of_view rfl)
  · exact .refl s

theorem commandClose_keeps (n : Nat) (s : State) : Keeps kept s (s.commandClose n).1 := by
  unfold State.commandClose
  simp only
  split; · exact .refl s
  split; · exact .refl s
  split; · exact .refl s
  split
  · exact .refl s
  · exact closeLot_keeps _ _ s (by simp_all)

/-! ## Finalization (R129, R130) -/

/-- The note queue has a free entry for `k` more notes (R129). -/
theorem noteRoom_iff {k : Nat} : s.noteRoom k = true ↔ s.rep.used + k ≤ 24 := decide_eq_true_iff

/-- The slot that a hide is counted into: it begins the next lot where the hide fills it (R130). -/
theorem countInto_lots (n : Nat) (r : HideRec) (s : State) : ∃ next, (s.countInto n r).lots =
    s.lots.set n (if s.fillsLot n = true then .fresh next else (s.lotSlot n).count1 r) := by
  unfold State.countInto
  simp only
  split
  · exact ⟨_, List.set_set _⟩
  · exact ⟨0, rfl⟩

/-- A slot with one more hide is below its size still, unless the hide fills the lot (R130). -/
theorem count1_below {size : Nat} {l : LotSlot} (below : l.Below size) (r : HideRec) (more : l.count + 1 ≠ size) :
    (l.count1 r).Below size := by
  refine below.imp id fun short => ?_
  simp only [LotSlot.count1]
  omega

theorem countInto_lotsSound (n : Nat) (r : HideRec) (h : s.LotsSound) : (s.countInto n r).LotsSound := by
  obtain ⟨next, lots⟩ := countInto_lots n r s
  have cmd : (s.countInto n r).cmd = s.cmd := by rw [countInto_frame]
  by_cases inside : n < 4
  · refine h.set_slot lots cmd ?_
    split
    · exact fresh_below (h.active.getD n) _
    · rename_i fills
      exact count1_below (h.slots.2 n inside) r (by simpa [State.fillsLot] using fills)
  · rw [List.set_eq_of_length_le (by rw [h.slots.1]; omega)] at lots
    exact h.congr lots (by rw [cmd]) (by rw [cmd])

theorem finalizeHide_lotsSound (seq : Nat) (r : HideRec) (h : s.LotsSound) : (s.finalizeHide seq r).LotsSound := by
  have dropped : State.LotsSound { s with rep := { s.rep with finals := s.rep.finals.drop 1 } } := h.congr rfl rfl rfl
  unfold State.finalizeHide
  simp only
  split
  · exact (countInto_lotsSound _ _ dropped).congr rfl rfl rfl
  · exact dropped.congr rfl rfl rfl

/-- A finalization that is due has the room its notes need (R129). -/
theorem finalizeFirst_keeps (due : s.attemptPasses = true) : Keeps kept s s.finalizeFirst := by
  unfold State.attemptPasses at due
  unfold State.finalizeFirst
  split at due
  · rename_i seq r first
    simp only [Bool.and_eq_true] at due
    have room : s.rep.used + s.roomNeeded r ≤ Config.noteEntries := noteRoom_iff.mp due.2
    refine ⟨fun h => ?_, finalizeHide_lotsSound seq r⟩
    have ring : (s.finalizeHide seq r).ring = s.ring := by rw [finalizeHide_frame]
    exact ⟨ring ▸ h.forward, ring ▸ h.responses, ring ▸ h.marking, (finalizeHide_used seq r s).trans_le room,
      ring ▸ h.answering⟩
  · cases due

/-! ## The taking effect of an apply (R133, R177) -/

theorem LotsSized.appliedBank {c : CommandUnit} (staged : LotsSized c.staged.lots) (active : LotsSized c.active.lots) :
    LotsSized c.appliedBank.lots := by
  rw [appliedBank_eq]
  simp only
  split
  · exact staged
  · exact active

theorem renumbered_below {size : Nat} {l : LotSlot} (below : l.Below size) (old new : LotRec) :
    (l.renumbered old new).Below size := by
  unfold LotSlot.renumbered
  split
  · exact below
  · split <;> exact below

/-- The taking up of a LOT entry sets the entry's slot to one below the new size, or closing (R133). -/
theorem takeLotEntry_sets {n : Nat} {old new : LotRec} (inside : n < s.lots.length) (below : (s.lotSlot n).Below old.size)
    (pos : 1 ≤ new.size) : ∃ l, (s.takeLotEntry n old new).lots = s.lots.set n l ∧ l.Below new.size := by
  have slot : s.lots[n]? = some (s.lotSlot n) := by
    rw [State.lotSlot, List.getD_eq_getElem?_getD, List.getElem?_eq_getElem inside, Option.getD_some]
  by_cases same : old = new
  · refine ⟨s.lotSlot n, ?_, same ▸ below⟩
    obtain ⟨_, at_n⟩ := List.getElem?_eq_some_iff.mp slot
    rw [State.takeLotEntry, if_pos same, ← at_n, List.set_getElem_self]
  by_cases reached : new.size ≤ (s.lotSlot n).count
  · by_cases room : s.rep.used < 24
    · rw [takeLotEntry_closes slot same reached room]
      exact ⟨_, rfl, renumbered_below (fresh_below pos _) _ _⟩
    · rw [takeLotEntry_pends slot same reached (not_lt.mp room)]
      exact ⟨_, rfl, renumbered_below (.inl rfl) _ _⟩
  · rw [takeLotEntry_open slot same (not_le.mp reached)]
    exact ⟨_, rfl, renumbered_below (.inr (not_le.mp reached)) _ _⟩

/-- After the first `k` slots have taken up their entries, these are below their new sizes and the others below their old ones,
but for closing ones (R133). -/
theorem takeLotEntries_below {old new : Nat → LotRec} (pos : ∀ n, 1 ≤ (new n).size) (len : s.lots.length = 4)
    (below : ∀ n, n < 4 → (s.lotSlot n).Below (old n).size) {k : Nat} (hk : k ≤ 4) :
    let t := (List.range k).foldl (fun t n => t.takeLotEntry n (old n) (new n)) s
    t.lots.length = 4 ∧ ∀ n, n < 4 → (t.lotSlot n).Below (if n < k then (new n).size else (old n).size) := by
  induction k with
  | zero => exact ⟨len, fun n hn => by simpa using below n hn⟩
  | succ k ih =>
    rw [List.range_succ, List.foldl_append]
    generalize (List.range k).foldl (fun t n => t.takeLotEntry n (old n) (new n)) s = v at ih ⊢
    obtain ⟨vlen, vbelow⟩ := ih (by omega)
    have here : (v.lotSlot k).Below (old k).size := by simpa using vbelow k (by omega)
    obtain ⟨l, lots, lbelow⟩ := takeLotEntry_sets (new := new k) (by omega) here (pos k)
    refine ⟨by rw [List.foldl_cons, List.foldl_nil, lots, List.length_set, vlen], fun n hn => ?_⟩
    rw [List.foldl_cons, List.foldl_nil, lotSlot_of_set lots]
    by_cases same : k = n
    · subst same
      simpa [vlen, hn] using lbelow
    · have reached : n < k + 1 ↔ n < k := by omega
      simpa only [same, false_and, if_false, reached] using vbelow n hn

theorem takeApply_lotsSound (force : Bool) (h : s.LotsSound) : (s.takeApply force).LotsSound := by
  have sized := h.staged.appliedBank h.active
  rw [takeApply_eq force s _ rfl]
  have before : ((s.keepWaiting.applyTables force).applyHeads s.cmd.active.heads s.cmd.appliedBank.heads).lots = s.lots := by
    rw [(applyHeads_step _ _ _).lots, applyTables_eq]
    rfl
  obtain ⟨len, slots⟩ := takeLotEntries_below (old := fun n => s.cmd.active.lots.getD n .default) (sized.getD)
    (before ▸ h.slots.1) (fun n hn => by rw [State.lotSlot, before]; exact h.slots.2 n hn) (le_refl 4)
  refine ⟨h.staged, sized, len, fun n hn => ?_⟩
  have below := slots n hn
  rw [if_pos hn] at below
  exact below

theorem takeApply_keeps (force : Bool) (s : State) : Keeps kept s (s.takeApply force) where
  room h := by
    obtain ⟨used, responses, marking, -⟩ := takeApply_room force s
    have frame := takeApply_frame force s
    refine ⟨?_, responses h.responses, marking h.marking, used h.used, ?_⟩
    · rw [frame]
      exact h.forward
    · rw [frame]
      exact h.answering
  lots := takeApply_lotsSound force

theorem takePendingApply_keeps (s : State) : Keeps kept s s.takePendingApply := by
  unfold State.takePendingApply
  split
  · exact takeApply_keeps _ s
  · exact .refl s

theorem applyCommand_keeps (force : Bool) (s : State) : Keeps kept s (s.applyCommand force).1 := by
  unfold State.applyCommand
  simp only
  split; · exact .refl s
  split; · exact .refl s
  split; · exact .refl s
  split; · exact .refl s
  split; · exact takeApply_keeps force s
  split
  · exact takeApply_keeps force s
  · exact .of_view rfl

end Sys2Proof.Machine
end

section
/-! PROOFS. Every step keeps the buffers within their places (O59) and each lot below its size or closing (O60). -/

namespace Sys2Proof.Machine

variable {kept : Bool} {s t : State}

/-! ## Hand-overs, and what a segment finds (R26, R27) -/

theorem handLine_keeps (s : State) : Keeps kept s s.handLine := (lineStep_step s).keeps.arbitrate

theorem handOver_keepsReport (s : State) : Keeps kept s s.handOver := by
  have again (n : Nat) : ∀ u : State, Keeps kept u (n.repeat State.handLine u) := by
    induction n with
    | zero => exact .refl
    | succ n ih => exact fun u => (ih u).trans (handLine_keeps _)
  unfold State.handOver
  simp only
  split
  · exact handLine_keeps s
  · exact (handLine_keeps s).trans (again _ _)

theorem enterLine_keeps (s : State) : Keeps kept s s.enterLine := by
  unfold State.enterLine
  split
  · exact (takeOldest_step s).keeps.arbitrate
  · exact .refl s

theorem settleNext_keeps (h : s.settleNext = some t) : Keeps kept s t := by
  obtain ⟨-, ⟨-, rfl⟩ | ⟨-, -, ⟨-, rfl⟩ | ⟨-, -, rfl⟩ | ⟨-, -, -, rfl⟩⟩⟩ := settleNext_cases h
  · exact .of_view rfl
  · exact (takePendingApply_keeps s).arbitrate
  · exact .of_view rfl
  · exact handOver_keepsReport s

theorem takeSegment_keeps (f : Frame) (s : State) : Keeps kept s (s.takeSegment f) := by
  have settled : Keeps kept s s.settle :=
    settle_keeps (P := Keeps kept s) (fun _ _ hu next => hu.trans (settleNext_keeps next)) (.refl s)
  refine settled.trans ?_
  unfold State.takeSegment State.judgeSegment
  split
  · exact .refl _
  · split <;> exact .of_view rfl

theorem takeHstat_keeps (f : Frame) (s : State) : Keeps kept s (s.takeHstat f) := by
  unfold State.takeHstat
  simp only
  split
  · split
    · exact .of_view rfl
    · split
      · exact .of_view rfl
      · exact (MarkStep.foldl (takeStatus_step _ _) _ s).keeps.arbitrate
  · exact .of_view rfl

theorem receive_keepsReport {f : Frame} {take : State → State} (ht : ∀ u, Keeps kept u (take u)) (s : State) :
    Keeps kept s (s.receive f take) :=
  receive_keeps (P := Keeps kept s) (.refl s) (fun _ hu => hu.trans (forwardFrame_keeps f _))
    (fun _ hu => hu.arbitrate) (fun _ hu => hu.trans (ht _))

/-! ## Loads (R170 to R173) -/

theorem storeEntry_lotsSized {b : Tables} (h : LotsSized b.lots) (t : TableId) (i : Nat) (bs : List Byte) :
    LotsSized (b.storeEntry t i bs).value.lots := by
  unfold Tables.storeEntry
  split
  case h_9 f₁ f₂ f₃ _ =>
    intro l hl
    rcases List.mem_or_eq_of_mem_set hl with there | rfl
    · exact h l there
    · exact (keepNat_range (by decide : 1 ≤ 999) (ofBytes f₁)).1
  all_goals exact h

theorem storeAll_lotsSized (t : TableId) (down : Bool) (entries : List (List Byte)) {b : Tables} (h : LotsSized b.lots)
    (i : Nat) : LotsSized (b.storeAll t down i entries).value.lots := by
  induction entries generalizing b i with
  | nil => exact h
  | cons e rest ih => exact ih (storeEntry_lotsSized h t i e) _

theorem tearLoad_keeps (s : State) : Keeps kept s s.tearLoad := by
  obtain ⟨staged, active⟩ := cancelLoad_banks s.cmd
  exact .of_view (by simp [State.reportView, State.tearLoad, staged, active])

/-- Entries written to the staged bank leave its LOT entries with sizes (R172). -/
theorem loadWrite_keeps (l : Load) (first : Nat) (entries : List (List Byte)) (load : Option Load) (s : State) :
    Keeps kept s { s with cmd := { s.cmd with staged := (l.write first entries s.cmd.staged).value, load := load } } where
  room h := ⟨h.forward, h.responses, h.marking, h.used, h.answering⟩
  lots h := ⟨storeAll_lotsSized _ _ _ h.staged _, h.active, h.slots⟩

theorem loadData_keeps (l : Load) (first : Nat) (bytes : List Byte) (s : State) : Keeps kept s (s.loadData l first bytes).1 := by
  unfold State.loadData
  simp only
  split; · exact tearLoad_keeps s
  split; · exact loadWrite_keeps l first _ _ s
  split; · exact tearLoad_keeps s
  split
  · exact tearLoad_keeps s
  · exact loadWrite_keeps l first _ _ s

theorem loadBegin_keeps (code first count dir : Nat) (s : State) : Keeps kept s (s.loadBegin code first count dir).1 := by
  unfold State.loadBegin
  split; · exact .refl s
  split; · exact .refl s
  split; · exact .refl s
  split
  · exact .refl s
  · obtain ⟨staged, active⟩ := cancelLoad_banks s.cmd
    exact .of_view (by simp [State.reportView, CommandUnit.startLoad, staged, active])

theorem loadEnd_keeps (s : State) : Keeps kept s s.loadEnd.1 := by
  unfold State.loadEnd
  split
  · exact .refl s
  · split
    · exact .of_view rfl
    · exact tearLoad_keeps s

/-! ## The other commands -/

theorem startCommand_keeps (s : State) : Keeps kept s s.startCommand.1 := by
  unfold State.startCommand
  split; · exact .refl s
  split
  · exact .refl s
  · exact .of_view rfl

theorem stopCommand_keeps (s : State) : Keeps kept s s.stopCommand.1 := by
  unfold State.stopCommand
  split
  · exact .refl s
  · exact .of_view rfl
  · exact .refl s
  · exact .refl s

/-- A REVERT makes the staged LOT entries the active ones (R178). -/
theorem revertCommand_keeps (s : State) : Keeps kept s s.revertCommand.1 := by
  unfold State.revertCommand
  split
  · exact .refl s
  · exact ⟨fun h => ⟨h.forward, h.responses, h.marking, h.used, h.answering⟩, fun h => ⟨h.active, h.active, h.slots⟩⟩

theorem openLock_keeps (src : Nat) (s : State) : Keeps kept s (s.openLock src).1 := by
  unfold State.openLock
  split; · exact .refl s
  split; · exact .refl s
  split; · exact .refl s
  split
  · exact .refl s
  · exact .of_view rfl

/-- A soft reset empties the buffers and the unfinished lots (R138, R147, R167). -/
theorem softReset_keeps (s : State) : Keeps kept s s.softReset where
  room h :=
    { forward := Nat.zero_le _
      responses := by
        change 0 + s.ring.kept ≤ _
        exact (Nat.add_le_add_right (Nat.zero_le _) _).trans h.responses
      marking := Nat.zero_le _
      used := Nat.zero_le _
      answering := h.answering }
  lots h := by
    obtain ⟨staged, active⟩ := cancelLoad_banks s.cmd
    have active : s.softReset.cmd.active = s.cmd.active := active
    refine ⟨by rw [show s.softReset.cmd.staged = s.cmd.staged from staged]; exact h.staged, by rw [active]; exact h.active,
      (List.length_map _).trans h.slots.1, fun n hn => ?_⟩
    have inside : n < s.lots.length := hn.trans_eq h.slots.1.symm
    have slot : s.softReset.lotSlot n = s.lots[n].softReset := by
      simp [State.lotSlot, State.softReset, List.getD_eq_getElem?_getD, inside]
    rw [slot, State.lotEntry, active]
    exact .inr (h.active.getD n)

/-- The power-on values are sound (R148). -/
theorem powerOn_keeps (addr count : Nat) (pending : List Instr) (s : State) :
    Keeps false s (State.afterPowerOn addr count pending) where
  room _ := ⟨Nat.zero_le _, Nat.zero_le _, Nat.zero_le _, Nat.zero_le _, rfl⟩
  lots _ := by
    have sized : LotsSized Tables.default.lots := fun l hl => by rw [List.eq_of_mem_replicate hl]; decide
    refine ⟨sized, sized, rfl, fun n hn => .inr ?_⟩
    have empty : ∀ n < 4, ((List.replicate 4 (LotSlot.fresh 1)).getD n (.fresh 1)).count = 0 := by decide
    exact (empty n hn).trans_lt (sized.getD n)

/-! ## Commands and the places of the response buffer (R163; log 29) -/

/-- A command is executed with a place kept for its answer, which the answer then takes or frees (R163). -/
theorem intake_keeps {f : Frame} {body : CommandBody} (hb : ∀ u, Keeps true u (body f.src f.args u).1) (s : State) :
    Keeps false s (s.intake f body) := by
  rcases intake_cases f body s with ⟨-, e⟩ | ⟨free, e⟩ <;> rw [e]
  · exact .of_view rfl
  · refine Keeps.arbitrate ?_
    obtain ⟨room, lots⟩ := hb ((s.reportTo f.src).keepPlace true)
    generalize body f.src f.args ((s.reportTo f.src).keepPlace true) = b at room lots ⊢
    have free : s.ring.responses.length + 1 ≤ Config.responsePlaces := of_decide_eq_true free
    refine ⟨fun h => ?_, fun h => ?_⟩
    · obtain ⟨forward, responses, marking, used, answering⟩ := room ⟨h.forward, free, h.marking, h.used, rfl⟩
      rw [RingInterface.kept, answering, if_pos rfl] at responses
      unfold State.reply
      split
      · refine ⟨forward, ?_, marking, used, rfl⟩
        simpa [State.placeResponse, State.keepPlace, RingInterface.kept] using responses
      · exact ⟨forward, (Nat.le_succ _).trans responses, marking, used, rfl⟩
    · have after := lots (h.congr rfl rfl rfl)
      unfold State.reply
      split <;> exact after.congr rfl rfl rfl

theorem onCommand_keeps {kind : Nat → Bool} {bytes : List Byte} {body : CommandBody} (h : onCommand kind bytes body s = .next t)
    (hb : ∀ u src args v, Keeps true u v → Keeps true u (body src args v).1) : Keeps false s t :=
  onFrame_keeps (P := Keeps false s) h (.refl s) fun f _ =>
    receive_keepsReport (intake_keeps fun u => hb u f.src f.args u (.refl u)) s

/-! ## Every step -/

theorem completeProgramming_keeps (p : Programming) (s : State) : Keeps kept s (s.completeProgramming p) := by
  have counted : Keeps kept s { s with ver := s.ver.completed p } := .of_view rfl
  unfold State.completeProgramming
  simp only
  split
  · exact counted
  · exact counted.trans ((raiseIf_step _ _ _).trans (answerLater_step _ _)).keeps

/-- The first waiting later answer takes a free place of the response buffer (R163). -/
theorem placeDeferred_keeps (free : s.responseRoom = true) : Keeps false s s.placeDeferred := by
  have free : s.ring.responses.length + 1 ≤ Config.responsePlaces := of_decide_eq_true free
  have placed (deferred : List Deferred) (f : Frame) :
      Keeps false s (({ s with ring := { s.ring with deferred := deferred } }).placeResponse f) := by
    refine ⟨fun h => ⟨h.forward, ?_, h.marking, h.used, h.answering⟩, fun h => h.congr rfl rfl rfl⟩
    have none_kept : s.ring.kept = 0 := by rw [RingInterface.kept, h.answering]; rfl
    change (s.ring.responses ++ [f]).length + s.ring.kept ≤ _
    rwa [none_kept, List.length_append]
  unfold State.placeDeferred
  split
  · exact .refl s
  · simp only
    split
    · exact (placed _ _).trans (.of_view rfl)
    · exact placed _ _

/-- What any command or event does for the bounds of the buffers and of the lots: it keeps them. -/
theorem exec_keeps {i : Instr} (h : exec i s = .next t) : Keeps false s t := by
  have time : ∀ dt, Keeps false s (s.passTime dt) := fun dt => passTime_keeps dt s
  have step_of {due : Bool} {effect : State} (h : stepWhen s due effect = .next t)
      (he : due = true → Keeps false s effect) : Keeps false s t := stepWhen_keeps h (.refl s) fun _ => he
  cases i with
  | powerOn straps =>
    cases h
    exact powerOn_keeps _ _ _ s
  | powerLossOrResetAsserted =>
    cases h
    exact .of_view rfl
  | encoderLevelEstablished dt a b => exact step_of h fun _ => (time dt).trans (.of_view rfl)
  | encoderSample dt a b => exact step_of h fun _ => (time dt).trans (.of_view rfl)
  | forwardCount dt a b =>
    exact step_of h fun _ => (time dt).trans (.of_view (by simp [State.reportView, State.countForward]))
  | backwardCount dt a b =>
    refine step_of h fun _ => (time dt).trans ?_
    unfold State.countBackward
    simp only
    split
    · exact .arbitrate (.raise (.of_view rfl))
    · exact .of_view rfl
  | encoderFault dt a b =>
    exact step_of h fun _ => (time dt).trans (.arbitrate (.raise (.of_view rfl)))
  | strobe dt =>
    refine step_of h fun _ => (time dt).trans ?_
    unfold State.issueStrobe
    simp only
    split
    · exact .arbitrate (.raise (.of_view rfl))
    · exact .of_view rfl
  | pulseEnd dt => exact step_of h fun _ => (time dt).trans (.of_view rfl)
  | lineTimeout => exact step_of h fun _ => .of_view rfl
  | seg b => exact onFrame_keeps h (.refl s) fun f _ => receive_keepsReport (takeSegment_keeps f) s
  | hstat b => exact onFrame_keeps h (.refl s) fun f _ => receive_keepsReport (takeHstat_keeps f) s
  | forwardedFrame b => exact onFrame_keeps h (.refl s) fun f _ => (forwardFrame_keeps f s).arbitrate
  | badFrame b => exact step_of h fun _ => .of_view rfl
  | returnedFrame b => exact onFrame_keeps h (.refl s) fun _ _ => .of_view rfl
  | kindErr b => exact onFrame_keeps h (.refl s) fun _ _ => .of_view rfl
  | lineHandover => exact step_of h fun _ => handLine_keeps s
  | enginePrime hd => exact step_of h fun _ => (prime_step _ s).keeps.arbitrate
  | columnSend hd => exact step_of h fun _ => (sendColumn_step _ s).keeps.arbitrate
  | waitingFrameHanded =>
    refine step_of h fun due => (handWaiting_step s ?_).keeps.arbitrate
    simp only [State.waitingHandDue, Bool.and_eq_true, decide_eq_true_eq] at due
    exact due.2
  | applyTakesEffect => exact step_of h fun _ => (takePendingApply_keeps s).arbitrate
  | drainFirstStageEnd => exact step_of h fun _ => .of_view rfl
  | drainSecondStageEnd =>
    exact step_of h fun _ => .arbitrate (.raise (.of_view rfl))
  | finalization =>
    refine step_of h fun due => (finalizeFirst_keeps ?_).arbitrate
    simp only [State.finalizationDue, Bool.and_eq_true] at due
    exact due.1.2
  | pendingLotClose =>
    refine step_of h fun due => (donePendingClose_keeps s ?_).arbitrate
    exact (Bool.and_eq_true_iff.mp due).2
  | transmissionEnd dt => exact step_of h fun _ => (time dt).trans (.arbitrate (.of_view rfl))
  | deferredAnswerPlaced =>
    refine step_of h fun due => (placeDeferred_keeps ?_).arbitrate
    exact (Bool.and_eq_true_iff.mp due).2
  | switchLevelEstablished dt a => exact step_of h fun _ => (time dt).trans (.of_view rfl)
  | switchSample dt a => exact step_of h fun _ => (time dt).trans (.of_view rfl)
  | switchAsserted dt => exact step_of h fun _ => (time dt).trans (.of_view rfl)
  | switchReleased dt =>
    have sampled : Keeps false s ((s.passTime dt).withSwitch false) := (time dt).trans (.of_view rfl)
    exact step_of h fun _ => .arbitrate (sampled.trans (closeLock_keeps _))
  | programmingCompletion dt =>
    refine step_of h fun _ => (time dt).trans (.arbitrate ?_)
    unfold State.finishProgramming
    split
    · exact completeProgramming_keeps _ _
    · exact .refl _
  | status b => exact onCommand_keeps h fun _ => withByte_keeps fun _ _ hv => hv
  | counters b =>
    refine onCommand_keeps h fun _ => withByte_keeps fun clear v hv => hv.trans ?_
    simp only
    split
    · exact .refl v
    · split <;> exact .of_view rfl
  | start b => exact onCommand_keeps h fun _ => withoutArgs_keeps fun _ v hv => hv.trans (startCommand_keeps v)
  | stop b => exact onCommand_keeps h fun _ => withoutArgs_keeps fun _ v hv => hv.trans (stopCommand_keeps v)
  | softReset b => exact onCommand_keeps h fun _ => withoutArgs_keeps fun _ v hv => hv.trans (softReset_keeps v)
  | loadBegin b =>
    refine onCommand_keeps h fun _ _ args v hv => hv.trans ?_
    unfold bodyLoadBegin
    split
    · exact loadBegin_keeps _ _ _ _ v
    · exact .refl v
  | loadData b =>
    refine onCommand_keeps h fun _ _ args v hv => hv.trans ?_
    unfold bodyLoadData
    split
    · exact .refl v
    · exact .refl v
    · exact loadData_keeps _ _ _ v
    · exact tearLoad_keeps v
  | loadEnd b => exact onCommand_keeps h fun _ => withoutArgs_keeps fun _ v hv => hv.trans (loadEnd_keeps v)
  | readTable b =>
    refine onCommand_keeps h fun _ _ args v hv => ?_
    unfold bodyReadTable
    split <;> exact hv
  | apply b midLine =>
    have entered : Keeps false s (if midLine && (s.command (· == codeApply) b).isSome then s.enterLine else s) := by
      split
      · exact enterLine_keeps s
      · exact .refl s
    refine entered.trans (onCommand_keeps h fun _ => withByte_keeps fun mode v hv => hv.trans ?_)
    split
    · exact applyCommand_keeps _ v
    · split
      · exact applyCommand_keeps _ v
      · exact .refl v
  | cancelApply b => exact onCommand_keeps h fun _ => withoutArgs_keeps fun _ _ hv => hv.trans (.of_view rfl)
  | revert b => exact onCommand_keeps h fun _ => withoutArgs_keeps fun _ v hv => hv.trans (revertCommand_keeps v)
  | verifyOpen b => exact onCommand_keeps h fun _ => withoutArgs_keeps fun _ v hv => hv.trans (openLock_keeps _ v)
  | verifyClose b => exact onCommand_keeps h fun _ => withoutArgs_keeps fun _ v hv => hv.trans (closeLock_keeps v)
  | verifyStatus b => exact onCommand_keeps h fun _ => withoutArgs_keeps fun _ _ hv => hv
  | closeLot b => exact onCommand_keeps h fun _ => withByte_keeps fun _ v hv => hv.trans (commandClose_keeps _ v)
  | testMark b =>
    refine onCommand_keeps h fun _ _ args v hv => hv.trans ?_
    unfold bodyTestMark
    split
    · exact (testMark_step _ _ _ v).keeps
    · exact .refl v
  | unknownCommand b => exact onCommand_keeps h fun _ _ _ _ hv => hv

theorem step_keeps (h : step s = .next t) : Keeps false s t := by
  unfold step at h
  split at h
  · rename_i rest _
    exact .trans (t := { s with pending := rest }) (.of_view rfl) (exec_keeps h)
  · unfold State.idle at h
    split at h
    · split at h
      · exact exec_keeps h
      · cases h
        exact passTime_keeps 1 s
    · cases h
      exact .refl s

/-! ## The statements -/

/-- Settles O59: every step keeps the buffers within their places, by `step_keeps`. -/
theorem buffersStayWithin : Obligations.BuffersStayWithin := fun s t ok h =>
  t.buffersOk_iff.mpr ((step_keeps h).room (s.buffersOk_iff.mp ok))

/-- Settles O60: with the LOT entries of both banks in range, every step keeps the lots sound, by `step_keeps`. -/
theorem lotsStayOpen : Obligations.LotsStayOpen := by
  intro s t tables ok h
  have sized {b : Tables} (inRange : b.InRange) : LotsSized b.lots := fun l hl => (inRange.lots.2 l hl).1
  exact ((step_keeps h).lots ⟨sized tables.1, sized tables.2, ok⟩).slots

end Sys2Proof.Machine
end

section
/-! PROOFS. The closes of a lot: PENDING_LOT_CLOSE and CLOSE_LOT (O39). -/

namespace Sys2Proof.Machine

/-! ## A lot closed (R131 to R133) -/

section lot
variable {s : State} {n : Nat} {l : LotSlot}

/-- The LOT note of a lot closed with a cause (R131). -/
def LotSlot.note (n : Nat) (cause : CloseCause) (l : LotSlot) : LotNote :=
  { slot := n, lotNo := l.lotNo, count := l.count, quarters := l.quarters, decimetres := l.decimetres, gross := l.gross
    cause := cause }

theorem closeLot_eq (slot : s.lots[n]? = some l) (cause : CloseCause) : s.closeLot n cause = { s with
    lots := s.lots.set n (.fresh l.following)
    rep := { s.rep with order := s.rep.order ++ [.lot (l.note n cause)] } } := by
  rw [State.closeLot, lotSlot_of_getElem? slot]
  rfl

/-- The lowest slot with a close pending (R133). -/
theorem pendingSlot_eq (slot : s.lots[n]? = some l) (closing : l.closePending = true)
    (lowest : ∀ m l', m < n → s.lots[m]? = some l' → l'.closePending = false) : s.pendingSlot = some n := by
  obtain ⟨inside, at_n⟩ := List.getElem?_eq_some_iff.mp slot
  refine List.findIdx?_eq_some_iff_getElem.mpr ⟨inside, by rw [at_n]; exact closing, fun m below => ?_⟩
  rw [lowest m _ below (List.getElem?_eq_getElem (by omega))]
  exact Bool.false_ne_true

theorem exec_pendingLotClose (hp : s.powered = true) (first : s.pendingSlot = some n) (room : s.rep.used < 24) :
    exec .pendingLotClose s = .next (State.arbitrate { s.closeLot n .apply with
      rep := { (s.closeLot n .apply).rep with waits := false } }) := by
  have due : s.pendingCloseDue = true := by
    rw [State.pendingCloseDue, first, noteRoom_iff.mpr room]
    rfl
  refine (stepWhen_due hp due).trans ?_
  rw [State.donePendingClose, first]

/-! ### CLOSE_LOT (R132) -/

theorem commandClose_format (outside : 3 < n) : s.commandClose n = (s, refusedAnswer .format) := if_pos outside

variable (slot : s.lots[n]? = some l) (inside : n ≤ 3)
include slot inside

theorem commandClose_pending (closing : l.closePending = true) : s.commandClose n = (s, refusedAnswer .busy) := by
  rw [State.commandClose, lotSlot_of_getElem? slot, if_neg (not_lt.mpr inside), if_pos closing]

theorem commandClose_empty (still : l.closePending = false) (empty : l.count = 0) :
    s.commandClose n = (s, refusedAnswer .empty) := by
  rw [State.commandClose, lotSlot_of_getElem? slot, if_neg (not_lt.mpr inside), still, if_neg Bool.false_ne_true,
    if_pos empty]

theorem commandClose_full (still : l.closePending = false) (counted : l.count ≠ 0) (full : 24 ≤ s.rep.used) :
    s.commandClose n = (s, refusedAnswer .busy) := by
  have noRoom : s.noteRoom 1 = false := decide_eq_false (not_le.mpr (Nat.lt_succ_of_le full))
  rw [State.commandClose, lotSlot_of_getElem? slot, if_neg (not_lt.mpr inside), still, if_neg Bool.false_ne_true,
    if_neg counted, noRoom]
  rfl

theorem commandClose_done (still : l.closePending = false) (counted : l.count ≠ 0) (room : s.rep.used < 24) :
    s.commandClose n
      = (s.closeLot n .command, { status := .ok, data := beBytes 2 l.lotNo ++ beBytes 2 l.count }) := by
  rw [State.commandClose, lotSlot_of_getElem? slot, if_neg (not_lt.mpr inside), still, if_neg Bool.false_ne_true,
    if_neg counted, noteRoom_iff.mpr room]
  rfl

end lot

/-- A command answered at once, with what it changes (R163): `onCommand_answered` where the state is another. -/
theorem onCommand_changed {s t : State} {bytes : List Byte} {f : Frame} {code : Nat} {args : List Byte} {body : CommandBody}
    (takes : s.Takes bytes f code args) {st : Status} {data : List Byte}
    (changes : body f.src args (s.executing f) = (t.executing f, some { status := st, data := data })) :
    onCommand (· == code) bytes body s = .next (t.answered f st data) := by
  rw [onCommand_taken takes, changes]
  rfl

/-! ## The statement -/

/-- Settles O39: the pending close by `pendingSlot_eq`, CLOSE_LOT by the cases of `commandClose`. -/
theorem lotsClosed : Obligations.LotsClosed := by
  intro s n l hp slot fresh closed
  have fresh_eq : LotSlot.fresh l.following = fresh := by
    rw [following_eq]
    cases e : l.nextNo <;> simp [fresh, LotSlot.fresh, e]
  have closed_eq (cause : CloseCause) : s.closeLot n cause = closed cause := by
    rw [closeLot_eq slot, fresh_eq]
    rfl
  refine ⟨fun closing lowest room => ?_, fun bytes f b takes named => ?_⟩
  · rw [exec_pendingLotClose hp (pendingSlot_eq slot closing lowest) room, closed_eq]
  · have exec_eq : exec (.closeLot bytes) s = onCommand (· == codeCloseLot) bytes bodyCloseLot s := rfl
    have body_eq : bodyCloseLot f.src [b] (s.executing f) = atOnce ((s.executing f).commandClose b.toNat) := rfl
    have slot' (inside : b.toNat ≤ 3) : (s.executing f).lots[b.toNat]? = some l := by
      rw [named.resolve_right (not_lt.mpr inside)]
      exact slot
    have refused {st : Status} (h : (s.executing f).commandClose b.toNat = (s.executing f, refusedAnswer st)) :
        onCommand (· == codeCloseLot) bytes bodyCloseLot s = .next (s.answered f st []) :=
      onCommand_answered takes (body_eq.trans (congrArg atOnce h))
    rw [exec_eq]
    refine ⟨fun outside => ?_, fun inside closing => ?_, fun inside still empty => ?_, fun inside still counted full => ?_,
      fun inside still counted room => ?_⟩
    · exact refused (commandClose_format outside)
    · exact refused (commandClose_pending (slot' inside) inside closing)
    · exact refused (commandClose_empty (slot' inside) inside still empty)
    · exact refused (commandClose_full (slot' inside) inside still counted full)
    · have named : b.toNat = n := named.resolve_right (not_lt.mpr inside)
      have state_eq : (s.executing f).closeLot b.toNat .command = (closed .command).executing f := by
        rw [named]
        exact congrArg (State.executing f) (closed_eq .command)
      have done := commandClose_done (slot' inside) inside still counted room
      rw [state_eq] at done
      exact onCommand_changed takes (body_eq.trans (congrArg atOnce done))

end Sys2Proof.Machine
end

section
/-! PROOFS. The finalization of a hide (O38). -/

namespace Sys2Proof.Machine

/-! ## Finalization in its cases (R129, R130) -/

/-- None of the flags that leave a hide uncounted is set (R129 step 1). -/
def HideRec.Counts (r : HideRec) : Prop := r.has .fragment = false ∧ r.has .joined = false ∧ r.has .incomplete = false

theorem countsInto_of_counts {r : HideRec} (counts : r.Counts) : r.countsInto = r.lotSlot := by
  obtain ⟨fragment, joined, incomplete⟩ := counts
  rw [HideRec.countsInto, HideRec.counted, fragment, joined, incomplete]
  cases r.lotSlot <;> rfl

theorem countsInto_of_not {r : HideRec} (uncounted : ¬ (r.Counts ∧ r.lotSlot ≠ none)) : r.countsInto = none := by
  refine if_neg fun counted => uncounted ?_
  simpa [HideRec.counted, HideRec.Counts, Option.isSome_iff_ne_none, and_assoc] using counted

section final
variable {s : State} {seq : Nat} {more : List Nat} {r : HideRec} (hp : s.powered = true)
  (first : s.rep.finals = seq :: more) (record : s.recOf seq = some r) (started : s.rep.waits = false)
  (settled : s.pendingCloseDue = false)
include hp first record started settled

/-- The first hide of the list is finalized where no close pends on its slot and its notes have room (R129). -/
theorem exec_finalization (open_slot : s.waitsForClose r = false) (room : s.rep.used + s.roomNeeded r ≤ 24) :
    exec .finalization s = .next (s.finalizeHide seq r).arbitrate := by
  have firstFinal : s.firstFinal = some (seq, r) := by simp [State.firstFinal, first, record]
  have due : s.finalizationDue = true := by
    rw [State.finalizationDue, State.attemptPasses, firstFinal, started, settled]
    simp [open_slot, noteRoom_iff.mpr room]
  refine (stepWhen_due hp due).trans ?_
  rw [State.finalizeFirst, firstFinal]

end final

/-- The records once a hide's is freed (R36). -/
def freedRecords (seq : Nat) (records : List HideRec) : List HideRec :=
  records.map fun x => if x.state ≠ .free ∧ x.seq = seq then HideRec.free else x

theorem freeHide_eq (seq : Nat) (s : State) :
    s.freeHide seq = { s with trk := { s.trk with records := freedRecords seq s.trk.records } } := by
  rw [State.freeHide, State.mapRecs, onSeq_eq]
  rfl

theorem finalizeHide_uncounted {s : State} {seq : Nat} {r : HideRec} (uncounted : r.countsInto = none) :
    s.finalizeHide seq r = { s with
      trk := { s.trk with records := freedRecords seq s.trk.records }
      rep := { s.rep with finals := s.rep.finals.drop 1, order := s.rep.order ++ [.hide r s.ver.count] } } := by
  rw [State.finalizeHide, uncounted]
  exact freeHide_eq seq _

/-- The state without the first hide of its finalization list (R128). -/
def State.dropFinal (s : State) : State := { s with rep := { s.rep with finals := s.rep.finals.drop 1 } }

section counted
variable {s : State} {n : Nat} {l : LotSlot} (slot : s.lots[n]? = some l)
include slot

theorem fillsLot_iff : s.fillsLot n = true ↔ l.count + 1 = (s.lotEntry n).size := by
  rw [State.fillsLot, lotSlot_of_getElem? slot, beq_iff_eq]

theorem countInto_open (below : l.count + 1 ≠ (s.lotEntry n).size) (r : HideRec) :
    s.countInto n r = { s with lots := s.lots.set n (l.count1 r) } := by
  rw [State.countInto, lotSlot_of_getElem? slot, if_neg (fun fills => below ((fillsLot_iff slot).mp fills))]

theorem countInto_fills (fills : l.count + 1 = (s.lotEntry n).size) (r : HideRec) : s.countInto n r = { s with
    lots := s.lots.set n (.fresh l.following)
    rep := { s.rep with order := s.rep.order ++ [.lot ((l.count1 r).note n .size)] } } := by
  obtain ⟨inside, -⟩ := List.getElem?_eq_some_iff.mp slot
  have counted : (s.lots.set n (l.count1 r))[n]? = some (l.count1 r) := List.getElem?_set_self inside
  rw [State.countInto, lotSlot_of_getElem? slot, if_pos ((fillsLot_iff slot).mpr fills),
    closeLot_eq (s := { s with lots := s.lots.set n (l.count1 r) }) counted]
  simp only [List.set_set]
  rfl

variable {r : HideRec} (counted : r.countsInto = some n) (seq : Nat)
include counted

/-- A counted hide takes the next place of its lot, is counted into it, and leaves its note (R129, R130). -/
theorem finalizeHide_counted {t : State} (r₁ : HideRec)
    (r₁_eq : r₁ = { r with lot := some { slot := n, lotNo := l.lotNo, place := l.count + 1 } })
    (into : s.dropFinal.countInto n r₁ = t) :
    s.finalizeHide seq r = { t with
      trk := { t.trk with records := freedRecords seq t.trk.records }
      rep := { t.rep with order := t.rep.order ++ [.hide r₁ s.ver.count] } } := by
  have place : s.dropFinal.assignment n = { slot := n, lotNo := l.lotNo, place := l.count + 1 } := by
    rw [State.assignment, lotSlot_of_getElem? (s := s.dropFinal) slot]
  have e : s.finalizeHide seq r = ((s.dropFinal.countInto n { r with lot := some (s.dropFinal.assignment n) }).appendNote
      (.hide { r with lot := some (s.dropFinal.assignment n) } s.ver.count)).freeHide seq := by
    rw [State.finalizeHide, counted]
    rfl
  rw [e, place, ← r₁_eq, into]
  exact freeHide_eq seq _

end counted

/-! ## The statement -/

/-- Settles O38: the step is due by `exec_finalization`; its effect by whether the hide is counted, and whether it fills its lot. -/
theorem hideFinalized : Obligations.HideFinalized := by
  refine ⟨fun s waits => stepWhen_not_due (by rw [State.finalizationDue, waits]; rfl), ?_⟩
  intro s seq more r hp first record started settled freed counted
  refine ⟨fun uncounted room => ?uncounted, ?counted⟩
  case uncounted =>
    have into : r.countsInto = none := countsInto_of_not uncounted
    have unheld : s.waitsForClose r = false := by rw [State.waitsForClose, into]
    have needed : s.roomNeeded r = 1 := by rw [State.roomNeeded, into]
    rw [exec_finalization hp first record started settled unheld (needed ▸ room), finalizeHide_uncounted into, first]
    rfl
  case counted =>
    intro n l counts lotSlot slot open_slot r₁ l₁
    have into : r.countsInto = some n := (countsInto_of_counts counts).trans lotSlot
    have unheld : s.waitsForClose r = false := by
      rw [State.waitsForClose, into]
      exact (congrArg LotSlot.closePending (lotSlot_of_getElem? slot)).trans open_slot
    have finalized {k : Nat} (needed : s.roomNeeded r = k) (room : s.rep.used + k ≤ 24) :
        exec .finalization s = .next (s.finalizeHide seq r).arbitrate :=
      exec_finalization hp first record started settled unheld (needed ▸ room)
    refine ⟨fun below room => ?_, fun fills room => ?_⟩
    · have needed : s.roomNeeded r = 1 := by
        rw [State.roomNeeded, into]
        exact if_neg fun full => below ((fillsLot_iff slot).mp full)
      rw [finalized needed room, finalizeHide_counted slot into seq r₁ rfl (countInto_open (s := s.dropFinal) slot below r₁)]
      simp only [State.dropFinal, first]
      rfl
    · have needed : s.roomNeeded r = 2 := by
        rw [State.roomNeeded, into]
        exact if_pos ((fillsLot_iff slot).mpr fills)
      rw [finalized needed room, finalizeHide_counted slot into seq r₁ rfl (countInto_fills (s := s.dropFinal) slot fills r₁)]
      simp only [State.dropFinal, first, List.append_assoc]
      rfl

end Sys2Proof.Machine
end

section
/-! PROOFS. The notes: which one leaves next, how events gather, and what each note carries (O40). -/

namespace Sys2Proof.Machine

/-! ## The report queue's choice (R137) -/

/-- What `takeFirst` takes: the first element that passes, from between those before and after it. -/
theorem takeFirst_eq_some_iff {α : Type} {p : α → Bool} {l : List α} {a : α} {rest : List α} :
    takeFirst p l = some (a, rest) ↔
      ∃ before after, l = before ++ a :: after ∧ rest = before ++ after ∧ p a = true ∧ ∀ x ∈ before, p x = false := by
  induction l generalizing a rest with
  | nil => simp [takeFirst]
  | cons x l ih =>
    cases passes : p x
    · rw [takeFirst, if_neg (by rw [passes]; exact Bool.false_ne_true), Option.map_eq_some_iff]
      constructor
      · rintro ⟨⟨b, r⟩, taken, e⟩
        obtain ⟨before, after, rfl, rfl, pass, fail⟩ := ih.mp taken
        cases e
        exact ⟨x :: before, after, rfl, rfl, pass, List.forall_mem_cons.mpr ⟨passes, fail⟩⟩
      · rintro ⟨before, after, e, rfl, pass, fail⟩
        cases before with
        | nil =>
          cases e
          rw [passes] at pass
          cases pass
        | cons y before =>
          cases e
          exact ⟨(a, before ++ after), ih.mpr ⟨before, after, rfl, rfl, pass, (List.forall_mem_cons.mp fail).2⟩, rfl⟩
    · rw [takeFirst, if_pos passes, Option.some.injEq, Prod.mk.injEq]
      constructor
      · rintro ⟨rfl, rfl⟩
        exact ⟨[], l, rfl, rfl, passes, nofun⟩
      · rintro ⟨before, after, e, rfl, pass, fail⟩
        cases before with
        | nil =>
          cases e
          exact ⟨rfl, rfl⟩
        | cons y before =>
          cases e
          rw [(List.forall_mem_cons.mp fail).1] at passes
          cases passes

theorem takeFirst_ne_none {α : Type} {p : α → Bool} {l : List α} {a : α} (there : a ∈ l) (passes : p a = true) :
    takeFirst p l ≠ none := by
  induction l with
  | nil => cases there
  | cons x l ih =>
    unfold takeFirst
    split
    · exact Option.some_ne_none _
    · rename_i fails
      rcases List.mem_cons.mp there with rfl | there
      · exact absurd passes fails
      · simpa using ih there

/-- The greatest level of a list, from a level to start with: no element's is above it, and it is the start or an element's. -/
theorem foldl_max_spec {α : Type} (level : α → Nat) (l : List α) (m : Nat) :
    let top := l.foldl (fun m n => max m (level n)) m
    m ≤ top ∧ (∀ n ∈ l, level n ≤ top) ∧ (top = m ∨ ∃ n ∈ l, level n = top) := by
  induction l generalizing m with
  | nil => exact ⟨le_refl m, nofun, .inl rfl⟩
  | cons x l ih =>
    obtain ⟨above, bound, attained⟩ := ih (max m (level x))
    rw [List.foldl_cons]
    refine ⟨(le_max_left _ _).trans above, List.forall_mem_cons.mpr ⟨(le_max_right _ _).trans above, bound⟩, ?_⟩
    rcases attained with same | ⟨n, hn, at_n⟩
    · rw [same]
      rcases le_total (level x) m with lower | higher
      · exact .inl (max_eq_left lower)
      · exact .inr ⟨x, List.mem_cons_self, (max_eq_right higher).symm⟩
    · exact .inr ⟨n, List.mem_cons_of_mem _ hn, at_n⟩

/-- The highest level present in an arrival order. -/
def topLevel (levels : List Nat) (order : List NoteItem) : Nat := order.foldl (fun m n => max m (n.level levels)) 0

theorem level_le_top {levels : List Nat} {order : List NoteItem} : ∀ n ∈ order, n.level levels ≤ topLevel levels order :=
  (foldl_max_spec (NoteItem.level levels) order 0).2.1

/-- A note has the highest level present exactly where no note of the order is above it. -/
theorem level_eq_top_iff {levels : List Nat} {order : List NoteItem} {item : NoteItem} (there : item ∈ order) :
    item.level levels = topLevel levels order ↔ ∀ n ∈ order, n.level levels ≤ item.level levels := by
  refine ⟨fun top n hn => top ▸ level_le_top n hn, fun above => le_antisymm (level_le_top item there) ?_⟩
  rcases (foldl_max_spec (NoteItem.level levels) order 0).2.2 with low | ⟨n, hn, at_n⟩
  · exact low.trans_le (Nat.zero_le _)
  · exact at_n.symm.trans_le (above n hn)

/-- A nonempty order has a note of the highest level. -/
theorem exists_level_eq_top {levels : List Nat} {order : List NoteItem} (nonempty : order ≠ []) :
    ∃ n ∈ order, n.level levels = topLevel levels order := by
  rcases (foldl_max_spec (NoteItem.level levels) order 0).2.2 with low | attained
  · obtain ⟨n, hn⟩ := List.exists_mem_of_ne_nil order nonempty
    exact ⟨n, hn, le_antisymm (level_le_top n hn) (low.trans_le (Nat.zero_le _))⟩
  · exact attained

theorem chooseNote_eq_none_iff (levels : List Nat) (order : List NoteItem) : chooseNote levels order = none ↔ order = [] := by
  refine ⟨fun no_choice => by_contra fun nonempty => ?_, fun empty => empty ▸ rfl⟩
  obtain ⟨n, hn, at_n⟩ := exists_level_eq_top (levels := levels) nonempty
  have passes : (n.level levels == topLevel levels order) = true := beq_iff_eq.mpr at_n
  exact takeFirst_ne_none (p := fun n : NoteItem => n.level levels == topLevel levels order) hn passes no_choice

theorem chooseNote_eq_some_iff (levels : List Nat) (order : List NoteItem) (item : NoteItem) (rest : List NoteItem) :
    chooseNote levels order = some (item, rest) ↔
      ∃ before after, order = before ++ item :: after ∧ rest = before ++ after
        ∧ (∀ n ∈ order, n.level levels ≤ item.level levels) ∧ ∀ n ∈ before, n.level levels < item.level levels := by
  refine takeFirst_eq_some_iff.trans (exists_congr fun before => exists_congr fun after => ?_)
  refine and_congr_right fun parts => and_congr_right fun _ => ?_
  have there : item ∈ order := parts ▸ List.mem_append_right _ List.mem_cons_self
  have in_order {n : NoteItem} (hn : n ∈ before) : n ∈ order := parts ▸ List.mem_append_left _ hn
  constructor
  · rintro ⟨top, fail⟩
    have top : item.level levels = topLevel levels order := beq_iff_eq.mp top
    refine ⟨(level_eq_top_iff there).mp top, fun n hn => lt_of_le_of_ne (top ▸ level_le_top n (in_order hn)) ?_⟩
    rw [top]
    exact beq_eq_false_iff_ne.mp (fail n hn)
  · rintro ⟨above, below⟩
    have top := (level_eq_top_iff there).mpr above
    exact ⟨beq_iff_eq.mpr top, fun n hn => beq_eq_false_iff_ne.mpr fun same => (below n hn).ne (same.trans top.symm)⟩

/-! ## The gathering of events (R136) -/

theorem raiseIn_clear {k : EventKind} {order : List NoteItem} (clear : ∀ n, NoteItem.event k n ∉ order) :
    raiseIn k order = order ++ [.event k 1] := by
  induction order with
  | nil => rfl
  | cons x order ih =>
    have rest := ih fun n there => clear n (List.mem_cons_of_mem _ there)
    cases x with
    | event k' n =>
      have other : k' ≠ k := fun same => clear n (same ▸ List.mem_cons_self)
      rw [raiseIn, if_neg other, rest]
      rfl
    | hide r n => exact congrArg (NoteItem.hide r n :: ·) rest
    | lot n => exact congrArg (NoteItem.lot n :: ·) rest
    | head h => exact congrArg (NoteItem.head h :: ·) rest

theorem raiseIn_set {k : EventKind} {before : List NoteItem} (clear : ∀ m, NoteItem.event k m ∉ before) (n : Nat)
    (after : List NoteItem) :
    raiseIn k (before ++ .event k n :: after) = before ++ .event k (min 65535 (n + 1)) :: after := by
  induction before with
  | nil => exact if_pos rfl
  | cons x before ih =>
    have rest := ih fun m there => clear m (List.mem_cons_of_mem _ there)
    cases x with
    | event k' m =>
      have other : k' ≠ k := fun same => clear m (same ▸ List.mem_cons_self)
      rw [List.cons_append, raiseIn, if_neg other, rest]
      rfl
    | hide r m => exact congrArg (NoteItem.hide r m :: ·) rest
    | lot m => exact congrArg (NoteItem.lot m :: ·) rest
    | head h => exact congrArg (NoteItem.head h :: ·) rest

/-! ## Payloads laid out field by field (section 13.4) -/

@[simp] theorem beBytes_length (n v : Nat) : (beBytes n v).length = n := by
  induction n with
  | zero => rfl
  | succ n ih => rw [beBytes, List.length_cons, ih]

@[simp] theorem beInt_length (n : Nat) (v : Int) : (beInt n v).length = n := beBytes_length n _

@[simp] theorem beOption_length (n : Nat) (x : Option Nat) : (beOption n x).length = n := by
  cases x with
  | none => exact List.length_replicate
  | some v => exact beBytes_length n v

/-- Fields that follow each other from an offset, each with its own. -/
def layout : Nat → List (List Byte) → List (Nat × List Byte)
  | _, [] => []
  | at_, field :: rest => (at_, field) :: layout (at_ + field.length) rest

/-- Bytes made of fields hold each field at its offset. -/
theorem layout_reads (fields : List (List Byte)) (before : List Byte) : ∀ field ∈ layout before.length fields,
    ((before ++ fields.flatten).drop field.1).take field.2.length = field.2 := by
  induction fields generalizing before with
  | nil => nofun
  | cons first rest ih =>
    refine List.forall_mem_cons.mpr ⟨?_, ?_⟩
    · rw [List.drop_left, List.flatten_cons, List.take_left]
    · rw [List.flatten_cons, ← List.append_assoc, ← List.length_append]
      exact ih (before ++ first)

/-- A payload made of fields, read field by field. -/
theorem payload_reads {bytes : List Byte} {fields : List (List Byte)} {places : List (Nat × List Byte)}
    (whole : bytes = fields.flatten) (placed : layout 0 fields = places) :
    ∀ place ∈ places, (bytes.drop place.1).take place.2.length = place.2 := by
  subst whole placed
  exact layout_reads fields []

/-- The anchor of a HIDE note, absent for an empty ring (section 13.4). -/
def HideRec.anchorField (r : HideRec) : List Byte :=
  match r.ring with
  | a :: _ => beInt 6 a.p ++ beBytes 2 a.c
  | [] => absentBytes 8

@[simp] theorem anchorField_length (r : HideRec) : r.anchorField.length = 8 := by
  unfold HideRec.anchorField
  split
  · simp
  · exact List.length_replicate

/-- The fields of a HIDE note, in order (section 13.4). -/
def HideRec.noteFields (r : HideRec) (verCount : Nat) : List (List Byte) :=
  [beBytes 1 1, beBytes 4 r.seq, beBytes 2 r.firstLine.toNat, beBytes 2 r.lastLine.toNat, beInt 6 r.leading,
    beInt 6 r.trailing, beBytes 2 r.cellMin, beBytes 2 r.cellMax, beBytes 2 r.lineCount, beBytes 1 r.joinCount,
    beBytes 8 r.covered, beBytes 8 r.addBack, beBytes 2 r.smallHoles, beBytes 2 r.largeHoles, beBytes 2 r.flags.toNat,
    beOption 2 (r.value.map FinalValue.value), beOption 1 (r.value.map fun v => v.unit.code), r.anchorField,
    beOption 1 r.lane, beBytes 1 (outcomeCode r.outcome) ++ beBytes 1 r.columnsReported,
    beOption 1 (r.plan.map MarkPlan.head), beOption 1 (r.lot.map LotAssignment.slot),
    beOption 2 (r.lot.map LotAssignment.lotNo), beOption 2 (r.lot.map LotAssignment.place), beBytes 1 verCount]

theorem hidePayload_eq (r : HideRec) (verCount : Nat) : hidePayload r verCount = (r.noteFields verCount).flatten := by
  simp only [HideRec.noteFields, List.flatten_cons, List.flatten_nil, List.append_nil, ← List.append_assoc]
  rfl

/-- The fields of a LOT note, in order (section 13.4). -/
def LotNote.noteFields (n : LotNote) : List (List Byte) :=
  [beBytes 1 2, beBytes 1 n.slot, beBytes 2 n.lotNo, beBytes 2 n.count, beBytes 4 n.quarters, beBytes 4 n.decimetres,
    beBytes 8 n.gross, beBytes 1 n.cause.code]

theorem lotPayload_eq (n : LotNote) : lotPayload n = n.noteFields.flatten := by
  simp only [LotNote.noteFields, List.flatten_cons, List.flatten_nil, List.append_nil, ← List.append_assoc]
  rfl

theorem beBytes_one (v : Nat) : beBytes 1 v = [BitVec.ofNat 8 v] := by
  rw [beBytes, beBytes, pow_zero, Nat.div_one]

theorem noteFlags_eq (flags : BitVec 16) : beBytes 2 flags.toNat = [flags.extractLsb' 8 8, flags.extractLsb' 0 8] := by
  simp only [beBytes, List.cons.injEq, and_true]
  constructor <;> apply BitVec.eq_of_toNat_eq <;> simp [BitVec.extractLsb'_toNat, Nat.shiftRight_eq_div_pow]

/-! ## The statement -/

/-- Settles O40: the choice by `chooseNote_eq_some_iff`, the gathering by `raiseIn_clear` and `raiseIn_set`, each payload by its
fields in order. -/
theorem notesOrdered : Obligations.NotesOrdered := by
  refine ⟨fun levels order => ⟨chooseNote_eq_none_iff levels order, chooseNote_eq_some_iff levels order⟩,
    fun s r count => ?hide, fun s n => ?lot, fun s k n => ?event, fun s h => ?head,
    fun k order => ⟨raiseIn_clear, fun before n after clear parts => parts ▸ raiseIn_set clear n after⟩⟩
  case hide =>
    intro bytes orNone
    have whole : bytes = (r.noteFields count).flatten := hidePayload_eq r count
    refine ⟨(congrArg List.length whole).trans (by simp [HideRec.noteFields]), payload_reads whole ?_⟩
    have orNone_eq (n : Nat) (x : Option Nat) : beOption n x = orNone n x := by cases x <;> rfl
    simp only [layout, HideRec.noteFields, beBytes_length, beInt_length, beOption_length, anchorField_length,
      List.length_append]
    simp only [List.cons.injEq, Prod.mk.injEq, and_true, true_and, orNone_eq, noteFlags_eq]
    refine ⟨rfl, ?unit, ?anchor, ?outcome⟩
    case unit =>
      rw [← orNone_eq]
      rcases r.value with - | ⟨v, - | -⟩
      · rfl
      all_goals exact beBytes_one _
    case anchor =>
      unfold HideRec.anchorField
      cases r.ring <;> rfl
    case outcome =>
      rw [beBytes_one, beBytes_one, HideRec.columnsReported]
      rcases r.outcome with - | - | n | - | - | - | - | -
      case some.marked => cases r.plan <;> exact congrArg (1 :: ·) (beBytes_one _).symm
      case some.partSent => exact congrArg (2 :: ·) (beBytes_one n).symm
      all_goals rfl
  case lot =>
    intro bytes
    have whole : bytes = n.noteFields.flatten := lotPayload_eq n
    refine ⟨(congrArg List.length whole).trans (by simp [LotNote.noteFields]), payload_reads whole ?_⟩
    simp only [layout, LotNote.noteFields, beBytes_length]
    simp only [List.cons.injEq, Prod.mk.injEq, and_true, true_and]
    refine ⟨rfl, ?cause⟩
    cases n.cause <;> rfl
  case event =>
    intro kinds
    have code : k.code = kinds.idxOf k + 1 := by cases k <;> rfl
    have start : beBytes 1 3 ++ beBytes 1 (kinds.idxOf k + 1) = [3, BitVec.ofNat 8 (kinds.idxOf k + 1)] := by
      rw [beBytes_one, beBytes_one]
      rfl
    rw [State.notePayload, code, start]
    refine (List.append_right_inj _).mpr ?_
    cases k
    case lockChanged =>
      rw [State.eventDatum, beBytes_one]
      cases s.ver.lockOpen <;> rfl
    case resetDone => rfl
    all_goals exact beBytes_one 0
  case head =>
    rw [State.notePayload]
    cases (s.head h).state <;> rfl

end Sys2Proof.Machine
end

section
/-! PROOFS. The transmitter's pick and the later answers (O46). -/

namespace Sys2Proof.Machine

/-! ## The transmitter (R163, R166) -/

section arbitrate
variable {s : State}

theorem arbitrate_busy {f : Frame} (busy : s.ring.out = some f) : s.arbitrate = s := by
  rw [State.arbitrate, busy]

variable (free : s.ring.out = none)
include free

theorem arbitrate_marks {f : Frame} {rest : List Frame} (marking : s.ring.marking = f :: rest) :
    s.arbitrate = { s with ring := { s.ring with marking := rest, out := some f } } := by
  rw [State.arbitrate, free, marking]

variable (no_marking : s.ring.marking = [])
include no_marking

theorem arbitrate_forwards {f : Frame} {rest : List Frame} (forward : s.ring.forward = f :: rest) :
    s.arbitrate = { s with ring := { s.ring with forward := rest, out := some f } } := by
  rw [State.arbitrate, free, no_marking, forward]

variable (no_forward : s.ring.forward = [])
include no_forward

theorem arbitrate_responds {f : Frame} {rest : List Frame} (responses : s.ring.responses = f :: rest) :
    s.arbitrate = { s with ring := { s.ring with responses := rest, out := some f } } := by
  rw [State.arbitrate, free, no_marking, no_forward, responses]

variable (no_response : s.ring.responses = [])
include no_response

theorem arbitrate_quiet (none_left : s.ring.report = none ∨ s.rep.order = []) : s.arbitrate = s := by
  rw [State.arbitrate, free, no_marking, no_forward, no_response]
  rcases none_left with no_address | no_note
  · rw [no_address]
  · cases s.ring.report
    · rfl
    · rw [no_note]
      rfl

theorem arbitrate_reports {dst : Nat} {item : NoteItem} {rest : List NoteItem} (address : s.ring.report = some dst)
    (choice : chooseNote s.cmd.active.notepri s.rep.order = some (item, rest)) : s.arbitrate = { s with
      ring := { s.ring with out := some (mkFrame dst s.ring.addr kindNote (s.notePayload item)) }
      rep := { s.rep with order := rest, waits := s.rep.waits && !item.isEntry } } := by
  rw [State.arbitrate, free, no_marking, no_forward, no_response, address]
  simp only [choice]

end arbitrate

/-- The test mark after a later answer is placed: over, where the answer is its own (R124). -/
def Deferred.testAfter (m : Option TestMark) : Deferred → Option TestMark
  | .test _ => none
  | .verify _ => m

/-- The first waiting later answer placed, written out (R124, R163). -/
theorem placeDeferred_eq {s : State} {d : Deferred} {more : List Deferred} (waiting : s.ring.deferred = d :: more) :
    s.placeDeferred = { s with
      ring := { s.ring with deferred := more, responses := s.ring.responses ++ [d.frame] }
      mark := { s.mark with test := d.testAfter s.mark.test } } := by
  rw [State.placeDeferred, waiting]
  cases d <;> rfl

/-! ## The statement -/

/-- Settles O46: the arbiter buffer by buffer, and the later answer placed by `placeDeferred_eq`. -/
theorem transmitterPicks : Obligations.TransmitterPicks := by
  refine ⟨fun s dt hp sending => ?_, fun s f => arbitrate_busy, fun s free => ⟨fun f rest => arbitrate_marks free,
    fun no_marking f rest => arbitrate_forwards free no_marking,
    fun no_marking no_forward f rest => arbitrate_responds free no_marking no_forward,
    fun no_marking no_forward no_response => ⟨arbitrate_quiet free no_marking no_forward no_response,
      fun dst item rest address choice => ?_⟩⟩, fun s d more hp waiting room => ?_⟩
  · have due : (s.passTime dt).ring.out.isSome = true := by simpa [Option.isSome_iff_ne_none] using sending
    exact (stepWhen_due hp due).trans (by rw [State.passTime_ring])
  · rw [arbitrate_reports free no_marking no_forward no_response address choice]
    cases item <;> simp [NoteItem.isEntry]
  · have due : (!s.ring.deferred.isEmpty && s.responseRoom) = true := by
      rw [waiting]
      exact decide_eq_true room
    refine (stepWhen_due hp due).trans ?_
    rw [placeDeferred_eq waiting]
    cases d <;> rfl

end Sys2Proof.Machine
end

section
/-! PROOFS. Power and reset (O3, O4, O5): what a held part takes, and the power-on state with its invariants. -/

namespace Sys2Proof.Machine

/-! ## A part held in reset (R148) -/

section held
variable {s : State} (held : s.powered = false)
include held

theorem stepWhen_held {due : Bool} {effect : State} : stepWhen s due effect = .next s := by
  rw [stepWhen, held]
  rfl

theorem onFrame_held {frame : Option Frame} {effect : Frame → State} : onFrame s frame effect = .next s := by
  unfold onFrame
  split
  · exact stepWhen_held held
  · rfl

theorem onCommand_held {kind : Nat → Bool} {bytes : List Byte} {body : CommandBody} :
    onCommand kind bytes body s = .next s := onFrame_held held

theorem enterLine_held : s.enterLine = s := by
  rw [State.enterLine, held]
  rfl

/-- A held part answers with the state as it is to all but the power-on event and a further assertion (R148). -/
theorem exec_held {i : Instr} (not_asserted : i ≠ .powerLossOrResetAsserted) (not_on : ∀ straps, i ≠ .powerOn straps) :
    exec i s = .next s := by
  cases i
  case powerOn straps => exact absurd rfl (not_on straps)
  case powerLossOrResetAsserted => exact absurd rfl not_asserted
  case seg | hstat | forwardedFrame | returnedFrame | kindErr => exact onFrame_held held
  case apply bytes midLine =>
    have entered : (if midLine && (s.command (· == codeApply) bytes).isSome then s.enterLine else s) = s := by
      rw [enterLine_held held, ite_self]
    exact (congrArg (onCommand _ bytes bodyApply) entered).trans (onCommand_held held)
  case status | counters | start | stop | softReset | loadBegin | loadData | loadEnd | readTable | cancelApply | revert
      | verifyOpen | verifyClose | verifyStatus | closeLot | testMark | unknownCommand => exact onCommand_held held
  all_goals exact stepWhen_held held

theorem step_held (empty : s.pending = []) : step s = .next s := by
  rw [step, empty]
  exact if_neg (by simp [held])

end held

/-- Settles O3: the assertion's effect is `execPowerLossOrResetAsserted`; every other step finds the part held. -/
theorem heldPartTakesNothing : Obligations.HeldPartTakesNothing :=
  ⟨fun _ => rfl, fun _ _ held => exec_held held, fun _ held => step_held held⟩

/-! ## The power-on state (R148, section 12.8) -/

/-- Settles O4: POWER_ON answers `State.afterPowerOn` at the straps' address, whose blocks hold the values named. -/
theorem powerOnState : Obligations.PowerOnState := fun _ _ => rfl

/-- The banks at power-on are in range, table by table (section 12.8). -/
theorem defaultTables_inRange : Tables.default.InRange where
  cellw := ⟨List.length_replicate, List.forall_mem_replicate.mpr (.inr (by decide))⟩
  pitch := reset_legal.1
  calib := by decide
  scan := by decide
  markp := by decide
  lanes := ⟨List.length_replicate, List.forall_mem_replicate.mpr (.inr (by decide))⟩
  heads := ⟨List.length_replicate, List.forall_mem_replicate.mpr (.inr (by decide))⟩
  glyphs := ⟨List.length_replicate, List.forall_mem_replicate.mpr (.inr (by decide))⟩
  lots := ⟨List.length_replicate, List.forall_mem_replicate.mpr (.inr (by decide))⟩
  notepri := by decide

/-- The lots at reset are empty, and every LOT_SIZE is at least 1 (R138, section 12.8). -/
theorem reset_lotsOk : State.reset.LotsOk := by
  refine ⟨rfl, fun n hn => .inr ?_⟩
  have sized : LotsSized State.reset.cmd.active.lots := fun l there => (defaultTables_inRange.lots.2 l there).1
  have empty : ∀ n < 4, (State.reset.lotSlot n).count = 0 := by decide
  exact (empty n hn).trans_lt (sized.getD n)

/-- Settles O5: the tables by `defaultTables_inRange`, the position by `reset_legal`; at reset the strobe enable is clear,
the lock is CLOSED, no load or apply is there, and every buffer is empty. -/
theorem resetMeetsInvariants : Obligations.ResetMeetsInvariants := by
  have tables : State.reset.TablesOk := ⟨defaultTables_inRange, defaultTables_inRange⟩
  have position : State.reset.PositionOk := State.reset.positionOk_iff.mpr reset_legal.2
  have strobes : State.reset.StrobesOk := ⟨by decide, nofun⟩
  have lock : State.reset.LockOk := ⟨nofun, Nat.zero_le _⟩
  have sealed : State.reset.SealOk := ⟨nofun, nofun, nofun⟩
  have buffers : State.reset.BuffersOk := ⟨Nat.zero_le _, Nat.zero_le _, Nat.zero_le _, Nat.zero_le _, rfl⟩
  exact ⟨tables, position, strobes, lock, sealed, buffers, reset_lotsOk⟩

end Sys2Proof.Machine
end

section
/-! PROOFS. Run control: START, STOP and the drain (O41), and SOFT_RESET (O42). -/

namespace Sys2Proof.Machine

/-! ## START and STOP in their cases (R140 to R142) -/

section commands
variable {s : State}

theorem startCommand_state (running : s.run ≠ .standby) : s.startCommand = (s, refusedAnswer .state) := if_pos running

theorem startCommand_notConfigured (standby : s.run = .standby) (fresh : s.cmd.configured = false) :
    s.startCommand = (s, refusedAnswer .notConfigured) := by
  rw [State.startCommand, if_neg (not_not.mpr standby), fresh]
  rfl

theorem startCommand_starts (standby : s.run = .standby) (configured : s.cmd.configured = true) :
    s.startCommand = (s.startRun, { status := .ok, data := beInt 6 s.pos.i ++ [0, 0] }) := by
  have line : beBytes 2 0 = [0, 0] := by decide
  rw [State.startCommand, if_neg (not_not.mpr standby), configured, line]
  rfl

theorem stopCommand_standby (standby : s.run = .standby) : s.stopCommand = (s, refusedAnswer .state) := by
  rw [State.stopCommand, standby]

theorem stopCommand_run (running : s.run = .run) :
    s.stopCommand = ({ s with run := .drainFirst }, { status := .ok, data := [] }) := by
  rw [State.stopCommand, running]

theorem stopCommand_drain (draining : s.run = .drainFirst ∨ s.run = .drainSecond) :
    s.stopCommand = (s, { status := .ok, data := [] }) := by
  rw [State.stopCommand]
  rcases draining with first | second
  · rw [first]
  · rw [second]

end commands

/-! ## The drain's two stages (R143, R144) -/

theorem drainFirstDue_iff {s : State} : s.drainFirstDue = true ↔ s.trk.handing = none ∧ s.run = .drainFirst
    ∧ (∀ r ∈ s.trk.records, r.state ≠ .isOpen) ∧ s.trk.prev.held = [] := by
  simp [State.drainFirstDue, State.atBoundary, State.drainCondition, State.hasOpen, and_assoc]

theorem drainSecondDue_iff {s : State} : s.drainSecondDue = true ↔ s.run = .drainSecond
    ∧ (∀ r ∈ s.trk.records, r.state = .free) ∧ ∀ m ∈ s.mark.heads, m.engine = none := by
  simp [State.drainSecondDue, and_assoc]

/-- Settles O41: the commands by their cases, the ends of the drain by when they are due. -/
theorem runControlMoves : Obligations.RunControlMoves := by
  refine ⟨fun s bytes f takes => ?start, fun s bytes f takes => ?stop, fun s hp draining boundary closed unheld => ?first,
    fun s hp draining free idle => ?second⟩
  case start =>
    have exec_eq : exec (.start bytes) s = onCommand (· == codeStart) bytes bodyStart s := rfl
    rw [exec_eq]
    refine ⟨fun running => ?_, fun standby fresh => ?_, fun standby configured => ?_⟩
    · exact onCommand_answered takes (congrArg atOnce (startCommand_state (s := s.executing f) running))
    · exact onCommand_answered takes (congrArg atOnce (startCommand_notConfigured (s := s.executing f) standby fresh))
    · exact onCommand_changed takes (congrArg atOnce (startCommand_starts (s := s.executing f) standby configured))
  case stop =>
    have exec_eq : exec (.stop bytes) s = onCommand (· == codeStop) bytes bodyStop s := rfl
    rw [exec_eq]
    refine ⟨fun standby => ?_, fun running => ?_, fun draining => ?_⟩
    · exact onCommand_answered takes (congrArg atOnce (stopCommand_standby (s := s.executing f) standby))
    · exact onCommand_changed takes (congrArg atOnce (stopCommand_run (s := s.executing f) running))
    · exact onCommand_answered takes (congrArg atOnce (stopCommand_drain (s := s.executing f) draining))
  case first => exact stepWhen_due hp (drainFirstDue_iff.mpr ⟨boundary, draining, closed, unheld⟩)
  case second => exact stepWhen_due hp (drainSecondDue_iff.mpr ⟨draining, free, idle⟩)

/-! ## SOFT_RESET (R146, R147) -/

/-- The records that a soft reset discards, as a count of those not FREE (R147). -/
theorem discarded_eq (s : State) : s.discarded = s.trk.records.countP fun r => decide (r.state ≠ .free) := by
  simp only [State.discarded, bne, decide_not]
  rfl

/-- The command unit after a soft reset, written out: a load in progress leaves its table TORN (R181). -/
theorem CommandUnit.softReset_eq (c : CommandUnit) : c.softReset = { c with
    load := none, pendingApply := none
    states := match c.load with
      | some l => c.states.put l.table .torn
      | none => c.states } := by
  unfold CommandUnit.softReset CommandUnit.cancelLoad
  cases load : c.load <;> simp [load]

/-- Settles O42: the effect is `State.softReset` block by block, its count by `discarded_eq`, its command unit by
`CommandUnit.softReset_eq`. -/
theorem softResetClears : Obligations.SoftResetClears := by
  intro s bytes f takes discarded
  have exec_eq : exec (.softReset bytes) s = onCommand (· == codeSoftReset) bytes bodySoftReset s := rfl
  have body_eq : bodySoftReset f.src [] (s.executing f)
      = (s.softReset.executing f, some { status := .ok, data := beBytes 1 s.discarded }) := rfl
  rw [exec_eq, onCommand_changed takes body_eq, State.softReset, CommandUnit.softReset_eq, discarded_eq]
  rfl

end Sys2Proof.Machine
end

section
/-! PROOFS. Every command and every step answers a next state, and takes at most the queue's front (O2). -/

namespace Sys2Proof.Machine

/-! ## What the effects leave of the queue -/

theorem LineStep.pending {s t : State} (h : LineStep s t) : t.pending = s.pending := by rw [h.frame]

theorem LotStep.pending {s t : State} (h : LotStep s t) : t.pending = s.pending := by rw [h.frame]

/-- The queue depends on no part of the ring interface or the report queue. -/
theorem ringFree_pending (queue : List Instr) : RingFree (fun s => s.pending = queue) := fun _ _ _ _ h => h

@[simp] theorem takePendingApply_pending (s : State) : s.takePendingApply.pending = s.pending := by
  unfold State.takePendingApply
  split
  · rw [takeApply_frame]
  · rfl

@[simp] theorem handLine_pending (s : State) : s.handLine.pending = s.pending :=
  (State.arbitrate_pending _).trans (lineStep_step s).pending

@[simp] theorem enterLine_pending (s : State) : s.enterLine.pending = s.pending := by
  unfold State.enterLine
  split
  · exact (State.arbitrate_pending _).trans (takeOldest_step s).pending
  · rfl

theorem settleNext_pending {s t : State} (h : s.settleNext = some t) : t.pending = s.pending := by
  obtain ⟨-, ⟨-, rfl⟩ | ⟨-, -, ⟨-, rfl⟩ | ⟨-, -, rfl⟩ | ⟨-, -, -, rfl⟩⟩⟩ := settleNext_cases h
  · rfl
  · simp
  · rfl
  · exact handOver_keeps State.pending handLine_pending s

@[simp] theorem takeSegment_pending (f : Frame) (s : State) : (s.takeSegment f).pending = s.pending := by
  have settled : s.settle.pending = s.pending :=
    settle_keeps (P := fun u => u.pending = s.pending) (fun _ _ kept next => (settleNext_pending next).trans kept) rfl
  unfold State.takeSegment State.judgeSegment
  split
  · exact settled
  · split <;> exact settled

@[simp] theorem takeHstat_pending (f : Frame) (s : State) : (s.takeHstat f).pending = s.pending := by
  unfold State.takeHstat
  simp only
  split
  · split
    · rfl
    · split
      · rfl
      · exact (State.arbitrate_pending _).trans (MarkStep.foldl (takeStatus_step _ _) _ s).pending
  · rfl

@[simp] theorem countBackward_pending (s : State) : s.countBackward.pending = s.pending := by
  unfold State.countBackward
  simp only
  split
  · exact State.arbitrate_pending _
  · rfl

@[simp] theorem issueStrobe_pending (s : State) : s.issueStrobe.pending = s.pending := by
  unfold State.issueStrobe
  simp only
  split
  · exact State.arbitrate_pending _
  · rfl

@[simp] theorem finalizeFirst_pending (s : State) : s.finalizeFirst.pending = s.pending := by rw [finalizeFirst_frame]

@[simp] theorem placeDeferred_pending (s : State) : s.placeDeferred.pending = s.pending := by rw [placeDeferred_frame]

@[simp] theorem finishProgramming_pending (s : State) : s.finishProgramming.pending = s.pending := by
  unfold State.finishProgramming State.completeProgramming
  split
  · simp only
    split
    · rfl
    · exact (answerLater_step _ _).pending.trans (raiseIf_step _ _ _).pending
  · rfl

/-! ## What the commands leave of the queue -/

@[simp] theorem startCommand_pending (s : State) : s.startCommand.1.pending = s.pending := by
  unfold State.startCommand
  split
  · rfl
  · split <;> rfl

@[simp] theorem stopCommand_pending (s : State) : s.stopCommand.1.pending = s.pending := by
  unfold State.stopCommand
  split <;> rfl

@[simp] theorem loadBegin_pending (code first count dir : Nat) (s : State) :
    (s.loadBegin code first count dir).1.pending = s.pending := by
  unfold State.loadBegin
  split; · rfl
  split; · rfl
  split; · rfl
  split <;> rfl

@[simp] theorem loadData_pending (l : Load) (first : Nat) (bytes : List Byte) (s : State) :
    (s.loadData l first bytes).1.pending = s.pending := by
  unfold State.loadData
  simp only
  split; · rfl
  split; · rfl
  split; · rfl
  split <;> rfl

@[simp] theorem loadEnd_pending (s : State) : s.loadEnd.1.pending = s.pending := by
  unfold State.loadEnd
  split
  · rfl
  · split <;> rfl

@[simp] theorem applyCommand_pending (force : Bool) (s : State) : (s.applyCommand force).1.pending = s.pending := by
  have takes : (s.takeApply force).pending = s.pending := by rw [takeApply_frame]
  unfold State.applyCommand
  simp only
  split; · rfl
  split; · rfl
  split; · rfl
  split; · rfl
  split; · exact takes
  split
  · exact takes
  · rfl

@[simp] theorem revertCommand_pending (s : State) : s.revertCommand.1.pending = s.pending := by
  unfold State.revertCommand
  split <;> rfl

@[simp] theorem openLock_pending (src : Nat) (s : State) : (s.openLock src).1.pending = s.pending := by
  unfold State.openLock
  split; · rfl
  split; · rfl
  split; · rfl
  split <;> rfl

/-- What a command does leaves the queue as it is. -/
theorem CommandStep.body_pending {i : Instr} {bytes : List Byte} {kind : Nat → Bool} {body : CommandBody}
    (h : CommandStep i bytes kind body) {queue : List Instr} (src : Nat) (args : List Byte) (s : State)
    (waiting : s.pending = queue) : (body src args s).1.pending = queue := by
  let P : State → Prop := fun u => u.pending = queue
  cases h with
  | status => exact withByte_keeps (P := P) (fun _ _ hu => hu) src args s waiting
  | counters =>
    refine withByte_keeps (P := P) (fun clear u hu => ?_) src args s waiting
    simp only
    split
    · exact hu
    · split <;> exact hu
  | start => exact withoutArgs_keeps (P := P) (fun _ u => (startCommand_pending u).trans) src args s waiting
  | stop => exact withoutArgs_keeps (P := P) (fun _ u => (stopCommand_pending u).trans) src args s waiting
  | softReset => exact withoutArgs_keeps (P := P) (fun _ _ hu => hu) src args s waiting
  | loadBegin =>
    unfold bodyLoadBegin
    split
    · exact (loadBegin_pending _ _ _ _ s).trans waiting
    · exact waiting
  | loadData =>
    unfold bodyLoadData
    split
    · exact waiting
    · exact waiting
    · exact (loadData_pending _ _ _ s).trans waiting
    · exact waiting
  | loadEnd => exact withoutArgs_keeps (P := P) (fun _ u => (loadEnd_pending u).trans) src args s waiting
  | readTable =>
    unfold bodyReadTable
    split <;> exact waiting
  | apply =>
    refine withByte_keeps (P := P) (fun mode u hu => ?_) src args s waiting
    split
    · exact (applyCommand_pending _ u).trans hu
    · split
      · exact (applyCommand_pending _ u).trans hu
      · exact hu
  | cancelApply => exact withoutArgs_keeps (P := P) (fun _ _ hu => hu) src args s waiting
  | revert => exact withoutArgs_keeps (P := P) (fun _ u => (revertCommand_pending u).trans) src args s waiting
  | verifyOpen => exact withoutArgs_keeps (P := P) (fun src u => (openLock_pending src u).trans) src args s waiting
  | verifyClose => exact withoutArgs_keeps (P := P) (fun _ u => (State.closeLock_pending u).trans) src args s waiting
  | verifyStatus => exact withoutArgs_keeps (P := P) (fun _ _ hu => hu) src args s waiting
  | closeLot => exact withByte_keeps (P := P) (fun _ u => (commandClose_step _ u).pending.trans) src args s waiting
  | testMark =>
    unfold bodyTestMark
    split
    · exact (testMark_step _ _ _ s).pending.trans waiting
    · exact waiting
  | unknownCommand => exact waiting

/-! ## Every form of a step answers a next state -/

/-- A step's answer is a next state with a queue. -/
def AnswersWith (queue : List Instr) (o : StepOutcome) : Prop := ∃ t, o = .next t ∧ t.pending = queue

theorem stepWhen_answers {s effect : State} {due : Bool} (kept : due = true → effect.pending = s.pending) :
    AnswersWith s.pending (stepWhen s due effect) := by
  unfold stepWhen
  split
  · rename_i taken
    exact ⟨effect, rfl, kept (Bool.and_eq_true_iff.mp taken).2⟩
  · exact ⟨s, rfl, rfl⟩

theorem onFrame_answers {s : State} {frame : Option Frame} {effect : Frame → State}
    (kept : ∀ f, (effect f).pending = s.pending) : AnswersWith s.pending (onFrame s frame effect) := by
  unfold onFrame
  split
  · exact stepWhen_answers fun _ => kept _
  · exact ⟨s, rfl, rfl⟩

theorem receive_pending {f : Frame} {take : State → State} (kept : ∀ u, (take u).pending = u.pending) (s : State) :
    (s.receive f take).pending = s.pending :=
  (ringFree_pending s.pending).receive rfl fun u => (kept u).trans

/-- A step about a CMD frame answers a next state with the queue as it was (R163, R168). -/
theorem CommandStep.answers {i : Instr} {bytes : List Byte} {kind : Nat → Bool} {body : CommandBody}
    (h : CommandStep i bytes kind body) (s : State) : AnswersWith s.pending (onCommand kind bytes body s) := by
  obtain ⟨t, answer⟩ : ∃ t, onCommand kind bytes body s = .next t := by
    unfold onCommand onFrame stepWhen
    split
    · split <;> exact ⟨_, rfl⟩
    · exact ⟨s, rfl⟩
  exact ⟨t, answer, (ringFree_pending s.pending).onCommand answer rfl h.body_pending⟩

/-- Every command and event answers a next state with the queue as it was, by its form and its effect. -/
theorem exec_answers (i : Instr) (s : State) : AnswersWith s.pending (exec i s) := by
  have timed (dt : Nat) {t : State} (kept : t.pending = (s.passTime dt).pending) : t.pending = s.pending :=
    kept.trans (State.passTime_pending dt s)
  have picked {t : State} (kept : t.pending = s.pending) : t.arbitrate.pending = s.pending :=
    (State.arbitrate_pending t).trans kept
  cases i with
  | powerOn straps => exact ⟨_, rfl, rfl⟩
  | powerLossOrResetAsserted => exact ⟨_, rfl, rfl⟩
  | encoderLevelEstablished dt a b => exact stepWhen_answers fun _ => timed dt rfl
  | encoderSample dt a b => exact stepWhen_answers fun _ => timed dt rfl
  | forwardCount dt a b => exact stepWhen_answers fun _ => timed dt (State.enterWait_pending _)
  | backwardCount dt a b => exact stepWhen_answers fun _ => timed dt (countBackward_pending _)
  | encoderFault dt a b => exact stepWhen_answers fun _ => timed dt (State.arbitrate_pending _)
  | strobe dt => exact stepWhen_answers fun _ => timed dt (issueStrobe_pending _)
  | pulseEnd dt => exact stepWhen_answers fun _ => timed dt rfl
  | lineTimeout => exact stepWhen_answers fun _ => rfl
  | seg b => exact onFrame_answers fun f => receive_pending (takeSegment_pending f) s
  | hstat b => exact onFrame_answers fun f => receive_pending (takeHstat_pending f) s
  | forwardedFrame b => exact onFrame_answers fun f => picked (State.forwardFrame_pending f s)
  | badFrame b => exact stepWhen_answers fun _ => rfl
  | returnedFrame b => exact onFrame_answers fun _ => rfl
  | kindErr b => exact onFrame_answers fun _ => rfl
  | lineHandover => exact stepWhen_answers fun _ => handLine_pending s
  | enginePrime h => exact stepWhen_answers fun _ => picked (prime_step _ s).pending
  | columnSend h => exact stepWhen_answers fun _ => picked (sendColumn_step _ s).pending
  | waitingFrameHanded =>
    refine stepWhen_answers fun due => picked (handWaiting_step s ?_).pending
    exact of_decide_eq_true (Bool.and_eq_true_iff.mp due).2
  | applyTakesEffect => exact stepWhen_answers fun _ => picked (takePendingApply_pending s)
  | drainFirstStageEnd => exact stepWhen_answers fun _ => rfl
  | drainSecondStageEnd => exact stepWhen_answers fun _ => State.arbitrate_pending _
  | finalization => exact stepWhen_answers fun _ => picked (finalizeFirst_pending s)
  | pendingLotClose =>
    refine stepWhen_answers fun due => picked (donePendingClose_step s ?_).pending
    exact (Bool.and_eq_true_iff.mp due).2
  | transmissionEnd dt => exact stepWhen_answers fun _ => timed dt (State.arbitrate_pending _)
  | deferredAnswerPlaced => exact stepWhen_answers fun _ => picked (placeDeferred_pending s)
  | switchLevelEstablished dt a => exact stepWhen_answers fun _ => timed dt rfl
  | switchSample dt a => exact stepWhen_answers fun _ => timed dt rfl
  | switchAsserted dt => exact stepWhen_answers fun _ => timed dt rfl
  | switchReleased dt => exact stepWhen_answers fun _ => picked (timed dt (State.closeLock_pending _))
  | programmingCompletion dt => exact stepWhen_answers fun _ => picked (timed dt (finishProgramming_pending _))
  | status b => exact (CommandStep.status b).answers s
  | counters b => exact (CommandStep.counters b).answers s
  | start b => exact (CommandStep.start b).answers s
  | stop b => exact (CommandStep.stop b).answers s
  | softReset b => exact (CommandStep.softReset b).answers s
  | loadBegin b => exact (CommandStep.loadBegin b).answers s
  | loadData b => exact (CommandStep.loadData b).answers s
  | loadEnd b => exact (CommandStep.loadEnd b).answers s
  | readTable b => exact (CommandStep.readTable b).answers s
  | apply b midLine =>
    have entered : (if midLine && (s.command (· == codeApply) b).isSome then s.enterLine else s).pending = s.pending := by
      split
      · exact enterLine_pending s
      · rfl
    exact entered ▸ (CommandStep.apply b).answers _
  | cancelApply b => exact (CommandStep.cancelApply b).answers s
  | revert b => exact (CommandStep.revert b).answers s
  | verifyOpen b => exact (CommandStep.verifyOpen b).answers s
  | verifyClose b => exact (CommandStep.verifyClose b).answers s
  | verifyStatus b => exact (CommandStep.verifyStatus b).answers s
  | closeLot b => exact (CommandStep.closeLot b).answers s
  | testMark b => exact (CommandStep.testMark b).answers s
  | unknownCommand b => exact (CommandStep.unknownCommand b).answers s

/-! ## The statement -/

/-- Settles O2: every command answers by `exec_answers`; a step is the front's, the part's own that is due, or the passing of
time. -/
theorem everyStepCompletes : Obligations.EveryStepCompletes := by
  refine ⟨exec_answers, fun s => ?_⟩
  unfold step
  split
  · rename_i front rest queue
    rw [queue]
    exact exec_answers front { s with pending := rest }
  · rename_i empty
    have idles : AnswersWith s.pending s.idle := by
      unfold State.idle
      split
      · split
        · exact exec_answers _ s
        · exact ⟨_, rfl, State.passTime_pending 1 s⟩
      · exact ⟨s, rfl, rfl⟩
    rwa [empty] at idles ⊢

end Sys2Proof.Machine
end

section
/-! PROOFS. The lock and the tables that it seals (O58), and the close of the lock by the switch or by command (O43). -/

namespace Sys2Proof.Machine

/-! ## What a close of the lock does (R150, R154) -/

/-- A verified staged table is MODIFIED exactly where CELLW, PITCH or CALIB is (R150). -/
theorem verifiedModified_iff (c : CommandUnit) : c.verifiedModified = true ↔
    c.states.cellw = .modified ∨ c.states.pitch = .modified ∨ c.states.calib = .modified := by
  simp [CommandUnit.verifiedModified, StagedStates.having, TableId.all, TableId.verified, StagedStates.get]

/-- The staged states once a load of a verified table is cancelled (R154). -/
def CommandUnit.statesOnClose (c : CommandUnit) : StagedStates :=
  match c.load with
  | some l => if l.table.verified then c.states.put l.table .torn else c.states
  | none => c.states

theorem onLockClose_states (c : CommandUnit) : c.onLockClose.states = c.statesOnClose := by
  unfold CommandUnit.onLockClose CommandUnit.statesOnClose
  simp only [apply_ite CommandUnit.states, ite_self]
  cases load : c.load with
  | none => rfl
  | some l => simp only [apply_ite CommandUnit.states, CommandUnit.cancelLoad, load]

/-- A close of the lock at the command unit, written out: no verified load goes on, and no apply that would make a verified
table active stays pending (R154). -/
theorem onLockClose_eq (c : CommandUnit) : c.onLockClose = { c with
    load := if c.load.any (fun l => l.table.verified) then none else c.load
    states := c.statesOnClose
    pendingApply := if c.statesOnClose.cellw = .modified ∨ c.statesOnClose.pitch = .modified
        ∨ c.statesOnClose.calib = .modified then none else c.pendingApply } := by
  have modified := verifiedModified_iff c.onLockClose
  rw [onLockClose_states] at modified
  rw [onLockClose_frame c, onLockClose_states, if_congr modified rfl rfl]
  rfl

/-! ## The invariants of the lock, move by move (R150, R151, R153, R154, R175) -/

/-- The lock is OPEN only under an ASSERTED switch, and the count in its range, as `State.LockOk` has it of a state. -/
structure Verification.Legal (v : Verification) : Prop where
  asserted : v.lockOpen = true → v.switch.accepted = some true
  count_le : v.count ≤ countTop

/-- A sample that releases no accepted level leaves an ASSERTED switch ASSERTED (R151). -/
theorem sample_asserted {c : Channel} (asserted : c.accepted = some true) {level : Bool}
    (unreleased : level = true ∨ (c.sample level).2 ≠ .changed) : (c.sample level).1.accepted = some true := by
  unfold Channel.sample at unreleased ⊢
  rw [asserted] at unreleased ⊢
  cases level with
  | true => rfl
  | false =>
    simp only [Bool.false_eq_true, false_or, if_false] at unreleased ⊢
    split
    · rename_i third
      simp [third] at unreleased
    · rfl

/-- A completion counts up to the top, and opens the lock only under an ASSERTED switch (R153). -/
theorem Verification.Legal.completed {v : Verification} (h : v.Legal) (p : Programming) :
    (v.completed p).Legal ∧ v.count ≤ (v.completed p).count := by
  refine ⟨⟨fun opened => ?_, min_le_left _ _⟩, le_min h.count_le (Nat.le_succ _)⟩
  rcases Bool.or_eq_true_iff.mp opened with already | now
  · exact h.asserted already
  · exact beq_iff_eq.mp (Bool.and_eq_true_iff.mp now).1

/-- Every move keeps the verification record legal, and lowers the count nowhere (R151, R153). -/
theorem CoreMove.keeps_lock {k : MoveKind} {v w : CoreView} (m : CoreMove k v w) (h : v.ver.Legal) :
    w.ver.Legal ∧ v.ver.count ≤ w.ver.count := by
  cases m
  case completed p => exact h.completed p
  case switch level unreleased =>
    exact ⟨⟨fun opened => sample_asserted (h.asserted opened) unreleased, h.count_le⟩, le_refl _⟩
  case softReset | powerOn | release | close => exact ⟨⟨nofun, h.count_le⟩, le_refl _⟩
  all_goals exact ⟨⟨h.asserted, h.count_le⟩, le_refl _⟩

/-- A command unit that a lock, OPEN or CLOSED, permits, as `State.SealOk` has it of a state. -/
structure CommandUnit.SealedBy (lockOpen : Bool) (c : CommandUnit) : Prop where
  alone : c.load.isSome = true → c.pendingApply = none
  load_open : c.verifiedLoad = true → lockOpen = true
  apply_open : c.pendingApply.isSome = true → c.verifiedModified = true → lockOpen = true

theorem State.sealOk_iff (s : State) : s.SealOk ↔ s.cmd.SealedBy s.ver.lockOpen :=
  ⟨fun ⟨h₁, h₂, h₃⟩ => ⟨h₁, h₂, h₃⟩, fun ⟨h₁, h₂, h₃⟩ => ⟨h₁, h₂, h₃⟩⟩

section sealed
variable {lockOpen : Bool} {c : CommandUnit}

/-- With neither a load nor a pending apply there is nothing to permit. -/
theorem CommandUnit.SealedBy.of_quiet (load : c.load = none) (pending : c.pendingApply = none) : c.SealedBy lockOpen :=
  ⟨fun _ => pending, fun h => by simp [CommandUnit.verifiedLoad, load] at h, fun h => by simp [pending] at h⟩

/-- With no apply pending, only a verified load asks for an OPEN lock (R150). -/
theorem CommandUnit.SealedBy.of_unpending (pending : c.pendingApply = none) (load_open : c.verifiedLoad = true → lockOpen = true) :
    c.SealedBy lockOpen := ⟨fun _ => pending, load_open, fun h => by simp [pending] at h⟩

theorem cancelLoad_load (c : CommandUnit) : c.cancelLoad.load = none := by rw [cancelLoad_frame]

theorem cancelLoad_pendingApply (c : CommandUnit) : c.cancelLoad.pendingApply = c.pendingApply := by rw [cancelLoad_frame]

theorem cancelLoad_of_none (load : c.load = none) : c.cancelLoad = c := by
  rw [CommandUnit.cancelLoad, load]

/-- A cancelled load leaves the unit permitted: with a load there was no apply pending (R170, R175). -/
theorem CommandUnit.SealedBy.cancelLoad (h : c.SealedBy lockOpen) : c.cancelLoad.SealedBy lockOpen := by
  cases load : c.load with
  | none => exact (cancelLoad_of_none load).symm ▸ h
  | some l => exact .of_quiet (cancelLoad_load c) ((cancelLoad_pendingApply c).trans (h.alone (by simp [load])))

/-- A lock that stays OPEN, or opens, permits what it permitted. -/
theorem CommandUnit.SealedBy.mono (h : c.SealedBy lockOpen) {lockOpen' : Bool} (up : lockOpen = true → lockOpen' = true) :
    c.SealedBy lockOpen' := ⟨h.alone, fun loads => up (h.load_open loads), fun pends modified => up (h.apply_open pends modified)⟩

/-- After a close of the lock the command unit is one that a CLOSED lock permits (R154). -/
theorem CommandUnit.SealedBy.onLockClose (h : c.SealedBy lockOpen) : c.onLockClose.SealedBy false := by
  have load : c.onLockClose.load = if c.verifiedLoad then none else c.load := by rw [onLockClose_frame]
  have pending : c.onLockClose.pendingApply = if c.onLockClose.verifiedModified then none else c.pendingApply :=
    congrArg CommandUnit.pendingApply (onLockClose_frame c)
  have unverified : c.onLockClose.verifiedLoad = false := by
    rw [CommandUnit.verifiedLoad, load]
    split
    · rfl
    · exact eq_false_of_ne_true ‹_›
  refine ⟨fun loads => ?_, fun loads => ?_, fun pends modified => ?_⟩
  · have kept : c.load.isSome = true := by
      rw [load] at loads
      split at loads
      · cases loads
      · exact loads
    rw [pending, h.alone kept, ite_self]
  · rw [unverified] at loads
    cases loads
  · rw [pending, if_pos modified] at pends
    cases pends

/-- A load begun where no apply is pending is permitted if its table is (R150, R170). -/
theorem CommandUnit.SealedBy.startLoad (pending : c.pendingApply = none) {t : TableId}
    (opened : t.verified = true → lockOpen = true) (first count : Nat) (down : Bool) :
    (c.startLoad t first count down).SealedBy lockOpen :=
  .of_unpending ((cancelLoad_pendingApply c).trans pending) opened

end sealed

/-- Every move keeps the seal (R150, R154, R170, R175). -/
theorem CoreMove.keeps_seal {k : MoveKind} {v w : CoreView} (m : CoreMove k v w) (h : v.cmd.SealedBy v.ver.lockOpen) :
    w.cmd.SealedBy w.ver.lockOpen := by
  cases m
  case apply => exact .of_unpending rfl h.load_open
  case softReset => exact .of_quiet (cancelLoad_load v.cmd) rfl
  case powerOn => exact .of_quiet rfl rfl
  case release =>
    simp only
    split
    · exact h.onLockClose
    · rename_i closed
      exact eq_false_of_ne_true closed ▸ h
  case close => exact h.onLockClose
  case completed p => exact h.mono fun opened => Bool.or_eq_true_iff.mpr (.inl opened)
  case loadBegin t first count down pending opened => exact .startLoad pending opened first count down
  case loadWrite l l' first entries same _ loads =>
    have loaded : v.cmd.verifiedLoad = l.table.verified := by rw [CommandUnit.verifiedLoad, loads]; rfl
    exact .of_unpending (h.alone (by simp [loads])) fun verified => h.load_open (loaded.trans (same ▸ verified))
  case loadEnd l loads => exact .of_quiet rfl (h.alone (by simp [loads]))
  case tear => exact h.cancelLoad
  case pend p unloaded permitted =>
    refine ⟨fun loads => ?_, h.load_open, fun _ modified => permitted.resolve_right (ne_false_of_eq_true modified)⟩
    simp [unloaded] at loads
  case cancel => exact .of_unpending rfl h.load_open
  case revert unpending => exact .of_quiet rfl unpending
  all_goals exact h

/-! ## The verified tables under a CLOSED lock (R150, R177) -/

/-- Two banks agree on the verified tables (R150). -/
def Tables.SameVerified (a b : Tables) : Prop := b.cellw = a.cellw ∧ b.pitch = a.pitch ∧ b.calib = a.calib

theorem Tables.SameVerified.of_eq {a b : Tables} (h : b = a) : a.SameVerified b := h ▸ ⟨rfl, rfl, rfl⟩

/-- An apply with no verified table MODIFIED leaves the verified tables as they are (R177 step 1). -/
theorem appliedBank_sameVerified {c : CommandUnit} (unmodified : c.verifiedModified = false) :
    c.active.SameVerified c.appliedBank := by
  have none_modified := (verifiedModified_iff c).not.mp (by simp [unmodified])
  obtain ⟨cellw, pitch, calib⟩ := by simpa only [not_or] using none_modified
  rw [appliedBank_eq]
  exact ⟨if_neg cellw, if_neg pitch, if_neg calib⟩

/-- What holds while the lock is CLOSED, from the tables `a` on: the seal, and the verified tables of `a`. -/
structure CoreView.Closed (a : Tables) (v : CoreView) : Prop where
  closed : v.ver.lockOpen = false
  permitted : v.cmd.SealedBy v.ver.lockOpen
  tables : a.SameVerified v.cmd.active

/-- No move but a restart or an opening changes a verified active table under a CLOSED lock: an apply that would copy one is
neither pending nor accepted (R150, R154, R175). -/
theorem CoreMove.keeps_closed {a : Tables} {v w : CoreView} (m : CoreMove .other v w) (h : v.Closed a) : w.Closed a := by
  have permitted := m.keeps_seal h.permitted
  cases m
  case apply due =>
    have unmodified : v.cmd.verifiedModified = false := by
      rcases due with opened | unmodified | pends
      · exact absurd opened (by simp [h.closed])
      · exact unmodified
      · exact eq_false_of_ne_true fun modified => absurd (h.permitted.apply_open pends modified) (by simp [h.closed])
    obtain ⟨cellw, pitch, calib⟩ := appliedBank_sameVerified unmodified
    obtain ⟨cellw', pitch', calib'⟩ := h.tables
    exact ⟨h.closed, permitted, cellw.trans cellw', pitch.trans pitch', calib.trans calib'⟩
  case release =>
    refine ⟨rfl, permitted, ?_⟩
    rw [h.closed]
    exact h.tables
  case close opened => exact absurd opened (by simp [h.closed])
  case loadBegin t first count down _ _ =>
    exact ⟨h.closed, permitted, (cancelLoad_banks v.cmd).2 ▸ h.tables⟩
  case tear => exact ⟨h.closed, permitted, (cancelLoad_banks v.cmd).2 ▸ h.tables⟩
  all_goals exact ⟨h.closed, permitted, h.tables⟩

/-- All that a completion changes of run control, the position, the strobes, the lock and the tables (R153). -/
theorem completeProgramming_view (p : Programming) (s : State) :
    (s.completeProgramming p).view = { s.view with ver := s.ver.completed p } := by
  unfold State.completeProgramming
  simp only
  split
  · rfl
  · exact (answerLater_step _ _).view.trans (raiseIf_step _ _ _).view

theorem finishProgramming_cmd (s : State) : s.finishProgramming.cmd = s.cmd := by
  unfold State.finishProgramming
  split
  · exact congrArg CoreView.cmd (completeProgramming_view _ s)
  · rfl

theorem startCommand_cmd (s : State) : s.startCommand.1.cmd = s.cmd := by
  unfold State.startCommand
  split
  · rfl
  · split <;> rfl

/-- The inputs that restart the position, or can open the lock, leave the active bank as it is, but for the power-on event. -/
theorem exec_active {i : Instr} {s t : State} (input : restartsPosition i = true ∨ canOpenLock i = true)
    (not_on : ∀ straps, i ≠ .powerOn straps) (h : exec i s = .next t) : t.cmd.active = s.cmd.active := by
  have R : RingFree fun u => u.cmd.active = s.cmd.active := fun _ _ _ _ h => h
  cases i
  case powerOn straps => exact absurd rfl (not_on straps)
  case start bytes =>
    exact R.onCommand h rfl (withoutArgs_keeps fun _ u hu => (congrArg CommandUnit.active (startCommand_cmd u)).trans hu)
  case softReset bytes => exact R.onCommand h rfl (withoutArgs_keeps fun _ u hu => (cancelLoad_banks u.cmd).2.trans hu)
  case programmingCompletion dt =>
    refine stepWhen_keeps (P := fun u => u.cmd.active = s.cmd.active) h rfl fun _ _ => R.arbitrate _ ?_
    rw [finishProgramming_cmd, State.passTime_cmd]
  all_goals exact absurd input (by simp [restartsPosition, canOpenLock])

/-! ## The statement -/

/-- Settles O58: the lock and the seal are kept move by move, and so are the verified tables under a CLOSED lock by the moves
of every input that neither restarts nor opens; the others leave the active bank as it is. -/
theorem lockSealsTables : Obligations.LockSealsTables := by
  refine ⟨fun s t ok h => ?lock, fun s t ok h => ?sealed, fun i s t ok closed not_on h => ?tables⟩
  case lock =>
    have legal : s.view.ver.Legal := ⟨ok.1, ok.2⟩
    have after : t.view.ver.Legal ∧ s.ver.count ≤ t.view.ver.count :=
      CoreMoves.keeps (P := fun v => v.ver.Legal ∧ s.ver.count ≤ v.ver.count)
        (fun _ _ _ _ m hv => ⟨(m.keeps_lock hv.1).1, hv.2.trans (m.keeps_lock hv.1).2⟩) (step_moves h) ⟨legal, le_refl _⟩
    exact ⟨⟨after.1.asserted, after.1.count_le⟩, after.2⟩
  case sealed =>
    exact t.sealOk_iff.mpr (CoreMoves.keeps (P := fun v => v.cmd.SealedBy v.ver.lockOpen) (fun _ _ _ _ m => m.keeps_seal)
      (step_moves h) (s.sealOk_iff.mp ok))
  case tables =>
    by_cases input : restartsPosition i = true ∨ canOpenLock i = true
    · exact Tables.SameVerified.of_eq (exec_active input not_on h)
    · obtain ⟨no_restart, no_opening⟩ := not_or.mp input
      have moves : Reaches (· = .other) s.view t :=
        exec_moves rfl (fun restarts => absurd restarts no_restart) (fun opens => absurd opens no_opening) h
      have after : t.view.Closed s.cmd.active := CoreMoves.keeps (fun _ _ _ other m => (other ▸ m).keeps_closed) moves
        { closed := closed, permitted := s.sealOk_iff.mp ok, tables := .of_eq rfl }
      exact after.tables

end Sys2Proof.Machine
end

section
/-! PROOFS. The switch and the close of the lock (O43), and the programming operation that opens it (O44). -/

namespace Sys2Proof.Machine

/-! ## The close of the lock (R151, R154) -/

theorem closeLock_closed {s : State} (closed : s.ver.lockOpen = false) : s.closeLock = s :=
  if_neg (by simp [closed])

/-- An OPEN lock closed, written out (R154). -/
theorem closeLock_open {s : State} (opened : s.ver.lockOpen = true) : s.closeLock = { s with
    ver := { s.ver with lockOpen := false }
    cmd := s.cmd.onLockClose
    rep := { s.rep with order := raiseIn .lockChanged s.rep.order } } := if_pos opened

/-- The close of the lock does not look at the ring interface. -/
theorem closeLock_executing (f : Frame) (s : State) : (s.executing f).closeLock = s.closeLock.executing f := by
  cases lock : s.ver.lockOpen
  · rw [closeLock_closed lock, closeLock_closed (s := s.executing f) lock]
  · rw [closeLock_open lock, closeLock_open (s := s.executing f) lock]
    rfl

/-- After a close the lock is CLOSED, whatever it was; the count stays (R154). -/
theorem verifyData_closeLock (s : State) : verifyData s.closeLock.ver = beBytes 1 s.ver.count ++ [0] := by
  have lock : s.closeLock.ver.lockOpen = false := by
    cases lock : s.ver.lockOpen
    · rw [closeLock_closed lock, lock]
    · rw [closeLock_open lock]
  rw [verifyData, lock, State.closeLock_ver_count]
  rfl

/-- Settles O43: each switch step is due where the sample shows its change; the close of the lock is `closeLock_open`, at the
command unit `onLockClose_eq`. -/
theorem switchAndLock : Obligations.SwitchAndLock := by
  unfold Obligations.SwitchAndLock
  intro filtered closed
  have closed_eq (t : State) : closed t = t.closeLock := by
    cases lock : t.ver.lockOpen
    · rw [closeLock_closed lock]
      exact if_neg (by simp [lock])
    · rw [closeLock_open lock, onLockClose_eq]
      exact if_pos lock
  refine ⟨fun s dt level hp => ?_, fun s bytes f takes => ?_⟩
  · intro t
    have due {level : Bool} {change : Change} (sampled : (t.ver.switch.sample level).2 = change) :
        (t.switchChange level == change) = true := beq_iff_eq.mpr sampled
    refine ⟨fun quiet => ?_, fun established => ?_, fun asserted => ?_, fun released => ?_⟩
    · exact stepWhen_due hp (due quiet)
    · exact stepWhen_due hp (due established)
    · exact stepWhen_due hp (due asserted)
    · rw [closed_eq]
      exact stepWhen_due hp (due released)
  · have exec_eq : exec (.verifyClose bytes) s = onCommand (· == codeVerifyClose) bytes bodyVerifyClose s := rfl
    have body_eq : bodyVerifyClose f.src [] (s.executing f) = ((s.executing f).closeLock,
        some { status := .ok, data := verifyData (s.executing f).closeLock.ver }) := rfl
    rw [verifyData_closeLock, closeLock_executing] at body_eq
    rw [exec_eq, closed_eq]
    exact onCommand_changed takes body_eq

/-! ## VERIFY_OPEN in its cases (R152) -/

theorem asserted_iff (v : Verification) : v.asserted = true ↔ v.switch.accepted = some true := beq_iff_eq

theorem asserted_eq (v : Verification) : v.asserted = decide (v.switch.accepted = some true) :=
  Bool.eq_iff_iff.mpr ((asserted_iff v).trans decide_eq_true_iff.symm)

section openLock
variable {s : State}

/-- An operation in flight, or its answer waiting (R152, R153). -/
theorem outstanding_iff : (s.ver.prog.isSome || s.heldResponse) = true
    ↔ s.ver.prog ≠ none ∨ ∃ rsp, Deferred.verify rsp ∈ s.ring.deferred := by
  have held : s.heldResponse = true ↔ ∃ rsp, Deferred.verify rsp ∈ s.ring.deferred := by
    rw [State.heldResponse, List.any_eq_true]
    constructor
    · rintro ⟨d, waiting, verifies⟩
      cases d with
      | test rsp => cases verifies
      | verify rsp => exact ⟨rsp, waiting⟩
    · rintro ⟨rsp, waiting⟩
      exact ⟨_, waiting, rfl⟩
  rw [Bool.or_eq_true, Option.isSome_iff_ne_none, held]

theorem openLock_busy (src : Nat) (outstanding : (s.ver.prog.isSome || s.heldResponse) = true) :
    s.openLock src = (s, some (refusedAnswer .busy)) := if_pos outstanding

variable (src : Nat) (free : (s.ver.prog.isSome || s.heldResponse) = false)
include free

theorem openLock_switch (released : s.ver.asserted = false) :
    s.openLock src = (s, some { status := .switch, data := beBytes 1 s.ver.count }) := by
  rw [State.openLock, free, released]
  rfl

variable (asserted : s.ver.asserted = true)
include asserted

theorem openLock_open (opened : s.ver.lockOpen = true) :
    s.openLock src = (s, some { status := .ok, data := beBytes 1 s.ver.count ++ [1] }) := by
  rw [State.openLock, free, asserted, verifyData, opened]
  rfl

variable (closed : s.ver.lockOpen = false)
include closed

theorem openLock_exhausted (top : 127 ≤ s.ver.count) :
    s.openLock src = (s, some { status := .exhausted, data := beBytes 1 s.ver.count }) := by
  rw [State.openLock, free, asserted, closed]
  exact if_pos top

theorem openLock_begins (below : s.ver.count < 127) : s.openLock src = ({ s with
    ver := { s.ver with prog := some { src := src, left := 2000, forgotten := false } } }, none) := by
  rw [State.openLock, free, asserted, closed]
  exact if_neg (not_le.mpr below)

end openLock

/-! ## The end of a programming operation (R153, R155) -/

section completion
variable {t : State} {p : Programming}

/-- A completion after a soft reset only counts (R155). -/
theorem completeProgramming_forgotten (forgotten : p.forgotten = true) : t.completeProgramming p = { t with
    ver := { t.ver with count := min 127 (t.ver.count + 1), prog := none } } := by
  have lock : (t.ver.lockOpen || (t.ver.asserted && !p.forgotten)) = t.ver.lockOpen := by simp [forgotten]
  rw [State.completeProgramming, if_pos forgotten, Verification.completed, lock]
  rfl

/-- The lock state after a completion without a soft reset (R153). -/
def State.lockAfter (t : State) : Bool := t.ver.lockOpen || t.ver.asserted

/-- A completion without a soft reset, its answer not yet offered: counted, and the lock opened if the switch is ASSERTED
(R153). -/
def State.recorded (t : State) : State :=
  { t with
    ver := { t.ver with count := min 127 (t.ver.count + 1), prog := none, lockOpen := t.lockAfter }
    rep := { t.rep with
      order := if t.lockAfter = t.ver.lockOpen then t.rep.order else raiseIn .lockChanged t.rep.order } }

/-- A completion without a soft reset, its LOCK_CHANGED not yet raised (R153). -/
def State.counted (t : State) : State := { t with ver := t.recorded.ver }

theorem raise_counted : t.counted.raiseIf (t.lockAfter != t.ver.lockOpen) .lockChanged = t.recorded := by
  by_cases same : t.lockAfter = t.ver.lockOpen
  · have unchanged : (t.lockAfter != t.ver.lockOpen) = false := bne_eq_false_iff_eq.mpr same
    rw [unchanged, State.recorded, if_pos same]
    rfl
  · rw [bne_iff_ne.mpr same, State.recorded, if_neg same]
    rfl

/-- The response of a completed operation (R153, section 13.3; log 22). -/
def State.verifyRsp (t : State) (p : Programming) : Frame :=
  mkFrame p.src t.ring.addr kindRsp
    ([13, if t.ver.asserted then 0 else 12] ++ beBytes 1 (min 127 (t.ver.count + 1)) ++ beBool t.lockAfter)

theorem rspFrame_completionAnswer :
    t.recorded.rspFrame p.src codeVerifyOpen (completionAnswer t.recorded.ver) = t.verifyRsp p := by
  have switch : t.recorded.ver.asserted = t.ver.asserted := rfl
  rw [completionAnswer, switch, State.verifyRsp]
  cases t.ver.asserted <;> rfl

/-- A completion without a soft reset is recorded, and its answer offered (R153, R163). -/
theorem completeProgramming_answers (remembered : p.forgotten = false) :
    t.completeProgramming p = (t.recorded.answerLater (.verify (t.verifyRsp p))).1 := by
  have record : t.ver.completed p = t.recorded.ver := by
    rw [Verification.completed, remembered, Bool.not_false, Bool.and_true]
    rfl
  have offers (u : State) (raised : t.counted.raiseIf (t.lockAfter != t.ver.lockOpen) .lockChanged = u) : t.completeProgramming p
      = (u.answerLater (.verify (u.rspFrame p.src codeVerifyOpen (completionAnswer u.ver)))).1 := by
    subst raised
    rw [State.completeProgramming, record, remembered]
    rfl
  rw [offers _ raise_counted, rspFrame_completionAnswer]

end completion

/-- PROGRAMMING_COMPLETION occurs where the operation's time has passed (R152, R153). -/
theorem exec_programmingCompletion {s : State} (hp : s.powered = true) {dt : Nat} {p : Programming}
    (flying : (s.passTime dt).ver.prog = some p) (elapsed : p.left = 0) :
    exec (.programmingCompletion dt) s = .next ((s.passTime dt).completeProgramming p).arbitrate := by
  have due : (s.passTime dt).programmingDue = true := by simp [State.programmingDue, flying, elapsed]
  have finished : (s.passTime dt).finishProgramming = (s.passTime dt).completeProgramming p := by
    rw [State.finishProgramming, flying]
  rw [← finished]
  exact stepWhen_due hp due

/-- Settles O44: VERIFY_OPEN by the cases of `openLock`, the completion by `completeProgramming_forgotten` and
`completeProgramming_answers`. -/
theorem lockOpens : Obligations.LockOpens := by
  refine ⟨fun s bytes f takes => ?verifyOpen, fun s dt p hp => ?completion, fun s bytes f takes => ?verifyStatus⟩
  case verifyOpen =>
    intro outstanding
    have exec_eq : exec (.verifyOpen bytes) s = onCommand (· == codeVerifyOpen) bytes bodyVerifyOpen s := rfl
    have free (none_out : ¬ outstanding) : (s.ver.prog.isSome || s.heldResponse) = false :=
      eq_false_of_ne_true fun out => none_out (outstanding_iff.mp out)
    rw [exec_eq]
    refine ⟨fun out => ?_, fun none_out released => ?_, fun none_out asserted opened => ?_,
      fun none_out asserted closed top => ?_, fun none_out asserted closed below => ?_⟩
    · exact onCommand_answered takes (openLock_busy (s := s.executing f) f.src (outstanding_iff.mpr out))
    · have released : s.ver.asserted = false := eq_false_of_ne_true ((asserted_iff _).not.mpr released)
      exact onCommand_answered takes (openLock_switch (s := s.executing f) f.src (free none_out) released)
    · have asserted := (asserted_iff _).mpr asserted
      exact onCommand_answered takes (openLock_open (s := s.executing f) f.src (free none_out) asserted opened)
    · have asserted := (asserted_iff _).mpr asserted
      exact onCommand_answered takes (openLock_exhausted (s := s.executing f) f.src (free none_out) asserted closed top)
    · have asserted := (asserted_iff _).mpr asserted
      exact onCommand_later takes (openLock_begins (s := s.executing f) f.src (free none_out) asserted closed below)
  case completion =>
    intro t flying elapsed count asserted lock rsp order
    have lock_eq : lock = t.lockAfter := congrArg (t.ver.lockOpen || ·) (asserted_eq t.ver).symm
    have rsp_eq : rsp = t.verifyRsp p := by
      simp only [rsp, lock_eq, asserted, ← asserted_eq]
      rfl
    have order_eq : order = t.recorded.rep.order := by
      simp only [order, lock_eq]
      rfl
    rw [exec_programmingCompletion hp flying elapsed, lock_eq, rsp_eq, order_eq]
    refine ⟨fun forgotten => ?_, fun remembered alone room idle => ?_, fun remembered full => ?_⟩
    · rw [completeProgramming_forgotten forgotten]
    · have places : t.recorded.ring.responses.length + t.recorded.ring.kept < 4 := by
        have kept : t.recorded.ring.kept = 0 := if_neg (idle ▸ Bool.false_ne_true)
        rw [kept]
        exact room
      rw [completeProgramming_answers remembered, answerLater_placed (s := t.recorded) alone places]
      rfl
    · have full : t.recorded.ring.deferred ≠ [] ∨ 4 ≤ t.recorded.ring.responses.length + t.recorded.ring.kept :=
        full.imp_right fun four => four.trans (Nat.le_add_right _ _)
      rw [completeProgramming_answers remembered, answerLater_waits full]
      rfl
  case verifyStatus =>
    have exec_eq : exec (.verifyStatus bytes) s = onCommand (· == codeVerifyStatus) bytes bodyVerifyStatus s := rfl
    have body_eq : bodyVerifyStatus f.src [] (s.executing f) = (s.executing f, some s.verifyReport) := rfl
    rw [exec_eq, onCommand_answered takes body_eq, verifyData, asserted_eq]
    rfl

end Sys2Proof.Machine
end

section
/-! PROOFS. Frames and their bytes (O54): a frame is read back from its bytes, and only from those. -/

namespace Sys2Proof.Machine

/-! ## The receiver's judgement of arriving bytes (R159, R182; log 12) -/

theorem lengthByte_toNat {n : Nat} (short : n ≤ 72) : (BitVec.ofNat 8 n).toNat = n :=
  Nat.mod_eq_of_lt (by omega)

/-- A frame with a payload within the limit is read back from its bytes: the length byte says where the payload ends. -/
theorem parseFrame_bytes {f : Frame} (short : f.payload.length ≤ 72) : parseFrame f.bytes = some f := by
  have bytes_eq : f.bytes = f.dstByte :: f.srcByte :: f.kind :: BitVec.ofNat 8 f.payload.length
      :: (f.payload ++ beBytes 2 (crc16 f.body).toNat) := rfl
  have whole : (f.payload ++ beBytes 2 (crc16 f.body).toNat).length = f.payload.length + 2 := by
    rw [List.length_append, beBytes_length]
  rw [bytes_eq, parseFrame, lengthByte_toNat short, if_neg (not_lt.mpr short), if_neg (not_not.mpr whole), List.take_left,
    List.drop_left]
  exact if_pos rfl

/-- Bytes read as a frame are that frame's: its length byte is the payload's length, and what follows the payload its CRC. -/
theorem bytes_of_parseFrame {bytes : List Byte} {f : Frame} (good : parseFrame bytes = some f) :
    f.bytes = bytes ∧ f.payload.length ≤ 72 := by
  unfold parseFrame at good
  split at good
  next d s k l rest =>
    split at good
    · cases good
    next short =>
      split at good
      · cases good
      next whole =>
        have payload_length : (rest.take l.toNat).length = l.toNat := List.length_take_of_le (by omega)
        obtain ⟨crc, read⟩ := Option.ite_none_right_eq_some.mp good
        cases read
        refine ⟨?_, by rw [payload_length]; exact not_lt.mp short⟩
        rw [Frame.bytes, ← crc, Frame.body, payload_length, BitVec.ofNat_toNat, BitVec.setWidth_eq]
        simp only [List.cons_append, List.take_append_drop]
  next => cases good

/-- Settles O54. -/
theorem framesReadBack : Obligations.FramesReadBack :=
  ⟨fun _ short => parseFrame_bytes short, fun _ _ good => bytes_of_parseFrame good⟩

end Sys2Proof.Machine
end

section
/-! PROOFS. The receiver (O45): which way an arriving frame goes, and what is done with a broadcast that is taken. -/

namespace Sys2Proof.Machine

/-! ## The route of a good frame (R160, R161, R183) -/

theorem takeable_iff {f : Frame} :
    f.takeable = true ↔ f.kind.toNat = 1 ∨ f.kind.toNat = 7 ∨ (f.kind.toNat = 2 ∧ f.src ≠ 31) := by
  simp [Frame.takeable, kindSeg, kindHstat, kindCmd, Config.broadcast, or_assoc]

section routes
variable {addr : Nat} {f : Frame}

theorem route_returned (own : f.src = addr) : route addr f = .returned := if_pos own

variable (foreign : f.src ≠ addr)
include foreign

theorem route_kindErr (here : f.dst = addr) (other : f.takeable ≠ true) : route addr f = .kindErr := by
  rw [route, if_neg foreign, if_pos here, if_neg other]

theorem route_forwardOnly (away : f.dst ≠ addr) (not_taken : f.dst ≠ Config.broadcast ∨ f.takeable ≠ true) :
    route addr f = .forwardOnly := by
  rw [route, if_neg foreign, if_neg away]
  split
  · exact if_neg (not_taken.resolve_left (not_not.mpr ‹_›))
  · rfl

theorem route_broadcast (all : f.dst = Config.broadcast) (takeable : f.takeable = true) : route addr f = .taken := by
  simp only [route, if_neg foreign, if_pos all, if_pos takeable, ite_self]

end routes

theorem arrived_some {s : State} {bytes : List Byte} {f : Frame} {r : Route} (good : parseFrame bytes = some f)
    (way : route s.ring.addr f = r) : s.arrived bytes r = some f := by
  simp only [State.arrived, good, if_pos way]

theorem takenFrame_some {s : State} {bytes : List Byte} {f : Frame} {kind : Nat} (taken : s.arrived bytes .taken = some f)
    (is_kind : f.kind.toNat = kind) : s.takenFrame kind bytes = some f := by
  simp only [State.takenFrame, taken, if_pos is_kind]

/-! ## Forwarding (R161, R162; log 13) -/

theorem forwardFrame_eq (f : Frame) (s : State) : s.forwardFrame f = { s with ring :=
    if s.ring.forward.length < 4 then { s.ring with forward := s.ring.forward ++ [f] }
    else { s.ring with ringDrop := min 65535 (s.ring.ringDrop + 1) } } := by
  rw [State.forwardFrame, Config.forwardPlaces]
  split <;> rfl

/-- A broadcast that is taken is forwarded too, before or after (R161; log 13). -/
theorem receive_broadcast {f : Frame} (all : f.dst = Config.broadcast) (take : State → State) (s : State) :
    s.receive f take = take (s.forwardFrame f).arbitrate ∨ s.receive f take = ((take s).forwardFrame f).arbitrate := by
  rw [State.receive, if_pos all]
  split
  · exact .inl rfl
  · exact .inr rfl

/-! ## A broadcast segment and a settled assembler (R22, R23, R161; log 13) -/

/-- Forwarding and the arbiter do not look at the line assembler. -/
theorem forward_withAsm (a : Assembler) (f : Frame) (s : State) :
    (({ s with asm := a } : State).forwardFrame f).arbitrate = { (s.forwardFrame f).arbitrate with asm := a } := by
  have forwarded : ({ s with asm := a } : State).forwardFrame f = { s.forwardFrame f with asm := a } := by
    rw [forwardFrame_eq, forwardFrame_eq]
  rw [forwarded, State.arbitrate, State.arbitrate]
  dsimp only
  split
  case h_6 => split <;> rfl
  all_goals rfl

theorem judgeSegment_frame (f : Frame) (s : State) : s.judgeSegment f = { s with asm := (s.judgeSegment f).asm } := by
  unfold State.judgeSegment
  split
  · rfl
  · split <;> rfl

theorem judgeSegment_asm_congr {s t : State} (strobe : t.strobe = s.strobe) (asm : t.asm = s.asm) (f : Frame) :
    (t.judgeSegment f).asm = (s.judgeSegment f).asm := by
  unfold State.judgeSegment
  rw [strobe, asm]
  split
  · exact asm
  · split <;> rfl

/-- Forwarding a frame brings nothing due at the line assembler, and does nothing that is due there. -/
theorem forward_settled (f : Frame) (s : State) :
    (s.forwardFrame f).arbitrate.assemblerSettled = s.assemblerSettled := by
  simp [State.assemblerSettled, State.atBoundary, State.timeoutDue, State.handoverReady, State.applyDue,
    State.drainFirstDue, State.drainCondition, State.hasOpen]

theorem takeSegment_settled {s : State} (quiet : s.strobe.enable = false ∨ s.assemblerSettled = true) (f : Frame) :
    s.takeSegment f = { s with asm := (s.judgeSegment f).asm } := by
  rw [State.takeSegment, quiet.elim settle_disabled settle_settled, ← judgeSegment_frame]

/-- Where the assembler is settled, the order of the two things done with a broadcast segment does not show (log 13). -/
theorem receive_segment_settled {s : State} {f : Frame} (all : f.dst = Config.broadcast)
    (quiet : s.strobe.enable = false ∨ s.assemblerSettled = true) :
    s.receive f (State.takeSegment f) = { (s.forwardFrame f).arbitrate with asm := (s.judgeSegment f).asm } := by
  rcases receive_broadcast all (State.takeSegment f) s with forwarded_first | taken_first
  · have quiet' : (s.forwardFrame f).arbitrate.strobe.enable = false
        ∨ (s.forwardFrame f).arbitrate.assemblerSettled = true := by
      rwa [forward_settled, State.arbitrate_strobe, State.forwardFrame_strobe]
    rw [forwarded_first, takeSegment_settled quiet', judgeSegment_asm_congr (s := s) (by simp) (by simp)]
  · rw [taken_first, takeSegment_settled quiet, forward_withAsm]

/-! ## A taken frame at its block (R161) -/

theorem exec_seg_received {s : State} {bytes : List Byte} {f : Frame} (hp : s.powered = true)
    (taken : s.takenFrame kindSeg bytes = some f) :
    exec (.seg bytes) s = .next (s.receive f (State.takeSegment f)) := by
  change execSeg bytes s = _
  rw [execSeg, taken, onFrame_some hp]

theorem exec_hstat_received {s : State} {bytes : List Byte} {f : Frame} (hp : s.powered = true)
    (taken : s.takenFrame kindHstat bytes = some f) :
    exec (.hstat bytes) s = .next (s.receive f (State.takeHstat f)) := by
  change execHstat bytes s = _
  rw [execHstat, taken, onFrame_some hp]

/-- Each step about a CMD frame is the intake of its command (R163, R168). -/
theorem CommandStep.exec_eq {i : Instr} {bytes : List Byte} {kind : Nat → Bool} {body : CommandBody}
    (step : CommandStep i bytes kind body) (s : State) : exec i s = onCommand kind bytes body s := by
  cases step <;> rfl

theorem onCommand_some {s : State} {bytes : List Byte} {f : Frame} {kind : Nat → Bool} (hp : s.powered = true)
    (taken : s.takenFrame kindCmd bytes = some f) (passes : kind f.command = true) (body : CommandBody) :
    onCommand kind bytes body s = .next (s.receive f (State.intake f body)) := by
  rw [onCommand, command_some taken passes, onFrame_some hp]

/-! ## The statement -/

/-- Settles O45: each frame by its route, a broadcast that is taken by `receive_broadcast`. -/
theorem framesReceived : Obligations.FramesReceived := by
  delta Obligations.FramesReceived
  intro forward
  have forward_eq (f : Frame) (s : State) : forward f s = (s.forwardFrame f).arbitrate :=
    congrArg State.arbitrate (forwardFrame_eq f s).symm
  refine ⟨fun s bytes hp bad => ?_, fun s bytes f hp good => ?_⟩
  · exact stepWhen_due hp (Option.isNone_iff_eq_none.mpr bad)
  intro kind takeable both
  refine ⟨fun own => ?returned, fun foreign here other => ?kindErr, fun foreign away not_taken => ?forwarded,
    fun foreign all => ?broadcast, fun foreign all is_seg quiet => ?settled⟩
  case returned =>
    change execReturnedFrame bytes s = _
    rw [execReturnedFrame, arrived_some good (route_returned own), onFrame_some hp]
    rfl
  case kindErr =>
    change execKindErr bytes s = _
    rw [execKindErr, arrived_some good (route_kindErr foreign here (takeable_iff.not.mpr other)), onFrame_some hp]
    rfl
  case forwarded =>
    have way := route_forwardOnly foreign away (not_taken.imp_right takeable_iff.not.mpr)
    change execForwardedFrame bytes s = _
    rw [execForwardedFrame, arrived_some good way, onFrame_some hp, forward_eq]
  case broadcast =>
    have taken (k : Nat) (is_kind : kind = k) (may : takeable) : s.takenFrame k bytes = some f :=
      takenFrame_some (arrived_some good (route_broadcast foreign all (takeable_iff.mpr may))) is_kind
    have both_of {i : Instr} {take : State → State} (received : exec i s = .next (s.receive f take)) : both i take := by
      simp only [both, received, forward_eq]
      exact (receive_broadcast all take s).imp (congrArg _) (congrArg _)
    refine ⟨fun is_seg => both_of (exec_seg_received hp (taken kindSeg is_seg (.inl is_seg))),
      fun is_hstat => both_of (exec_hstat_received hp (taken kindHstat is_hstat (.inr (.inl is_hstat)))),
      fun i accepts body is_cmd source step passes => both_of ?_⟩
    rw [step.exec_eq, onCommand_some hp (taken kindCmd is_cmd (.inr (.inr ⟨is_cmd, source⟩))) passes]
  case settled =>
    have way := route_broadcast (addr := s.ring.addr) foreign all (takeable_iff.mpr (.inl is_seg))
    rw [exec_seg_received hp (takenFrame_some (arrived_some good way) is_seg), receive_segment_settled all quiet, forward_eq]

end Sys2Proof.Machine
end

section
/-! PROOFS. The command intake with no room for an answer, and a command of no known kind (O47). -/

namespace Sys2Proof.Machine

theorem intake_full {s : State} (full : 4 ≤ s.ring.responses.length) (f : Frame) (body : CommandBody) :
    s.intake f body = { s with ring := { s.ring with cmdDrop := min 65535 (s.ring.cmdDrop + 1) } } := by
  have no_room : s.responseRoom = false := decide_eq_false (not_lt.mpr full)
  rw [State.intake, no_room]
  rfl

theorem knownCommand_outside {code : Nat} (outside : code = 0 ∨ 17 < code) : knownCommand code = false := by
  rw [knownCommand, Bool.and_eq_false_iff, decide_eq_false_iff_not, decide_eq_false_iff_not]
  omega

/-- Settles O47: a full response buffer by `intake_full`; an unknown command is the command of its own code, answered at
once. -/
theorem commandsDropped : Obligations.CommandsDropped := by
  refine ⟨fun i bytes kind body s f step hp taken passes own full => ?_, fun s bytes f takes outside => ?_⟩
  · rw [step.exec_eq, onCommand_some hp taken passes, receive_own own, intake_full full]
  · have unknown : (!knownCommand f.command) = true := by rw [knownCommand_outside outside]; rfl
    rw [(CommandStep.unknownCommand bytes).exec_eq, onCommand_some takes.powered takes.taken unknown,
      ← onCommand_some (kind := (· == f.command)) takes.powered takes.taken (beq_iff_eq.mpr rfl)]
    exact onCommand_answered takes rfl

end Sys2Proof.Machine
end

section
/-! PROOFS. Whatever is loaded is in range (R172), and every step keeps both banks of every table in range (O56). -/

namespace Sys2Proof.Machine

/-! ## Loaded fields are in range (R172, section 12.8) -/

theorem keepInt_range {lo hi : Int} (h : lo ≤ hi) (v : Int) : lo ≤ (keepInt lo hi v).value ∧ (keepInt lo hi v).value ≤ hi := by
  unfold keepInt
  split
  · exact ⟨le_refl _, h⟩
  · split
    · exact ⟨h, le_refl _⟩
    · exact ⟨by simp only; omega, by simp only; omega⟩

theorem keepOption_le (hi v : Nat) : ∀ x ∈ (keepOption hi v).value, x ≤ hi := by
  unfold keepOption
  split
  · nofun
  · split
    · rintro x ⟨⟩
      exact le_refl _
    · rintro x ⟨⟩
      exact not_lt.mp ‹_›

theorem loadAlt_inRange (pri alt : Nat) : ∀ x ∈ (loadAlt pri alt).value, x ≤ 7 ∧ x ≠ pri := by
  unfold loadAlt
  simp only
  split
  · nofun
  next other =>
    intro x stored
    exact ⟨keepOption_le 7 alt x stored, fun same => other (same ▸ stored)⟩

/-! ## Loaded entries are in range, table by table (R172, section 12.8) -/

theorem loadCalib_inRange (unit round : Nat) (trim : Int) {hole : Nat} (hide : Nat) (fits : hole < 2 ^ 16) :
    (loadCalib unit round trim hole hide).value.InRange := by
  obtain ⟨trim_ge, trim_le⟩ := keepInt_range (by decide : (-20000 : Int) ≤ 20000) trim
  exact ⟨trim_ge, trim_le, Nat.le_of_lt_succ fits, (keepNat_range (Nat.zero_le _) hide).2⟩

theorem loadScan_inRange (winStart winEnd barReverse minRun linePitch minStrobe asmDepth headMask filterClk encDir steadyWin
    steadyCount : Nat) {reverseLimit : Nat} (fits : reverseLimit < 2 ^ 16) :
    (loadScan winStart winEnd barReverse minRun linePitch minStrobe asmDepth headMask filterClk encDir steadyWin steadyCount
      reverseLimit).value.InRange := by
  obtain ⟨win_ge, win_le⟩ := keepNat_range (keepNat_range (Nat.zero_le 2047) winStart).2 winEnd
  obtain ⟨run_ge, run_le⟩ := keepNat_range (by decide : 1 ≤ 32) minRun
  obtain ⟨pitch_ge, pitch_le⟩ := keepNat_range (by decide : 500 ≤ 20000) linePitch
  obtain ⟨strobe_ge, strobe_le⟩ := keepNat_range (by decide : 100 ≤ 10000) minStrobe
  obtain ⟨depth_ge, depth_le⟩ := keepNat_range (by decide : 2 ≤ 7) asmDepth
  obtain ⟨steady_ge, steady_le⟩ := keepNat_range (by decide : 1 ≤ 64) steadyWin
  obtain ⟨count_ge, count_le⟩ := keepNat_range (by decide : 2 ≤ 255) steadyCount
  exact ⟨win_ge, win_le, run_ge, run_le, pitch_ge, pitch_le, strobe_ge, strobe_le, depth_ge, depth_le, steady_ge, steady_le,
    count_ge, count_le, Nat.le_of_lt_succ fits⟩

theorem loadMarkp_inRange (mode offset stride width pitch shift : Nat) (gap : Int) (policy : Nat) :
    (loadMarkp mode offset stride width pitch shift gap policy).value.InRange := by
  obtain ⟨stride_ge, stride_le⟩ := keepNat_range (by decide : 1000 ≤ 200000) stride
  obtain ⟨pitch_ge, pitch_le⟩ := keepNat_range (by decide : 200 ≤ 5000) pitch
  obtain ⟨gap_ge, gap_le⟩ := keepInt_range (by decide : (-2 : Int) ≤ 4) gap
  exact ⟨(keepNat_range (Nat.zero_le _) offset).2, stride_ge, stride_le, (keepNat_range (Nat.zero_le _) width).2, pitch_ge,
    pitch_le, (keepNat_range (Nat.zero_le _) shift).2, gap_ge, gap_le⟩

theorem loadLane_inRange (first last pri alt lotSlot enabled : Nat) :
    (loadLane first last pri alt lotSlot enabled).value.InRange := by
  obtain ⟨last_ge, last_le⟩ := keepNat_range (keepNat_range (Nat.zero_le 2047) first).2 last
  exact ⟨last_ge, last_le, (keepNat_range (Nat.zero_le _) pri).2, loadAlt_inRange _ alt, (keepNat_range (Nat.zero_le _) lotSlot).2⟩

theorem loadHead_inRange (addr enabled offset lead guard : Nat) {edge : Nat} (pitch nozzles rotate mirror : Nat)
    (fits : edge < 2 ^ 24) : (loadHead addr enabled offset lead guard edge pitch nozzles rotate mirror).value.InRange := by
  obtain ⟨offset_ge, offset_le⟩ := keepNat_range (by decide : 100000 ≤ 4000000) offset
  have lead_le := (keepNat_range (Nat.zero_le 50000) lead).2
  obtain ⟨guard_ge, guard_le⟩ := keepNat_range (lead_le.trans (by decide : 50000 ≤ 100000)) guard
  obtain ⟨pitch_ge, pitch_le⟩ := keepNat_range (by decide : 50 ≤ 2000) pitch
  obtain ⟨nozzles_ge, nozzles_le⟩ := keepNat_range (by decide : 16 ≤ 1024) nozzles
  exact ⟨(keepNat_range (Nat.zero_le _) addr).2, offset_ge, offset_le, lead_le, guard_ge, guard_le, Nat.le_of_lt_succ fits, pitch_ge,
    pitch_le, nozzles_ge, nozzles_le⟩

theorem loadGlyph_inRange (width : Nat) {columns : List Dots} (whole : columns.length = 12) :
    (loadGlyph width columns).value.InRange := by
  obtain ⟨width_ge, width_le⟩ := keepNat_range (by decide : 1 ≤ 12) width
  exact ⟨width_ge, width_le, whole⟩

theorem loadLot_inRange (size glyph number : Nat) : (loadLot size glyph number).value.InRange := by
  obtain ⟨size_ge, size_le⟩ := keepNat_range (by decide : 1 ≤ 999) size
  obtain ⟨number_ge, number_le⟩ := keepNat_range (by decide : 1 ≤ 65535) number
  exact ⟨size_ge, size_le, keepOption_le 31 glyph, number_ge, number_le⟩

/-! ## Banks (R171, R172, R177) -/

/-- A list that holds its entries, each as `P` has it, still does with one of them set to another such. -/
theorem set_keeps_entries {α : Type} {P : α → Prop} {n : Nat} {l : List α} (h : l.length = n ∧ ∀ x ∈ l, P x) (i : Nat) {e : α}
    (he : P e) : (l.set i e).length = n ∧ ∀ x ∈ l.set i e, P x := by
  refine ⟨List.length_set.trans h.1, fun x there => ?_⟩
  rcases List.mem_or_eq_of_mem_set there with before | rfl
  · exact h.2 x before
  · exact he

/-- A field that bytes are cut into is a number of its width. -/
theorem field_lt {ws : List Nat} {bs : List Byte} {fs : List (List Byte)} (split : splitFields ws bs = some fs) {k w : Nat}
    {f : List Byte} (field : fs[k]? = some f) (width : ws[k]? = some w) : ofBytes f < 256 ^ w := by
  have length : f.length = w := by
    rw [← splitFields_widths split, List.getElem?_map, field] at width
    exact Option.some.inj width
  exact length ▸ ofBytes_lt f

/-- An entry written to a bank leaves every field of it in range, whatever bytes are loaded (R172). -/
theorem storeEntry_inRange {b : Tables} (h : b.InRange) (t : TableId) (i : Nat) (bs : List Byte) :
    (b.storeEntry t i bs).value.InRange := by
  unfold Tables.storeEntry
  split
  case h_1 => exact { h with cellw := set_keeps_entries h.cellw i (keepNat_range (by decide : 200 ≤ 8000) _) }
  case h_2 split =>
    have pfrac_lt := field_lt split (k := 1) rfl rfl
    have pmod_lt := field_lt split (k := 2) rfl rfl
    exact { h with pitch := loadPitch_inRange _ _ pfrac_lt pmod_lt }
  case h_3 split =>
    have hole_lt := field_lt split (k := 3) rfl rfl
    exact { h with calib := loadCalib_inRange _ _ _ _ hole_lt }
  case h_4 split =>
    have limit_lt := field_lt split (k := 12) rfl rfl
    exact { h with scan := loadScan_inRange _ _ _ _ _ _ _ _ _ _ _ _ limit_lt }
  case h_5 => exact { h with markp := loadMarkp_inRange _ _ _ _ _ _ _ _ }
  case h_6 => exact { h with lanes := set_keeps_entries h.lanes i (loadLane_inRange _ _ _ _ _ _) }
  case h_7 split =>
    have edge_lt := field_lt split (k := 5) rfl rfl
    exact { h with heads := set_keeps_entries h.heads i (loadHead_inRange _ _ _ _ _ _ _ _ _ edge_lt) }
  case h_8 f₁ columns split =>
    have whole : columns.length = 12 := by simpa [TableId.widths] using congrArg List.length (splitFields_widths split)
    exact { h with glyphs := set_keeps_entries h.glyphs i (loadGlyph_inRange _ (List.length_map _ |>.trans whole)) }
  case h_9 => exact { h with lots := set_keeps_entries h.lots i (loadLot_inRange _ _ _) }
  case h_10 => exact { h with notepri := set_keeps_entries h.notepri i (keepNat_range (Nat.zero_le 3) _).2 }
  case h_11 => exact h

theorem storeAll_inRange (t : TableId) (down : Bool) (entries : List (List Byte)) {b : Tables} (h : b.InRange) (i : Nat) :
    (b.storeAll t down i entries).value.InRange := by
  induction entries generalizing b i with
  | nil => exact h
  | cons e rest ih => exact ih (storeEntry_inRange h t i e) _

theorem copyFrom_inRange {src dst : Tables} (hs : src.InRange) (hd : dst.InRange) (t : TableId) : (src.copyFrom dst t).InRange := by
  cases t
  case cellw => exact { hd with cellw := hs.cellw }
  case pitch => exact { hd with pitch := hs.pitch }
  case calib => exact { hd with calib := hs.calib }
  case scan => exact { hd with scan := hs.scan }
  case markp => exact { hd with markp := hs.markp }
  case lane => exact { hd with lanes := hs.lanes }
  case head => exact { hd with heads := hs.heads }
  case glyph => exact { hd with glyphs := hs.glyphs }
  case lot => exact { hd with lots := hs.lots }
  case notepri => exact { hd with notepri := hs.notepri }

/-- Both banks of a command unit in range, as `State.TablesOk` has it of a state. -/
structure CommandUnit.BanksOk (c : CommandUnit) : Prop where
  staged : c.staged.InRange
  active : c.active.InRange

theorem CommandUnit.BanksOk.of_banks {c d : CommandUnit} (h : c.BanksOk) (e : d.staged = c.staged ∧ d.active = c.active) :
    d.BanksOk := ⟨e.1.symm ▸ h.staged, e.2.symm ▸ h.active⟩

theorem CommandUnit.BanksOk.cancelLoad {c : CommandUnit} (h : c.BanksOk) : c.cancelLoad.BanksOk := h.of_banks (cancelLoad_banks c)

theorem CommandUnit.BanksOk.onLockClose {c : CommandUnit} (h : c.BanksOk) : c.onLockClose.BanksOk :=
  h.of_banks ⟨(onLockClose_banks c).1, (onLockClose_banks c).2.1⟩

/-- The bank that an apply makes active is in range: each table in it is the staged one or the active one (R177 step 1). -/
theorem CommandUnit.BanksOk.appliedBank {c : CommandUnit} (h : c.BanksOk) : c.appliedBank.InRange :=
  List.foldlRecOn (c.states.having .modified) _ h.active fun _ copied t _ => copyFrom_inRange h.staged copied t

/-- Every move keeps both banks in range: a loaded entry is brought into range (R172), and an apply, a REVERT and a power-on
take banks that are. -/
theorem CoreMove.keeps_banks {k : MoveKind} {v w : CoreView} (m : CoreMove k v w) (h : v.cmd.BanksOk) : w.cmd.BanksOk := by
  cases m
  case apply => exact ⟨h.staged, h.appliedBank⟩
  case softReset => exact h.of_banks (cancelLoad_banks v.cmd)
  case powerOn => exact ⟨defaultTables_inRange, defaultTables_inRange⟩
  case release =>
    simp only
    split
    · exact h.onLockClose
    · exact h
  case close => exact h.onLockClose
  case loadBegin => exact h.of_banks (cancelLoad_banks v.cmd)
  case loadWrite => exact ⟨storeAll_inRange _ _ _ h.staged _, h.active⟩
  case tear => exact h.cancelLoad
  case revert => exact ⟨h.active, h.active⟩
  all_goals exact ⟨h.staged, h.active⟩

/-- Settles O56: every step is a chain of moves, and every move keeps both banks in range. -/
theorem tablesStayInRange : Obligations.TablesStayInRange := by
  intro s t ok h
  have before : s.view.cmd.BanksOk := ⟨ok.1, ok.2⟩
  have after : t.view.cmd.BanksOk :=
    CoreMoves.keeps (P := fun v => v.cmd.BanksOk) (fun _ _ _ _ m => m.keeps_banks) (step_moves h) before
  exact ⟨after.staged, after.active⟩

end Sys2Proof.Machine
end

section
/-! PROOFS. A refused command changes nothing (O48): each command either leaves the state as it is, or is accepted, or answers
later. -/

namespace Sys2Proof.Machine

/-- What a command has done to a state is nothing where its answer is a refusal (R168). -/
def UnchangedIfRefused (s : State) (r : State × Option Answer) : Prop := ∀ a ∈ r.2, ¬ a.status.accepts → r.1 = s

namespace UnchangedIfRefused
variable {s t : State}

theorem same (a : Option Answer) : UnchangedIfRefused s (s, a) := fun _ _ _ => rfl

theorem later : UnchangedIfRefused s (t, none) := nofun

theorem accepted {st : Status} (accepts : st.accepts) (data : List Byte) :
    UnchangedIfRefused s (t, some { status := st, data := data }) := by
  rintro _ ⟨⟩ refused
  exact absurd accepts refused

theorem ok (data : List Byte) : UnchangedIfRefused s (t, some { status := .ok, data := data }) := accepted (.inl rfl) data

theorem withoutArgs {act : Nat → State → State × Option Answer} (h : ∀ src u, UnchangedIfRefused u (act src u)) (src : Nat)
    (args : List Byte) (u : State) : UnchangedIfRefused u (withoutArgs act src args u) := by
  unfold Machine.withoutArgs
  split
  · exact h src u
  · exact same _

theorem withByte {act : Byte → State → State × Option Answer} (h : ∀ b u, UnchangedIfRefused u (act b u)) (src : Nat)
    (args : List Byte) (u : State) : UnchangedIfRefused u (withByte act src args u) := by
  unfold Machine.withByte
  split
  · exact h _ u
  · exact same _

/-! ## The commands that can be refused (R140, R142, R152, R123, R132, R170, R173, R175, R178, R180) -/

theorem startCommand (u : State) : UnchangedIfRefused u (atOnce u.startCommand) := by
  unfold State.startCommand
  split; · exact same _
  split; · exact same _
  exact ok _

theorem stopCommand (u : State) : UnchangedIfRefused u (atOnce u.stopCommand) := by
  unfold State.stopCommand
  split
  · exact same _
  · exact ok _
  · exact same _
  · exact same _

theorem openLock (src : Nat) (u : State) : UnchangedIfRefused u (u.openLock src) := by
  unfold State.openLock
  split; · exact same _
  split; · exact same _
  split; · exact same _
  split; · exact same _
  exact later

theorem testMark (src h value : Nat) (u : State) : UnchangedIfRefused u (u.testMark src h value) := by
  unfold State.testMark
  simp only
  split; · exact same _
  split; · exact same _
  split; · exact same _
  split; · exact same _
  split
  · split
    · exact later
    · exact same _
  · exact same _

theorem commandClose (n : Nat) (u : State) : UnchangedIfRefused u (atOnce (u.commandClose n)) := by
  unfold State.commandClose
  simp only
  split; · exact same _
  split; · exact same _
  split; · exact same _
  split; · exact same _
  exact ok _

theorem counters (clear : Byte) (u : State) (data : List Byte) : UnchangedIfRefused u
    (if clear = 0 then (u, some { status := .ok, data := data })
      else if clear = 1 then (u.clearCounters, some { status := .ok, data := data })
      else (u, some (refusedAnswer .format))) := by
  split; · exact same _
  split; · exact ok _
  exact same _

theorem loadBegin (code first count dir : Nat) (u : State) :
    UnchangedIfRefused u (atOnce (u.loadBegin code first count dir)) := by
  unfold State.loadBegin
  split; · exact same _
  split; · exact same _
  split; · exact same _
  split; · exact same _
  exact ok _

theorem applyCommand (force : Bool) (u : State) : UnchangedIfRefused u (atOnce (u.applyCommand force)) := by
  unfold State.applyCommand
  simp only
  split; · exact same _
  split; · exact same _
  split; · exact same _
  split; · exact same _
  split; · exact ok _
  split; · exact ok _
  exact accepted (.inr (.inr rfl)) _

theorem revertCommand (u : State) : UnchangedIfRefused u (atOnce u.revertCommand) := by
  unfold State.revertCommand
  split; · exact same _
  exact ok _

end UnchangedIfRefused

/-! ## LOAD_END in its cases (R173) -/

theorem loadEnd_none {s : State} (load : s.cmd.load = none) : s.loadEnd = (s, refusedAnswer .noload) := by
  rw [State.loadEnd, load]

theorem loadEnd_complete {s : State} {l : Load} (load : s.cmd.load = some l) (due : l.due = 0) :
    s.loadEnd = ({ s with cmd := { s.cmd with load := none, states := s.cmd.states.put l.table l.completed } },
      { status := if l.clamped = 0 then .ok else .okClamped, data := beBytes 1 l.completed.code ++ beBytes 2 l.clamped }) := by
  rw [State.loadEnd, load]
  exact if_pos due

theorem loadEnd_torn {s : State} {l : Load} (load : s.cmd.load = some l) (due : l.due ≠ 0) :
    s.loadEnd = (s.tearLoad,
      { status := .torn, data := beBytes 1 StagedState.torn.code ++ beBytes 2 l.clamped ++ beBytes 2 l.due }) := by
  rw [State.loadEnd, load]
  exact if_neg due

theorem clampedStatus_accepts (clamped : Nat) : Status.accepts (if clamped = 0 then .ok else .okClamped) := by
  split
  · exact .inl rfl
  · exact .inr (.inl rfl)

/-- A LOAD_END that is neither accepted nor answered TORN finds no load (R173). -/
theorem loadEnd_unchanged (s : State) (refused : ¬ s.loadEnd.2.status.accepts) (untorn : s.loadEnd.2.status ≠ .torn) :
    s.loadEnd.1 = s := by
  cases load : s.cmd.load with
  | none => rw [loadEnd_none load]
  | some l =>
    by_cases due : l.due = 0
    · rw [loadEnd_complete load due] at refused
      exact absurd (clampedStatus_accepts l.clamped) refused
    · rw [loadEnd_torn load due] at untorn
      exact absurd rfl untorn

/-! ## Every command (R168) -/

/-- Every command but LOAD_DATA and LOAD_END changes nothing where it is refused (R168). -/
theorem CommandStep.unchangedIfRefused {i : Instr} {bytes : List Byte} {kind : Nat → Bool} {body : CommandBody}
    (step : CommandStep i bytes kind body) (not_data : i ≠ .loadData bytes) (not_end : i ≠ .loadEnd bytes) (src : Nat)
    (args : List Byte) (s : State) : UnchangedIfRefused s (body src args s) := by
  cases step
  case loadData => exact absurd rfl not_data
  case loadEnd => exact absurd rfl not_end
  case status => exact .withByte (fun _ _ => .same _) src args s
  case counters => exact .withByte (fun clear u => .counters clear u _) src args s
  case start => exact .withoutArgs (fun _ => .startCommand) src args s
  case stop => exact .withoutArgs (fun _ => .stopCommand) src args s
  case softReset => exact .withoutArgs (fun _ _ => .ok _) src args s
  case loadBegin =>
    unfold bodyLoadBegin
    split
    · exact .loadBegin _ _ _ _ s
    · exact .same _
  case readTable =>
    unfold bodyReadTable
    split
    · exact .same _
    · exact .same _
  case apply =>
    refine .withByte (fun mode u => ?_) src args s
    split; · exact .applyCommand false u
    split; · exact .applyCommand true u
    exact .same _
  case cancelApply => exact .withoutArgs (fun _ _ => .ok _) src args s
  case revert => exact .withoutArgs (fun _ => .revertCommand) src args s
  case verifyOpen => exact .withoutArgs .openLock src args s
  case verifyClose => exact .withoutArgs (fun _ _ => .ok _) src args s
  case verifyStatus => exact .withoutArgs (fun _ _ => .same _) src args s
  case closeLot => exact .withByte (fun slot => .commandClose slot.toNat) src args s
  case testMark =>
    unfold bodyTestMark
    split
    · exact .testMark _ _ _ s
    · exact .same _
  case unknownCommand => exact .same _

/-- Settles O48: LOAD_END by `loadEnd_unchanged`, every other command by `CommandStep.unchangedIfRefused`. -/
theorem refusalChangesNothing : Obligations.RefusalChangesNothing := by
  intro i bytes kind body step not_data src args s t a answers refused untorn
  by_cases ends : i = .loadEnd bytes
  · subst ends
    cases step
    cases args with
    | nil =>
      obtain ⟨rfl, rfl⟩ : s.loadEnd.1 = t ∧ s.loadEnd.2 = a := by simpa [bodyLoadEnd, withoutArgs, atOnce] using answers
      exact loadEnd_unchanged s refused (untorn rfl)
    | cons b rest => exact (congrArg Prod.fst answers).symm
  · have unchanged := step.unchangedIfRefused not_data ends src args s
    rw [answers] at unchanged
    exact unchanged a rfl refused

end Sys2Proof.Machine
end

section
/-! PROOFS. The apply cycle's commands: APPLY, CANCEL_APPLY and REVERT (O51), and the step at the queue's front (O1). -/

namespace Sys2Proof.Machine

/-! ## What APPLY asks of the state (R150, R175) -/

theorem mem_tables (t : TableId) : t ∈ TableId.all := by cases t <;> decide

theorem mem_having {st : StagedStates} {v : StagedState} {t : TableId} : t ∈ st.having v ↔ st.get t = v := by
  simp [StagedStates.having, mem_tables]

/-- A load in progress, or an apply pending (R175). -/
theorem applyBusy_iff {c : CommandUnit} : (c.load.isSome || c.pendingApply.isSome) = true
    ↔ c.load ≠ none ∨ c.pendingApply ≠ none := by
  simp [Option.isSome_iff_ne_none]

theorem someTorn_iff {st : StagedStates} : (!(st.having .torn).isEmpty) = true ↔ ∃ t, st.get t = .torn := by
  simp only [Bool.not_eq_true', List.isEmpty_eq_false_iff_exists_mem, mem_having]

/-- A verified table MODIFIED under a CLOSED lock (R150). -/
theorem applyLocked_iff {s : State} : (!s.ver.lockOpen && s.cmd.verifiedModified) = true
    ↔ s.ver.lockOpen = false ∧ ∃ t : TableId, t.verified = true ∧ s.cmd.states.get t = .modified := by
  simp only [Bool.and_eq_true, Bool.not_eq_true', CommandUnit.verifiedModified, List.any_eq_true, mem_having, and_comm]

/-- A boundary where an apply takes effect in its mode (R175). -/
theorem applyBoundary_iff {force : Bool} {s : State} : (s.atBoundary && (force || !s.hasOpen)) = true
    ↔ s.trk.handing = none ∧ (force = true ∨ ∀ r ∈ s.trk.records, r.state ≠ .isOpen) := by
  simp [State.atBoundary, State.hasOpen]

/-! ## APPLY in its cases (R175) -/

section apply
variable {s : State} (force : Bool)

theorem applyCommand_busy (busy : s.cmd.load ≠ none ∨ s.cmd.pendingApply ≠ none) :
    s.applyCommand force = (s, refusedAnswer .busy) := if_pos (applyBusy_iff.mpr busy)

variable (free : ¬ (s.cmd.load ≠ none ∨ s.cmd.pendingApply ≠ none))
include free

theorem applyCommand_torn (torn : ∃ t, s.cmd.states.get t = .torn) : s.applyCommand force = (s, refusedAnswer .torn) := by
  rw [State.applyCommand, if_neg (applyBusy_iff.not.mpr free)]
  exact if_pos (someTorn_iff.mpr torn)

variable (whole : ¬ ∃ t, s.cmd.states.get t = .torn)
include whole

theorem applyCommand_locked
    (locked : s.ver.lockOpen = false ∧ ∃ t : TableId, t.verified = true ∧ s.cmd.states.get t = .modified) :
    s.applyCommand force = (s, refusedAnswer .locked) := by
  rw [State.applyCommand, if_neg (applyBusy_iff.not.mpr free), if_neg (someTorn_iff.not.mpr whole)]
  exact if_pos (applyLocked_iff.mpr locked)

variable (permitted : ¬ (s.ver.lockOpen = false ∧ ∃ t : TableId, t.verified = true ∧ s.cmd.states.get t = .modified))
include permitted

/-- An APPLY that is not refused: nothing to do, done at once, or left pending (R175). -/
theorem applyCommand_permitted : s.applyCommand force =
    if s.cmd.states.having .modified = [] then (s, applyAnswer .ok force (s.cmd.states.having .modified))
    else if s.strobe.enable = false ∨ s.trk.handing = none ∧ (force = true ∨ ∀ r ∈ s.trk.records, r.state ≠ .isOpen) then
      (s.takeApply force, applyAnswer .ok force (s.cmd.states.having .modified))
    else (s.leavePending force (s.cmd.states.having .modified), applyAnswer .accepted force (s.cmd.states.having .modified)) := by
  rw [State.applyCommand, if_neg (applyBusy_iff.not.mpr free), if_neg (someTorn_iff.not.mpr whole),
    if_neg (applyLocked_iff.not.mpr permitted)]
  simp only [List.isEmpty_iff, applyBoundary_iff, Bool.not_eq_true']
  split
  · rw [‹s.cmd.states.having .modified = []›]
  · by_cases still : s.strobe.enable = false
    · rw [if_pos still, if_pos (.inl still)]
    · rw [if_neg still]
      exact if_congr (or_iff_right still).symm rfl rfl

theorem applyCommand_unmodified (unmodified : s.cmd.states.having .modified = []) :
    s.applyCommand force = (s, applyAnswer .ok force (s.cmd.states.having .modified)) := by
  rw [applyCommand_permitted force free whole permitted, if_pos unmodified]

variable (modified : s.cmd.states.having .modified ≠ [])
include modified

theorem applyCommand_now (now : s.strobe.enable = false
      ∨ s.trk.handing = none ∧ (force = true ∨ ∀ r ∈ s.trk.records, r.state ≠ .isOpen)) :
    s.applyCommand force = (s.takeApply force, applyAnswer .ok force (s.cmd.states.having .modified)) := by
  rw [applyCommand_permitted force free whole permitted, if_neg modified, if_pos now]

theorem applyCommand_pends (later : ¬ (s.strobe.enable = false
      ∨ s.trk.handing = none ∧ (force = true ∨ ∀ r ∈ s.trk.records, r.state ≠ .isOpen))) :
    s.applyCommand force
      = (s.leavePending force (s.cmd.states.having .modified), applyAnswer .accepted force (s.cmd.states.having .modified)) := by
  rw [applyCommand_permitted force free whole permitted, if_neg modified, if_neg later]

end apply

/-- The mode byte of an APPLY in form (R175): 0 is AT_GAP, 1 is FORCE. -/
theorem bodyApply_mode {mode : Byte} (inForm : mode.toNat ≤ 1) (src : Nat) (s : State) :
    bodyApply src [mode] s = atOnce (s.applyCommand (decide (mode = 1))) := by
  obtain rfl | rfl : mode = 0 ∨ mode = 1 := by bv_omega
  · rfl
  · rfl

theorem beBool_mode {mode : Byte} (inForm : mode.toNat ≤ 1) : beBool (decide (mode = 1)) = [mode] := by
  obtain rfl | rfl : mode = 0 ∨ mode = 1 := by bv_omega
  · rfl
  · rfl

/-- An apply's taking effect leaves the report address as it is. -/
theorem takeApply_report (force : Bool) (s : State) : (s.takeApply force).ring.report = s.ring.report := by
  rw [takeApply_frame]

/-- An APPLY that takes effect at once, answered (R163, R175; logs 28, 29). -/
theorem onCommand_applied {s : State} {bytes : List Byte} {f : Frame} {code : Nat} {args : List Byte} {body : CommandBody}
    (takes : s.Takes bytes f code args) {force : Bool} {st : Status} {data : List Byte}
    (applies : body f.src args (s.executing f) = ((s.executing f).takeApply force, some { status := st, data := data })) :
    onCommand (· == code) bytes body s = .next (((s.executing f).takeApply force).answered f st data) := by
  have report : ((s.executing f).takeApply force).ring.report = some f.src := takeApply_report force (s.executing f)
  rw [onCommand_taken takes, applies, State.answered, State.commanded, ← report]
  rfl

/-! ## The statements -/

/-- Settles O51: APPLY by its cases; one that comes within a line finds the line taken, which is `execApply`'s own first step. -/
theorem applyCommands : Obligations.ApplyCommands := by
  refine ⟨fun s bytes f mode takes inForm => ?apply, fun s bytes f takes => ?cancel, fun s bytes f taken code => ?midLine,
    fun s bytes f takes => ?revert⟩
  case apply =>
    intro tables busy torn locked atBoundary data
    have exec_eq : exec (.apply bytes false) s = onCommand (· == codeApply) bytes bodyApply s := rfl
    have body_eq : bodyApply f.src [mode] (s.executing f) = atOnce ((s.executing f).applyCommand (decide (mode = 1))) :=
      bodyApply_mode inForm f.src _
    have answer_eq (st : Status) : applyAnswer st (decide (mode = 1)) tables = { status := st, data := data } := by
      rw [applyAnswer, beBool_mode inForm]
    have boundary : (s.executing f).trk.handing = none
        ∧ (decide (mode = 1) = true ∨ ∀ r ∈ (s.executing f).trk.records, r.state ≠ .isOpen) ↔ atBoundary := by
      rw [decide_eq_true_iff]
      rfl
    rw [exec_eq]
    refine ⟨fun isBusy => ?_, fun free isTorn => ?_, fun free whole isLocked => ?_, fun free whole permitted unmodified => ?_,
      fun free whole permitted modified => ⟨fun now => ?_, fun enabled within => ?_⟩⟩
    · exact onCommand_answered takes (body_eq.trans (congrArg atOnce (applyCommand_busy (s := s.executing f) _ isBusy)))
    · exact onCommand_answered takes (body_eq.trans (congrArg atOnce (applyCommand_torn (s := s.executing f) _ free isTorn)))
    · exact onCommand_answered takes
        (body_eq.trans (congrArg atOnce (applyCommand_locked (s := s.executing f) _ free whole isLocked)))
    · have done := applyCommand_unmodified (s := s.executing f) (decide (mode = 1)) free whole permitted unmodified
      exact onCommand_answered takes (body_eq.trans (congrArg atOnce (done.trans (congrArg (Prod.mk _) (answer_eq .ok)))))
    · have done := applyCommand_now (s := s.executing f) (decide (mode = 1)) free whole permitted modified
        (now.imp_right boundary.mpr)
      exact onCommand_applied takes (body_eq.trans (congrArg atOnce (done.trans (congrArg (Prod.mk _) (answer_eq .ok)))))
    · have later : ¬ (s.strobe.enable = false ∨ atBoundary) := not_or.mpr ⟨ne_false_of_eq_true enabled, within⟩
      have done := applyCommand_pends (s := s.executing f) (decide (mode = 1)) free whole permitted modified
        ((or_congr_right boundary).not.mpr later)
      exact onCommand_changed takes
        (body_eq.trans (congrArg atOnce (done.trans (congrArg (Prod.mk _) (answer_eq .accepted)))))
  case cancel =>
    have exec_eq : exec (.cancelApply bytes) s = onCommand (· == codeCancelApply) bytes bodyCancelApply s := rfl
    rw [exec_eq]
    exact onCommand_changed takes rfl
  case midLine =>
    have command : s.command (· == codeApply) bytes = some f := command_some taken (beq_iff_eq.mpr code)
    have entered : (if s.powered = true ∧ s.lineDue = true then s.takeOldest.arbitrate else s) = s.enterLine :=
      if_congr Bool.and_eq_true_iff.symm rfl rfl
    rw [entered]
    change execApply bytes true s = execApply bytes false s.enterLine
    rw [execApply, command]
    rfl
  case revert =>
    have exec_eq : exec (.revert bytes) s = onCommand (· == codeRevert) bytes bodyRevert s := rfl
    have body_eq : bodyRevert f.src [] (s.executing f) = atOnce (s.executing f).revertCommand := rfl
    rw [exec_eq]
    refine ⟨fun pending => ?_, fun unpending => ?_⟩
    · exact onCommand_answered takes (body_eq.trans (congrArg atOnce (if_pos (Option.isSome_iff_ne_none.mpr pending))))
    · have not_pending : ¬ s.cmd.pendingApply.isSome = true := by simp [unpending]
      exact onCommand_changed takes (body_eq.trans (congrArg atOnce (if_neg not_pending)))

/-- Settles O1: the queue's front is what `step` takes. -/
theorem stepTakesFront : Obligations.StepTakesFront := fun _ _ _ => rfl

end Sys2Proof.Machine
end

section
/-! PROOFS. Fields and their bytes: a number read back from its bytes, bytes cut into the fields that they were made of, and a field
brought into its range (O55). -/

namespace Sys2Proof.Machine

/-! ## Numbers and their bytes (R182) -/

theorem foldl_beBytes (n v acc : Nat) :
    (beBytes n v).foldl (fun acc b => acc * 256 + b.toNat) acc = acc * 256 ^ n + v % 256 ^ n := by
  induction n generalizing acc with
  | zero => simp [beBytes, Nat.mod_one]
  | succ n ih =>
    have digit : v % 256 ^ (n + 1) = v % 256 ^ n + 256 ^ n * (v / 256 ^ n % 256) := by rw [pow_succ, Nat.mod_mul]
    have byte : (BitVec.ofNat 8 (v / 256 ^ n)).toNat = v / 256 ^ n % 256 := BitVec.toNat_ofNat _ _
    rw [beBytes, List.foldl_cons, ih, digit, byte, pow_succ]
    ring

/-- A number is read back from bytes that are wide enough for it (R182). -/
theorem ofBytes_beBytes {n v : Nat} (fits : v < 256 ^ n) : ofBytes (beBytes n v) = v := by
  rw [ofBytes, foldl_beBytes, Nat.zero_mul, Nat.zero_add, Nat.mod_eq_of_lt fits]

/-- A signed number is read back from bytes that are wide enough for it, in two's complement (R182). -/
theorem ofBytesSigned_beInt {n : Nat} {v : Int} (low : -(256 ^ n : Nat) ≤ 2 * v) (high : 2 * v < (256 ^ n : Nat)) :
    ofBytesSigned (beInt n v) = v := by
  have width : (0 : Int) < (256 ^ n : Nat) := by positivity
  have code_ge := Int.emod_nonneg v width.ne'
  have code_lt := Int.emod_lt_of_pos v width
  have read : ofBytes (beInt n v) = (v % (256 ^ n : Nat)).toNat := ofBytes_beBytes (by omega)
  rw [ofBytesSigned, beInt_length, read]
  generalize 256 ^ n = m at *
  rcases le_or_gt 0 v with nonneg | negative
  · have code : v % m = v := Int.emod_eq_of_lt nonneg (by omega)
    simp only [code]
    split <;> omega
  · have code : v % m = v + m := by
      rw [← Int.add_emod_right]
      exact Int.emod_eq_of_lt (by omega) (by omega)
    simp only [code]
    split <;> omega

/-! ## Bytes cut into fields (R184) -/

/-- Bytes made of fields of the widths asked for are cut into those fields. -/
theorem splitFields_flatten (fields : List (List Byte)) : splitFields (fields.map List.length) fields.flatten = some fields := by
  induction fields with
  | nil => rfl
  | cons f rest ih =>
    rw [List.map_cons, List.flatten_cons, splitFields, if_neg (by simp), List.drop_left, List.take_left, ih]
    rfl

theorem splitFields_fields {ws : List Nat} {bs : List Byte} (fields : List (List Byte)) (whole : bs = fields.flatten)
    (widths : fields.map List.length = ws) : splitFields ws bs = some fields := by
  rw [whole, ← widths]
  exact splitFields_flatten fields

/-! ## Fields brought into range (R172) -/

/-- The nearest value of a range, and 1 where it is another (R172). -/
theorem keepNat_eq {lo hi : Nat} (range : lo ≤ hi) (v : Nat) : keepNat lo hi v
    = { value := max lo (min hi v), clamped := if v = max lo (min hi v) then 0 else 1 } := by
  unfold keepNat
  split
  next below =>
    have stored : max lo (min hi v) = lo := by omega
    rw [stored, if_neg below.ne]
  next not_below =>
    split
    next above =>
      have stored : max lo (min hi v) = hi := by omega
      rw [stored, if_neg above.ne']
    next not_above =>
      have stored : max lo (min hi v) = v := by omega
      rw [stored, if_pos rfl]

theorem keepNat_zero (hi v : Nat) : keepNat 0 hi v = { value := min hi v, clamped := if v = min hi v then 0 else 1 } := by
  rw [keepNat_eq (Nat.zero_le hi), Nat.zero_max]

theorem keepInt_eq {lo hi : Int} (range : lo ≤ hi) (v : Int) : keepInt lo hi v
    = { value := max lo (min hi v), clamped := if v < lo ∨ hi < v then 1 else 0 } := by
  unfold keepInt
  split
  next below =>
    have stored : max lo (min hi v) = lo := by omega
    rw [stored, if_pos (.inl below)]
  next not_below =>
    split
    next above =>
      have stored : max lo (min hi v) = hi := by omega
      rw [stored, if_pos (.inr above)]
    next not_above =>
      have stored : max lo (min hi v) = v := by omega
      rw [stored, if_neg (not_or.mpr ⟨not_below, not_above⟩)]

theorem keepOption_eq (hi v : Nat) : keepOption hi v
    = { value := if v = 255 then none else some (min hi v)
        clamped := if v = 255 then 0 else if v = min hi v then 0 else 1 } := by
  unfold keepOption
  split
  · rfl
  · split
    next above =>
      have stored : min hi v = hi := by omega
      rw [stored, if_neg above.ne']
    next not_above =>
      have stored : min hi v = v := by omega
      rw [stored, if_pos rfl]

/-! ## Codes of value sets (R172, R184) -/

theorem keepSet_switch (code : Nat) : keepSet switchValues false code
    = { value := decide (code = 1), clamped := if 1 < code then 1 else 0 } :=
  match code with
  | 0 => rfl
  | 1 => rfl
  | _ + 2 => by simp [keepSet, switchValues]

theorem keepSet_unit (code : Nat) : keepSet MeasureUnit.values .footQuarter code
    = { value := if code = 1 then .decimetre else .footQuarter, clamped := if 1 < code then 1 else 0 } :=
  match code with
  | 0 => rfl
  | 1 => rfl
  | _ + 2 => by simp [keepSet, MeasureUnit.values]

theorem keepSet_rounding (code : Nat) : keepSet Rounding.values .nearest code
    = { value := if code = 0 then .down else if code = 2 then .up else .nearest, clamped := if 2 < code then 1 else 0 } :=
  match code with
  | 0 => rfl
  | 1 => rfl
  | 2 => rfl
  | _ + 3 => by simp [keepSet, Rounding.values]

theorem keepSet_filterClk (code : Nat) : keepSet FilterClk.values .one code
    = { value := if code = 0 then .quarter else if code = 2 then .four else if code = 3 then .sixteen else .one
        clamped := if 3 < code then 1 else 0 } :=
  match code with
  | 0 => rfl
  | 1 => rfl
  | 2 => rfl
  | 3 => rfl
  | _ + 4 => by simp [keepSet, FilterClk.values]

theorem keepSet_encDir (code : Nat) : keepSet EncDir.values .normal code
    = { value := if code = 1 then .swapped else .normal, clamped := if 1 < code then 1 else 0 } :=
  match code with
  | 0 => rfl
  | 1 => rfl
  | _ + 2 => by simp [keepSet, EncDir.values]

theorem keepSet_anchorMode (code : Nat) : keepSet AnchorMode.values .trailing code
    = { value := if code = 0 then .leading else .trailing, clamped := if 1 < code then 1 else 0 } :=
  match code with
  | 0 => rfl
  | 1 => rfl
  | _ + 2 => by simp [keepSet, AnchorMode.values]

theorem keepSet_joinPolicy (code : Nat) : keepSet JoinPolicy.values .rejectMark code
    = { value := if code = 0 then .value else if code = 2 then .noMark else .rejectMark, clamped := if 2 < code then 1 else 0 } :=
  match code with
  | 0 => rfl
  | 1 => rfl
  | 2 => rfl
  | _ + 3 => by simp [keepSet, JoinPolicy.values]

end Sys2Proof.Machine
end

section
/-! PROOFS. The entries of the ten tables, cut from their bytes and brought into their ranges (O55). -/

namespace Sys2Proof.Machine

/-! ## Entries cut from their bytes (R171, R184) -/

theorem ofBytes_one {v : Nat} (fits : v < 256) : ofBytes (beBytes 1 v) = v := ofBytes_beBytes fits

theorem ofBytes_two {v : Nat} (fits : v < 2 ^ 16) : ofBytes (beBytes 2 v) = v := ofBytes_beBytes fits

theorem ofBytes_three {v : Nat} (fits : v < 2 ^ 24) : ofBytes (beBytes 3 v) = v := ofBytes_beBytes fits

section bytes
variable (b : Tables) (i : Nat)

theorem storeEntry_cellw {v : Nat} (fits : v < 2 ^ 16) : b.storeEntry .cellw i (beBytes 2 v)
    = { value := { b with cellw := b.cellw.set i (keepNat 200 8000 v).value }, clamped := (keepNat 200 8000 v).clamped } := by
  have split : splitFields TableId.cellw.widths (beBytes 2 v) = _ := splitFields_fields [beBytes 2 v] rfl rfl
  unfold Tables.storeEntry
  rw [split]
  simp only [loadCellw, ofBytes_two fits]

theorem storeEntry_notepri {v : Nat} (fits : v < 256) : b.storeEntry .notepri i (beBytes 1 v)
    = { value := { b with notepri := b.notepri.set i (keepNat 0 3 v).value }, clamped := (keepNat 0 3 v).clamped } := by
  have split : splitFields TableId.notepri.widths (beBytes 1 v) = _ := splitFields_fields [beBytes 1 v] rfl rfl
  unfold Tables.storeEntry
  rw [split]
  simp only [loadLevel, ofBytes_one fits]

variable {f₁ f₂ f₃ f₄ f₅ f₆ f₇ f₈ f₉ f₁₀ f₁₁ f₁₂ f₁₃ : Nat} {mask : Byte} {v : Int}

theorem storeEntry_pitch (h₁ : f₁ < 2 ^ 16) (h₂ : f₂ < 2 ^ 24) (h₃ : f₃ < 2 ^ 24) (h₄ : f₄ < 2 ^ 24) :
    b.storeEntry .pitch i (beBytes 2 f₁ ++ beBytes 3 f₂ ++ beBytes 3 f₃ ++ beBytes 3 f₄)
      = { value := { b with pitch := (loadPitch f₁ f₂ f₃ f₄).value }, clamped := (loadPitch f₁ f₂ f₃ f₄).clamped } := by
  have split : splitFields TableId.pitch.widths (beBytes 2 f₁ ++ beBytes 3 f₂ ++ beBytes 3 f₃ ++ beBytes 3 f₄) = _ :=
    splitFields_fields [beBytes 2 f₁, beBytes 3 f₂, beBytes 3 f₃, beBytes 3 f₄] rfl rfl
  unfold Tables.storeEntry
  rw [split]
  simp (disch := assumption) only [ofBytes_two, ofBytes_three]

theorem storeEntry_calib (h₁ : f₁ < 256) (h₂ : f₂ < 256) (low : -32768 ≤ v) (high : v ≤ 32767) (h₄ : f₄ < 2 ^ 16)
    (h₅ : f₅ < 2 ^ 16) :
    b.storeEntry .calib i (beBytes 1 f₁ ++ beBytes 1 f₂ ++ beInt 2 v ++ beBytes 2 f₄ ++ beBytes 2 f₅)
      = { value := { b with calib := (loadCalib f₁ f₂ v f₄ f₅).value }, clamped := (loadCalib f₁ f₂ v f₄ f₅).clamped } := by
  have split : splitFields TableId.calib.widths (beBytes 1 f₁ ++ beBytes 1 f₂ ++ beInt 2 v ++ beBytes 2 f₄ ++ beBytes 2 f₅) = _ :=
    splitFields_fields [beBytes 1 f₁, beBytes 1 f₂, beInt 2 v, beBytes 2 f₄, beBytes 2 f₅] rfl rfl
  have signed : ofBytesSigned (beInt 2 v) = v := ofBytesSigned_beInt (by omega) (by omega)
  unfold Tables.storeEntry
  rw [split]
  simp (disch := assumption) only [ofBytes_one, ofBytes_two, signed]

theorem storeEntry_scan (h₁ : f₁ < 2 ^ 16) (h₂ : f₂ < 2 ^ 16) (h₃ : f₃ < 256) (h₄ : f₄ < 256) (h₅ : f₅ < 2 ^ 16)
    (h₆ : f₆ < 2 ^ 16) (h₇ : f₇ < 256) (h₉ : f₉ < 256) (h₁₀ : f₁₀ < 256) (h₁₁ : f₁₁ < 256) (h₁₂ : f₁₂ < 256)
    (h₁₃ : f₁₃ < 2 ^ 16) :
    b.storeEntry .scan i (beBytes 2 f₁ ++ beBytes 2 f₂ ++ beBytes 1 f₃ ++ beBytes 1 f₄ ++ beBytes 2 f₅ ++ beBytes 2 f₆
        ++ beBytes 1 f₇ ++ [mask] ++ beBytes 1 f₉ ++ beBytes 1 f₁₀ ++ beBytes 1 f₁₁ ++ beBytes 1 f₁₂ ++ beBytes 2 f₁₃)
      = { value := { b with scan := (loadScan f₁ f₂ f₃ f₄ f₅ f₆ f₇ mask.toNat f₉ f₁₀ f₁₁ f₁₂ f₁₃).value }
          clamped := (loadScan f₁ f₂ f₃ f₄ f₅ f₆ f₇ mask.toNat f₉ f₁₀ f₁₁ f₁₂ f₁₃).clamped } := by
  have split : splitFields TableId.scan.widths (beBytes 2 f₁ ++ beBytes 2 f₂ ++ beBytes 1 f₃ ++ beBytes 1 f₄ ++ beBytes 2 f₅
      ++ beBytes 2 f₆ ++ beBytes 1 f₇ ++ [mask] ++ beBytes 1 f₉ ++ beBytes 1 f₁₀ ++ beBytes 1 f₁₁ ++ beBytes 1 f₁₂
      ++ beBytes 2 f₁₃) = _ :=
    splitFields_fields [beBytes 2 f₁, beBytes 2 f₂, beBytes 1 f₃, beBytes 1 f₄, beBytes 2 f₅, beBytes 2 f₆, beBytes 1 f₇, [mask],
      beBytes 1 f₉, beBytes 1 f₁₀, beBytes 1 f₁₁, beBytes 1 f₁₂, beBytes 2 f₁₃] rfl rfl
  have byte : ofBytes [mask] = mask.toNat := Nat.zero_add _
  unfold Tables.storeEntry
  rw [split]
  simp (disch := assumption) only [ofBytes_one, ofBytes_two, byte]

theorem storeEntry_markp (h₁ : f₁ < 256) (h₂ : f₂ < 2 ^ 24) (h₃ : f₃ < 2 ^ 24) (h₄ : f₄ < 2 ^ 24) (h₅ : f₅ < 2 ^ 16)
    (h₆ : f₆ < 2 ^ 24) (low : -128 ≤ v) (high : v ≤ 127) (h₈ : f₈ < 256) :
    b.storeEntry .markp i (beBytes 1 f₁ ++ beBytes 3 f₂ ++ beBytes 3 f₃ ++ beBytes 3 f₄ ++ beBytes 2 f₅ ++ beBytes 3 f₆
        ++ beInt 1 v ++ beBytes 1 f₈)
      = { value := { b with markp := (loadMarkp f₁ f₂ f₃ f₄ f₅ f₆ v f₈).value }
          clamped := (loadMarkp f₁ f₂ f₃ f₄ f₅ f₆ v f₈).clamped } := by
  have split : splitFields TableId.markp.widths (beBytes 1 f₁ ++ beBytes 3 f₂ ++ beBytes 3 f₃ ++ beBytes 3 f₄ ++ beBytes 2 f₅
      ++ beBytes 3 f₆ ++ beInt 1 v ++ beBytes 1 f₈) = _ :=
    splitFields_fields [beBytes 1 f₁, beBytes 3 f₂, beBytes 3 f₃, beBytes 3 f₄, beBytes 2 f₅, beBytes 3 f₆, beInt 1 v,
      beBytes 1 f₈] rfl rfl
  have signed : ofBytesSigned (beInt 1 v) = v := ofBytesSigned_beInt (by omega) (by omega)
  unfold Tables.storeEntry
  rw [split]
  simp (disch := assumption) only [ofBytes_one, ofBytes_two, ofBytes_three, signed]

theorem storeEntry_lane (h₁ : f₁ < 2 ^ 16) (h₂ : f₂ < 2 ^ 16) (h₃ : f₃ < 256) (h₄ : f₄ < 256) (h₅ : f₅ < 256) (h₆ : f₆ < 256) :
    b.storeEntry .lane i (beBytes 2 f₁ ++ beBytes 2 f₂ ++ beBytes 1 f₃ ++ beBytes 1 f₄ ++ beBytes 1 f₅ ++ beBytes 1 f₆)
      = { value := { b with lanes := b.lanes.set i (loadLane f₁ f₂ f₃ f₄ f₅ f₆).value }
          clamped := (loadLane f₁ f₂ f₃ f₄ f₅ f₆).clamped } := by
  have split : splitFields TableId.lane.widths (beBytes 2 f₁ ++ beBytes 2 f₂ ++ beBytes 1 f₃ ++ beBytes 1 f₄ ++ beBytes 1 f₅
      ++ beBytes 1 f₆) = _ :=
    splitFields_fields [beBytes 2 f₁, beBytes 2 f₂, beBytes 1 f₃, beBytes 1 f₄, beBytes 1 f₅, beBytes 1 f₆] rfl rfl
  unfold Tables.storeEntry
  rw [split]
  simp (disch := assumption) only [ofBytes_one, ofBytes_two]

theorem storeEntry_head (h₁ : f₁ < 256) (h₂ : f₂ < 256) (h₃ : f₃ < 2 ^ 24) (h₄ : f₄ < 2 ^ 16) (h₅ : f₅ < 2 ^ 24)
    (h₆ : f₆ < 2 ^ 24) (h₇ : f₇ < 2 ^ 16) (h₈ : f₈ < 2 ^ 16) (h₉ : f₉ < 256) (h₁₀ : f₁₀ < 256) :
    b.storeEntry .head i (beBytes 1 f₁ ++ beBytes 1 f₂ ++ beBytes 3 f₃ ++ beBytes 2 f₄ ++ beBytes 3 f₅ ++ beBytes 3 f₆
        ++ beBytes 2 f₇ ++ beBytes 2 f₈ ++ beBytes 1 f₉ ++ beBytes 1 f₁₀)
      = { value := { b with heads := b.heads.set i (loadHead f₁ f₂ f₃ f₄ f₅ f₆ f₇ f₈ f₉ f₁₀).value }
          clamped := (loadHead f₁ f₂ f₃ f₄ f₅ f₆ f₇ f₈ f₉ f₁₀).clamped } := by
  have split : splitFields TableId.head.widths (beBytes 1 f₁ ++ beBytes 1 f₂ ++ beBytes 3 f₃ ++ beBytes 2 f₄ ++ beBytes 3 f₅
      ++ beBytes 3 f₆ ++ beBytes 2 f₇ ++ beBytes 2 f₈ ++ beBytes 1 f₉ ++ beBytes 1 f₁₀) = _ :=
    splitFields_fields [beBytes 1 f₁, beBytes 1 f₂, beBytes 3 f₃, beBytes 2 f₄, beBytes 3 f₅, beBytes 3 f₆, beBytes 2 f₇,
      beBytes 2 f₈, beBytes 1 f₉, beBytes 1 f₁₀] rfl rfl
  unfold Tables.storeEntry
  rw [split]
  simp (disch := assumption) only [ofBytes_one, ofBytes_two, ofBytes_three]

theorem storeEntry_lot (h₁ : f₁ < 2 ^ 16) (h₂ : f₂ < 256) (h₃ : f₃ < 2 ^ 16) :
    b.storeEntry .lot i (beBytes 2 f₁ ++ beBytes 1 f₂ ++ beBytes 2 f₃)
      = { value := { b with lots := b.lots.set i (loadLot f₁ f₂ f₃).value }, clamped := (loadLot f₁ f₂ f₃).clamped } := by
  have split : splitFields TableId.lot.widths (beBytes 2 f₁ ++ beBytes 1 f₂ ++ beBytes 2 f₃) = _ :=
    splitFields_fields [beBytes 2 f₁, beBytes 1 f₂, beBytes 2 f₃] rfl rfl
  unfold Tables.storeEntry
  rw [split]
  simp (disch := assumption) only [ofBytes_one, ofBytes_two]

theorem storeEntry_glyph {columns : List Dots} (h₁ : f₁ < 256) (whole : columns.length = 12) :
    b.storeEntry .glyph i (beBytes 1 f₁ ++ columns.flatMap fun c => beBytes 2 c.toNat)
      = { value := { b with glyphs := b.glyphs.set i (loadGlyph f₁ columns).value }, clamped := (loadGlyph f₁ columns).clamped } := by
  have widths : columns.map (List.length ∘ fun c => beBytes 2 c.toNat) = List.replicate 12 2 := by
    rw [← whole, ← List.map_const']
    exact List.map_congr_left fun c _ => beBytes_length 2 _
  have split : splitFields TableId.glyph.widths (beBytes 1 f₁ ++ columns.flatMap fun c => beBytes 2 c.toNat) = _ :=
    splitFields_fields (beBytes 1 f₁ :: columns.map fun c => beBytes 2 c.toNat) rfl (by
      rw [List.map_cons, List.map_map, widths]
      rfl)
  have dots : (columns.map fun c => beBytes 2 c.toNat).map (fun c => BitVec.ofNat 16 (ofBytes c)) = columns := by
    rw [List.map_map]
    refine (List.map_congr_left fun c _ => ?_).trans (List.map_id columns)
    rw [Function.comp_apply, ofBytes_two c.isLt]
    exact BitVec.ofNat_toNat 16 c |>.trans (BitVec.setWidth_eq c)
  unfold Tables.storeEntry
  rw [split]
  simp only [ofBytes_one h₁, dots]

end bytes

/-! ## Entries brought into range, field by field (R172, section 12.8; log 25) -/

theorem loadPitch_eq (pint pfrac pmod paux : Nat) : loadPitch pint pfrac pmod paux
    = if pmod ≤ 1 then
        { value := { pint := min 4095 pint, pfrac := pfrac, pmod := 2, paux := 0 }
          clamped := (if pint = min 4095 pint then 0 else 1) + 1 }
      else
        { value := { pint := min 4095 pint, pfrac := pfrac, pmod := pmod, paux := min (pmod - 1) paux }
          clamped := (if pint = min 4095 pint then 0 else 1) + if paux = min (pmod - 1) paux then 0 else 1 } := by
  simp only [loadPitch, keepNat_zero]

theorem loadAlt_eq (pri alt : Nat) : loadAlt pri alt
    = { value := if alt = 255 ∨ min 7 alt = pri then none else some (min 7 alt)
        clamped := if alt = 255 ∨ (if alt = 255 ∨ min 7 alt = pri then none else some (min 7 alt)) = some alt then 0 else 1 } := by
  simp only [loadAlt, keepOption_eq]
  by_cases absent : alt = 255
  · simp [absent]
  · by_cases same : min 7 alt = pri
    · simp [absent, same]
    · simp only [absent, same, Option.some.injEq, or_self, false_or, if_false]
      exact congrArg _ (if_congr eq_comm rfl rfl)

end Sys2Proof.Machine
end

section
/-! PROOFS. Table entries and their bytes agree (O55): an entry in range is loaded as it stands, at its place and nowhere else. -/

namespace Sys2Proof.Machine

/-! ## Fields in range are stored as loaded (R172, R184) -/

theorem keepNat_self {lo hi v : Nat} (ge : lo ≤ v) (le : v ≤ hi) : keepNat lo hi v = { value := v, clamped := 0 } := by
  rw [keepNat, if_neg (not_lt.mpr ge), if_neg (not_lt.mpr le)]

theorem keepInt_self {lo hi v : Int} (ge : lo ≤ v) (le : v ≤ hi) : keepInt lo hi v = { value := v, clamped := 0 } := by
  rw [keepInt, if_neg (not_lt.mpr ge), if_neg (not_lt.mpr le)]

theorem keepOption_self {hi : Nat} (byte : hi < 255) {x : Option Nat} (le : ∀ v ∈ x, v ≤ hi) :
    keepOption hi (x.getD 255) = { value := x, clamped := 0 } := by
  cases x with
  | none => rfl
  | some v =>
    have inside : v ≤ hi := le v rfl
    rw [Option.getD_some, keepOption, if_neg (by omega), if_neg (not_lt.mpr inside)]

section codes
variable {α : Type} [DecidableEq α] (values : List α)

theorem keepSet_codeIn (dflt : α) {v : α} (listed : v ∈ values) :
    keepSet values dflt (codeIn values v) = { value := v, clamped := 0 } := by
  rw [keepSet, codeIn, List.getElem?_idxOf listed]

theorem codeIn_lt (short : values.length < 256) (v : α) : codeIn values v < 256 := List.idxOf_le_length.trans_lt short

end codes

theorem mem_units (v : MeasureUnit) : v ∈ MeasureUnit.values := by cases v <;> decide
theorem mem_roundings (v : Rounding) : v ∈ Rounding.values := by cases v <;> decide
theorem mem_filterClks (v : FilterClk) : v ∈ FilterClk.values := by cases v <;> decide
theorem mem_encDirs (v : EncDir) : v ∈ EncDir.values := by cases v <;> decide
theorem mem_anchorModes (v : AnchorMode) : v ∈ AnchorMode.values := by cases v <;> decide
theorem mem_joinPolicies (v : JoinPolicy) : v ∈ JoinPolicy.values := by cases v <;> decide
theorem mem_switchValues (v : Bool) : v ∈ switchValues := by cases v <;> decide

/-- A yes-or-no's byte is its code (R184). -/
theorem beBool_eq (v : Bool) : beBool v = beBytes 1 (codeIn switchValues v) := by cases v <;> rfl

/-- An absent field of one byte is all ones (R184). -/
theorem beOption_one (x : Option Nat) : beOption 1 x = beBytes 1 (x.getD 255) := by cases x <;> rfl

/-! ## Entries in range are stored as loaded (R172) -/

theorem loadPitch_self {p : PitchRec} (h : p.InRange) :
    loadPitch p.pint p.pfrac p.pmod p.paux = { value := p, clamped := 0 } := by
  obtain ⟨pint, -, pmod, -, paux⟩ := h
  rw [loadPitch, if_neg (by omega), keepNat_self (Nat.zero_le _) pint, keepNat_self (Nat.zero_le _) (by omega)]
  rfl

theorem loadCalib_self {c : CalibRec} (h : c.InRange) :
    loadCalib (codeIn MeasureUnit.values c.unit) (codeIn Rounding.values c.round) c.trimPpm c.holeLimit c.minHide
      = { value := c, clamped := 0 } := by
  obtain ⟨trim_ge, trim_le, -, hide⟩ := h
  rw [loadCalib, keepSet_codeIn _ _ (mem_units _), keepSet_codeIn _ _ (mem_roundings _), keepInt_self trim_ge trim_le,
    keepNat_self (Nat.zero_le _) hide]
  rfl

theorem loadScan_self {r : ScanRec} (h : r.InRange) :
    loadScan r.winStart r.winEnd (codeIn switchValues r.barReverse) r.minRun r.linePitch r.minStrobe r.asmDepth r.headMask.toNat
        (codeIn FilterClk.values r.filterClk) (codeIn EncDir.values r.encDir) r.steadyWin r.steadyCount r.reverseLimit
      = { value := r, clamped := 0 } := by
  obtain ⟨order, window, run_ge, run_le, pitch_ge, pitch_le, strobe_ge, strobe_le, depth_ge, depth_le, win_ge, win_le, count_ge,
    count_le, -⟩ := h
  rw [loadScan, keepNat_self (Nat.zero_le _) (order.trans window), keepSet_codeIn _ _ (mem_switchValues _),
    keepNat_self run_ge run_le, keepNat_self pitch_ge pitch_le, keepNat_self strobe_ge strobe_le, keepNat_self depth_ge depth_le,
    keepSet_codeIn _ _ (mem_filterClks _), keepSet_codeIn _ _ (mem_encDirs _), keepNat_self win_ge win_le,
    keepNat_self count_ge count_le]
  simp only [keepNat_self order window, BitVec.ofNat_toNat, BitVec.setWidth_eq]

theorem loadMarkp_self {m : MarkpRec} (h : m.InRange) :
    loadMarkp (codeIn AnchorMode.values m.anchorMode) m.anchorOffset m.anchorStride m.stampWidth m.columnPitch m.shiftWindow
        m.glyphGap (codeIn JoinPolicy.values m.joinPolicy)
      = { value := m, clamped := 0 } := by
  obtain ⟨offset, stride_ge, stride_le, width, pitch_ge, pitch_le, shift, gap_ge, gap_le⟩ := h
  rw [loadMarkp, keepSet_codeIn _ _ (mem_anchorModes _), keepNat_self (Nat.zero_le _) offset, keepNat_self stride_ge stride_le,
    keepNat_self (Nat.zero_le _) width, keepNat_self pitch_ge pitch_le, keepNat_self (Nat.zero_le _) shift,
    keepInt_self gap_ge gap_le, keepSet_codeIn _ _ (mem_joinPolicies _)]
  rfl

theorem loadLane_self {l : LaneRec} (h : l.InRange) :
    loadLane l.cellFirst l.cellLast l.headPri (l.headAlt.getD 255) l.lotSlot (codeIn switchValues l.enabled)
      = { value := l, clamped := 0 } := by
  obtain ⟨order, cells, pri, alt, slot⟩ := h
  have other : loadAlt l.headPri (l.headAlt.getD 255) = { value := l.headAlt, clamped := 0 } := by
    have apart : l.headAlt ≠ some l.headPri := fun same => (alt _ same).2 rfl
    rw [loadAlt, keepOption_self (by decide) fun v there => (alt v there).1]
    exact if_neg apart
  rw [loadLane, keepNat_self (Nat.zero_le _) (order.trans cells), keepNat_self (Nat.zero_le _) pri,
    keepNat_self (Nat.zero_le _) slot, keepSet_codeIn _ _ (mem_switchValues _)]
  simp only [keepNat_self order cells, other]

theorem loadHead_self {m : HeadRec} (h : m.InRange) :
    loadHead m.ringAddr (codeIn switchValues m.enabled) m.offset m.primeLead m.guard m.edge m.nozzlePitch m.nozzles
        (codeIn switchValues m.rotate) (codeIn switchValues m.mirror)
      = { value := m, clamped := 0 } := by
  obtain ⟨addr, offset_ge, offset_le, lead, guard_ge, guard_le, -, pitch_ge, pitch_le, nozzles_ge, nozzles_le⟩ := h
  rw [loadHead, keepNat_self (Nat.zero_le _) addr, keepSet_codeIn _ _ (mem_switchValues _), keepNat_self offset_ge offset_le,
    keepNat_self (Nat.zero_le _) lead, keepNat_self pitch_ge pitch_le, keepNat_self nozzles_ge nozzles_le,
    keepSet_codeIn _ _ (mem_switchValues _), keepSet_codeIn _ _ (mem_switchValues _)]
  simp only [keepNat_self guard_ge guard_le]

theorem loadGlyph_self {g : GlyphRec} (h : g.InRange) : loadGlyph g.width g.columns = { value := g, clamped := 0 } := by
  obtain ⟨width_ge, width_le, -⟩ := h
  rw [loadGlyph, keepNat_self width_ge width_le]

theorem loadLot_self {l : LotRec} (h : l.InRange) :
    loadLot l.size (l.prefixGlyph.getD 255) l.firstNo = { value := l, clamped := 0 } := by
  obtain ⟨size_ge, size_le, glyph, number_ge, number_le⟩ := h
  rw [loadLot, keepNat_self size_ge size_le, keepOption_self (by decide) glyph, keepNat_self number_ge number_le]
  rfl

/-! ## A bank with one entry of another (R171) -/

/-- A bank with one entry of a table as it stands in another bank. -/
def Tables.withEntryOf (b a : Tables) (t : TableId) (i : Nat) : Tables :=
  { cellw := if t = .cellw then b.cellw.set i (a.cellw.getD i 0) else b.cellw
    pitch := if t = .pitch then a.pitch else b.pitch
    calib := if t = .calib then a.calib else b.calib
    scan := if t = .scan then a.scan else b.scan
    markp := if t = .markp then a.markp else b.markp
    lanes := if t = .lane then b.lanes.set i (a.lanes.getD i .default) else b.lanes
    heads := if t = .head then b.heads.set i (a.heads.getD i .default) else b.heads
    glyphs := if t = .glyph then b.glyphs.set i (a.glyphs.getD i .default) else b.glyphs
    lots := if t = .lot then b.lots.set i (a.lots.getD i .default) else b.lots
    notepri := if t = .notepri then b.notepri.set i (a.notepri.getD i 0) else b.notepri }

section place
variable {α : Type} {P : α → Prop} {l : List α} {n i j : Nat}

theorem getD_of_entries (h : l.length = n ∧ ∀ x ∈ l, P x) (inside : i < n) (d : α) : P (l.getD i d) := by
  have there : i < l.length := h.1.symm ▸ inside
  rw [List.getD_eq_getElem _ _ there]
  exact h.2 _ (List.getElem_mem there)

theorem set_getD_self (l : List α) (i : Nat) (d : α) : l.set i (l.getD i d) = l := by
  by_cases there : i < l.length
  · rw [List.getD_eq_getElem _ _ there, List.set_getElem_self]
  · exact List.set_eq_of_length_le (not_lt.mp there)

theorem getD_set_same (length : l.length = n) (inside : i < n) (x d : α) : (l.set i x).getD i d = x := by
  simp [List.getD_eq_getElem?_getD, length, inside]

theorem getD_set_other (apart : j ≠ i) (x d : α) : (l.set i x).getD j d = l.getD j d := by
  simp [List.getD_eq_getElem?_getD, apart.symm]

/-- A table set at one index where a condition holds is as it was at another. -/
theorem getD_setIf_other {c : Prop} [Decidable c] (apart : c → j ≠ i) (x d : α) :
    (if c then l.set i x else l).getD j d = l.getD j d := by
  split
  · exact getD_set_other (apart ‹c›) x d
  · rfl

end place

theorem withEntryOf_self (a : Tables) (t : TableId) (i : Nat) : a.withEntryOf a t i = a := by
  simp only [Tables.withEntryOf, set_getD_self, ite_self]

/-- The entry at its place is the other bank's. -/
theorem entryBytes_withEntryOf_same (a : Tables) {b : Tables} (h : b.InRange) {t : TableId} {i : Nat} (inside : i < t.entries) :
    (b.withEntryOf a t i).entryBytes t i = a.entryBytes t i := by
  cases t
  case cellw => exact congrArg (beBytes 2) (getD_set_same h.cellw.1 inside _ _)
  case lane => exact congrArg LaneRec.entryBytes (getD_set_same h.lanes.1 inside _ _)
  case head => exact congrArg HeadRec.entryBytes (getD_set_same h.heads.1 inside _ _)
  case glyph => exact congrArg GlyphRec.entryBytes (getD_set_same h.glyphs.1 inside _ _)
  case lot => exact congrArg LotRec.entryBytes (getD_set_same h.lots.1 inside _ _)
  case notepri => exact congrArg (beBytes 1) (getD_set_same h.notepri.1 inside _ _)
  case pitch | calib | scan | markp => rfl

/-- Every other entry is as it was; a table of one entry has none. -/
theorem entryBytes_withEntryOf_other (a b : Tables) {t t' : TableId} {i j : Nat} (inside : i < t.entries) (inside' : j < t'.entries)
    (other : (t', j) ≠ (t, i)) : (b.withEntryOf a t i).entryBytes t' j = b.entryBytes t' j := by
  have apart (same : t = t') : j ≠ i := fun place => other (by rw [same, place])
  have single (one : t'.entries = 1) : t ≠ t' := fun same => apart same (by subst same; omega)
  cases t'
  case cellw => exact congrArg (beBytes 2) (getD_setIf_other apart _ _)
  case pitch => exact congrArg PitchRec.entryBytes (if_neg (single rfl))
  case calib => exact congrArg CalibRec.entryBytes (if_neg (single rfl))
  case scan => exact congrArg ScanRec.entryBytes (if_neg (single rfl))
  case markp => exact congrArg MarkpRec.entryBytes (if_neg (single rfl))
  case lane => exact congrArg LaneRec.entryBytes (getD_setIf_other apart _ _)
  case head => exact congrArg HeadRec.entryBytes (getD_setIf_other apart _ _)
  case glyph => exact congrArg GlyphRec.entryBytes (getD_setIf_other apart _ _)
  case lot => exact congrArg LotRec.entryBytes (getD_setIf_other apart _ _)
  case notepri => exact congrArg (beBytes 1) (getD_setIf_other apart _ _)

/-! ## An entry's bytes (R184) -/

/-- An entry in range has the bytes of its table's widths, whatever the table (R184). -/
theorem entryBytes_length {a : Tables} (h : a.InRange) {t : TableId} {i : Nat} (inside : i < t.entries) :
    (a.entryBytes t i).length = t.entryLength := by
  cases t
  case glyph =>
    have whole : (a.glyphs.getD i .default).columns.length = 12 := (getD_of_entries h.glyphs inside .default).2.2
    have dots : ((a.glyphs.getD i .default).columns.flatMap fun c => beBytes 2 c.toNat).length = 24 := by
      simp only [List.length_flatMap, beBytes_length, List.map_const', List.sum_replicate, whole]
      rfl
    rw [Tables.entryBytes, GlyphRec.entryBytes, List.length_append, beBytes_length, dots]
    rfl
  case lane => simp [Tables.entryBytes, LaneRec.entryBytes, TableId.entryLength, TableId.widths, beBool]
  case lot => simp [Tables.entryBytes, LotRec.entryBytes, TableId.entryLength, TableId.widths]
  all_goals rfl

/-- An entry in range, stored at its place in any bank from its bytes, is that entry there, and nothing is clamped (R172). -/
theorem storeEntry_entryBytes {a : Tables} (h : a.InRange) (b : Tables) {t : TableId} {i : Nat} (inside : i < t.entries) :
    b.storeEntry t i (a.entryBytes t i) = { value := b.withEntryOf a t i, clamped := 0 } := by
  cases t
  case cellw =>
    obtain ⟨ge, le⟩ := getD_of_entries h.cellw inside 0
    refine (storeEntry_cellw b i (by omega)).trans ?_
    rw [keepNat_self ge le]
    rfl
  case pitch =>
    have inRange := h.pitch
    obtain ⟨pint, pfrac, pmod_ge, pmod, paux⟩ := inRange
    refine (storeEntry_pitch b i (by omega) pfrac (by omega) (by omega)).trans ?_
    rw [loadPitch_self h.pitch]
    rfl
  case calib =>
    obtain ⟨trim_ge, trim_le, hole, hide⟩ := h.calib
    refine (storeEntry_calib b i (codeIn_lt _ (by decide) _) (codeIn_lt _ (by decide) _) (by omega) (by omega) (by omega)
      (by omega)).trans ?_
    rw [loadCalib_self h.calib]
    rfl
  case scan =>
    obtain ⟨order, window, run_ge, run_le, pitch_ge, pitch_le, strobe_ge, strobe_le, depth_ge, depth_le, win_ge, win_le, count_ge,
      count_le, limit⟩ := h.scan
    rw [Tables.entryBytes, ScanRec.entryBytes, beBool_eq]
    refine (storeEntry_scan b i (by omega) (by omega) (codeIn_lt _ (by decide) _) (by omega) (by omega) (by omega) (by omega)
      (codeIn_lt _ (by decide) _) (codeIn_lt _ (by decide) _) (by omega) (by omega) (by omega)).trans ?_
    rw [loadScan_self h.scan]
    rfl
  case markp =>
    obtain ⟨offset, stride_ge, stride_le, width, pitch_ge, pitch_le, shift, gap_ge, gap_le⟩ := h.markp
    refine (storeEntry_markp b i (codeIn_lt _ (by decide) _) (by omega) (by omega) (by omega) (by omega) (by omega) (by omega)
      (by omega) (codeIn_lt _ (by decide) _)).trans ?_
    rw [loadMarkp_self h.markp]
    rfl
  case lane =>
    have inRange := getD_of_entries h.lanes inside .default
    generalize entry : a.lanes.getD i .default = l at inRange
    obtain ⟨order, cells, pri, alt, slot⟩ := id inRange
    rw [Tables.entryBytes, entry, LaneRec.entryBytes, beBool_eq, beOption_one]
    have alt_lt : l.headAlt.getD 255 < 256 := by
      cases absent : l.headAlt with
      | none => decide
      | some v => exact Nat.lt_of_le_of_lt (alt v absent).1 (by decide)
    refine (storeEntry_lane b i (by omega) (by omega) (by omega) alt_lt (by omega) (codeIn_lt _ (by decide) _)).trans ?_
    rw [loadLane_self inRange, ← entry]
    rfl
  case head =>
    have inRange := getD_of_entries h.heads inside .default
    generalize entry : a.heads.getD i .default = m at inRange
    obtain ⟨addr, offset_ge, offset_le, lead, guard_ge, guard_le, edge, pitch_ge, pitch_le, nozzles_ge, nozzles_le⟩ := id inRange
    rw [Tables.entryBytes, entry, HeadRec.entryBytes, beBool_eq, beBool_eq, beBool_eq]
    refine (storeEntry_head b i (by omega) (codeIn_lt _ (by decide) _) (by omega) (by omega) (by omega) (by omega) (by omega)
      (by omega) (codeIn_lt _ (by decide) _) (codeIn_lt _ (by decide) _)).trans ?_
    rw [loadHead_self inRange, ← entry]
    rfl
  case glyph =>
    have inRange := getD_of_entries h.glyphs inside .default
    obtain ⟨width_ge, width_le, whole⟩ := id inRange
    refine (storeEntry_glyph b i (by omega) whole).trans ?_
    rw [loadGlyph_self inRange]
    rfl
  case lot =>
    have inRange := getD_of_entries h.lots inside .default
    generalize entry : a.lots.getD i .default = l at inRange
    obtain ⟨size_ge, size_le, glyph, number_ge, number_le⟩ := id inRange
    rw [Tables.entryBytes, entry, LotRec.entryBytes, beOption_one]
    have glyph_lt : l.prefixGlyph.getD 255 < 256 := by
      cases absent : l.prefixGlyph with
      | none => decide
      | some v => exact Nat.lt_of_le_of_lt (glyph v absent) (by decide)
    refine (storeEntry_lot b i (by omega) glyph_lt (by omega)).trans ?_
    rw [loadLot_self inRange, ← entry]
    rfl
  case notepri =>
    have le := getD_of_entries h.notepri inside 0
    refine (storeEntry_notepri b i (by omega)).trans ?_
    rw [keepNat_self (Nat.zero_le _) le]
    rfl

end Sys2Proof.Machine
end

section
/-! PROOFS. The entries of a LOAD_DATA one after another, and the statement on entries and their bytes (O55). -/

namespace Sys2Proof.Machine

/-! ## Entries one after another (R171) -/

/-- One more entry is stored after the others, at the index that they lead to, and its count added (R171). -/
theorem storeAll_concat (t : TableId) (down : Bool) (entries : List (List Byte)) (e : List Byte) (b : Tables) (i : Nat) :
    b.storeAll t down i (entries ++ [e])
      = { value := ((b.storeAll t down i entries).value.storeEntry t
            (if down then i - entries.length else i + entries.length) e).value
          clamped := (b.storeAll t down i entries).clamped + ((b.storeAll t down i entries).value.storeEntry t
            (if down then i - entries.length else i + entries.length) e).clamped } := by
  induction entries generalizing b i with
  | nil => cases down <;> simp [Tables.storeAll]
  | cons first rest ih =>
    have place : (if down then (if down then i - 1 else i + 1) - rest.length else (if down then i - 1 else i + 1) + rest.length)
        = if down then i - (first :: rest).length else i + (first :: rest).length := by
      cases down <;> simp <;> omega
    simp only [List.cons_append, Tables.storeAll, ih, place, Nat.add_assoc]

/-! ## The statement -/

/-- Settles O55: the agreement by `storeEntry_entryBytes`; what is stored of any fields by the entry's bytes cut into its fields, and
each field brought into its range. -/
theorem entriesReadBack : Obligations.EntriesReadBack := by
  delta Obligations.EntriesReadBack
  intro near off beyond
  refine ⟨fun a b t i ha hb inside => ?agree, fun b i v fits => ?cellw, fun b i pint pfrac pmod paux h₁ h₂ h₃ h₄ => ?pitch,
    fun b i unit round hole hide trim h₁ h₂ low high h₄ h₅ => ?calib,
    fun b i start stop reverse run pitch strobe depth clk dir win count limit mask h₁ h₂ h₃ h₄ h₅ h₆ h₇ h₉ h₁₀ h₁₁ h₁₂ h₁₃ => ?scan,
    fun b i mode offset stride width pitch shift policy gap h₁ h₂ h₃ h₄ h₅ h₆ low high h₈ => ?markp,
    fun b i first last pri alt lot enabled h₁ h₂ h₃ h₄ h₅ h₆ => ?lane,
    fun b i addr enabled offset lead guard edge pitch nozzles rotate mirror h₁ h₂ h₃ h₄ h₅ h₆ h₇ h₈ h₉ h₁₀ => ?head,
    fun b i width columns h₁ whole => ?glyph, fun b i size glyph number h₁ h₂ h₃ => ?lot, fun b i v fits => ?notepri,
    fun b t down i entries e => ⟨rfl, storeAll_concat t down entries e b i⟩⟩
  case agree =>
    have stored (b : Tables) := storeEntry_entryBytes ha b inside
    refine ⟨entryBytes_length ha inside, ?_, ?_, ?_, fun t' j inside' other => ?_⟩
    · rw [stored, withEntryOf_self]
    · rw [stored]
    · rw [stored]
      exact entryBytes_withEntryOf_same a hb inside
    · rw [stored]
      exact entryBytes_withEntryOf_other a b inside inside' other
  case cellw =>
    rw [storeEntry_cellw b i fits, keepNat_eq (by decide)]
  case pitch =>
    rw [storeEntry_pitch b i h₁ h₂ h₃ h₄, loadPitch_eq]
    split
    · rfl
    · rfl
  case calib =>
    rw [storeEntry_calib b i h₁ h₂ low high h₄ h₅, loadCalib, keepSet_unit, keepSet_rounding, keepInt_eq (by decide), keepNat_zero]
  case scan =>
    intro first last
    have window : min 2047 start ≤ 2047 := min_le_left _ _
    rw [storeEntry_scan b i h₁ h₂ h₃ h₄ h₅ h₆ h₇ h₉ h₁₀ h₁₁ h₁₂ h₁₃, loadScan, keepNat_zero, keepSet_switch,
      keepNat_eq (by decide : 1 ≤ 32), keepNat_eq (by decide : 500 ≤ 20000), keepNat_eq (by decide : 100 ≤ 10000),
      keepNat_eq (by decide : 2 ≤ 7), keepSet_filterClk, keepSet_encDir, keepNat_eq (by decide : 1 ≤ 64), keepNat_eq (by decide : 2 ≤ 255)]
    simp only [keepNat_eq window, BitVec.ofNat_toNat, BitVec.setWidth_eq]
    rfl
  case markp =>
    rw [storeEntry_markp b i h₁ h₂ h₃ h₄ h₅ h₆ low high h₈, loadMarkp, keepSet_anchorMode, keepNat_zero,
      keepNat_eq (by decide : 1000 ≤ 200000), keepNat_zero, keepNat_eq (by decide : 200 ≤ 5000), keepNat_zero, keepInt_eq (by decide), keepSet_joinPolicy]
  case lane =>
    intro from_ to_ other
    have cells : min 2047 first ≤ 2047 := min_le_left _ _
    rw [storeEntry_lane b i h₁ h₂ h₃ h₄ h₅ h₆, loadLane]
    simp only [keepNat_zero, keepNat_eq cells, loadAlt_eq, keepSet_switch]
    rfl
  case head =>
    intro ahead apart
    have spaced : min 50000 lead ≤ 100000 := (min_le_left _ _).trans (by decide)
    rw [storeEntry_head b i h₁ h₂ h₃ h₄ h₅ h₆ h₇ h₈ h₉ h₁₀, loadHead, keepNat_eq (by decide : 100000 ≤ 4000000),
      keepNat_eq (by decide : 50 ≤ 2000), keepNat_eq (by decide : 16 ≤ 1024)]
    simp only [keepNat_zero, keepNat_eq spaced, keepSet_switch]
    rfl
  case glyph => rw [storeEntry_glyph b i h₁ whole, loadGlyph, keepNat_eq (by decide : 1 ≤ 12)]
  case lot =>
    have stored : max 1 (min 65535 number) = max 1 number := by omega
    rw [storeEntry_lot b i h₁ h₂ h₃, loadLot, keepNat_eq (by decide : 1 ≤ 999), keepOption_eq,
      keepNat_eq (by decide : 1 ≤ 65535), stored]
  case notepri => rw [storeEntry_notepri b i fits, keepNat_zero]

end Sys2Proof.Machine
end

section
/-! PROOFS. The reports: STATUS, COUNTERS and READ_TABLE (O49). -/

namespace Sys2Proof.Machine

/-! ## What STATUS counts and codes (R36, R169, R179, R184; log 36) -/

/-- Two tests that no element passes both of count apart. -/
theorem countP_or_of_disjoint {α : Type} {p q : α → Bool} (disjoint : ∀ a, p a = true → q a = false) (l : List α) :
    l.countP (fun a => p a || q a) = l.countP p + l.countP q := by
  induction l with
  | nil => rfl
  | cons a rest ih =>
    rw [List.countP_cons, List.countP_cons, List.countP_cons, ih]
    cases passes : p a
    · rw [Bool.false_or, if_neg Bool.false_ne_true]
      omega
    · rw [disjoint a passes, Bool.true_or, if_pos rfl, if_neg Bool.false_ne_true]
      omega

/-- A hide that closed and is not yet handed on counts as OPEN (log 36). -/
theorem recordsCounted_open (s : State) :
    s.recordsCounted .isOpen = s.trk.records.countP fun r => decide (r.state = .isOpen ∨ r.state = .closed) := by
  have apart (r : HideRec) (opened : (r.state == .isOpen) = true) : (r.state == .closed) = false := by
    rw [beq_iff_eq.mp opened]
    rfl
  have both : (fun r : HideRec => decide (r.state = .isOpen ∨ r.state = .closed))
      = fun r => r.state == .isOpen || r.state == .closed := funext fun r => by simp [beq_eq_decide]
  rw [both, countP_or_of_disjoint apart]
  rfl

/-- A hide counts in any other state as it stands. -/
theorem recordsCounted_other (s : State) {st : HideState} (other : st ≠ .isOpen) :
    s.recordsCounted st = s.trk.records.countP fun r => decide (r.state = st) := by
  rw [State.recordsCounted, if_neg other]
  rfl

theorem countP_isSome {α : Type} [DecidableEq α] (l : List (Option α)) :
    l.countP Option.isSome = l.countP fun x => decide (x ≠ none) :=
  List.countP_congr fun x _ => by rw [Option.isSome_iff_ne_none, decide_eq_true_iff]

theorem countP_isNone {α : Type} [DecidableEq α] (l : List (Option α)) :
    l.countP Option.isNone = l.countP fun x => decide (x = none) :=
  List.countP_congr fun x _ => by rw [Option.isNone_iff_eq_none, decide_eq_true_iff]

theorem stagedState_byte (st : StagedState) :
    beBytes 1 st.code = [match st with | .clean => 0 | .loading => 1 | .modified => 2 | .torn => 3] := by
  cases st <;> rfl

theorem headState_bytes (st : HeadState) :
    beBytes 1 st.code = match st with | .unknown => [0] | .online => [1] | .offline => [2] := by
  cases st <;> rfl

theorem engine_bytes (engine : Option Service) :
    beBytes 1 (engineCode engine) = match engine with | none => [0] | some sv => [if sv.printing then 2 else 1] := by
  cases engine with
  | none => rfl
  | some sv => cases printing : sv.printing <;> simp [engineCode, printing, beBytes]

theorem loadStatus_eq (load : Option Load) : loadStatus load = match load with
    | some l => beBytes 1 l.table.code ++ beBool l.down ++ beInt 2 l.next ++ beBytes 2 l.due
    | none => [255, 255, 255, 255, 255, 255] := by
  cases load <;> rfl

theorem isEntry_eq : NoteItem.isEntry = fun | .hide _ _ | .lot _ => true | .event _ _ | .head _ => false := by
  funext item
  cases item <;> rfl

/-- The staged states of the ten tables, a byte each (R179). -/
theorem stagedStates_bytes (st : StagedStates) : TableId.all.flatMap (fun t => beBytes 1 (st.get t).code)
    = [st.cellw, st.pitch, st.calib, st.scan, st.markp, st.lane, st.head, st.glyph, st.lot, st.notepri].map
        (fun | .clean => (0 : Byte) | .loading => 1 | .modified => 2 | .torn => 3) := by
  simp only [TableId.all, stagedState_byte, StagedStates.get, List.flatMap_cons, List.flatMap_nil, List.map_cons, List.map_nil,
    List.singleton_append]

/-- The counts of the five states, a byte each, in the order of R36 (R179). -/
theorem recordCounts_bytes (s : State) : HideState.all.flatMap (fun st => beBytes 1 (s.recordsCounted st))
    = beBytes 1 (s.trk.records.countP fun r => decide (r.state = .free))
      ++ beBytes 1 (s.trk.records.countP fun r => decide (r.state = .isOpen ∨ r.state = .closed))
      ++ beBytes 1 (s.trk.records.countP fun r => decide (r.state = .waiting))
      ++ beBytes 1 (s.trk.records.countP fun r => decide (r.state = .marking))
      ++ beBytes 1 (s.trk.records.countP fun r => decide (r.state = .reporting)) := by
  simp only [HideState.all, List.flatMap_cons, List.flatMap_nil, List.append_nil, List.append_assoc, recordsCounted_open,
    recordsCounted_other s (by decide : HideState.free ≠ .isOpen), recordsCounted_other s (by decide : HideState.waiting ≠ .isOpen),
    recordsCounted_other s (by decide : HideState.marking ≠ .isOpen),
    recordsCounted_other s (by decide : HideState.reporting ≠ .isOpen)]

/-- READ_TABLE in form (R174). -/
theorem readAnswer_inForm {s : State} {code bank first count : Nat} {t : TableId} (table : TableId.ofCode code = some t)
    (inBank : bank ≤ 1) (positive : 1 ≤ count) (within : count ≤ t.frameMax) (inside : first + count ≤ t.entries) :
    s.readAnswer code bank first count = {
      status := .ok
      data := beBytes 1 (s.cmd.states.get t).code
        ++ (List.range count).flatMap (fun k => (if bank = 0 then s.cmd.staged else s.cmd.active).entryBytes t (first + k)) } := by
  rw [State.readAnswer, table]
  exact if_neg (by omega)

theorem ofBytes_pair (b₁ b₀ : Byte) : ofBytes [b₁, b₀] = b₁.toNat * 256 + b₀.toNat := by
  simp [ofBytes]

theorem ofBytes_single (b : Byte) : ofBytes [b] = b.toNat := Nat.zero_add _

/-! ## The statement -/

/-- Settles O49: each page of STATUS field by field; COUNTERS and READ_TABLE by their bodies. -/
theorem reportsAnswered : Obligations.ReportsAnswered := by
  unfold Obligations.ReportsAnswered
  refine ⟨fun s bytes f => ?status, fun s bytes f => ?counters,
    fun s bytes f tb bank f₁ f₀ c₁ c₀ t takes table inBank => ?readTable⟩
  case status =>
    intro st counted bit onHeads
    have exec_eq : exec (.status bytes) s = onCommand (· == codeStatus) bytes bodyStatus s := rfl
    have answers {page : Byte} {data : List Byte} {st : Status} (takes : s.Takes bytes f codeStatus [page])
        (answer : (s.executing f).statusAnswer page = { status := st, data := data }) :
        exec (.status bytes) s = .next (s.answered f st data) :=
      exec_eq.trans (onCommand_answered takes (congrArg (fun a => (s.executing f, some a)) answer))
    refine ⟨fun takes => answers takes (congrArg (Answer.mk .ok) ?_), fun takes => answers takes (congrArg (Answer.mk .ok) ?_),
      fun page above takes => answers takes ?_⟩
    · have unit : (s.executing f).cmd = s.cmd := rfl
      rw [State.page0, stagedStates_bytes, loadStatus_eq, unit]
      cases s.cmd.pendingApply with
      | none => rfl
      | some p => rfl
    · rw [State.page1, recordCounts_bytes, countP_isSome, countP_isNone, ReportQueue.used, isEntry_eq]
      simp only [headState_bytes, engine_bytes]
      rfl
    · rw [State.statusAnswer, if_neg (by bv_omega), if_neg (by bv_omega)]
      rfl
  case counters =>
    intro values
    have exec_eq : exec (.counters bytes) s = onCommand (· == codeCounters) bytes bodyCounters s := rfl
    rw [exec_eq]
    exact ⟨fun takes => onCommand_answered takes rfl, fun takes => onCommand_changed takes rfl⟩
  case readTable =>
    intro first count positive within inside
    have exec_eq : exec (.readTable bytes) s = onCommand (· == codeReadTable) bytes bodyReadTable s := rfl
    have staged : (bank.toNat = 0) = (bank = 0) := propext (by bv_omega)
    have answer := readAnswer_inForm (s := s.executing f) table inBank positive within inside
    simp only [staged] at answer
    have body_eq : bodyReadTable f.src [tb, bank, f₁, f₀, c₁, c₀] (s.executing f) = (s.executing f,
        some ((s.executing f).readAnswer (ofBytes [tb]) (ofBytes [bank]) (ofBytes [f₁, f₀]) (ofBytes [c₁, c₀]))) := rfl
    rw [ofBytes_single, ofBytes_single, ofBytes_pair, ofBytes_pair, answer] at body_eq
    rw [exec_eq]
    exact onCommand_answered takes body_eq

end Sys2Proof.Machine
end

section
/-! PROOFS. The load transfers: LOAD_BEGIN, LOAD_DATA and LOAD_END (O50). -/

namespace Sys2Proof.Machine

/-! ## Bytes in and out of form (R168, R171, R184) -/

/-- The fields that bytes are cut into hold all of them. -/
theorem splitFields_joined {ws : List Nat} {bs : List Byte} {fs : List (List Byte)} (split : splitFields ws bs = some fs) :
    fs.flatten = bs := by
  induction ws generalizing bs fs with
  | nil =>
    cases bs with
    | nil => cases split; rfl
    | cons b rest => cases split
  | cons w ws ih =>
    unfold splitFields at split
    split at split
    · cases split
    · obtain ⟨gs, rest, rfl⟩ := Option.map_eq_some_iff.mp split
      rw [List.flatten_cons, ih rest, List.take_append_drop]

/-- Bytes of another length than the fields' are not cut. -/
theorem splitFields_none {ws : List Nat} {bs : List Byte} (length : bs.length ≠ ws.sum) : splitFields ws bs = none := by
  by_contra cut
  obtain ⟨fs, split⟩ := Option.ne_none_iff_exists'.mp cut
  refine length ?_
  rw [← splitFields_joined split, List.length_flatten, splitFields_widths split]

theorem entryLength_pos (t : TableId) : 0 < t.entryLength := by cases t <;> decide

theorem length_flatten_of_entries {n : Nat} {entries : List (List Byte)} (sized : ∀ e ∈ entries, e.length = n) :
    entries.flatten.length = entries.length * n := by
  rw [List.length_flatten, List.map_eq_replicate_iff.mpr sized, List.sum_replicate, smul_eq_mul]

/-- Entries of one length are cut from their bytes as they were. -/
theorem chunks_flatten {n : Nat} {entries : List (List Byte)} (sized : ∀ e ∈ entries, e.length = n) :
    chunks n entries.length entries.flatten = entries := by
  induction entries with
  | nil => rfl
  | cons e rest ih =>
    obtain ⟨length, sized_rest⟩ := List.forall_mem_cons.mp sized
    rw [List.length_cons, List.flatten_cons, chunks, List.take_left' length, List.drop_left' length, ih sized_rest]

/-- A small number's bytes are those of the number taken as a signed one. -/
theorem beInt_natCast {n v : Nat} (fits : v < 256 ^ n) : beInt n v = beBytes n v := by
  have code : ((v : Int) % (256 ^ n : Nat)).toNat = v := by
    rw [← Int.natCast_mod, Int.toNat_natCast, Nat.mod_eq_of_lt fits]
  rw [beInt, code]

/-! ## LOAD_BEGIN in its cases (R150, R170) -/

theorem cancelLoad_some {c : CommandUnit} {l : Load} (load : c.load = some l) :
    c.cancelLoad = { c with load := none, states := c.states.put l.table .torn } := by
  rw [CommandUnit.cancelLoad, load]

/-- The staged states once any load is cancelled (R170). -/
theorem cancelLoad_states (c : CommandUnit) : c.cancelLoad.states = match c.load with
    | some l => c.states.put l.table .torn
    | none => c.states := by
  cases load : c.load with
  | none => rw [cancelLoad_of_none load]
  | some l => rw [cancelLoad_some load]

/-- A load begun, written out: any load before it is gone, and its own is at its first index UP, or its last DOWN (R170). -/
theorem startLoad_eq (c : CommandUnit) (t : TableId) {first count start : Nat} {down : Bool} (nonempty : 1 ≤ count)
    (begins : start = if down = true then first + count - 1 else first) : c.startLoad t first count down = { c with
      states := c.cancelLoad.states.put t .loading
      load := some { table := t, down := down, first := first, count := count, next := start, due := count, last := none
                     wasTorn := decide (c.cancelLoad.states.get t = .torn), clamped := 0 } } := by
  have next : (if down = true then (first : Int) + count - 1 else first) = start := by
    subst begins
    split <;> omega
  have torn : (c.cancelLoad.states.get t == .torn) = decide (c.cancelLoad.states.get t = .torn) := beq_eq_decide _ _
  rw [CommandUnit.startLoad]
  simp only [torn, next]
  rw [cancelLoad_frame c]

theorem loadRangeOk_iff {t : TableId} {first count dir : Nat} :
    loadRangeOk t first count dir = true ↔ 1 ≤ count ∧ first + count ≤ t.entries ∧ dir ≤ 1 := by
  simp [loadRangeOk, Nat.one_le_iff_ne_zero, and_assoc]

section begins
variable {s : State} {code first count dir : Nat}

theorem loadBegin_unknown (unknown : TableId.ofCode code = none) :
    s.loadBegin code first count dir = (s, refusedAnswer .format) := by
  rw [State.loadBegin, unknown]

theorem loadBegin_format {t : TableId} (table : TableId.ofCode code = some t)
    (outside : ¬ (1 ≤ count ∧ first + count ≤ t.entries ∧ dir ≤ 1)) :
    s.loadBegin code first count dir = (s, refusedAnswer .format) := by
  rw [State.loadBegin, table]
  exact if_pos (by simpa using loadRangeOk_iff.not.mpr outside)

variable {t : TableId} (table : TableId.ofCode code = some t) (inForm : 1 ≤ count ∧ first + count ≤ t.entries ∧ dir ≤ 1)
include table inForm

theorem loadBegin_inForm : s.loadBegin code first count dir =
    if s.cmd.pendingApply.isSome then (s, refusedAnswer .busy)
    else if t.verified && !s.ver.lockOpen then (s, refusedAnswer .locked)
    else
      ({ s with cmd := s.cmd.startLoad t first count (dir == 1) },
        { status := .ok, data := indexBytes (if dir = 1 then (first : Int) + count - 1 else first) }) := by
  rw [State.loadBegin, table]
  exact if_neg (by simpa using loadRangeOk_iff.mpr inForm)

theorem loadBegin_busy (pending : s.cmd.pendingApply ≠ none) :
    s.loadBegin code first count dir = (s, refusedAnswer .busy) := by
  rw [loadBegin_inForm table inForm, if_pos (Option.isSome_iff_ne_none.mpr pending)]

variable (unpending : s.cmd.pendingApply = none)
include unpending

theorem loadBegin_locked (verified : t.verified = true) (closed : s.ver.lockOpen = false) :
    s.loadBegin code first count dir = (s, refusedAnswer .locked) := by
  rw [loadBegin_inForm table inForm, unpending, verified, closed]
  rfl

/-- A load begun answers the index it is at (R170). -/
theorem loadBegin_begins (permitted : t.verified = false ∨ s.ver.lockOpen = true) {start : Nat}
    (begins : start = if dir = 1 then first + count - 1 else first) :
    s.loadBegin code first count dir
      = ({ s with cmd := s.cmd.startLoad t first count (dir == 1) }, { status := .ok, data := beBytes 2 start }) := by
  obtain ⟨nonempty, inside, -⟩ := id inForm
  have unlocked : ¬ (t.verified && !s.ver.lockOpen) = true := by
    rcases permitted with unverified | opened
    · simp [unverified]
    · simp [opened]
  have next : (if dir = 1 then (first : Int) + count - 1 else first) = start := by
    subst begins
    split <;> omega
  have fits : start < 256 ^ 2 := by
    have most : t.entries ≤ 2048 := by cases t <;> decide
    subst begins
    split <;> omega
  rw [loadBegin_inForm table inForm, unpending, if_neg unlocked, next, indexBytes, beInt_natCast fits]
  rfl

end begins

/-! ## LOAD_DATA in its cases (R171, R172; logs 24, 26) -/

theorem isRepeat_iff {l : Load} {first n : Nat} : l.isRepeat first n = true
    ↔ ∃ d, l.last = some d ∧ d.first = first ∧ d.entries = n ∧ (first : Int) ≠ l.next := by
  unfold Load.isRepeat
  cases last : l.last with
  | none => simp
  | some d => simp [and_assoc]

section data
variable {s : State} {l : Load}

theorem tearLoad_some (load : s.cmd.load = some l) :
    s.tearLoad = { s with cmd := { s.cmd with load := none, states := s.cmd.states.put l.table .torn } } := by
  rw [State.tearLoad, cancelLoad_some load]

/-- A LOAD_DATA whose entries are ill-formed, or more than a frame holds, ends the load (R171). -/
theorem loadData_illFormed (first : Nat) {bytes : List Byte} (illFormed : bytes.length = 0
      ∨ bytes.length % l.table.entryLength ≠ 0 ∨ l.table.frameMax * l.table.entryLength < bytes.length) :
    s.loadData l first bytes = (s.tearLoad, refusedAnswer .format) := by
  have refused : bytes.length % l.table.entryLength ≠ 0 ∨ bytes.length / l.table.entryLength = 0
      ∨ l.table.frameMax < bytes.length / l.table.entryLength := by
    rcases illFormed with empty | uneven | long
    · exact .inr (.inl (by rw [empty, Nat.zero_div]))
    · exact .inl uneven
    · refine or_iff_not_imp_left.mpr fun even => .inr ?_
      rw [not_not] at even
      rwa [Nat.lt_div_iff_mul_lt_of_dvd (entryLength_pos _).ne' (Nat.dvd_of_mod_eq_zero even)]
  rw [State.loadData]
  exact if_pos refused

variable {first : Nat} {entries : List (List Byte)} (sized : ∀ e ∈ entries, e.length = l.table.entryLength)
  (nonempty : entries ≠ []) (within : entries.length ≤ l.table.frameMax)
include sized nonempty within

/-- A LOAD_DATA of whole entries, judged (R171). -/
theorem loadData_entries : s.loadData l first entries.flatten =
    if l.isRepeat first entries.length then s.repeatData l first entries
    else if l.due < entries.length then (s.tearLoad, refusedAnswer .format)
    else if (first : Int) ≠ l.next then (s.tearLoad, refusedAnswer .sequence)
    else s.takeData l first entries := by
  have length := length_flatten_of_entries sized
  have count : entries.flatten.length / l.table.entryLength = entries.length := by
    rw [length, Nat.mul_div_cancel _ (entryLength_pos _)]
  have even : entries.flatten.length % l.table.entryLength = 0 := by rw [length, Nat.mul_mod_left]
  have inForm : ¬ (entries.flatten.length % l.table.entryLength ≠ 0 ∨ entries.length = 0 ∨ l.table.frameMax < entries.length) := by
    rw [even]
    simp [nonempty, within]
  rw [State.loadData]
  simp only [count, chunks_flatten sized]
  exact if_neg inForm

/-- A repeat writes its entries again and moves nothing; its answer's count is that of the first copy (R171, R172; log 24). -/
theorem loadData_repeat {d : LastData} (last : l.last = some d) (same : d.first = first) (as_many : d.entries = entries.length)
    (elsewhere : (first : Int) ≠ l.next) :
    s.loadData l first entries.flatten = ({ s with cmd := { s.cmd with
        staged := (s.cmd.staged.storeAll l.table l.down first entries).value
        load := some { l with clamped := l.clamped + (s.cmd.staged.storeAll l.table l.down first entries).clamped } } },
      dataAnswer l.next d.clamped) := by
  rw [loadData_entries sized nonempty within, if_pos (isRepeat_iff.mpr ⟨d, last, same, as_many, elsewhere⟩), State.repeatData,
    last]
  rfl

variable (new : ¬ ∃ d, l.last = some d ∧ d.first = first ∧ d.entries = entries.length ∧ (first : Int) ≠ l.next)
include new

/-- A LOAD_DATA at the next index writes its entries and moves on (R171). -/
theorem loadData_taken (due : entries.length ≤ l.due) (next : (first : Int) = l.next) :
    s.loadData l first entries.flatten = s.takeData l first entries := by
  rw [loadData_entries sized nonempty within, if_neg (isRepeat_iff.not.mpr new), if_neg (not_lt.mpr due),
    if_neg (not_not.mpr next)]

/-- One with more entries than are due, or out of sequence, ends the load (R171). -/
theorem loadData_ends (refused : l.due < entries.length ∨ (first : Int) ≠ l.next) :
    s.loadData l first entries.flatten
      = (s.tearLoad, refusedAnswer (if l.due < entries.length then .format else .sequence)) := by
  rw [loadData_entries sized nonempty within, if_neg (isRepeat_iff.not.mpr new)]
  split
  · rfl
  next enough => exact if_pos (refused.resolve_left enough)

end data

/-! ## LOAD_DATA's arguments (R168, R171, R183; log 26) -/

section arguments
variable {s : State} {src : Nat} {args : List Byte}

theorem bodyLoadData_noload (load : s.cmd.load = none) (enough : 3 ≤ args.length) :
    bodyLoadData src args s = (s, some (refusedAnswer .noload)) := by
  match args, enough with
  | _ :: _ :: _ :: _, _ => simp only [bodyLoadData, load]

theorem bodyLoadData_short (load : s.cmd.load = none) (short : args.length < 3) :
    bodyLoadData src args s = (s, some (refusedAnswer .format)) := by
  match args, short with
  | [], _ | [_], _ | [_, _], _ => simp only [bodyLoadData, load]

variable {l : Load} (src) (load : s.cmd.load = some l)
include load

theorem bodyLoadData_load (i₁ i₀ : Byte) (bytes : List Byte) :
    bodyLoadData src (i₁ :: i₀ :: bytes) s = atOnce (s.loadData l (ofBytes [i₁, i₀]) bytes) := by
  simp only [bodyLoadData, load]

/-- Within a load, one too short to hold an entry, or ill-formed, ends the load (R171; log 26). -/
theorem bodyLoadData_illFormed (illFormed : args.length - 2 = 0 ∨ (args.length - 2) % l.table.entryLength ≠ 0
      ∨ l.table.frameMax * l.table.entryLength < args.length - 2) :
    bodyLoadData src args s = (s.tearLoad, some (refusedAnswer .format)) := by
  match args with
  | [] | [_] => simp only [bodyLoadData, load]
  | i₁ :: i₀ :: bytes => rw [bodyLoadData_load src load, loadData_illFormed _ illFormed]; rfl

end arguments

/-! ## The staged state that a load leaves (R173) -/

theorem completed_eq {l : Load} : l.completed
    = if l.wasTorn = false ∨ l.count = l.table.entries then .modified else .torn := by
  rw [Load.completed]
  cases l.wasTorn <;> simp

/-! ## The statement -/

/-- Settles O50: the three commands by their cases. -/
theorem loadsTransfer : Obligations.LoadsTransfer := by
  refine ⟨fun s bytes f args takes => ?loadBegin, fun s bytes f args takes => ?loadData, fun s bytes f takes => ?loadEnd⟩
  case loadBegin =>
    have exec_eq : exec (.loadBegin bytes) s = onCommand (· == codeLoadBegin) bytes bodyLoadBegin s := rfl
    rw [exec_eq]
    refine ⟨fun misshaped => ?_, fun tb f₁ f₀ c₁ c₀ dir args_eq => ?_⟩
    · have body_eq : bodyLoadBegin f.src args (s.executing f) = (s.executing f, some (refusedAnswer .format)) := by
        rw [bodyLoadBegin, splitFields_none misshaped]
      exact onCommand_answered takes body_eq
    subst args_eq
    intro first count start states
    have body_eq : bodyLoadBegin f.src [tb, f₁, f₀, c₁, c₀, dir] (s.executing f)
        = atOnce ((s.executing f).loadBegin tb.toNat first count dir.toNat) := by
      have first_eq : first = ofBytes [f₁, f₀] := (ofBytes_pair f₁ f₀).symm
      have count_eq : count = ofBytes [c₁, c₀] := (ofBytes_pair c₁ c₀).symm
      rw [first_eq, count_eq, ← ofBytes_single tb, ← ofBytes_single dir]
      rfl
    have refused {st : Status}
        (h : (s.executing f).loadBegin tb.toNat first count dir.toNat = (s.executing f, refusedAnswer st)) :
        onCommand (· == codeLoadBegin) bytes bodyLoadBegin s = .next (s.answered f st []) :=
      onCommand_answered takes (body_eq.trans (congrArg atOnce h))
    refine ⟨fun outside => refused ?_, fun t table => ⟨fun beyond => refused ?_, fun nonempty inside oneOf => ?_⟩⟩
    · cases table : TableId.ofCode tb.toNat with
      | none => exact loadBegin_unknown table
      | some t =>
        have outside := outside.resolve_left (by simp [table])
        exact loadBegin_format table (by omega)
    · exact loadBegin_format table (by omega)
    have inForm : 1 ≤ count ∧ first + count ≤ t.entries ∧ dir.toNat ≤ 1 := ⟨nonempty, inside, oneOf⟩
    refine ⟨fun pending => refused (loadBegin_busy table inForm pending),
      fun unpending verified closed => refused (loadBegin_locked table inForm unpending verified closed),
      fun unpending permitted => ?_⟩
    have down_iff : dir.toNat = 1 ↔ dir = 1 := by bv_omega
    have down : (dir.toNat == 1) = decide (dir = 1) := (beq_eq_decide _ _).trans (decide_eq_decide.mpr down_iff)
    have begun := loadBegin_begins (s := s.executing f) table inForm unpending permitted (if_congr down_iff.symm rfl rfl : start = _)
    have unit := startLoad_eq s.cmd t nonempty (if_congr decide_eq_true_iff.symm rfl rfl : start = _)
    rw [cancelLoad_states] at unit
    rw [down] at begun
    have changed := onCommand_changed (t := { s with cmd := s.cmd.startLoad t first count (decide (dir = 1)) }) takes
      (body_eq.trans (congrArg atOnce begun))
    rwa [unit] at changed
  case loadData =>
    have exec_eq : exec (.loadData bytes) s = onCommand (· == codeLoadData) bytes bodyLoadData s := rfl
    rw [exec_eq]
    refine ⟨fun load enough => ?_, fun load short => ?_, fun l load => ?_⟩
    · exact onCommand_answered takes (bodyLoadData_noload (s := s.executing f) load enough)
    · exact onCommand_answered takes (bodyLoadData_short (s := s.executing f) load short)
    intro torn size
    have tears : (s.executing f).tearLoad = torn.executing f := tearLoad_some (s := s.executing f) load
    refine ⟨fun illFormed => ?_, fun i₁ i₀ entries args_eq sized nonempty within => ?_⟩
    · have refused := bodyLoadData_illFormed f.src (s := s.executing f) load illFormed
      rw [tears] at refused
      exact onCommand_changed takes refused
    subst args_eq
    intro first n w next repeated
    have body_eq : bodyLoadData f.src (i₁ :: i₀ :: entries.flatten) (s.executing f)
        = atOnce ((s.executing f).loadData l first entries.flatten) := by
      have first_eq : first = ofBytes [i₁, i₀] := (ofBytes_pair i₁ i₀).symm
      rw [first_eq]
      exact bodyLoadData_load f.src (s := s.executing f) load i₁ i₀ entries.flatten
    refine ⟨fun new due at_next => ?_, fun d last same as_many elsewhere => ?_, fun new refused => ?_⟩
    · have taken := loadData_taken (s := s.executing f) sized nonempty within new due at_next
      exact onCommand_changed takes (body_eq.trans (congrArg atOnce taken))
    · have again := loadData_repeat (s := s.executing f) sized nonempty within last same as_many elsewhere
      exact onCommand_changed takes (body_eq.trans (congrArg atOnce again))
    · have ends := loadData_ends (s := s.executing f) sized nonempty within new refused
      rw [tears] at ends
      exact onCommand_changed takes (body_eq.trans (congrArg atOnce ends))
  case loadEnd =>
    have exec_eq : exec (.loadEnd bytes) s = onCommand (· == codeLoadEnd) bytes bodyLoadEnd s := rfl
    have body_eq : bodyLoadEnd f.src [] (s.executing f) = atOnce (s.executing f).loadEnd := rfl
    rw [exec_eq]
    refine ⟨fun load => ?_, fun l load => ?_⟩
    · exact onCommand_answered takes (body_eq.trans (congrArg atOnce (loadEnd_none (s := s.executing f) load)))
    intro left
    by_cases due : l.due = 0
    · have left_eq : l.completed = left := by
        rw [completed_eq]
        exact if_congr (by simp [due]) rfl rfl
      have done := loadEnd_complete (s := s.executing f) load due
      rw [left_eq] at done
      rw [if_neg (not_not.mpr due), if_pos due, List.append_nil]
      exact onCommand_changed takes (body_eq.trans (congrArg atOnce done))
    · have left_eq : left = .torn := if_neg fun complete => due complete.1
      have done := loadEnd_torn (s := s.executing f) load due
      rw [tearLoad_some (s := s.executing f) load] at done
      rw [if_pos due, if_neg due, left_eq]
      exact onCommand_changed takes (body_eq.trans (congrArg atOnce done))

end Sys2Proof.Machine
end
